-- ==== Sys2Proof/Word.lean ====
section
/-! DEFINITION. The plain value types of the part: bytes, codes, line and channel numbers, levels and ports. -/

namespace Sys2Proof

/-- A link byte, or an 8-bit office character (R180, Terms). -/
abbrev Byte := BitVec 8

/-- A five-level code by its value 0..31 (R2). -/
abbrev Code := Fin 32

/-- A line number 0..15 (R17). -/
abbrev LineNo := Fin 16

/-- A loop channel 0..31 (R32): 0..15 the receive loops, 16..31 the send loops. -/
abbrev ChannelNo := Fin 32

/-- A set of lines as sixteen bits, bit n for line n (R180). -/
abbrev LineSet := BitVec 16

/-- The two line levels (Terms). -/
inductive Level where
  | mark
  | space
  deriving DecidableEq, Repr

namespace Level

/-- The opposite level. -/
def other : Level → Level
  | .mark => .space
  | .space => .mark

end Level

/-- The two desk ports (R168). -/
inductive Port where
  | a
  | b
  deriving DecidableEq, Repr

namespace Port

/-- The port at the other desk. -/
def other : Port → Port
  | .a => .b
  | .b => .a

end Port

end Sys2Proof
end

