-- ==== Sys2Proof/Syntax.lean ====
section
/-! DEFINITION. The commands of the block: one constructor of `Instr` for each row of spec/opcode_table.json.
The table gives the rows no operands, so the operands are the model's (log 5, 6, 8, 20). -/

namespace Sys2Proof

/-- What a desk command's frame brings beside its COMMAND byte: the rate R measured from its SYNC (R169) and the payload
bytes in the layout of R181. -/
structure CommandFrame where
  rate : Nat
  payload : List Byte
  deriving DecidableEq, Repr

/-- The rows of the table. -/
inductive Instr where
  /-- POWER_ON: power applied, or the reset pin asserted (R17, R168, R187 and the power-on columns). -/
  | powerOn
  /-- CLOCK_SECOND: the millisecond phase reaches 1,000 (R188). -/
  | clockSecond
  /-- RAW_LEVEL_CHANGE: at `tick` the current at a loop pin becomes `current` microamperes (R34, R35, R36). -/
  | rawLevelChange (channel : ChannelNo) (current : Int) (tick : Nat)
  /-- PENDING_CHANGE_COMPLETE: the pending change of the line's receive channel has lasted its F (R36). -/
  | pendingChangeComplete (line : LineNo)
  /-- START_CHECK (R51). -/
  | startCheck (line : LineNo)
  /-- ELEMENT_SAMPLE: the next code element of the character in progress (R52). -/
  | elementSample (line : LineNo)
  /-- STOP_SAMPLE (R53). -/
  | stopSample (line : LineNo)
  /-- SPACE_COUNT_EXPIRY (R61). -/
  | spaceCountExpiry (line : LineNo)
  /-- IDLE_GAP_EXPIRY (R83). -/
  | idleGapExpiry (line : LineNo)
  /-- BELL_TONE_END (R189). -/
  | bellToneEnd
  /-- BELL_GAP_END (R189). -/
  | bellGapEnd
  /-- CONVERSION_END (R38). -/
  | conversionEnd
  /-- GUARD_TIMER_EXPIRY (R165). -/
  | guardTimerExpiry (line : LineNo)
  /-- START_DELAY_EXPIRY (R157). -/
  | startDelayExpiry (line : LineNo)
  /-- STOP_DELAY_EXPIRY (R158). -/
  | stopDelayExpiry (line : LineNo)
  /-- FRAME_END (R155). -/
  | frameEnd (line : LineNo)
  /-- FRAME_COMPLETE: the stop sample of the CHECK byte; `changes` are the ticks at which the receive data line has changed
  since the byte's start edge, `level` its level after the last of them (R170, R171). -/
  | frameComplete (port : Port) (level : Level) (changes : List Nat)
  /-- GAP_TIMER_EXPIRY (R170). -/
  | gapTimerExpiry (port : Port)
  /-- RESPONSE_END (R172). -/
  | responseEnd (port : Port)
  /-- SILENCE_TIMER_EXPIRY (R176). -/
  | silenceTimerExpiry (port : Port)
  /-- UNKNOWN_COMMAND: a frame whose COMMAND byte is `code` (R173). -/
  | unknownCommand (port : Port) (code : Byte) (frame : CommandFrame)
  /-- STATUS (R174). -/
  | status (port : Port) (frame : CommandFrame)
  /-- SET_CLOCK (R188). -/
  | setClock (port : Port) (frame : CommandFrame)
  /-- SET_PORT (R175). -/
  | setPort (port : Port) (frame : CommandFrame)
  /-- SET_STORE_LIMITS (R98). -/
  | setStoreLimits (port : Port) (frame : CommandFrame)
  /-- SET_ROOM_OPTIONS (R191). -/
  | setRoomOptions (port : Port) (frame : CommandFrame)
  /-- RESUME (R194). -/
  | resume (port : Port) (frame : CommandFrame)
  /-- FETCH_NOTICES (R178). -/
  | fetchNotices (port : Port) (frame : CommandFrame)
  /-- CONFIGURE_LINE (R20). -/
  | configureLine (port : Port) (frame : CommandFrame)
  /-- READ_LINE (R21). -/
  | readLine (port : Port) (frame : CommandFrame)
  /-- LINE_CONTROL with action 0 RESET (R30); the frame holds the payload without its action byte. -/
  | lineControlReset (port : Port) (frame : CommandFrame)
  /-- LINE_CONTROL with action 1 HOLD (R162); the frame holds the payload without its action byte. -/
  | lineControlHold (port : Port) (frame : CommandFrame)
  /-- LINE_CONTROL with action 2 RESUME (R163); the frame holds the payload without its action byte. -/
  | lineControlResume (port : Port) (frame : CommandFrame)
  /-- LOAD_TABLE (R13). -/
  | loadTable (port : Port) (frame : CommandFrame)
  /-- READ_TABLE (R16). -/
  | readTable (port : Port) (frame : CommandFrame)
  /-- LIST_STORIES (R110). -/
  | listStories (port : Port) (frame : CommandFrame)
  /-- READ_STORY (R109). -/
  | readStory (port : Port) (frame : CommandFrame)
  /-- OPEN_STORY (R104). -/
  | openStory (port : Port) (frame : CommandFrame)
  /-- APPEND_TEXT (R105). -/
  | appendText (port : Port) (frame : CommandFrame)
  /-- SUBMIT_STORY (R116). -/
  | submitStory (port : Port) (frame : CommandFrame)
  /-- WITHDRAW_STORY (R128). -/
  | withdrawStory (port : Port) (frame : CommandFrame)
  /-- RETAIN_STORY (R107). -/
  | retainStory (port : Port) (frame : CommandFrame)
  /-- RELEASE_STORY (R108). -/
  | releaseStory (port : Port) (frame : CommandFrame)
  /-- DISCARD_STORY (R106). -/
  | discardStory (port : Port) (frame : CommandFrame)
  /-- FRAME_START: a change from mark to space at tick `edge`, the line at space for `run` ticks; `changes` are the ticks at
  which the receive data line has changed after that run, `level` its level after the last of them (R169). -/
  | frameStart (port : Port) (edge run : Nat) (level : Level) (changes : List Nat)
  /-- BYTE_START_EDGE: a mark-to-space change at tick `edge` (R170). -/
  | byteStartEdge (port : Port) (edge : Nat)
  /-- BYTE_STOP_SAMPLE: the stop sample of a byte other than CHECK; `changes` are the ticks at which the receive data line
  has changed since the byte's start edge, `level` its level after the last of them (R170). -/
  | byteStopSample (port : Port) (level : Level) (changes : List Nat)
  /-- KEY_LEVEL_CHANGE: the next element boundary of the frame in progress (R154). -/
  | keyLevelChange (line : LineNo)
  deriving DecidableEq, Repr

end Sys2Proof
end

