-- ==== Sys2Proof/Config.lean ====
section
/-! DEFINITION. The fixed numbers of the part. The spec leaves no value free (INVENTORY, What the manual leaves open), so no
constant here is opaque. -/

namespace Sys2Proof.Config

/-- Reference ticks in a millisecond (R1). -/
def ticksPerMs : Nat := 4096
/-- Milliseconds in a second (R1). -/
def msPerSecond : Nat := 1000
/-- Seconds in a day (R188). -/
def secondsPerDay : Nat := 86400
/-- Day numbers (R188). -/
def dayNumbers : Nat := 65536
/-- Ticks of one conversion (R38). -/
def conversionTicks : Nat := 512
/-- Ticks of the gap timer, 10 ms (R170). -/
def gapTicks : Nat := 40960
/-- Cells of the pool (R88). -/
def cellCount : Nat := 4096
/-- Character places of a cell (R88). -/
def cellPlaces : Nat := 32
/-- The story cap (R80). -/
def storyCap : Nat := 16384
/-- Entries a line's queue can hold (R113). -/
def queueRoom : Nat := 32
/-- Entries a suspended stack can hold (R113). -/
def stackRoom : Nat := 2
/-- Notices a port's queue can hold (R177). -/
def noticeRoom : Nat := 48
/-- Milliseconds of a bell tone, and of a bell gap (R189). -/
def bellMs : Nat := 250
/-- The slowest and fastest accepted SYNC run in ticks (R169). -/
def minRun : Nat := 64
def maxRun : Nat := 3840
/-- The longest payload a frame can announce (R171). -/
def maxPayload : Nat := 250

end Sys2Proof.Config
end

