-- ==== Sys2Proof/Machine/Types.lean ====
section
/-! DEFINITION. The types State is made of, block by block, in the words of the chapters that own them. -/

namespace Sys2Proof.Machine

/-! ## Time -/

/-- A running timer of the 1 ms base: when it was loaded, and with how many milliseconds (R1). -/
structure Timer where
  loadedAt : Nat
  ms : Nat
  deriving DecidableEq, Repr

/-- A stamp: day number and second of day (R188). -/
structure Stamp where
  day : Nat
  second : Nat
  deriving DecidableEq, Repr

/-! ## Code tables (chapter 1) -/

/-- The two cases of a table (R4). -/
inductive Case where
  | letters
  | figures
  deriving DecidableEq, Repr

/-- The kinds of a forward entry (R5). -/
inductive Kind where
  | print
  | space
  | cr
  | lf
  | ltrs
  | figs
  | bell
  | blank
  | ignore
  deriving DecidableEq, Repr

/-- A forward entry: kind, and the office character as the slot holds it (R5, R13). -/
structure Entry where
  kind : Kind
  char : Byte
  deriving DecidableEq, Repr

/-- The content of a table slot (R7). The reverse map is derived from it (R9, R10). -/
structure Table where
  fold : Bool
  letters : Vector Entry 32
  figures : Vector Entry 32
  deriving DecidableEq, Repr

/-! ## Line records (chapter 2) -/

/-- A line's mode (R19). -/
inductive Mode where
  | off
  | inbound
  | outbound
  | both
  deriving DecidableEq, Repr

/-- Keying of a loop (R19). -/
inductive Keying where
  | neutral
  | polar
  deriving DecidableEq, Repr

/-- Framing of a line (R19). -/
inductive Framing where
  | framed
  | continuous
  deriving DecidableEq, Repr

/-- Input filter setting: 0, 0.25, 0.5 or 1 ms (R19). -/
inductive FilterTime where
  | none
  | quarter
  | half
  | one
  deriving DecidableEq, Repr

/-- Priorities, FLASH highest (Terms). -/
inductive Priority where
  | flash
  | bulletin
  | urgent
  | routine
  | deferred
  deriving DecidableEq, Repr

/-- Preempt threshold (R19). -/
inductive PreemptThreshold where
  | off
  | flash
  | bulletin
  deriving DecidableEq, Repr

/-- Unrepresentable policy (R19). -/
inductive UnrepPolicy where
  | substitute
  | drop
  deriving DecidableEq, Repr

/-- Break-in policy (R19). -/
inductive BreakPolicy where
  | auto
  | hold
  deriving DecidableEq, Repr

/-- A line record, field by field in the order of R17. -/
structure LineRecord where
  mode : Mode
  keying : Keying
  unit : Nat
  stopLength : Nat
  inputFilter : FilterTime
  markThreshold : Nat
  openThreshold : Nat
  lowThreshold : Nat
  slot : Fin 4
  rxUnshift : Bool
  framing : Framing
  opening : List Byte
  closing : List Byte
  idleGap : Nat
  defaultPriority : Priority
  priorityLetters : Vector Byte 5
  distortionLimit : Nat
  poorThreshold : Nat
  goodThreshold : Nat
  markDoubtful : Bool
  doubtfulSubstitute : Byte
  openTime : Nat
  txUnshift : Bool
  width : Nat
  crCount : Nat
  ltrsFill : Nat
  refreshInterval : Nat
  unrepPolicy : UnrepPolicy
  unrepSubstitute : Byte
  flashBells : Nat
  bulletinBells : Nat
  separation : Nat
  preempt : PreemptThreshold
  motorControl : Bool
  startDelay : Nat
  stopDelay : Nat
  breakPolicy : BreakPolicy
  breakGuard : Nat
  alarmOnOpen : Bool
  deriving DecidableEq, Repr

/-- A send copy: the fields of R26. -/
structure SendCopy where
  keying : Keying
  unit : Nat
  stopLength : Nat
  slot : Fin 4
  framing : Framing
  opening : List Byte
  closing : List Byte
  txUnshift : Bool
  width : Nat
  crCount : Nat
  ltrsFill : Nat
  refreshInterval : Nat
  unrepPolicy : UnrepPolicy
  unrepSubstitute : Byte
  flashBells : Nat
  bulletinBells : Nat
  separation : Nat
  deriving DecidableEq, Repr

/-! ## Loop sensing (chapter 3) -/

/-- Loop states (R32). -/
inductive LoopState where
  | unmeasured
  | normal
  | low
  | opened
  deriving DecidableEq, Repr

/-- Classes of a reading (R41). -/
inductive LoopClass where
  | normal
  | low
  | opened
  deriving DecidableEq, Repr

/-- Classification state of one channel (R32). -/
structure LoopChannel where
  loop : LoopState
  candidate : Option LoopClass
  run : Nat
  deriving DecidableEq, Repr

/-- A pending change of level: the level, the tick it first appeared, and the filter time it began with (R36). -/
structure PendingChange where
  level : Level
  since : Nat
  filter : Nat
  deriving DecidableEq, Repr

/-- The input filter of an active receive channel (R36). -/
structure InputFilter where
  level : Level
  pending : Option PendingChange
  deriving DecidableEq, Repr

/-- A conversion in progress: channel, begin tick, held current in microamperes, and whether its reading is to be
discarded (R38, R40). -/
structure Conversion where
  channel : ChannelNo
  start : Nat
  current : Int
  void : Bool
  deriving DecidableEq, Repr

/-- The one converter (R32). -/
structure Converter where
  position : ChannelNo
  conversion : Option Conversion
  deriving DecidableEq, Repr

/-! ## Character reception (chapter 4) -/

/-- The settings a character keeps from its start edge (R24, R47). -/
structure CharSettings where
  unit : Nat
  limit : Nat
  poor : Nat
  good : Nat
  deriving DecidableEq, Repr

/-- A character in progress: start tick, settings, whether the start check has confirmed it, element levels so far and the
largest deviation so far (R47, R50, R51). -/
structure Character where
  start : Nat
  settings : CharSettings
  confirmed : Bool
  elements : List Level
  deviation : Nat
  deriving DecidableEq, Repr

/-- Receiver states (R47); the character's working state is held exactly in IN_CHARACTER. -/
inductive RxState where
  | disabled
  | idleMark
  | inCharacter (char : Character)
  | spaceHold
  | opened
  deriving DecidableEq, Repr

/-- Quality states (R59). -/
inductive Quality where
  | good
  | poor
  deriving DecidableEq, Repr

/-- A level with the tick it took effect (R47). -/
structure LevelSince where
  level : Level
  since : Nat
  deriving DecidableEq, Repr

/-- A running space count: begin tick, and the effective open time it runs for (R60). -/
structure SpaceCount where
  begun : Nat
  openTime : Nat
  deriving DecidableEq, Repr

/-- A line's receive side (R47). -/
structure Receiver where
  state : RxState
  level : Option LevelSince
  space : Option SpaceCount
  distortion : Nat
  quality : Nat
  qualityState : Quality
  deriving DecidableEq, Repr

/-! ## Stories (chapter 6) -/

/-- A handle: index and generation (R92). -/
structure Handle where
  index : Fin 256
  generation : Fin 16
  deriving DecidableEq, Repr

/-- Where a story comes from (R91). -/
inductive Origin where
  | line (l : LineNo)
  | desk (p : Port)
  deriving DecidableEq, Repr

/-- States of a record that is not FREE (R91). -/
inductive StoryState where
  | assembling
  | composing
  | complete
  deriving DecidableEq, Repr

/-- A set of ports (R91). -/
structure PortSet where
  a : Bool
  b : Bool
  deriving DecidableEq, Repr

/-- The fields of a record that is not FREE (R91). `chain` lists the story's cells from head to tail. -/
structure Story where
  state : StoryState
  origin : Origin
  priority : Priority
  truncated : Bool
  unterminated : Bool
  length : Nat
  chain : List Nat
  doubtful : Nat
  openedStamp : Stamp
  closedStamp : Option Stamp
  holder : Option Port
  interest : PortSet
  pending : LineSet
  deriving DecidableEq, Repr

/-- A story record: its generation, and its story unless it is FREE (R91). -/
structure StoryRecord where
  generation : Fin 16
  story : Option Story
  deriving DecidableEq, Repr

/-- The text of the cells: the place p of cell c has the address 32 * c + p (R88). -/
structure Memory where
  cells : List Host.Cell
  deriving DecidableEq, Repr

/-- The story store (R88, R91, R98, R99, R103). -/
structure Store where
  records : Vector StoryRecord 256
  text : Memory
  freeList : List Nat
  freeCount : Nat
  deskReserve : Nat
  reclaimMark : Nat
  poolLow : Bool
  exhausted : Bool
  deriving DecidableEq, Repr

/-! ## Assembly (chapter 5) -/

/-- A held or arriving character with its doubtful mark (R66). -/
structure Held where
  char : Byte
  doubtful : Bool
  deriving DecidableEq, Repr

/-- Assembly states; the open story and its priority-decided mark are held exactly in IN_STORY (R66). -/
inductive AsmState where
  | between
  | inStory (story : Handle) (decided : Bool)
  | skipping
  deriving DecidableEq, Repr

/-- A line's assembler (R66). -/
structure Assembler where
  decoderCase : Case
  state : AsmState
  held : List Held
  idleGap : Option Timer
  deriving DecidableEq, Repr

/-! ## Distribution (chapter 7) -/

/-- Who placed a story on a line (R113). -/
inductive Submitter where
  | port (p : Port)
  | room
  deriving DecidableEq, Repr

/-- A distribution entry (R113). -/
structure DistEntry where
  handle : Handle
  priority : Priority
  submitter : Submitter
  resumeOffset : Nat
  lineStart : Nat
  substitutions : Nat
  deriving DecidableEq, Repr

/-- Phases of a transmission (R113). -/
inductive Phase where
  | preamble
  | text
  | postamble
  deriving DecidableEq, Repr

/-- The current transmission (R113). Its position is its entry's resume offset. -/
structure Transmission where
  entry : DistEntry
  phase : Phase
  withdrawn : Bool
  deriving DecidableEq, Repr

/-- A line's distribution unit (R113). The head of `stack` is its top. -/
structure Distribution where
  queue : List DistEntry
  stack : List DistEntry
  current : Option Transmission
  deriving DecidableEq, Repr

/-! ## Encoding (chapter 8) -/

/-- Encoder cases (R133). -/
inductive EncCase where
  | letters
  | figures
  | unknown
  deriving DecidableEq, Repr

/-- Items of the preamble and the postamble (R136, R137), each a group of its own; one per separation line feed (log 33). -/
inductive FrameItem where
  | char (c : Byte)
  | newline
  | lineFeed
  deriving DecidableEq, Repr

/-- What the handing of a group's last code is (R135, R139, R143). -/
inductive GroupEnd where
  | nothing
  | printLineEnd
  | postambleEnd
  deriving DecidableEq, Repr

/-- A line's encoder/formatter (R133). -/
structure Encoder where
  encCase : EncCase
  column : Nat
  refresh : Nat
  group : List Code
  groupEnd : GroupEnd
  progress : Option (List FrameItem)
  owed : Bool
  copy : Option SendCopy
  deriving DecidableEq, Repr

/-! ## Sending (chapter 9) -/

/-- Send states (R153). -/
inductive SendState where
  | off
  | stopped
  | starting
  | idle
  | sending
  | halted
  deriving DecidableEq, Repr

/-- A code frame in progress (R154): element 0 is the start element, 1 to 5 the code elements, 6 the stop element. -/
structure CodeFrame where
  code : Code
  start : Nat
  unit : Nat
  stopLength : Nat
  keying : Keying
  element : Nat
  deriving DecidableEq, Repr

/-- A line's send side (R153). -/
structure SendSide where
  state : SendState
  motor : Bool
  deskHold : Bool
  breakIn : Bool
  holdWaiting : Bool
  startDelay : Option Timer
  stopDelay : Option Timer
  guard : Option Timer
  frame : Option CodeFrame
  key : Level
  deriving DecidableEq, Repr

/-- All that belongs to one line, with the currents on its two loop pins in microamperes. -/
structure Line where
  record : LineRecord
  rxCurrent : Int
  txCurrent : Int
  rxLoop : LoopChannel
  txLoop : LoopChannel
  filter : Option InputFilter
  rx : Receiver
  asm : Assembler
  dist : Distribution
  enc : Encoder
  send : SendSide
  deriving DecidableEq, Repr

/-! ## Desk ports (chapter 10) -/

/-- Causes of STORY_DISCARDED (R97). -/
inductive DiscardCause where
  | discard
  | reclaim
  deriving DecidableEq, Repr

/-- Outcomes of a distribution (R127). -/
inductive DistOutcome where
  | completed
  | withdrawn
  | abandoned
  | notQueued
  deriving DecidableEq, Repr

/-- The sides of a line (R184). -/
inductive Side where
  | receive
  | send
  deriving DecidableEq, Repr

/-- Receiver states as reported (R182). -/
inductive RxReport where
  | disabled
  | idleMark
  | inCharacter
  | spaceHold
  | opened
  deriving DecidableEq, Repr

/-- What a LINE_STATE reports (R184). -/
inductive LineReport where
  | receiver (v : RxReport)
  | quality (v : Quality)
  | loop (v : LoopState)
  | breakIn (isSet : Bool)
  deriving DecidableEq, Repr

/-- Notices (R184). -/
inductive Notice where
  | storyArriving (line : LineNo) (story : Handle) (priority : Priority)
  | storyClosed (line : LineNo) (story : Handle) (priority : Priority) (truncated unterminated : Bool) (length : Nat)
  | storyDiscarded (origin : Origin) (story : Handle) (cause : DiscardCause) (priority : Priority) (length : Nat)
  | inboundLost (line : LineNo)
  | distributionEnd (line : LineNo) (story : Handle) (outcome : DistOutcome) (substitutions : Nat)
  | lineState (line : LineNo) (side : Side) (report : LineReport)
  | poolLow (free : Nat)
  | poolRecovered (free : Nat)
  | portSilent (port : Port)
  | unattendedBegin
  | unattendedEnd
  deriving DecidableEq, Repr

/-- Link receiver states (R168). -/
inductive LinkState where
  | hunting
  | inFrame
  deriving DecidableEq, Repr

/-- Silence states (R168). -/
inductive Silence where
  | untimed
  | active
  | silent
  deriving DecidableEq, Repr

/-- A good frame that is held or taken: COMMAND byte and the rest (R171). -/
structure GoodFrame where
  code : Byte
  frame : CommandFrame
  deriving DecidableEq, Repr

/-- A response being sent: all its bytes from SYNC to CHECK, its rate, and the tick its first byte began (R172). -/
structure Response where
  bytes : List Byte
  rate : Nat
  start : Nat
  deriving DecidableEq, Repr

/-- A desk port (R168). `huntFrom` is the tick at which HUNTING last began, `gapFrom` the stop sample the gap timer runs from,
`byteStart` the start edge of the byte being received (R169, R170). -/
structure DeskPort where
  link : LinkState
  huntFrom : Nat
  rate : Option Nat
  received : List Byte
  byteStart : Option Nat
  gapFrom : Option Nat
  held : Option GoodFrame
  response : Option Response
  interval : Nat
  silence : Silence
  silenceTimer : Option Timer
  interest : LineSet
  noticeMask : BitVec 11
  notices : List Notice
  overflow : Bool
  deriving DecidableEq, Repr

/-! ## The room (chapter 11) -/

/-- The day clock (R187, R188). -/
structure DayClock where
  day : Nat
  second : Nat
  millis : Nat
  isSet : Bool
  deriving DecidableEq, Repr

/-- Bell phases, with the timer of TONE and GAP (R187). -/
inductive BellPhase where
  | quiet
  | tone (timer : Timer)
  | gap (timer : Timer)
  deriving DecidableEq, Repr

/-- Bell frequencies (R191). -/
inductive BellTone where
  | hz500
  | hz1000
  | hz2000
  | hz4000
  deriving DecidableEq, Repr

/-- The bell unit (R187, R189). -/
structure Bell where
  remaining : Nat
  phase : BellPhase
  tone : Option BellTone
  deriving DecidableEq, Repr

/-- The room options (R191). -/
structure RoomOptions where
  monitors : LineSet
  sources : LineSet
  bound : Priority
  tone : BellTone
  bellCounts : Vector Nat 5
  deriving DecidableEq, Repr

/-- The room controller (R187). The STORE_EXHAUSTED input and the loop-open inputs are read where they are held. -/
structure Room where
  clock : DayClock
  bell : Bell
  unattended : Bool
  options : RoomOptions
  deriving DecidableEq, Repr

end Sys2Proof.Machine
end

