-- ==== Sys2Proof/Machine/Defaults.lean ====
section
/-! DEFINITION. The built-in contents: the fixed table of R6 and the power-on line record of R17. -/

namespace Sys2Proof.Machine

/-- The fixed table of slot 0, fold on (R6). -/
def fixedTable : Table where
  fold := true
  letters := #v[
    ⟨.blank, 0x00⟩, ⟨.print, 0x45⟩, ⟨.lf, 0x0A⟩, ⟨.print, 0x41⟩,
    ⟨.space, 0x20⟩, ⟨.print, 0x53⟩, ⟨.print, 0x49⟩, ⟨.print, 0x55⟩,
    ⟨.cr, 0x00⟩, ⟨.print, 0x44⟩, ⟨.print, 0x52⟩, ⟨.print, 0x4A⟩,
    ⟨.print, 0x4E⟩, ⟨.print, 0x46⟩, ⟨.print, 0x43⟩, ⟨.print, 0x4B⟩,
    ⟨.print, 0x54⟩, ⟨.print, 0x5A⟩, ⟨.print, 0x4C⟩, ⟨.print, 0x57⟩,
    ⟨.print, 0x48⟩, ⟨.print, 0x59⟩, ⟨.print, 0x50⟩, ⟨.print, 0x51⟩,
    ⟨.print, 0x4F⟩, ⟨.print, 0x42⟩, ⟨.print, 0x47⟩, ⟨.figs, 0x00⟩,
    ⟨.print, 0x4D⟩, ⟨.print, 0x58⟩, ⟨.print, 0x56⟩, ⟨.ltrs, 0x00⟩]
  figures := #v[
    ⟨.blank, 0x00⟩, ⟨.print, 0x33⟩, ⟨.lf, 0x0A⟩, ⟨.print, 0x2D⟩,
    ⟨.space, 0x20⟩, ⟨.print, 0x27⟩, ⟨.print, 0x38⟩, ⟨.print, 0x37⟩,
    ⟨.cr, 0x00⟩, ⟨.ignore, 0x00⟩, ⟨.print, 0x34⟩, ⟨.bell, 0x07⟩,
    ⟨.print, 0x2C⟩, ⟨.ignore, 0x00⟩, ⟨.print, 0x3A⟩, ⟨.print, 0x28⟩,
    ⟨.print, 0x35⟩, ⟨.print, 0x2B⟩, ⟨.print, 0x29⟩, ⟨.print, 0x32⟩,
    ⟨.ignore, 0x00⟩, ⟨.print, 0x36⟩, ⟨.print, 0x30⟩, ⟨.print, 0x31⟩,
    ⟨.print, 0x39⟩, ⟨.print, 0x3F⟩, ⟨.ignore, 0x00⟩, ⟨.figs, 0x00⟩,
    ⟨.print, 0x2E⟩, ⟨.print, 0x2F⟩, ⟨.print, 0x3D⟩, ⟨.ltrs, 0x00⟩]

/-- The power-on line record (R17). -/
def defaultRecord : LineRecord where
  mode := .off
  keying := .neutral
  unit := 90112
  stopLength := 24
  inputFilter := .quarter
  markThreshold := 26
  openThreshold := 8
  lowThreshold := 36
  slot := 0
  rxUnshift := true
  framing := .framed
  opening := [0x5A, 0x43, 0x5A, 0x43]
  closing := [0x4E, 0x4E, 0x4E, 0x4E]
  idleGap := 120
  defaultPriority := .routine
  priorityLetters := #v[0x46, 0x42, 0x55, 0x52, 0x44]
  distortionLimit := 35
  poorThreshold := 48
  goodThreshold := 24
  markDoubtful := false
  doubtfulSubstitute := 0x3F
  openTime := 1500
  txUnshift := true
  width := 69
  crCount := 2
  ltrsFill := 1
  refreshInterval := 0
  unrepPolicy := .substitute
  unrepSubstitute := 0x3F
  flashBells := 3
  bulletinBells := 1
  separation := 4
  preempt := .flash
  motorControl := false
  startDelay := 1500
  stopDelay := 90
  breakPolicy := .hold
  breakGuard := 3
  alarmOnOpen := false

/-- A channel whose side is absent, just added or just reset (R33, R43). -/
def unmeasuredChannel : LoopChannel := { loop := .unmeasured, candidate := none, run := 0 }

/-- A removed receive side, and the power-on one (R47). -/
def disabledReceiver : Receiver where
  state := .disabled
  level := none
  space := none
  distortion := 0
  quality := 0
  qualityState := .good

/-- The assembler after power-on, reset, addition and removal (R66). -/
def freshAssembler : Assembler := { decoderCase := .letters, state := .between, held := [], idleGap := none }

/-- The distribution unit after power-on, reset, addition and removal (R113). -/
def freshDistribution : Distribution := { queue := [], stack := [], current := none }

/-- The encoder/formatter after power-on, reset, addition and removal (R133). -/
def freshEncoder : Encoder where
  encCase := .unknown
  column := 0
  refresh := 0
  group := []
  groupEnd := .nothing
  progress := none
  owed := false
  copy := none

/-- The send side after power-on and removal (R153). -/
def offSendSide : SendSide where
  state := .off
  motor := false
  deskHold := false
  breakIn := false
  holdWaiting := false
  startDelay := none
  stopDelay := none
  guard := none
  frame := none
  key := .mark

/-- A line after power-on, with no current on its pins. -/
def powerOnLine : Line where
  record := defaultRecord
  rxCurrent := 0
  txCurrent := 0
  rxLoop := unmeasuredChannel
  txLoop := unmeasuredChannel
  filter := none
  rx := disabledReceiver
  asm := freshAssembler
  dist := freshDistribution
  enc := freshEncoder
  send := offSendSide

/-- The store after power-on (R88, R91, R98, R99, R103). -/
def powerOnStore : Store where
  records := Vector.replicate 256 { generation := 0, story := none }
  text := { cells := [] }
  freeList := List.range' 0 Config.cellCount
  freeCount := Config.cellCount
  deskReserve := 256
  reclaimMark := 128
  poolLow := false
  exhausted := false

/-- A desk port after power-on (R168). -/
def powerOnPort : DeskPort where
  link := .hunting
  huntFrom := 0
  rate := none
  received := []
  byteStart := none
  gapFrom := none
  held := none
  response := none
  interval := 0
  silence := .untimed
  silenceTimer := none
  interest := 0
  noticeMask := 0x7FF
  notices := []
  overflow := false

/-- The room controller after power-on (R187, R191). -/
def powerOnRoom : Room where
  clock := { day := 0, second := 0, millis := 0, isSet := false }
  bell := { remaining := 0, phase := .quiet, tone := none }
  unattended := false
  options :=
    { monitors := 0, sources := 0xFFFF, bound := .bulletin, tone := .hz1000, bellCounts := #v[5, 3, 0, 0, 0] }

end Sys2Proof.Machine
end

