-- ==== Sys2Proof/Machine/State.lean ====
section
/-! DEFINITION. The state of the part, the reasons a step can stop, and the state after power-on. -/

namespace Sys2Proof.Machine

/-- Reasons for a fault. The spec names nothing that stops the part, so there is none: no meaning raises a fault. -/
inductive Fault where
  deriving DecidableEq, Repr

/-- Reasons for a refusal. -/
inductive Refusal where
  /-- A command that has no meaning yet; raised by `exec` alone, and safe: nothing is claimed about it. No arm raises it. -/
  | notModelled (mnemonic : String)
  deriving DecidableEq, Repr

/-- The part. `tick` counts REFCLK since power-on (R1); `pending` is the queue of commands that wait. -/
structure State where
  tick : Nat
  lines : Vector Line 16
  converter : Converter
  tables : Vector Table 4
  store : Store
  portA : DeskPort
  portB : DeskPort
  room : Room
  pending : List Instr
  deriving DecidableEq, Repr

/-- The part after power-on or the reset pin (R7, R17, R32, R47, R66, R88, R91, R98, R113, R133, R153, R168, R187). -/
def State.reset : State where
  tick := 0
  lines := Vector.replicate 16 powerOnLine
  converter := { position := 31, conversion := none }
  tables := Vector.replicate 4 fixedTable
  store := powerOnStore
  portA := powerOnPort
  portB := powerOnPort
  room := powerOnRoom
  pending := []

end Sys2Proof.Machine
end

