-- ==== Sys2Proof/Machine/Tables.lean ====
section
/-! DEFINITION. Lookups in a code table: forward entries, the reverse map with folding, the distinguished codes, and the
validity of an offered table (R5, R8 to R12). -/

namespace Sys2Proof.Machine

/-- The number of a kind (R5). -/
def Kind.number : Kind → Nat
  | .print => 0
  | .space => 1
  | .cr => 2
  | .lf => 3
  | .ltrs => 4
  | .figs => 5
  | .bell => 6
  | .blank => 7
  | .ignore => 8

/-- The kind of a number; a number above 8 is undefined (R5). -/
def Kind.ofNumber : Nat → Option Kind
  | 0 => some .print
  | 1 => some .space
  | 2 => some .cr
  | 3 => some .lf
  | 4 => some .ltrs
  | 5 => some .figs
  | 6 => some .bell
  | 7 => some .blank
  | 8 => some .ignore
  | _ => none

/-- The office character an entry produces (R5). -/
def Entry.produces (e : Entry) : Option Byte :=
  match e.kind with
  | .print => some e.char
  | .space => some 0x20
  | .lf => some 0x0A
  | .bell => some 0x07
  | .cr => none
  | .ltrs => none
  | .figs => none
  | .blank => none
  | .ignore => none

/-- An entry as a slot takes it: a PRINT entry keeps its character, every other kind has the one it produces, or 0x00
(R13). -/
def Entry.taken (e : Entry) : Entry :=
  match e.kind with
  | .print => e
  | _ => { e with char := e.produces.getD 0x00 }

/-- The 32 entries of a case (R4). -/
def Table.entries (t : Table) : Case → Vector Entry 32
  | .letters => t.letters
  | .figures => t.figures

/-- The forward lookup (R8). -/
def Table.entry (t : Table) (c : Case) (k : Code) : Entry := (t.entries c).get k

/-- The lowest code whose entry in a case satisfies a test. -/
def Table.lowest (t : Table) (c : Case) (test : Entry → Bool) : Option Code :=
  ((t.entries c).toList.findIdx? test).map (Fin.ofNat 32)

/-- The lowest code that produces x in a case, before folding (R9). -/
def Table.ownCode (t : Table) (c : Case) (x : Byte) : Option Code :=
  t.lowest c fun e => e.produces == some x

/-- A lower-case letter (R10). -/
def isLowerCase (x : Byte) : Bool := decide (0x61 ≤ x.toNat) && decide (x.toNat ≤ 0x7A)

/-- The character whose own entries serve x: its capital when x folds, else x (R10). -/
def Table.folded (t : Table) (x : Byte) : Byte :=
  if t.fold && isLowerCase x && (t.ownCode .letters x).isNone && (t.ownCode .figures x).isNone then x - 0x20 else x

/-- The reverse map: Lc and Fc after folding (R9, R10). -/
def Table.reverse (t : Table) (c : Case) (x : Byte) : Option Code := t.ownCode c (t.folded x)

/-- The common space, when Lc and Fc of 0x20 are the same code (R11). -/
def Table.commonSpace (t : Table) : Option Code :=
  match t.reverse .letters 0x20, t.reverse .figures 0x20 with
  | some k, some j => if k = j then some k else none
  | _, _ => none

/-- The lowest CR code of a case (R140). -/
def Table.crCode (t : Table) (c : Case) : Option Code := t.lowest c fun e => e.kind == .cr

/-- The lowest code whose entry has a kind in both cases (R140). -/
def Table.commonOfKind (t : Table) (k : Kind) : Option Code :=
  ((t.letters.toList.zip t.figures.toList).findIdx? fun p => p.1.kind == k && p.2.kind == k).map (Fin.ofNat 32)

/-- The LTRS code (R11). -/
def Table.ltrsCode (t : Table) : Option Code := t.commonOfKind .ltrs

/-- The FIGS code (R11). -/
def Table.figsCode (t : Table) : Option Code := t.commonOfKind .figs

/-- How many codes have a kind in a case. -/
def Table.count (t : Table) (c : Case) (k : Kind) : Nat := (t.entries c).toList.countP fun e => e.kind == k

/-- Exactly one code has the kind in each case, and it is the same code (R12, conditions 1 and 2). -/
def Table.oneShift (t : Table) (k : Kind) : Bool :=
  decide (t.count .letters k = 1) && decide (t.count .figures k = 1) && (t.commonOfKind k).isSome

/-- The kind appears in both cases (R12, conditions 3 to 5). -/
def Table.inBoth (t : Table) (k : Kind) : Bool :=
  decide (1 ≤ t.count .letters k) && decide (1 ≤ t.count .figures k)

/-- A PRINT entry with a character that R12, condition 6, forbids. -/
def Entry.badPrint (e : Entry) : Bool :=
  e.kind == .print && (e.char == 0x0A || e.char == 0x0D || e.char == 0x07)

/-- Validity of an offered table (R12). -/
def Table.valid (t : Table) : Bool :=
  t.oneShift .ltrs && t.oneShift .figs && t.inBoth .space && t.inBoth .cr && t.inBoth .lf
    && !(t.letters.toList.any Entry.badPrint) && !(t.figures.toList.any Entry.badPrint)

/-- Code element k (1..5) of a code is mark (R2). -/
def codeMarks (c : Code) (k : Nat) : Bool := c.val.testBit (k - 1)

/-- The level of element k of a code frame: 0 the start element, 1..5 the code elements, 6 the stop element (R2, R3). -/
def elementLevel (c : Code) (k : Nat) : Level :=
  if k = 0 then .space
  else if k ≤ 5 then (if codeMarks c k then .mark else .space)
  else .mark

/-- The value of element levels in order, element 1 first (R2). -/
def elementsValue : List Level → Nat
  | [] => 0
  | .mark :: rest => 1 + 2 * elementsValue rest
  | .space :: rest => 2 * elementsValue rest

/-- The code of sampled elements (R2, R52). -/
def elementsCode (es : List Level) : Code := Fin.ofNat 32 (elementsValue es)

end Sys2Proof.Machine
end

