-- ==== Sys2Proof/Machine/Flags.lean ====
section
/-! DEFINITION. Flags and outputs that follow from the state, and the small encodings they use: line-set and port-set
membership, raw levels, alarm causes, attention and the pins. -/

namespace Sys2Proof.Machine

/-! ## Sets and modes -/

/-- All lines, ascending. -/
def allLines : List LineNo := [0, 1, 2, 3, 4, 5, 6, 7, 8, 9, 10, 11, 12, 13, 14, 15]

/-- A line is in a set (R180). -/
def lineIn (s : LineSet) (l : LineNo) : Bool := s.getLsbD l.val

/-- The set of one line. -/
def lineBit (l : LineNo) : LineSet := BitVec.twoPow 16 l.val

/-- A set with a line added. -/
def addLine (s : LineSet) (l : LineNo) : LineSet := s ||| lineBit l

/-- A set with a line removed. -/
def dropLine (s : LineSet) (l : LineNo) : LineSet := s &&& ~~~(lineBit l)

/-- The lines of a set, ascending. -/
def linesOf (s : LineSet) : List LineNo := allLines.filter (lineIn s)

/-- A port is in a set. -/
def PortSet.has (s : PortSet) : Port → Bool
  | .a => s.a
  | .b => s.b

/-- A set with a port added. -/
def PortSet.add (s : PortSet) : Port → PortSet
  | .a => { s with a := true }
  | .b => { s with b := true }

/-- A set with a port removed. -/
def PortSet.drop (s : PortSet) : Port → PortSet
  | .a => { s with a := false }
  | .b => { s with b := false }

/-- The empty set of ports. -/
def PortSet.empty : PortSet := { a := false, b := false }

/-- The ports of a set, A first. -/
def PortSet.ports (s : PortSet) : List Port := (if s.a then [.a] else []) ++ (if s.b then [.b] else [])

/-- A mode with a receive side (R17). -/
def Mode.hasReceive : Mode → Bool
  | .off => false
  | .inbound => true
  | .outbound => false
  | .both => true

/-- A mode with a send side (R17). -/
def Mode.hasSend : Mode → Bool
  | .off => false
  | .inbound => false
  | .outbound => true
  | .both => true

/-- The mode with the given sides. -/
def Mode.ofSides (receive send : Bool) : Mode :=
  match receive, send with
  | false, false => .off
  | true, false => .inbound
  | false, true => .outbound
  | true, true => .both

/-- The sides two modes share: the mode between the removal and the addition of a mode change (R29, log 12). -/
def Mode.meet (m n : Mode) : Mode := Mode.ofSides (m.hasReceive && n.hasReceive) (m.hasSend && n.hasSend)

/-! ## Priorities -/

/-- The number of a priority, FLASH 0 (Terms). -/
def Priority.number : Priority → Nat
  | .flash => 0
  | .bulletin => 1
  | .urgent => 2
  | .routine => 3
  | .deferred => 4

/-- The priority's place among the five. -/
def Priority.index : Priority → Fin 5
  | .flash => 0
  | .bulletin => 1
  | .urgent => 2
  | .routine => 3
  | .deferred => 4

/-- The priority of a number; above 4 is undefined (R19, R104). -/
def Priority.ofNumber : Nat → Option Priority
  | 0 => some .flash
  | 1 => some .bulletin
  | 2 => some .urgent
  | 3 => some .routine
  | 4 => some .deferred
  | _ => none

/-- The first priority is strictly higher than the second (Terms). -/
def Priority.above (p q : Priority) : Bool := decide (p.number < q.number)

/-- The head priorities a preempt threshold lets through (R123). -/
def PreemptThreshold.admits : PreemptThreshold → Priority → Bool
  | .off, _ => false
  | .flash, p => decide (p.number = 0)
  | .bulletin, p => decide (p.number ≤ 1)

/-! ## Timing of a record -/

/-- The effective open time in ticks (R22). -/
def LineRecord.effectiveOpen (r : LineRecord) : Nat := max (r.openTime * Config.ticksPerMs) (10 * r.unit)

/-- The filter time F in ticks (R36). -/
def FilterTime.ticks : FilterTime → Nat
  | .none => 0
  | .quarter => 1024
  | .half => 2048
  | .one => 4096

/-! ## Loop currents (chapter 3); a current is a whole number of microamperes -/

/-- The comparator's raw level (R34, R35): I * 256 / 100 in milliamperes against the mark threshold, or the direction. -/
def LineRecord.rawLevel (r : LineRecord) (current : Int) : Level :=
  match r.keying with
  | .neutral => if (r.markThreshold : Int) * 100000 ≤ current * 256 then .mark else .space
  | .polar => if 0 < current then .mark else .space

/-- The raw level of a line's receive channel. -/
def Line.rawLevel (x : Line) : Level := x.record.rawLevel x.rxCurrent

/-- The converter's reading of a held current (R40). -/
def reading (current : Int) : Nat := min (current.natAbs * 256 / 100000) 255

/-- The class of a reading of one side's channel under a record (R41). -/
def LineRecord.classOf (r : LineRecord) (side : Side) (value : Nat) : LoopClass :=
  if value < r.openThreshold then
    (if side = .receive ∧ r.keying = .neutral then .low else .opened)
  else if value < r.lowThreshold then .low
  else .normal

/-- The loop state of a class. -/
def LoopClass.state : LoopClass → LoopState
  | .normal => .normal
  | .low => .low
  | .opened => .opened

/-- One classified reading acting on a channel (R42). -/
def LoopChannel.classified (c : LoopChannel) (k : LoopClass) : LoopChannel :=
  if k.state = c.loop then { c with candidate := none, run := 0 }
  else if c.candidate = some k then
    (if c.run + 1 = 3 then { loop := k.state, candidate := none, run := 0 } else { c with run := c.run + 1 })
  else { c with candidate := some k, run := 1 }

/-! ## A line's work and keying -/

/-- The line has work: a current transmission, or an entry in queue or stack (R119, R153). -/
def Distribution.hasWork (d : Distribution) : Bool := d.current.isSome || !d.queue.isEmpty || !d.stack.isEmpty

/-- The keying the send side is keying with (R23, R26). -/
def Line.sendKeying (x : Line) : Keying :=
  match x.send.frame, x.enc.copy with
  | some f, _ => f.keying
  | none, some c => c.keying
  | none, none => x.record.keying

/-- The halt causes are empty (R159). -/
def SendSide.noCause (x : SendSide) : Bool := !x.deskHold && !x.breakIn

/-! ## Records of the store -/

/-- The number of FREE records (R91). -/
def Store.freeRecords (x : Store) : Nat := x.records.toList.countP fun r => r.story.isNone

/-- Some record is FREE. -/
def Store.someFree (x : Store) : Bool := x.records.toList.any fun r => r.story.isNone

/-- The condition under which STORE_EXHAUSTED clears (R103). -/
def Store.exhaustionOver (x : Store) : Bool := decide (x.reclaimMark < x.freeCount) && x.someFree

/-! ## Alarm (R190), attention (R177) and the other outputs -/

/-- The loop-open inputs of a line: receiver, receive loop, send loop (R187, R190). -/
def Line.loopOpenInputs (x : Line) : Bool × Bool × Bool :=
  (decide (x.rx.state = .opened), decide (x.rxLoop.loop = .opened), decide (x.txLoop.loop = .opened))

/-- The line gives the cause LOOP_OPEN (R190). -/
def Line.givesLoopOpen (x : Line) : Bool :=
  x.record.alarmOnOpen && (x.loopOpenInputs.1 || x.loopOpenInputs.2.1 || x.loopOpenInputs.2.2)

/-- The alarm cause LOOP_OPEN (R190). -/
def State.loopOpenCause (s : State) : Bool := s.lines.toList.any Line.givesLoopOpen

/-- The alarm output ALARM#: asserted while some cause holds (R190). -/
def State.alarm (s : State) : Bool := s.room.unattended || s.store.exhausted || s.loopOpenCause

/-- A port's attention output (R177). -/
def DeskPort.attention (p : DeskPort) : Bool := !p.notices.isEmpty || p.overflow

/-- Currents a send loop's key outputs carry: on KEYPn, and on KEYNn (R153). -/
def Line.keyOutputs (x : Line) : Bool × Bool :=
  match x.send.key, x.sendKeying with
  | .mark, _ => (true, false)
  | .space, .neutral => (false, false)
  | .space, .polar => (false, true)

/-- The bell tone output: a tone only in TONE (R189). -/
def Bell.output (b : Bell) : Option BellTone :=
  match b.phase with
  | .tone _ => b.tone
  | .quiet => none
  | .gap _ => none

/-- The level of bit position n of a link byte: start bit, data bits least significant first, stop bit (R170, R172). -/
def linkBit (x : Byte) (n : Nat) : Level :=
  if n = 0 then .space
  else if n ≤ 8 then (if x.getLsbD (n - 1) then .mark else .space)
  else .mark

/-- The level at a tick of a receive data line whose last changes fell on the ticks `changes` and left it at `level`: each
change turned the level over, from its own tick on (R169, R170; log 20). -/
def dataLevel (level : Level) (changes : List Nat) (t : Nat) : Level :=
  if (changes.countP fun c => decide (t < c)) % 2 = 0 then level else level.other

/-- The tick at which bit position n of a byte is sampled, its start edge at a tick: floor((2n+1)R/16) after it (R170). -/
def bitSampleTick (edge rate n : Nat) : Nat := edge + (2 * n + 1) * rate / 16

/-- The level sampled at bit position n of a byte (R169, R170). -/
def bitSample (edge rate : Nat) (level : Level) (changes : List Nat) (n : Nat) : Level :=
  dataLevel level changes (bitSampleTick edge rate n)

/-- The byte that the samples of positions 1 to 8 give, least significant bit first (R170). -/
def sampledByte (edge rate : Nat) (level : Level) (changes : List Nat) : Byte :=
  BitVec.ofNat 8 (elementsValue ((List.range' 1 8).map (bitSample edge rate level changes)))

/-- The ticks one byte of a response takes (R172). -/
def byteTicks (rate : Nat) : Nat := 10 * rate / 8

/-- The tick at which a response's last stop bit ends (R172). -/
def Response.endTick (r : Response) : Nat := r.start + r.bytes.length * byteTicks r.rate

/-- The bit position a byte of a response is at, `into` ticks after the byte began: the last position n with
floor(n * R / 8) at or before it (R172). -/
def bitAt (rate into : Nat) : Nat := ((List.range' 0 10).filter fun n => decide (n * rate / 8 ≤ into)).length - 1

/-- The level of the transmit data line at a tick (R172). -/
def DeskPort.transmitLevel (p : DeskPort) (tick : Nat) : Level :=
  match p.response with
  | none => .mark
  | some r =>
    match r.bytes[(tick - r.start) / byteTicks r.rate]? with
    | none => .mark
    | some x => linkBit x (bitAt r.rate ((tick - r.start) % byteTicks r.rate))

end Sys2Proof.Machine
end

