-- ==== Sys2Proof/Machine/Memory.lean ====
section
/-! DEFINITION. The cell pool's text as a canonical list of addressed bytes (R88). Address of place p of cell c: 32 * c + p. -/

namespace Sys2Proof.Machine

/-- What a place that nothing has written reads as (log 13). No command can show it (R89). -/
def unwritten : Byte := 0

/-- Reading one address in a cell list. -/
def readCells : List Host.Cell → Nat → Byte
  | [], _ => unwritten
  | (k, v) :: rest, a => if k = a then v else readCells rest a

/-- Writing one address in a cell list that rises strictly. -/
def writeCells : List Host.Cell → Nat → Byte → List Host.Cell
  | [], a, x => if x = unwritten then [] else [(a, x)]
  | (k, v) :: rest, a, x =>
    if a < k then (if x = unwritten then (k, v) :: rest else (a, x) :: (k, v) :: rest)
    else if a = k then (if x = unwritten then rest else (a, x) :: rest)
    else (k, v) :: writeCells rest a x

/-- All addresses of the list lie above `a`. -/
def cellsAbove (a : Nat) (cells : List Host.Cell) : Bool := cells.all fun c => decide (a < c.1)

/-- The canonical form: addresses strictly rising, no entry equal to the unwritten byte. -/
def cellsWf : List Host.Cell → Bool
  | [] => true
  | (k, v) :: rest => decide (v ≠ unwritten) && cellsAbove k rest && cellsWf rest

/-- The byte at an address. -/
def Memory.read (m : Memory) (a : Nat) : Byte := readCells m.cells a

/-- The memory with a byte written at an address. -/
def Memory.write (m : Memory) (a : Nat) (x : Byte) : Memory := { cells := writeCells m.cells a x }

/-- The memory is in its canonical form. -/
def Memory.wf (m : Memory) : Bool := cellsWf m.cells

/-- The address of position p of a story whose chain is `chain` (R109): place p mod 32 of its cell number p / 32. -/
def textAddress (chain : List Nat) (p : Nat) : Nat :=
  chain.getD (p / Config.cellPlaces) 0 * Config.cellPlaces + p % Config.cellPlaces

/-- The character at position p of a story (R109). -/
def Memory.charAt (m : Memory) (chain : List Nat) (p : Nat) : Byte := m.read (textAddress chain p)

/-- `count` characters from position p on (R109). -/
def Memory.charsFrom (m : Memory) (chain : List Nat) : Nat → Nat → List Byte
  | _, 0 => []
  | p, count + 1 => m.charAt chain p :: m.charsFrom chain (p + 1) count

/-- Characters written from position p on (R79, R105). -/
def Memory.putChars (m : Memory) (chain : List Nat) : Nat → List Byte → Memory
  | _, [] => m
  | p, c :: cs => (m.write (textAddress chain p) c).putChars chain (p + 1) cs

end Sys2Proof.Machine
end

