-- ==== Sys2Proof/Machine/Ops.lean ====
section
/-! DEFINITION. The shared operations over the state: time, access to lines, ports and records, posting a notice, and the
story store's allocation, freeing and reclamation. -/

namespace Sys2Proof.Machine

/-! ## Time (R1, R188) -/

/-- The tick at which a timer expires: the ms-th edge of the 1 ms base after its load; 0 expires at its load (R1). -/
def Timer.due (t : Timer) : Nat :=
  if t.ms = 0 then t.loadedAt else (t.loadedAt / Config.ticksPerMs + t.ms) * Config.ticksPerMs

/-- The day clock after so many edges of the 1 ms base (R188). -/
def DayClock.run (c : DayClock) (edges : Nat) : DayClock where
  day := (c.day + (c.second + (c.millis + edges) / Config.msPerSecond) / Config.secondsPerDay) % Config.dayNumbers
  second := (c.second + (c.millis + edges) / Config.msPerSecond) % Config.secondsPerDay
  millis := (c.millis + edges) % Config.msPerSecond
  isSet := c.isSet

/-- The edges of the 1 ms base in the ticks after `t0` up to `t1` (R1). -/
def edgesBetween (t0 t1 : Nat) : Nat := t1 / Config.ticksPerMs - t0 / Config.ticksPerMs

/-- Time runs on to a tick, and the day clock with it; a tick already reached changes nothing. -/
def State.advanceTo (s : State) (t : Nat) : State :=
  if t ≤ s.tick then s
  else { s with tick := t, room := { s.room with clock := s.room.clock.run (edgesBetween s.tick t) } }

/-- A timed event: not taken where its moment does not exist; else time runs on to its moment and it acts (log 1, 3). -/
def State.whenDue (s : State) (due : Option Nat) (act : State → State) : State :=
  match due with
  | none => s
  | some d => act (s.advanceTo d)

/-- A timer loaded now with milliseconds. -/
def State.timerMs (s : State) (ms : Nat) : Timer := { loadedAt := s.tick, ms := ms }

/-- A timer loaded now with seconds (R1). -/
def State.timerS (s : State) (seconds : Nat) : Timer := s.timerMs (seconds * Config.msPerSecond)

/-- The day clock's stamp now (R188). -/
def State.stamp (s : State) : Stamp := { day := s.room.clock.day, second := s.room.clock.second }

/-! ## Access -/

/-- A line. -/
def State.line (s : State) (l : LineNo) : Line := s.lines.get l

/-- The state with one line changed. -/
def State.modLine (s : State) (l : LineNo) (f : Line → Line) : State :=
  { s with lines := s.lines.set l.val (f (s.line l)) }

/-- The state with one line's receive side changed. -/
def State.modRx (s : State) (l : LineNo) (f : Receiver → Receiver) : State :=
  s.modLine l fun x => { x with rx := f x.rx }

/-- The state with one line's assembler changed. -/
def State.modAsm (s : State) (l : LineNo) (f : Assembler → Assembler) : State :=
  s.modLine l fun x => { x with asm := f x.asm }

/-- The state with one line's distribution unit changed. -/
def State.modDist (s : State) (l : LineNo) (f : Distribution → Distribution) : State :=
  s.modLine l fun x => { x with dist := f x.dist }

/-- The state with one line's encoder/formatter changed. -/
def State.modEnc (s : State) (l : LineNo) (f : Encoder → Encoder) : State :=
  s.modLine l fun x => { x with enc := f x.enc }

/-- The state with one line's send side changed. -/
def State.modSend (s : State) (l : LineNo) (f : SendSide → SendSide) : State :=
  s.modLine l fun x => { x with send := f x.send }

/-- A desk port. -/
def State.port (s : State) : Port → DeskPort
  | .a => s.portA
  | .b => s.portB

/-- The state with one port changed. -/
def State.modPort (s : State) (p : Port) (f : DeskPort → DeskPort) : State :=
  match p with
  | .a => { s with portA := f s.portA }
  | .b => { s with portB := f s.portB }

/-- The state with the store changed. -/
def State.modStore (s : State) (f : Store → Store) : State := { s with store := f s.store }

/-- The state with the room controller changed. -/
def State.modRoom (s : State) (f : Room → Room) : State := { s with room := f s.room }

/-- A story record. -/
def State.record (s : State) (i : Fin 256) : StoryRecord := s.store.records.get i

/-- The state with one record replaced. -/
def State.setRecord (s : State) (i : Fin 256) (r : StoryRecord) : State :=
  s.modStore fun x => { x with records := x.records.set i.val r }

/-- The story a handle names, when the handle is current (R92). -/
def State.storyOf (s : State) (h : Handle) : Option Story :=
  if (s.record h.index).generation = h.generation then (s.record h.index).story else none

/-- The state with the story of a current handle changed; a stale handle changes nothing. -/
def State.modStory (s : State) (h : Handle) (f : Story → Story) : State :=
  match s.storyOf h with
  | none => s
  | some x => s.setRecord h.index { generation := h.generation, story := some (f x) }

/-- The handle a record has now. -/
def State.handleAt (s : State) (i : Fin 256) : Handle := { index := i, generation := (s.record i).generation }

/-! ## Notices (R177) -/

/-- The kind code of a notice (10.5). -/
def Notice.kind : Notice → Nat
  | .storyArriving _ _ _ => 1
  | .storyClosed _ _ _ _ _ _ => 2
  | .storyDiscarded _ _ _ _ _ => 3
  | .inboundLost _ => 4
  | .distributionEnd _ _ _ _ => 5
  | .lineState _ _ _ => 6
  | .poolLow _ => 7
  | .poolRecovered _ => 8
  | .portSilent _ => 9
  | .unattendedBegin => 10
  | .unattendedEnd => 11

/-- A notice posted to a port: masked, queued, or dropped with the overflow flag set (R177). -/
def DeskPort.post (p : DeskPort) (n : Notice) : DeskPort :=
  if p.noticeMask.getLsbD (n.kind - 1) = false then p
  else if p.notices.length < Config.noticeRoom then { p with notices := p.notices ++ [n] }
  else { p with overflow := true }

/-- A notice posted to one port. -/
def State.post (s : State) (p : Port) (n : Notice) : State := s.modPort p fun x => x.post n

/-- A notice posted to both ports. -/
def State.postBoth (s : State) (n : Notice) : State := (s.post .a n).post .b n

/-- A notice posted to the ports of a set. -/
def State.postSet (s : State) (ps : PortSet) (n : Notice) : State :=
  let s := if ps.a then s.post .a n else s
  if ps.b then s.post .b n else s

/-- A notice posted to a submitter: both ports for ROOM (R127). -/
def State.postSubmitter (s : State) (w : Submitter) (n : Notice) : State :=
  match w with
  | .port p => s.post p n
  | .room => s.postBoth n

/-- LINE_STATE posted to both ports. -/
def State.postLine (s : State) (l : LineNo) (side : Side) (r : LineReport) : State := s.postBoth (.lineState l side r)

/-! ## The store's marks (R99, R103) -/

/-- The pool-low mark judged against the free count (R99). -/
def State.judgePool (s : State) : State :=
  if s.store.poolLow = false ∧ s.store.freeCount ≤ s.store.deskReserve then
    (s.modStore fun x => { x with poolLow := true }).postBoth (.poolLow s.store.freeCount)
  else if s.store.poolLow = true ∧ s.store.deskReserve < s.store.freeCount then
    (s.modStore fun x => { x with poolLow := false }).postBoth (.poolRecovered s.store.freeCount)
  else s

/-- STORE_EXHAUSTED cleared when its condition is over (R103). -/
def State.judgeExhausted (s : State) : State :=
  if s.store.exhausted && s.store.exhaustionOver then s.modStore fun x => { x with exhausted := false } else s

/-- STORE_EXHAUSTED raised (R103). -/
def State.raiseExhausted (s : State) : State := s.modStore fun x => { x with exhausted := true }

/-! ## Freeing (R90, R96, R97) -/

/-- A record made FREE and its chain returned to the tail of the free list (R97, steps 1 and 2). -/
def Store.release (x : Store) (i : Fin 256) (st : Story) : Store :=
  { x with
    freeList := x.freeList ++ st.chain
    freeCount := x.freeCount + st.chain.length
    records := x.records.set i.val { generation := (x.records.get i).generation + 1, story := none } }

/-- A freeing by the steps of R97; `tell` posts the notices of its cause. A FREE record is left as it is. -/
def State.freeStory (s : State) (i : Fin 256) (tell : State → State) : State :=
  match (s.record i).story with
  | none => s
  | some st => (tell (s.modStore fun x => x.release i st)).judgePool.judgeExhausted

/-- The freeing test's condition: COMPLETE, with both sets empty (R96). -/
def Story.unretained (st : Story) : Bool :=
  decide (st.state = .complete) && !st.interest.a && !st.interest.b && decide (st.pending = 0)

/-- The freeing test on a record (R96). -/
def State.freeingTest (s : State) (i : Fin 256) : State :=
  match (s.record i).story with
  | none => s
  | some st => if st.unretained then s.freeStory i id else s

/-! ## Reclamation (R100, R101, R102) -/

/-- A candidate for reclamation (R101). -/
def Story.candidate (st : Story) : Bool := decide (st.state = .complete) && decide (st.pending = 0)

/-- The closed stamp, present in every COMPLETE story (R91). -/
def Story.closedAt (st : Story) : Stamp := st.closedStamp.getD { day := 0, second := 0 }

/-- One stamp is earlier than another, as numbers (R101). -/
def Stamp.before (x y : Stamp) : Bool := decide (x.day < y.day) || (decide (x.day = y.day) && decide (x.second < y.second))

/-- A story goes before another in the order of victims, the index apart (R101). -/
def Story.victimBefore (x y : Story) : Bool :=
  decide (y.priority.number < x.priority.number)
    || (decide (x.priority.number = y.priority.number) && x.closedAt.before y.closedAt)

/-- The next victim among records from index `i` on, given the best so far (R101). -/
def pickVictim : List StoryRecord → Nat → Option (Nat × Story) → Option (Nat × Story)
  | [], _, best => best
  | r :: rest, i, best =>
    pickVictim rest (i + 1)
      (match r.story, best with
        | none, _ => best
        | some st, none => if st.candidate then some (i, st) else none
        | some st, some (j, y) => if st.candidate && st.victimBefore y then some (i, st) else some (j, y))

/-- The next victim (R101). -/
def Store.victim (x : Store) : Option (Fin 256 × Story) :=
  (pickVictim x.records.toList 0 none).map fun p => (Fin.ofNat 256 p.1, p.2)

/-- What byte of STORY_DISCARDED names the origin is the story's own (R184). -/
def discardNotice (h : Handle) (st : Story) (cause : DiscardCause) : Notice :=
  .storyDiscarded st.origin h cause st.priority st.length

/-- A victim freed, its interest set told (R102). -/
def State.freeVictim (s : State) (i : Fin 256) (st : Story) : State :=
  s.freeStory i fun t => t.postSet st.interest (discardNotice (s.handleAt i) st .reclaim)

/-- Reclamation until its end condition holds or no candidate remains (R100). Each round frees one of the 256 records, so
256 rounds reach every candidate. -/
def State.reclaim (s : State) (done : Store → Bool) : Nat → State
  | 0 => s
  | rounds + 1 =>
    if done s.store then s
    else
      match s.store.victim with
      | none => s
      | some (i, st) => (s.freeVictim i st).reclaim done rounds

/-- The records, and so the most victims of one reclamation. -/
def victimRounds : Nat := 256

/-- End condition of the three cases of R100: mark reached; mark reached and a cell free; mark reached and a record FREE. -/
def Store.markReached (x : Store) : Bool := decide (x.reclaimMark ≤ x.freeCount)
def Store.cellReady (x : Store) : Bool := x.markReached && !x.freeList.isEmpty
def Store.recordReady (x : Store) : Bool := x.markReached && x.someFree

/-! ## Allocation (R89, R94) -/

/-- `n` cells moved from the head of the free list to the tail of a story's chain (R89). A record that is FREE takes none. -/
def Store.allocate (x : Store) (i : Fin 256) (n : Nat) : Store :=
  match (x.records.get i).story with
  | none => x
  | some st =>
    { x with
      freeList := x.freeList.drop n
      freeCount := x.freeCount - (x.freeList.take n).length
      records := x.records.set i.val
        { generation := (x.records.get i).generation, story := some { st with chain := st.chain ++ x.freeList.take n } } }

/-- The evaluations that follow an allocation: pool notices, STORE_EXHAUSTED, reclamation below the mark (R89, R100). -/
def State.afterAllocation (s : State) : State :=
  s.judgePool.judgeExhausted.reclaim Store.markReached victimRounds

/-- A line's cell request for a story: whether a cell was given, and the state after (R79, R89, R100). -/
def State.requestCell (s : State) (i : Fin 256) : Bool × State :=
  if s.store.freeList.isEmpty then
    let t := s.reclaim Store.cellReady victimRounds
    if t.store.cellReady then (true, (t.modStore fun x => x.allocate i 1).afterAllocation) else (false, t)
  else (true, (s.modStore fun x => x.allocate i 1).afterAllocation)

/-- The FREE record of lowest index (R94). -/
def Store.lowestFree (x : Store) : Option (Fin 256) :=
  (x.records.toList.findIdx? fun r => r.story.isNone).map (Fin.ofNat 256)

/-- A line's record request: the record given, if any, and the state after (R94, R100). -/
def State.requestRecord (s : State) : Option (Fin 256) × State :=
  match s.store.lowestFree with
  | some i => (some i, s)
  | none =>
    let t := s.reclaim Store.recordReady victimRounds
    if t.store.recordReady then (t.store.lowestFree, t) else (none, t)

/-- A story made in a FREE record, and STORE_EXHAUSTED judged for the change of the count of FREE records (R94, R103). -/
def State.makeStory (s : State) (i : Fin 256) (st : Story) : State :=
  (s.setRecord i { generation := (s.record i).generation, story := some st }).judgeExhausted

/-! ## Retention (R95) -/

/-- A line joins a story's pending set. -/
def State.joinPending (s : State) (h : Handle) (l : LineNo) : State :=
  s.modStory h fun st => { st with pending := addLine st.pending l }

/-- A line leaves a story's pending set. -/
def State.leavePending (s : State) (h : Handle) (l : LineNo) : State :=
  s.modStory h fun st => { st with pending := dropLine st.pending l }

/-! ## The bell (R189) -/

/-- The bell unit asked to ring for a priority: the count is read now, the remaining count becomes the larger, and a burst
begins when the bell is QUIET (R189). -/
def State.ringFor (s : State) (p : Priority) : State :=
  let c := s.room.options.bellCounts.get p.index
  if c = 0 then s
  else
    s.modRoom fun r =>
      { r with
        bell :=
          { remaining := max r.bell.remaining c
            phase := match r.bell.phase with
              | .quiet => .tone (s.timerMs Config.bellMs)
              | .tone t => .tone t
              | .gap t => .gap t
            tone := match r.bell.phase with
              | .quiet => some r.options.tone
              | .tone _ => r.bell.tone
              | .gap _ => r.bell.tone } }

end Sys2Proof.Machine
end

