-- ==== Sys2Proof/Machine/Encoding.lean ====
section
/-! DEFINITION. The encoder/formatter (chapter 8): newline sequences, the per-character procedure, and the forming of code
groups from the preamble, the text and the postamble. -/

namespace Sys2Proof.Machine

/-- The shift code of a case (R11). -/
def Table.shiftCode (t : Table) : Case → Option Code
  | .letters => t.ltrsCode
  | .figures => t.figsCode

/-- The encoder case of a table case. -/
def Case.enc : Case → EncCase
  | .letters => .letters
  | .figures => .figures

/-- The table case of an encoder case, absent for UNKNOWN. -/
def EncCase.known : EncCase → Option Case
  | .letters => some .letters
  | .figures => some .figures
  | .unknown => none

/-- A shift sent: its code, and the encoder in that case with the refresh count 0 (R138, R145). -/
def Encoder.shift (e : Encoder) (t : Table) (c : Case) : List Code × Encoder :=
  ((t.shiftCode c).toList, { e with encCase := c.enc, refresh := 0 })

/-- `n` codes of a kind (CR or LF) as R140 chooses them: the code of the encoder case; in UNKNOWN the common code, or, when
there is none, the LTRS code and then the LETTERS code. -/
def Encoder.carriage (e : Encoder) (t : Table) (k : Kind) (n : Nat) : List Code × Encoder :=
  match e.encCase.known with
  | some c => ((List.replicate n (t.lowest c fun x => x.kind == k).toList).flatten, e)
  | none =>
    match t.commonOfKind k with
    | some j => (List.replicate n j, e)
    | none =>
      let (shift, e) := e.shift t .letters
      (shift ++ (List.replicate n (t.lowest .letters fun x => x.kind == k).toList).flatten, e)

/-- The newline sequence (R140): CR codes, one LF code, the LTRS fill; the column becomes 0. -/
def Encoder.newline (e : Encoder) (t : Table) (c : SendCopy) : List Code × Encoder :=
  let (crs, e) := e.carriage t .cr c.crCount
  let (lf, e) := e.carriage t .lf 1
  let fill := (List.replicate c.ltrsFill t.ltrsCode.toList).flatten
  if c.ltrsFill = 0 then (crs ++ lf, { e with column := 0 })
  else (crs ++ lf ++ fill, { e with column := 0, encCase := .letters, refresh := 0 })

/-- The outcome of one character's treatment: the codes, the encoder after, whether the character was taken, whether it
counts as a substitution, and whether the codes are a newline sequence. -/
structure Treated where
  codes : List Code
  enc : Encoder
  taken : Bool
  counted : Bool
  newline : Bool
  deriving DecidableEq, Repr

/-- A character taken without a code (R139, R141, R142). -/
def Encoder.dropChar (e : Encoder) (counted : Bool) : Treated :=
  { codes := [], enc := e, taken := true, counted := counted, newline := false }

/-- The code choice of step 7 (R145): codes, and the encoder with the case and the refresh count they leave. -/
def Encoder.chooseCode (e : Encoder) (t : Table) (x : Byte) : List Code × Encoder :=
  let viaShift :=
    match t.reverse .letters x with
    | some k => let (sh, e) := e.shift t .letters; (sh ++ [k], e)
    | none => let (sh, e) := e.shift t .figures; (sh ++ (t.reverse .figures x).toList, e)
  match e.encCase.known with
  | some c =>
    match t.reverse c x with
    | some k => ([k], e)
    | none => viaShift
  | none =>
    match (if x = 0x20 then t.commonSpace else none) with
    | some k => ([k], e)
    | none => viaShift

/-- Step 3, a bell (R141): the slot's code for 0x07 chosen as at step 7, but from UNKNOWN without a shift when both cases
give the same code; dropped and counted when the slot has none. -/
def Encoder.bell (e : Encoder) (t : Table) : Treated :=
  match t.reverse .letters 0x07, t.reverse .figures 0x07 with
  | none, none => e.dropChar true
  | some k, some j =>
    if e.encCase = .unknown ∧ k = j then
      { codes := [k], enc := e, taken := true, counted := false, newline := false }
    else
      let (codes, e) := e.chooseCode t 0x07
      { codes := codes, enc := e, taken := true, counted := false, newline := false }
  | _, _ =>
    let (codes, e) := e.chooseCode t 0x07
    { codes := codes, enc := e, taken := true, counted := false, newline := false }

/-- Step 6, shift refresh (R144). -/
def Encoder.refreshShift (e : Encoder) (t : Table) (c : SendCopy) : List Code × Encoder :=
  match e.encCase.known with
  | none => ([], e)
  | some k => if c.refreshInterval ≠ 0 ∧ c.refreshInterval ≤ e.refresh then e.shift t k else ([], e)

/-- Steps 8 and 9: counters, then unshift-on-space (R146). -/
def Encoder.afterPrinting (e : Encoder) (c : SendCopy) (x : Byte) : Encoder :=
  { e with
    column := e.column + 1
    refresh := min (e.refresh + 1) 80
    encCase := if c.txUnshift ∧ x = 0x20 then .letters else e.encCase }

/-- Steps 5 to 9 for the character carried (R143 to R146). -/
def Encoder.carried (e : Encoder) (t : Table) (c : SendCopy) (x : Byte) (counted : Bool) : Treated :=
  if e.column = c.width then
    let (codes, e) := e.newline t c
    if x = 0x20 then { codes := codes, enc := e, taken := true, counted := counted, newline := true }
    else { codes := codes, enc := e, taken := false, counted := false, newline := true }
  else
    let (fresh, e) := e.refreshShift t c
    let (codes, e) := e.chooseCode t x
    { codes := fresh ++ codes, enc := e.afterPrinting c x, taken := true, counted := counted, newline := false }

/-- The slot has a code for a character (R142). -/
def Table.represents (t : Table) (x : Byte) : Bool := (t.reverse .letters x).isSome || (t.reverse .figures x).isSome

/-- The per-character procedure (R138). -/
def Encoder.treat (e : Encoder) (t : Table) (c : SendCopy) (x : Byte) : Treated :=
  if x = 0x0D then e.dropChar false
  else if x = 0x0A then
    let (codes, e) := e.newline t c
    { codes := codes, enc := e, taken := true, counted := false, newline := true }
  else if x = 0x07 then e.bell t
  else if t.represents x then e.carried t c x false
  else
    match c.unrepPolicy with
    | .drop => e.dropChar true
    | .substitute =>
      let y := c.unrepSubstitute
      if y = 0x0A ∨ y = 0x0D ∨ y = 0x07 ∨ t.represents y = false then e.dropChar true
      else e.carried t c y true

/-- The bells a priority rings (R136). -/
def SendCopy.bells (c : SendCopy) : Priority → Nat
  | .flash => c.flashBells
  | .bulletin => c.bulletinBells
  | .urgent => 0
  | .routine => 0
  | .deferred => 0

/-- The items of a preamble (R136); each character of the opening sequence and each bell is a group of its own (log 33). -/
def preambleItems (c : SendCopy) (p : Priority) : List FrameItem :=
  (if c.framing = .framed then c.opening.map .char else []) ++ List.replicate (c.bells p) (.char 0x07)

/-- The items of a postamble, the column as it stands when the first is reached (R137). DESIGN CHOICE (log 33): R137 lists the
separation as one item and R135 forms the next item; here each separation line feed is a group of its own, as is each character of
the closing sequence. The codes sent are the same. -/
def postambleItems (c : SendCopy) (column : Nat) : List FrameItem :=
  (if column = 0 then [] else [.newline])
    ++ (if c.framing = .framed then c.closing.map .char ++ [.newline] else [])
    ++ List.replicate c.separation .lineFeed

/-- One item of the preamble or postamble (R136, R137). -/
def Encoder.treatItem (e : Encoder) (t : Table) (c : SendCopy) : FrameItem → Treated
  | .char x => e.treat t c x
  | .newline =>
    let (codes, e) := e.newline t c
    { codes := codes, enc := e, taken := true, counted := false, newline := true }
  | .lineFeed =>
    let (codes, e) := e.carriage t .lf 1
    { codes := codes, enc := e, taken := true, counted := false, newline := false }

/-- An entry with one more substitution, saturating (R148). -/
def DistEntry.count (d : DistEntry) (counted : Bool) : DistEntry :=
  if counted then { d with substitutions := min (d.substitutions + 1) 65535 } else d

/-- The story's postamble begins: phase POSTAMBLE, print-line start at the length (R122, R125). -/
def Transmission.beginPostamble (u : Transmission) (length : Nat) : Transmission :=
  { u with phase := .postamble, entry := { u.entry with lineStart := length } }

/-- Where one round of forming a group leaves the line. -/
inductive Forming where
  /-- The round is done: the group may be empty, and then the next round goes on. -/
  | formed (u : Transmission) (e : Encoder)
  /-- The postamble holds no code: the transmission ends (R135). -/
  | spent (u : Transmission) (e : Encoder)
  deriving DecidableEq, Repr

/-- A text character treated: the position moves past it when it is taken; with the last one taken the postamble begins (R125),
but for a newline whose print-line end is still to come (R122, R147; log 10). -/
def Transmission.advance (u : Transmission) (r : Treated) (length : Nat) : Transmission :=
  let entry := u.entry.count r.counted
  let v : Transmission := { u with entry := { entry with resumeOffset := entry.resumeOffset + (if r.taken then 1 else 0) } }
  if length ≤ v.entry.resumeOffset ∧ r.newline = false then v.beginPostamble length else v

/-- One round of forming the next group for the current story (R135). `char` gives the text, `length` its length. The phase
becomes TEXT at the request that finds no preamble item left (R136; log 29). -/
def Encoder.formRound (e : Encoder) (t : Table) (c : SendCopy) (char : Nat → Byte) (length : Nat)
    (u : Transmission) : Forming :=
  if e.owed then
    let (codes, e) := e.newline t c
    .formed u { e with group := codes, groupEnd := .nothing, owed := false }
  else
    match u.phase with
    | .preamble =>
      match e.progress with
      | none => .formed u { e with progress := some (preambleItems c u.entry.priority) }
      | some [] => .formed { u with phase := .text } { e with progress := none }
      | some (i :: rest) =>
        let r := e.treatItem t c i
        .formed { u with entry := u.entry.count r.counted }
          { r.enc with group := r.codes, groupEnd := .nothing, progress := some (if r.taken then rest else i :: rest) }
    | .text =>
      if u.entry.resumeOffset < length then
        let r := e.treat t c (char u.entry.resumeOffset)
        .formed (u.advance r length)
          { r.enc with group := r.codes, groupEnd := if r.newline then .printLineEnd else .nothing, progress := none }
      else .formed (u.beginPostamble length) { e with progress := none }
    | .postamble =>
      match e.progress with
      | none =>
        match postambleItems c e.column with
        | [] => .spent u e
        | i :: rest => .formed u { e with progress := some (i :: rest) }
      | some [] => .spent u e
      | some (i :: rest) =>
        let r := e.treatItem t c i
        let left := if r.taken then rest else i :: rest
        .formed { u with entry := u.entry.count r.counted }
          { r.enc with
            group := r.codes
            groupEnd := if left.isEmpty then .postambleEnd else .nothing
            progress := some left }

/-- Rounds of forming until a group holds a code or the transmission ends (R135). -/
def Encoder.form (e : Encoder) (t : Table) (c : SendCopy) (char : Nat → Byte) (length : Nat)
    (u : Transmission) : Nat → Forming
  | 0 => .formed u e
  | rounds + 1 =>
    match e.formRound t c char length u with
    | .spent u e => .spent u e
    | .formed u e => if e.group.isEmpty then e.form t c char length u rounds else .formed u e

/-- More rounds than one story can need: each takes a text character (at most 16,384) or an item, or changes the phase
(log 23). -/
def formRounds : Nat := 17000

/-- The encoder at a break-in with a current story (R150, steps 1 to 4). -/
def Encoder.broken (e : Encoder) : Encoder :=
  { e with group := [], groupEnd := .nothing, encCase := .unknown, refresh := 0, owed := true, progress := none }

/-- The encoder at a break-in with no current story (R150). -/
def Encoder.brokenIdle (e : Encoder) : Encoder := { e with encCase := .unknown, refresh := 0 }

/-- The send copy a record gives (R26). -/
def LineRecord.copy (r : LineRecord) : SendCopy where
  keying := r.keying
  unit := r.unit
  stopLength := r.stopLength
  slot := r.slot
  framing := r.framing
  opening := r.opening
  closing := r.closing
  txUnshift := r.txUnshift
  width := r.width
  crCount := r.crCount
  ltrsFill := r.ltrsFill
  refreshInterval := r.refreshInterval
  unrepPolicy := r.unrepPolicy
  unrepSubstitute := r.unrepSubstitute
  flashBells := r.flashBells
  bulletinBells := r.bulletinBells
  separation := r.separation

end Sys2Proof.Machine
end

