-- ==== Sys2Proof/Machine/Sending.lean ====
section
/-! DEFINITION. The send side and the distribution unit of a line as one machine (chapters 7 and 9): frames, requests for
codes, print-line ends, transmission ends, the next-story choice, motor, halts and break-ins. -/

namespace Sys2Proof.Machine

/-- The text a handle's story has at a position (R109). -/
def State.textAt (s : State) (h : Handle) (p : Nat) : Byte :=
  match s.storyOf h with
  | none => unwritten
  | some st => s.store.text.charAt st.chain p

/-- The length of a handle's story. -/
def State.lengthOf (s : State) (h : Handle) : Nat :=
  match s.storyOf h with
  | none => 0
  | some st => st.length

/-- The line has work (R119). -/
def State.hasWork (s : State) (l : LineNo) : Bool := (s.line l).dist.hasWork

/-- The stop-delay timer loaded when motor control is yes (R158). -/
def State.loadStopDelay (s : State) (l : LineNo) : State :=
  if (s.line l).record.motorControl then
    s.modSend l fun x => { x with stopDelay := some (s.timerS (s.line l).record.stopDelay) }
  else s

/-- The side enters IDLE from SENDING, STARTING or HALTED (R157, R158, R161). -/
def State.enterIdle (s : State) (l : LineNo) : State :=
  (s.modSend l fun x => { x with state := .idle, startDelay := none }).loadStopDelay l

/-- The side enters HALTED: the stop delay stops, a waiting hold joins as DESK_HOLD; frame, motor and a running start delay go
on (R159, R160). -/
def SendSide.halt (x : SendSide) : SendSide :=
  { x with
    state := .halted
    stopDelay := none
    deskHold := x.deskHold || x.holdWaiting
    holdWaiting := false }

/-- Work runs out: a SENDING side goes to IDLE (R157). -/
def State.workRunsOut (s : State) (l : LineNo) : State :=
  match (s.line l).send.state with
  | .sending => s.enterIdle l
  | .off => s
  | .stopped => s
  | .starting => s
  | .idle => s
  | .halted => s

/-! ## Stories becoming current (R120, R121) -/

/-- A queue entry becomes current: a new story, from its preamble (R121). -/
def DistEntry.begin (d : DistEntry) : Transmission :=
  { entry := { d with resumeOffset := 0, lineStart := 0 }, phase := .preamble, withdrawn := false }

/-- A stacked entry becomes current: a resumed story, at its text (R121). -/
def DistEntry.resumed (d : DistEntry) : Transmission :=
  { entry := { d with lineStart := d.resumeOffset }, phase := .text, withdrawn := false }

/-- The next-story choice on a distribution unit: the new unit, and whether the story is a resumed one (R120). -/
def Distribution.choose (d : Distribution) : Option (Distribution × Bool) :=
  match d.queue, d.stack with
  | [], [] => none
  | q :: qs, [] => some ({ d with queue := qs, current := some q.begin }, false)
  | [], t :: ts => some ({ d with stack := ts, current := some t.resumed }, true)
  | q :: qs, t :: ts =>
    if q.priority.above t.priority then some ({ d with queue := qs, current := some q.begin }, false)
    else some ({ d with stack := ts, current := some t.resumed }, true)

/-- The next-story choice, made only without a current transmission and with an entry to take: the send copy is taken afresh,
and a resumed story starts at column 0 (R119, R120, R121, R149). -/
def State.chooseNext (s : State) (l : LineNo) : State :=
  if (s.line l).dist.current.isSome then s
  else
    match (s.line l).dist.choose with
    | none => s
    | some (d, resumed) =>
      s.modLine l fun x =>
        { x with
          dist := d
          enc :=
            { x.enc with
              copy := some x.record.copy
              progress := none
              column := if resumed then 0 else x.enc.column } }

/-! ## Halts and break-ins (R150, R159, R164) -/

/-- The halt a waiting hold makes at a print-line end or a transmission end, when one is waiting (R162). -/
def State.takeHold (s : State) (l : LineNo) : State :=
  if (s.line l).send.holdWaiting then s.modSend l SendSide.halt else s

/-- The position of the current story goes back to its print-line start (R122). -/
def Transmission.rewound (u : Transmission) : Transmission :=
  { u with entry := { u.entry with resumeOffset := u.entry.lineStart } }

/-- Encoder and distribution unit of a line told of a break-in (R150, R122). -/
def Line.broken (x : Line) : Line :=
  match x.dist.current with
  | none => { x with enc := x.enc.brokenIdle }
  | some u => { x with enc := x.enc.broken, dist := { x.dist with current := some u.rewound } }

/-- BREAK_IN is taken (R164, steps 1 to 4). -/
def State.takeBreakIn (s : State) (l : LineNo) : State :=
  if (s.line l).send.breakIn then s.modSend l fun x => { x with guard := none }
  else
    let s := s.modLine l Line.broken
    let s := s.modSend l fun x => if x.state = .halted then { x with breakIn := true } else { x.halt with breakIn := true }
    s.postLine l .send (.breakIn true)

/-! ## Frames and requests (R134, R154, R155) -/

/-- A frame of a code begins now, under the send copy held now; each frame start reloads the stop delay (R154, R155). -/
def State.beginFrame (s : State) (l : LineNo) (k : Code) (c : SendCopy) : State :=
  (s.modSend l fun x =>
    { x with
      frame := some
        { code := k, start := s.tick, unit := c.unit, stopLength := c.stopLength, keying := c.keying, element := 0 }
      key := .space }).loadStopDelay l

/-- The current story is suspended: its entry goes on the stack, its send copy is given up (R124). -/
def Line.suspend (x : Line) (u : Transmission) : Line :=
  { x with
    dist :=
      { x.dist with
        stack := { u.entry with lineStart := u.entry.resumeOffset } :: x.dist.stack
        current := none }
    enc := { x.enc with copy := none, progress := none } }

/-- The preemption test's condition (R123, step 2). -/
def Line.preempts (x : Line) (u : Transmission) : Bool :=
  match x.dist.queue with
  | [] => false
  | q :: _ =>
    q.priority.above u.entry.priority && x.record.preempt.admits q.priority
      && decide (x.dist.stack.length < Config.stackRoom)

/-- A print-line end of the current story (R122, R123, R147): the print-line start moves to the position; then the withdrawal
cut, or the preemption test; then a waiting hold; then, after a suspension without a hold, the next-story choice. At a cut a
waiting hold takes effect too (R129; log 9). -/
def State.printLineEnd (s : State) (l : LineNo) : State :=
  match (s.line l).dist.current with
  | none => s
  | some v =>
    let u : Transmission := { v with entry := { v.entry with lineStart := v.entry.resumeOffset } }
    if u.withdrawn then
      (s.modLine l fun x =>
        { x with
          dist := { x.dist with current := some (u.beginPostamble (s.lengthOf u.entry.handle)) }
          enc := { x.enc with progress := none } }).takeHold l
    else if (s.line l).preempts u then
      let s := (s.modLine l fun x => x.suspend u).takeHold l
      if (s.line l).send.state = .halted then s else s.chooseNext l
    else (s.modDist l fun d => { d with current := some u }).takeHold l

/-- The current transmission gone from the line, with the send copy (R126, step 1; R130). -/
def Line.dropCurrent (x : Line) : Line :=
  { x with
    dist := { x.dist with current := none }
    enc := { x.enc with copy := none, group := [], groupEnd := .nothing, progress := none, owed := false } }

/-- One entry has left the line: pending set, DISTRIBUTION_END, freeing test (R126, R128, R130). -/
def State.departs (s : State) (l : LineNo) (d : DistEntry) (o : DistOutcome) : State :=
  ((s.leavePending d.handle l).postSubmitter d.submitter (.distributionEnd l d.handle o d.substitutions)).freeingTest
    d.handle.index

/-- The current transmission ends (R126): it leaves the line and its story's pending set, DISTRIBUTION_END is posted, the
freeing test is applied; then a waiting hold takes effect, or the next story is chosen, or work has run out. -/
def State.endTransmission (s : State) (l : LineNo) : State :=
  match (s.line l).dist.current with
  | none => s
  | some u =>
    let s := (s.modLine l Line.dropCurrent).departs l u.entry (if u.withdrawn then .withdrawn else .completed)
    if (s.line l).send.holdWaiting then s.takeHold l
    else if s.hasWork l then s.chooseNext l
    else s.workRunsOut l

/-- The oldest code of the group is handed and its frame begins; the handing of a group's last code may be a print-line end
or the end of the transmission (R134, R135, R147). -/
def State.handCode (s : State) (l : LineNo) (c : SendCopy) : State :=
  match (s.line l).enc.group with
  | [] => s
  | k :: rest =>
    let mark := (s.line l).enc.groupEnd
    let s := (s.modEnc l fun e => { e with group := rest }).beginFrame l k c
    if rest.isEmpty then
      let s := s.modEnc l fun e => { e with groupEnd := .nothing }
      match mark with
      | .nothing => s
      | .printLineEnd => s.printLineEnd l
      | .postambleEnd => s.endTransmission l
    else s

/-- The send side asks for a code (R134, R155). A story whose postamble holds no code ends at the request, and the story then
chosen answers it; the rounds bound how many stories one request can end (log 23). -/
def State.request (s : State) (l : LineNo) : Nat → State
  | 0 => s
  | rounds + 1 =>
    match (s.line l).dist.current, (s.line l).enc.copy with
    | some u, some c =>
      if (s.line l).enc.group.isEmpty then
        match (s.line l).enc.form (s.tables.get c.slot) c (s.textAt u.entry.handle) (s.lengthOf u.entry.handle) u
            formRounds with
        | .formed v e =>
          (s.modLine l fun x => { x with enc := e, dist := { x.dist with current := some v } }).handCode l c
        | .spent v e =>
          let s := (s.modLine l fun x => { x with enc := e, dist := { x.dist with current := some v } }).endTransmission l
          if (s.line l).send.state = .sending then s.request l rounds else s
      else s.handCode l c
    | _, _ => s

/-- More requests than a line can hold stories: queue, stack and current (log 23). -/
def requestRounds : Nat := 40

/-- The side enters SENDING: the next-story choice if no story is current, and the first request unless a frame is still in
progress (R119, R155, R157, R161). -/
def State.enterSending (s : State) (l : LineNo) : State :=
  let s := (s.modSend l fun x => { x with state := .sending }).chooseNext l
  if (s.line l).send.frame.isSome then s else s.request l requestRounds

/-! ## The motor (R157, R158, R160) -/

/-- The start delay has expired: STARTING goes to SENDING with work and to IDLE without; in HALTED only the timer stops (R157,
R160). Against the withdrawal of the last work R157 is followed, not the two cells of R167's first row, which stand the other
way round (log 32). -/
def State.startDelayOver (s : State) (l : LineNo) : State :=
  let s := s.modSend l fun x => { x with startDelay := none }
  match (s.line l).send.state with
  | .starting => if s.hasWork l then s.enterSending l else s.enterIdle l
  | .off => s
  | .stopped => s
  | .idle => s
  | .sending => s
  | .halted => s

/-- The side enters STARTING from STOPPED or HALTED with a fresh start delay: the motor goes on, an OPEN send loop is taken
as a break-in, and a delay of 0 expires at once (R157, R161, R164; log 14). -/
def State.enterStarting (s : State) (l : LineNo) : State :=
  let delay := (s.line l).record.startDelay
  let s := s.modSend l fun x => { x with state := .starting, motor := true, startDelay := some (s.timerMs delay) }
  let s := if (s.line l).txLoop.loop = .opened then s.takeBreakIn l else s
  if delay = 0 then s.startDelayOver l else s

/-- Work arrives (R157). -/
def State.workArrives (s : State) (l : LineNo) : State :=
  match (s.line l).send.state with
  | .stopped => s.enterStarting l
  | .idle => (s.modSend l fun x => { x with stopDelay := none }).enterSending l
  | .off => s
  | .starting => s
  | .sending => s
  | .halted => s

/-- The side leaves HALTED by the table of R161. -/
def State.leaveHalted (s : State) (l : LineNo) : State :=
  let x := (s.line l).send
  if (s.line l).record.motorControl then
    if x.motor then
      if x.startDelay.isSome then
        if s.hasWork l then
          let s := s.modSend l fun y => { y with state := .starting }
          if (s.line l).txLoop.loop = .opened then s.takeBreakIn l else s
        else s.enterIdle l
      else if s.hasWork l then s.enterSending l
      else s.enterIdle l
    else if s.hasWork l then s.enterStarting l
    else s.modSend l fun y => { y with state := .stopped }
  else if s.hasWork l then s.enterSending l
  else s.modSend l fun y => { y with state := .idle }

/-- The side leaves HALTED when its last cause is gone (R161). -/
def State.leaveIfFree (s : State) (l : LineNo) : State :=
  if (s.line l).send.state = .halted ∧ (s.line l).send.noCause then s.leaveHalted l else s

/-- BREAK_IN leaves the set, with its notice; the guard stops (R165). -/
def State.dropBreakIn (s : State) (l : LineNo) : State :=
  (s.modSend l fun x => { x with breakIn := false, guard := none }).postLine l .send (.breakIn false)

/-! ## Desk hold and resume (R162, R163) -/

/-- LINE_CONTROL HOLD on a line with a send side (R162). -/
def State.holdLine (s : State) (l : LineNo) : State :=
  match (s.line l).send.state with
  | .sending => s.modSend l fun x => { x with holdWaiting := true }
  | .starting => s.modSend l fun x => { x.halt with deskHold := true }
  | .idle => s.modSend l fun x => { x.halt with deskHold := true }
  | .stopped => s.modSend l fun x => { x.halt with deskHold := true }
  | .halted => s.modSend l fun x => { x with deskHold := true }
  | .off => s

/-- RESUME takes BREAK_IN out: the loop is not OPEN, and under AUTO the guard is stopped too (R163, step 2). -/
def Line.resumeClearsBreak (x : Line) : Bool :=
  decide (x.txLoop.loop ≠ .opened) &&
    match x.record.breakPolicy with
    | .hold => true
    | .auto => x.send.guard.isNone

/-- LINE_CONTROL RESUME on a line with a send side (R163). -/
def State.resumeLine (s : State) (l : LineNo) : State :=
  let s := s.modSend l fun x => { x with holdWaiting := false, deskHold := false }
  let s := if (s.line l).send.breakIn && (s.line l).resumeClearsBreak then s.dropBreakIn l else s
  s.leaveIfFree l

/-! ## A change of motor control (R27) -/

/-- Motor control turned on: the motor goes on in IDLE, SENDING and HALTED, and IDLE loads its stop delay (R27). -/
def State.motorTurnedOn (s : State) (l : LineNo) : State :=
  match (s.line l).send.state with
  | .idle => (s.modSend l fun x => { x with motor := true }).loadStopDelay l
  | .sending => s.modSend l fun x => { x with motor := true }
  | .halted => s.modSend l fun x => { x with motor := true }
  | .off => s
  | .stopped => s
  | .starting => s

/-- Motor control turned off: the motor goes off and its timers stop; STOPPED goes to IDLE, STARTING to SENDING or IDLE
(R27). -/
def State.motorTurnedOff (s : State) (l : LineNo) : State :=
  let off := s.modSend l fun x => { x with motor := false, startDelay := none, stopDelay := none }
  match (s.line l).send.state with
  | .stopped => off.modSend l fun x => { x with state := .idle }
  | .starting => if s.hasWork l then off.enterSending l else off.modSend l fun x => { x with state := .idle }
  | .idle => off
  | .sending => off
  | .halted => off
  | .off => s

end Sys2Proof.Machine
end

