-- ==== Sys2Proof/Machine/Distributing.lean ====
section
/-! DEFINITION. Submission, withdrawal and abandonment on a line's distribution unit (chapter 7), the room controller's own
submissions (chapter 11), and its entry to UNATTENDED. -/

namespace Sys2Proof.Machine

/-- A line's result in a per-line list (R117, R128, R186). -/
inductive LineResult where
  | queued
  | already
  | queueFull
  | lineMode
  | withdrawn
  | notPending
  deriving DecidableEq, Repr

/-- Queue order (R115): immediately behind the last entry of equal or higher priority, or at the head. -/
def enqueue (e : DistEntry) : List DistEntry → List DistEntry
  | [] => [e]
  | q :: qs =>
    if (q :: qs).any fun x => decide (x.priority.number ≤ e.priority.number) then q :: enqueue e qs else e :: q :: qs

/-- A story appears on a line: in its queue, as its current transmission or on its stack (R117). -/
def Distribution.holds (d : Distribution) (h : Handle) : Bool :=
  d.queue.any (fun e => decide (e.handle = h)) || d.stack.any (fun e => decide (e.handle = h))
    || (match d.current with
        | none => false
        | some u => decide (u.entry.handle = h))

/-- A new entry (R117). -/
def newEntry (h : Handle) (p : Priority) (w : Submitter) : DistEntry :=
  { handle := h, priority := p, submitter := w, resumeOffset := 0, lineStart := 0, substitutions := 0 }

/-- The tests of a line for a submission (R117). -/
def Line.trial (x : Line) (h : Handle) : LineResult :=
  if x.record.mode.hasSend = false then .lineMode
  else if x.dist.holds h then .already
  else if Config.queueRoom ≤ x.dist.queue.length then .queueFull
  else .queued

/-- Trying a line for a submission: the result, and the state with the entry made when it is QUEUED (R117). -/
def State.tryLine (s : State) (l : LineNo) (h : Handle) (p : Priority) (w : Submitter) : LineResult × State :=
  match (s.line l).trial h with
  | .queued =>
    let idle := !s.hasWork l
    let s := (s.modDist l fun d => { d with queue := enqueue (newEntry h p w) d.queue }).joinPending h l
    (.queued, if idle then s.workArrives l else s)
  | r => (r, s)

/-- The lines of a list tried in order, with their results (R116). -/
def State.tryLines (s : State) (h : Handle) (p : Priority) (w : Submitter) : List LineNo → List (LineNo × LineResult) × State
  | [] => ([], s)
  | l :: ls =>
    let (r, s) := s.tryLine l h p w
    let (rs, s) := s.tryLines h p w ls
    ((l, r) :: rs, s)

/-- The room controller's submission to lines in order: a line that refuses gives NOT_QUEUED to both ports (R118). -/
def State.roomSubmit (s : State) (h : Handle) (p : Priority) : List LineNo → State
  | [] => s
  | l :: ls =>
    let (r, s) := s.tryLine l h p .room
    (if r = .queued then s else s.postBoth (.distributionEnd l h .notQueued 0)).roomSubmit h p ls

/-- A story's state set, its other fields kept. -/
def State.setStoryState (s : State) (h : Handle) (x : StoryState) : State := s.modStory h fun st => { st with state := x }

/-- A closed inbound story offered for automatic submission (R193). Each monitor line is tried, whatever the lines before it did
(R117, R118). A line can send a story that yields no code whole inside its trial; while the lines are tried the story is
therefore kept from the freeing test of R126, as one that is not yet COMPLETE, and the test of R77, step 6, decides (log 26). -/
def State.offerStory (s : State) (l : LineNo) (h : Handle) (p : Priority) : State :=
  if s.room.unattended && lineIn s.room.options.sources l && decide (p.number ≤ s.room.options.bound.number) then
    ((s.setStoryState h .assembling).roomSubmit h p (linesOf s.room.options.monitors)).setStoryState h .complete
  else s

/-- A list without its first entry for a story, and that entry. -/
def takeEntry (h : Handle) : List DistEntry → Option (DistEntry × List DistEntry)
  | [] => none
  | e :: es =>
    if e.handle = h then some (e, es)
    else
      match takeEntry h es with
      | none => none
      | some (d, rest) => some (d, e :: rest)

/-- An entry that left a line by a withdrawal: pending set, DISTRIBUTION_END, and the send side told when no work is left
(R128). The freeing test follows after every line has been treated. -/
def State.withdrawn (s : State) (l : LineNo) (d : DistEntry) : State :=
  let s := (s.leavePending d.handle l).postSubmitter d.submitter (.distributionEnd l d.handle .withdrawn d.substitutions)
  if s.hasWork l then s else s.workRunsOut l

/-- A story withdrawn from one line (R128). -/
def State.withdrawLine (s : State) (l : LineNo) (h : Handle) : LineResult × State :=
  let d := (s.line l).dist
  match takeEntry h d.queue with
  | some (e, queue) => (.withdrawn, (s.modDist l fun d => { d with queue := queue }).withdrawn l e)
  | none =>
    match takeEntry h d.stack with
    | some (e, stack) => (.withdrawn, (s.modDist l fun d => { d with stack := stack }).withdrawn l e)
    | none =>
      match d.current with
      | none => (.notPending, s)
      | some u =>
        if u.entry.handle = h then
          (.withdrawn, s.modDist l fun d => { d with current := some { u with withdrawn := true } })
        else (.notPending, s)

/-- A story withdrawn from the lines of a list in order (R128). -/
def State.withdrawLines (s : State) (h : Handle) : List LineNo → List (LineNo × LineResult) × State
  | [] => ([], s)
  | l :: ls =>
    let (r, s) := s.withdrawLine l h
    let (rs, s) := s.withdrawLines h ls
    ((l, r) :: rs, s)

/-- The entries of a line in the order of an abandonment: current, stack from the top down, queue from the head (R130). -/
def Distribution.inAbandonOrder (d : Distribution) : List DistEntry :=
  (match d.current with
    | none => []
    | some u => [u.entry]) ++ d.stack ++ d.queue

/-- Entries abandoned in order (R130). -/
def State.abandonEntries (s : State) (l : LineNo) : List DistEntry → State
  | [] => s
  | e :: es => (s.departs l e .abandoned).abandonEntries l es

/-- Every story on the line is abandoned; queue, stack and current are left empty and the send copy holds nothing (R130). -/
def State.abandonLine (s : State) (l : LineNo) : State :=
  let entries := (s.line l).dist.inAbandonOrder
  (s.modLine l fun x => { x.dropCurrent with dist := freshDistribution }).abandonEntries l entries

/-! ## Entry to UNATTENDED (R192) -/

/-- A port is timed (R192). -/
def DeskPort.timed (p : DeskPort) : Bool := decide (p.silence ≠ .untimed)

/-- Some port is timed, and every timed port is SILENT (R192). -/
def State.roomDeserted (s : State) : Bool :=
  (s.portA.timed || s.portB.timed)
    && (!s.portA.timed || decide (s.portA.silence = .silent)) && (!s.portB.timed || decide (s.portB.silence = .silent))

/-- The room controller judges entry after a change of silence state (R192). -/
def State.judgeRoom (s : State) : State :=
  if s.room.unattended = false ∧ s.roomDeserted then
    (s.modRoom fun r => { r with unattended := true }).postBoth .unattendedBegin
  else s

end Sys2Proof.Machine
end

