-- ==== Sys2Proof/Machine/Operands.lean ====
section
/-! DEFINITION. The byte layouts of 10.7: how the operands of a command are read from its payload, and how responses, line
records, notices and list entries are written (R19, R180 to R186). -/

namespace Sys2Proof.Machine

/-! ## Numbers (R180) -/

/-- A number in one byte. -/
def byte1 (n : Nat) : Byte := BitVec.ofNat 8 n

/-- A number in `count` bytes, least significant first (R180). -/
def leBytes : Nat → Nat → List Byte
  | 0, _ => []
  | count + 1, n => byte1 n :: leBytes count (n / 256)

/-- The number of bytes, least significant first (R180). -/
def leNat : List Byte → Nat
  | [] => 0
  | x :: xs => x.toNat + 256 * leNat xs

/-- Byte `i` of a payload, as a number. -/
def byteAt (xs : List Byte) (i : Nat) : Nat := (xs.getD i 0).toNat

/-- `count` bytes from byte `i` on, as a number. -/
def numAt (xs : List Byte) (i count : Nat) : Nat := leNat ((xs.drop i).take count)

/-- A yes-or-no field: 0 no, 1 yes, anything else undefined (R19). -/
def boolOf : Nat → Option Bool
  | 0 => some false
  | 1 => some true
  | _ => none

/-- The number of a yes-or-no field. -/
def boolNum (b : Bool) : Nat := if b then 1 else 0

/-! ## Enumerated fields (R19, R182) -/

def Mode.number : Mode → Nat
  | .off => 0
  | .inbound => 1
  | .outbound => 2
  | .both => 3

def Mode.ofNumber : Nat → Option Mode
  | 0 => some .off
  | 1 => some .inbound
  | 2 => some .outbound
  | 3 => some .both
  | _ => none

def Keying.number : Keying → Nat
  | .neutral => 0
  | .polar => 1

def Keying.ofNumber : Nat → Option Keying
  | 0 => some .neutral
  | 1 => some .polar
  | _ => none

def FilterTime.number : FilterTime → Nat
  | .none => 0
  | .quarter => 1
  | .half => 2
  | .one => 3

def FilterTime.ofNumber : Nat → Option FilterTime
  | 0 => some .none
  | 1 => some .quarter
  | 2 => some .half
  | 3 => some .one
  | _ => Option.none

def Framing.number : Framing → Nat
  | .framed => 0
  | .continuous => 1

def Framing.ofNumber : Nat → Option Framing
  | 0 => some .framed
  | 1 => some .continuous
  | _ => none

def PreemptThreshold.number : PreemptThreshold → Nat
  | .off => 0
  | .flash => 1
  | .bulletin => 2

def PreemptThreshold.ofNumber : Nat → Option PreemptThreshold
  | 0 => some .off
  | 1 => some .flash
  | 2 => some .bulletin
  | _ => none

def UnrepPolicy.number : UnrepPolicy → Nat
  | .substitute => 0
  | .drop => 1

def UnrepPolicy.ofNumber : Nat → Option UnrepPolicy
  | 0 => some .substitute
  | 1 => some .drop
  | _ => none

def BreakPolicy.number : BreakPolicy → Nat
  | .auto => 0
  | .hold => 1

def BreakPolicy.ofNumber : Nat → Option BreakPolicy
  | 0 => some .auto
  | 1 => some .hold
  | _ => none

def BellTone.number : BellTone → Nat
  | .hz500 => 0
  | .hz1000 => 1
  | .hz2000 => 2
  | .hz4000 => 3

def BellTone.ofNumber : Nat → Option BellTone
  | 0 => some .hz500
  | 1 => some .hz1000
  | 2 => some .hz2000
  | 3 => some .hz4000
  | _ => none

/-! ## Clamping (R18) -/

/-- The nearer limit of a range. -/
def clampTo (low high n : Nat) : Nat := if n < low then low else if high < n then high else n

/-- The shift refresh rule of R18. -/
def clampRefresh (n : Nat) : Nat := if n = 0 then 0 else clampTo 8 80 n

/-- The table slot clamped (R18). -/
def clampSlot (n : Nat) : Fin 4 := Fin.ofNat 4 (clampTo 0 3 n)

/-- The numeric fields clamped; the four special fields after the others (R18). -/
def LineRecord.clamped (r : LineRecord) : LineRecord :=
  let openThreshold := clampTo 1 64 r.openThreshold
  let low := clampTo 2 200 r.lowThreshold
  let poor := clampTo 2 255 r.poorThreshold
  { r with
    unit := clampTo 20480 131071 r.unit
    stopLength := clampTo 16 32 r.stopLength
    markThreshold := clampTo 8 128 r.markThreshold
    openThreshold := openThreshold
    lowThreshold := if openThreshold < low then low else openThreshold + 1
    idleGap := clampTo 1 600 r.idleGap
    distortionLimit := clampTo 5 45 r.distortionLimit
    poorThreshold := poor
    goodThreshold := clampTo 1 (poor - 1) r.goodThreshold
    openTime := clampTo 100 5000 r.openTime
    width := clampTo 40 80 r.width
    crCount := clampTo 1 3 r.crCount
    ltrsFill := clampTo 0 3 r.ltrsFill
    refreshInterval := clampRefresh r.refreshInterval
    flashBells := clampTo 0 10 r.flashBells
    bulletinBells := clampTo 0 10 r.bulletinBells
    separation := clampTo 0 8 r.separation
    startDelay := clampTo 0 5000 r.startDelay / 100 * 100
    stopDelay := clampTo 1 600 r.stopDelay
    breakGuard := clampTo 1 10 r.breakGuard }

/-! ## The line record (R19, R182) -/

/-- The length of a line record. -/
def recordBytes : Nat := 61

/-- A sequence from its count and places; a count of 0 or above 6 is undefined (R19). -/
def sequenceAt (xs : List Byte) (i : Nat) : Option (List Byte) :=
  let n := byteAt xs i
  if n = 0 ∨ 6 < n then none else some ((xs.drop (i + 1)).take n)

/-- A line record as its 61 bytes offer it, not yet clamped but for the table slot; absent when an enumerated field or a
sequence count is undefined (R19, R182). -/
def readRecord (xs : List Byte) : Option LineRecord := do
  let mode ← Mode.ofNumber (byteAt xs 0)
  let keying ← Keying.ofNumber (byteAt xs 1)
  let inputFilter ← FilterTime.ofNumber (byteAt xs 6)
  let rxUnshift ← boolOf (byteAt xs 11)
  let framing ← Framing.ofNumber (byteAt xs 12)
  let opening ← sequenceAt xs 13
  let closing ← sequenceAt xs 20
  let defaultPriority ← Priority.ofNumber (byteAt xs 29)
  let markDoubtful ← boolOf (byteAt xs 38)
  let txUnshift ← boolOf (byteAt xs 42)
  let unrepPolicy ← UnrepPolicy.ofNumber (byteAt xs 47)
  let preempt ← PreemptThreshold.ofNumber (byteAt xs 52)
  let motorControl ← boolOf (byteAt xs 53)
  let breakPolicy ← BreakPolicy.ofNumber (byteAt xs 58)
  let alarmOnOpen ← boolOf (byteAt xs 60)
  some
    { mode := mode
      keying := keying
      unit := numAt xs 2 3
      stopLength := byteAt xs 5
      inputFilter := inputFilter
      markThreshold := byteAt xs 7
      openThreshold := byteAt xs 8
      lowThreshold := byteAt xs 9
      slot := clampSlot (byteAt xs 10)
      rxUnshift := rxUnshift
      framing := framing
      opening := opening
      closing := closing
      idleGap := numAt xs 27 2
      defaultPriority := defaultPriority
      priorityLetters := #v[xs.getD 30 0, xs.getD 31 0, xs.getD 32 0, xs.getD 33 0, xs.getD 34 0]
      distortionLimit := byteAt xs 35
      poorThreshold := byteAt xs 36
      goodThreshold := byteAt xs 37
      markDoubtful := markDoubtful
      doubtfulSubstitute := xs.getD 39 0
      openTime := numAt xs 40 2
      txUnshift := txUnshift
      width := byteAt xs 43
      crCount := byteAt xs 44
      ltrsFill := byteAt xs 45
      refreshInterval := byteAt xs 46
      unrepPolicy := unrepPolicy
      unrepSubstitute := xs.getD 48 0
      flashBells := byteAt xs 49
      bulletinBells := byteAt xs 50
      separation := byteAt xs 51
      preempt := preempt
      motorControl := motorControl
      startDelay := numAt xs 54 2
      stopDelay := numAt xs 56 2
      breakPolicy := breakPolicy
      breakGuard := byteAt xs 59
      alarmOnOpen := alarmOnOpen }

/-- The six places of a sequence, those beyond its count 0x00 (R19). -/
def sequencePlaces (seq : List Byte) : List Byte := (seq ++ List.replicate 6 0x00).take 6

/-- The 61 bytes of a line record (R182). -/
def LineRecord.bytes (r : LineRecord) : List Byte :=
  [byte1 r.mode.number, byte1 r.keying.number] ++ leBytes 3 r.unit
    ++ [byte1 r.stopLength, byte1 r.inputFilter.number, byte1 r.markThreshold, byte1 r.openThreshold,
        byte1 r.lowThreshold, byte1 r.slot.val, byte1 (boolNum r.rxUnshift), byte1 r.framing.number]
    ++ byte1 r.opening.length :: sequencePlaces r.opening
    ++ byte1 r.closing.length :: sequencePlaces r.closing
    ++ leBytes 2 r.idleGap ++ [byte1 r.defaultPriority.number] ++ r.priorityLetters.toList
    ++ [byte1 r.distortionLimit, byte1 r.poorThreshold, byte1 r.goodThreshold, byte1 (boolNum r.markDoubtful),
        r.doubtfulSubstitute]
    ++ leBytes 2 r.openTime
    ++ [byte1 (boolNum r.txUnshift), byte1 r.width, byte1 r.crCount, byte1 r.ltrsFill, byte1 r.refreshInterval,
        byte1 r.unrepPolicy.number, r.unrepSubstitute, byte1 r.flashBells, byte1 r.bulletinBells, byte1 r.separation,
        byte1 r.preempt.number, byte1 (boolNum r.motorControl)]
    ++ leBytes 2 r.startDelay ++ leBytes 2 r.stopDelay
    ++ [byte1 r.breakPolicy.number, byte1 r.breakGuard, byte1 (boolNum r.alarmOnOpen)]

/-! ## Handles, lines and origins (R180) -/

/-- A handle in two bytes. -/
def Handle.bytes (h : Handle) : List Byte := [byte1 h.index.val, byte1 h.generation.val]

/-- An absent handle (R180). -/
def absentHandle : List Byte := [0xFF, 0xFF]

/-- A handle or its absence. -/
def handleBytes : Option Handle → List Byte
  | none => absentHandle
  | some h => h.bytes

/-- The handle at byte `i` of a payload, when its generation byte can name one (R92, R180). -/
def handleAtByte (xs : List Byte) (i : Nat) : Option Handle :=
  if byteAt xs (i + 1) < 16 then
    some { index := Fin.ofNat 256 (byteAt xs i), generation := Fin.ofNat 16 (byteAt xs (i + 1)) }
  else none

/-- The line set at byte `i` of a payload (R180). -/
def lineSetAt (xs : List Byte) (i : Nat) : LineSet := BitVec.ofNat 16 (numAt xs i 2)

/-- A line number; above 15 is undefined. -/
def lineOf (n : Nat) : Option LineNo := if n < 16 then some (Fin.ofNat 16 n) else none

/-- An origin byte (R180). -/
def Origin.number : Origin → Nat
  | .line l => l.val
  | .desk .a => 16
  | .desk .b => 17

/-- The number of a port (R184). -/
def portNumber : Port → Nat
  | .a => 0
  | .b => 1

/-! ## Working state codes (R182) -/

def RxState.number : RxState → Nat
  | .disabled => 0
  | .idleMark => 1
  | .inCharacter _ => 2
  | .spaceHold => 3
  | .opened => 4

def RxReport.number : RxReport → Nat
  | .disabled => 0
  | .idleMark => 1
  | .inCharacter => 2
  | .spaceHold => 3
  | .opened => 4

def Quality.number : Quality → Nat
  | .good => 0
  | .poor => 1

def LoopState.number : LoopState → Nat
  | .unmeasured => 0
  | .normal => 1
  | .low => 2
  | .opened => 3

def AsmState.number : AsmState → Nat
  | .between => 0
  | .inStory _ _ => 1
  | .skipping => 2

def AsmState.story : AsmState → Option Handle
  | .between => none
  | .inStory h _ => some h
  | .skipping => none

def Case.number : Case → Nat
  | .letters => 0
  | .figures => 1

def EncCase.number : EncCase → Nat
  | .letters => 0
  | .figures => 1
  | .unknown => 2

def SendState.number : SendState → Nat
  | .off => 0
  | .stopped => 1
  | .starting => 2
  | .idle => 3
  | .sending => 4
  | .halted => 5

def Silence.number : Silence → Nat
  | .untimed => 0
  | .active => 1
  | .silent => 2

/-- The halt causes as bits 0 and 1 (R182). -/
def SendSide.causes (x : SendSide) : Nat := boolNum x.deskHold + 2 * boolNum x.breakIn

/-- The working state that READ_LINE appends (R21, R182). -/
def Line.workingBytes (x : Line) : List Byte :=
  leBytes 4 x.record.effectiveOpen
    ++ [byte1 x.rx.state.number, byte1 x.rx.distortion, byte1 x.rx.quality, byte1 x.rx.qualityState.number,
        byte1 x.rxLoop.loop.number, byte1 x.txLoop.loop.number, byte1 x.asm.state.number,
        byte1 x.asm.decoderCase.number]
    ++ handleBytes x.asm.state.story
    ++ [byte1 x.send.state.number, byte1 x.send.causes]
    ++ handleBytes (x.dist.current.map fun u => u.entry.handle)
    ++ [byte1 x.dist.queue.length, byte1 x.dist.stack.length, byte1 x.enc.encCase.number, byte1 x.enc.column]

/-! ## Tables, summaries, notices (R183, R184) -/

/-- A table entry's two bytes (R183). -/
def Entry.bytes (e : Entry) : List Byte := [byte1 e.kind.number, e.char]

/-- The fold flag and the 64 entries (R16, R181). -/
def Table.bytes (t : Table) : List Byte :=
  byte1 (boolNum t.fold) :: (t.letters.toList ++ t.figures.toList).flatMap Entry.bytes

/-- Entries from the bytes of a LOAD_TABLE payload; absent when a kind number is undefined (R13, R183). -/
def readEntries : Nat → List Byte → Option (List Entry)
  | 0, _ => some []
  | n + 1, k :: x :: rest => do
    let kind ← Kind.ofNumber k.toNat
    let es ← readEntries n rest
    some ({ kind := kind, char := x } :: es)
  | _ + 1, _ => none

/-- 32 entries of a list as a vector. -/
def entryVector (es : List Entry) : Vector Entry 32 :=
  { toArray := ⟨(List.range' 0 32).map fun i => (es.getD i { kind := .ignore, char := 0 }).taken⟩, size_toArray := by simp }

/-- The table a LOAD_TABLE payload offers, entries as a slot takes them; absent when the fold flag or a kind number is
undefined (R13). -/
def readTable (xs : List Byte) : Option Table := do
  let fold ← boolOf (byteAt xs 1)
  let es ← readEntries 64 (xs.drop 2)
  some { fold := fold, letters := entryVector (es.take 32), figures := entryVector (es.drop 32) }

/-- State codes of a story (R183, R186). -/
def StoryState.number : StoryState → Nat
  | .assembling => 1
  | .composing => 2
  | .complete => 3

/-- A holder's code (R183). -/
def holderNumber : Option Port → Nat
  | none => 0
  | some .a => 1
  | some .b => 2

/-- A story summary (R183). -/
def summaryBytes (h : Handle) (st : Story) : List Byte :=
  h.bytes
    ++ [byte1 (st.state.number + 4 * boolNum st.interest.a + 8 * boolNum st.interest.b + 16 * holderNumber st.holder),
        byte1 st.origin.number,
        byte1 (st.priority.number + 8 * boolNum st.truncated + 16 * boolNum st.unterminated)]
    ++ leBytes 2 st.length ++ leBytes 2 st.doubtful ++ leBytes 2 st.pending.toNat ++ leBytes 2 st.openedStamp.day
    ++ leBytes 3 st.openedStamp.second

def DiscardCause.number : DiscardCause → Nat
  | .discard => 0
  | .reclaim => 1

def DistOutcome.number : DistOutcome → Nat
  | .completed => 0
  | .withdrawn => 1
  | .abandoned => 2
  | .notQueued => 3

def Side.number : Side → Nat
  | .receive => 0
  | .send => 1

/-- State and new value of a LINE_STATE (R184). -/
def LineReport.bytes : LineReport → List Byte
  | .receiver v => [0, byte1 v.number]
  | .quality v => [1, byte1 v.number]
  | .loop v => [2, byte1 v.number]
  | .breakIn v => [3, byte1 (boolNum v)]

/-- A notice record (R184). -/
def Notice.bytes (n : Notice) : List Byte :=
  byte1 n.kind ::
    match n with
    | .storyArriving l h p => byte1 l.val :: h.bytes ++ [byte1 p.number, 0, 0, 0]
    | .storyClosed l h p t u len =>
      byte1 l.val :: h.bytes ++ [byte1 p.number, byte1 (boolNum t + 2 * boolNum u)] ++ leBytes 2 len
    | .storyDiscarded o h c p len => byte1 o.number :: h.bytes ++ [byte1 c.number, byte1 p.number] ++ leBytes 2 len
    | .inboundLost l => byte1 l.val :: absentHandle ++ [0, 0, 0, 0]
    | .distributionEnd l h o n => byte1 l.val :: h.bytes ++ [byte1 o.number, 0] ++ leBytes 2 n
    | .lineState l side r => byte1 l.val :: absentHandle ++ byte1 side.number :: r.bytes ++ [0]
    | .poolLow n => 0xFF :: absentHandle ++ leBytes 2 n ++ [0, 0]
    | .poolRecovered n => 0xFF :: absentHandle ++ leBytes 2 n ++ [0, 0]
    | .portSilent p => 0xFF :: absentHandle ++ [byte1 (portNumber p), 0, 0, 0]
    | .unattendedBegin => 0xFF :: absentHandle ++ [0, 0, 0, 0]
    | .unattendedEnd => 0xFF :: absentHandle ++ [0, 0, 0, 0]

/-! ## STATUS (R185) -/

/-- The two bytes of a line in STATUS. -/
def Line.statusBytes (x : Line) : List Byte :=
  [byte1 (x.record.mode.number + 4 * x.rx.state.number + 32 * x.send.state.number),
    byte1 (x.rxLoop.loop.number + 4 * x.txLoop.loop.number + 16 * x.rx.qualityState.number + 32 * x.send.causes)]

/-- The STATUS payload (R174, R185). -/
def State.statusBytes (s : State) : List Byte :=
  [byte1 (boolNum s.room.unattended)] ++ leBytes 2 s.store.freeCount ++ leBytes 2 s.store.freeRecords
    ++ leBytes 2 s.room.clock.day ++ leBytes 4 s.room.clock.second
    ++ [byte1 (boolNum s.room.clock.isSet),
        byte1 (boolNum s.room.unattended + 2 * boolNum s.store.exhausted + 4 * boolNum s.loopOpenCause)]
    ++ s.lines.toList.flatMap Line.statusBytes
    ++ [byte1 (s.portA.silence.number + 4 * s.portB.silence.number)]

/-! ## Lists and room options (R181, R186) -/

def LineResult.number : LineResult → Nat
  | .queued => 0
  | .already => 1
  | .queueFull => 2
  | .lineMode => 3
  | .withdrawn => 4
  | .notPending => 5

/-- A per-line result list (R186). -/
def resultBytes (rs : List (LineNo × LineResult)) : List Byte :=
  rs.flatMap fun p => [byte1 p.1.val, byte1 p.2.number]

/-- The eleven bytes of the room options (R181). -/
def RoomOptions.bytes (o : RoomOptions) : List Byte :=
  leBytes 2 o.monitors.toNat ++ leBytes 2 o.sources.toNat ++ [byte1 o.bound.number, byte1 o.tone.number]
    ++ o.bellCounts.toList.map byte1

/-- Room options from a SET_ROOM_OPTIONS payload, bell counts clamped; absent when bound or frequency is undefined (R191). -/
def readRoomOptions (xs : List Byte) : Option RoomOptions := do
  let bound ← Priority.ofNumber (byteAt xs 4)
  let tone ← BellTone.ofNumber (byteAt xs 5)
  some
    { monitors := lineSetAt xs 0
      sources := lineSetAt xs 2
      bound := bound
      tone := tone
      bellCounts := #v[min (byteAt xs 6) 9, min (byteAt xs 7) 9, min (byteAt xs 8) 9, min (byteAt xs 9) 9,
        min (byteAt xs 10) 9] }

/-! ## Responses (R172, R173) -/

/-- The status codes of R173. -/
inductive Status where
  | done
  | unknownCommand
  | badLength
  | badValue
  | stale
  | notHolder
  | wrongState
  | poolLow
  | directoryFull
  | tooLong
  | tableInUse
  | tableInvalid
  | lineMode
  deriving DecidableEq, Repr

def Status.number : Status → Nat
  | .done => 0
  | .unknownCommand => 1
  | .badLength => 2
  | .badValue => 3
  | .stale => 4
  | .notHolder => 5
  | .wrongState => 6
  | .poolLow => 7
  | .directoryFull => 8
  | .tooLong => 9
  | .tableInUse => 10
  | .tableInvalid => 11
  | .lineMode => 12

/-- The sum of bytes modulo 256 (R171). -/
def byteSum (xs : List Byte) : Byte := xs.foldl (· + ·) 0

/-- The bytes of a response, from SYNC to CHECK (R172, R180). -/
def responseBytes (code : Byte) (st : Status) (payload : List Byte) : List Byte :=
  let body := [code, byte1 st.number, byte1 payload.length] ++ payload
  0x80 :: body ++ [0 - byteSum body]

end Sys2Proof.Machine
end

