-- ==== Sys2Proof/Machine/Assembling.lean ====
section
/-! DEFINITION. The assembler (chapter 5): decoding, hold-back matching, opening, storing and closing of inbound stories. -/

namespace Sys2Proof.Machine

/-- The idle-gap timer loaded with the record's G, read now (R82). -/
def State.loadIdleGap (s : State) (l : LineNo) : State :=
  s.modAsm l fun a => { a with idleGap := some (s.timerS (s.line l).record.idleGap) }

/-- The hold-back buffer set. -/
def State.setHeld (s : State) (l : LineNo) (held : List Held) : State := s.modAsm l fun a => { a with held := held }

/-- The assembler enters SKIPPING, which loads the idle-gap timer (R77, R82). -/
def State.enterSkipping (s : State) (l : LineNo) : State :=
  (s.modAsm l fun a => { a with state := .skipping }).loadIdleGap l

/-! ## Priority (R78) -/

/-- The priority a character names by a record's letters, the higher where two letters are equal; the default where none is
equal (R78). -/
def LineRecord.priorityOf (r : LineRecord) (default : Priority) (x : Byte) : Priority :=
  if r.priorityLetters.get 0 = x then .flash
  else if r.priorityLetters.get 1 = x then .bulletin
  else if r.priorityLetters.get 2 = x then .urgent
  else if r.priorityLetters.get 3 = x then .routine
  else if r.priorityLetters.get 4 = x then .deferred
  else default

/-- The open story's priority is decided: the mark, the story's priority and the bell request (R78). -/
def State.decidePriority (s : State) (l : LineNo) (h : Handle) (p : Priority) : State :=
  ((s.modAsm l fun a => { a with state := .inStory h true }).modStory h fun st => { st with priority := p }).ringFor p

/-! ## Storing (R79) -/

/-- What storing a character came to. -/
inductive Stored where
  /-- The character is in the story. -/
  | stored
  /-- The story is at the cap (R80). -/
  | capped
  /-- No cell can be had (R81). -/
  | noCell
  deriving DecidableEq, Repr

/-- A character put at the end of a story that has the cell for it (R79). -/
def State.putChar (s : State) (h : Handle) (c : Held) : State :=
  match s.storyOf h with
  | none => s
  | some st =>
    (s.modStore fun x => { x with text := x.text.write (textAddress st.chain st.length) c.char }).modStory h fun st =>
      { st with length := st.length + 1, doubtful := st.doubtful + (if c.doubtful then 1 else 0) }

/-- A character stored in the open story: the cap, then the cell, then the place (R79). -/
def State.storeChar (s : State) (h : Handle) (c : Held) : Stored × State :=
  if Config.storyCap ≤ s.lengthOf h then (.capped, s)
  else if s.lengthOf h % Config.cellPlaces = 0 then
    match s.requestCell h.index with
    | (true, s) => (.stored, s.putChar h c)
    | (false, s) => (.noCell, s)
  else (.stored, s.putChar h c)

/-- The deciding character's effect after a character has been stored: it decides an undecided story unless it is a space or a
newline (R78). -/
def State.considerPriority (s : State) (l : LineNo) (h : Handle) (decided : Bool) (x : Byte) : State :=
  if decided = true ∨ x = 0x20 ∨ x = 0x0A then s
  else
    match s.storyOf h with
    | none => s
    | some st => s.decidePriority l h ((s.line l).record.priorityOf st.priority x)

/-- A character committed: stored in IN_STORY, discarded otherwise (R73). -/
def State.commit (s : State) (l : LineNo) (c : Held) : Stored × State :=
  match (s.line l).asm.state with
  | .inStory h decided =>
    match s.storeChar h c with
    | (.stored, s) => (.stored, s.considerPriority l h decided c.char)
    | (.capped, s) => (.capped, s)
    | (.noCell, s) => (.noCell, s)
  | .between => (.stored, s)
  | .skipping => (.stored, s)

/-- Characters committed in order, up to the first that is refused (R73, R81). -/
def State.commitAll (s : State) (l : LineNo) : List Held → Stored × State
  | [] => (.stored, s)
  | c :: cs =>
    match s.commit l c with
    | (.stored, s) => s.commitAll l cs
    | (.capped, s) => (.capped, s)
    | (.noCell, s) => (.noCell, s)

/-! ## Opening (R75, R76) -/

/-- The ports whose interest mask includes a line (R75, R76). -/
def State.interested (s : State) (l : LineNo) : PortSet :=
  { a := lineIn s.portA.interest l, b := lineIn s.portB.interest l }

/-- The story a line opens now (R75). -/
def State.newInbound (s : State) (l : LineNo) : Story where
  state := .assembling
  origin := .line l
  priority := (s.line l).record.defaultPriority
  truncated := false
  unterminated := false
  length := 0
  chain := []
  doubtful := 0
  openedStamp := s.stamp
  closedStamp := none
  holder := none
  interest := s.interested l
  pending := 0

/-- A story opens, or is lost for want of a record (R75, R76). On a CONTINUOUS line the priority is decided at once (R78). -/
def State.openInbound (s : State) (l : LineNo) : State :=
  match s.requestRecord with
  | (none, s) =>
    ((s.postSet (s.interested l) (.inboundLost l)).raiseExhausted).enterSkipping l
  | (some i, s) =>
    let st := s.newInbound l
    let h := s.handleAt i
    let s := (s.makeStory i st).modAsm l fun a => { a with state := .inStory h false }
    let s := if (s.line l).record.framing = .continuous then s.decidePriority l h st.priority else s
    (s.loadIdleGap l).postSet st.interest (.storyArriving l h st.priority)

/-! ## Closing (R77) -/

/-- Where the assembler goes after a close. -/
inductive AfterClose where
  | between
  | skipping
  | reopen
  deriving DecidableEq, Repr

/-- Steps 2 to 7 of a close (R77). -/
def State.finishClose (s : State) (l : LineNo) (truncated unterminated : Bool) (after : AfterClose) : State :=
  match (s.line l).asm.state with
  | .inStory h decided =>
    let s := if decided then s else
      match s.storyOf h with
      | none => s
      | some st => s.decidePriority l h st.priority
    let stamp := s.stamp
    let s := (s.modStory h fun st =>
      { st with
        state := .complete
        truncated := truncated
        unterminated := unterminated
        closedStamp := some stamp }).modAsm l fun a => { a with state := .between, idleGap := none }
    let s :=
      match s.storyOf h with
      | none => s
      | some st =>
        ((s.postSet st.interest (.storyClosed l h st.priority truncated unterminated st.length)).offerStory l h
          st.priority).freeingTest h.index
    match after with
    | .between => s
    | .skipping => s.enterSkipping l
    | .reopen => s.openInbound l
  | .between => s
  | .skipping => s

/-- A close that discards what is held: the cap, or a full store (R80, R81). -/
def State.cutShort (s : State) (l : LineNo) (why : Stored) : State :=
  let s := if why = .noCell then s.raiseExhausted else s
  (s.setHeld l []).finishClose l true false .skipping

/-- A close that commits what is held; a refused commit adds TRUNCATED and discards the rest (R77 step 1, R81). -/
def State.closeCommitting (s : State) (l : LineNo) (truncated unterminated : Bool) : State :=
  let held := (s.line l).asm.held
  let (r, s) := (s.setHeld l []).commitAll l held
  let s := if r = .noCell then s.raiseExhausted else s
  s.finishClose l (truncated || decide (r ≠ .stored)) unterminated .between

/-! ## Matching on FRAMED lines (R70, R71, R72) -/

/-- One list is a proper beginning of another: 1 or more characters, and shorter (R70). -/
def isProperStart (xs seq : List Byte) : Bool := xs.isPrefixOf seq && decide (1 ≤ xs.length) && decide (xs.length < seq.length)

/-- The sequences an assembly state watches (R70). -/
def AsmState.watched (a : AsmState) (r : LineRecord) : List (List Byte) :=
  match a with
  | .between => [r.opening]
  | .inStory _ _ => [r.opening, r.closing]
  | .skipping => [r.opening, r.closing]

/-- The sequence a candidate equals in full, by the assembly state: the closing one first in IN_STORY, the opening one first
in SKIPPING (R71 step 1, R72). -/
inductive Found where
  | opening
  | closing
  deriving DecidableEq, Repr

/-- What full sequence the candidate is (R72). -/
def AsmState.found (a : AsmState) (r : LineRecord) (xs : List Byte) : Option Found :=
  match a with
  | .between => if xs = r.opening then some .opening else none
  | .inStory _ _ => if xs = r.closing then some .closing else if xs = r.opening then some .opening else none
  | .skipping => if xs = r.opening then some .opening else if xs = r.closing then some .closing else none

/-- A full sequence acted on (R72). -/
def State.sequenceFound (s : State) (l : LineNo) (f : Found) : State :=
  match (s.line l).asm.state, f with
  | .between, .opening => s.openInbound l
  | .between, .closing => s
  | .inStory _ _, .opening => s.finishClose l false true .reopen
  | .inStory _ _, .closing => s.finishClose l false false .between
  | .skipping, .opening => s.openInbound l
  | .skipping, .closing => s.modAsm l fun a => { a with state := .between, idleGap := none }

/-- The steps of an arrival on a candidate, with the buffer empty meanwhile (R71). -/
def State.arrive (s : State) (l : LineNo) : List Held → State
  | [] => s
  | c :: cs =>
    let chars := (c :: cs).map Held.char
    let a := (s.line l).asm.state
    let r := (s.line l).record
    match a.found r chars with
    | some f => s.sequenceFound l f
    | none =>
      if (a.watched r).any (isProperStart chars) then s.setHeld l (c :: cs)
      else
        match s.commit l c with
        | (.stored, s) => s.arrive l cs
        | (.capped, s) => s.cutShort l .capped
        | (.noCell, s) => s.cutShort l .noCell

/-- A storing character on a FRAMED line (R71). -/
def State.framedChar (s : State) (l : LineNo) (c : Held) : State :=
  let held := (s.line l).asm.held
  (s.setHeld l []).arrive l (held ++ [c])

/-- A storing character stored in the open story of a CONTINUOUS line (R74). -/
def State.storeContinuous (s : State) (l : LineNo) (c : Held) : State :=
  match s.commit l c with
  | (.stored, s) => s
  | (.capped, s) => s.cutShort l .capped
  | (.noCell, s) => s.cutShort l .noCell

/-- A storing character on a CONTINUOUS line (R74). -/
def State.continuousChar (s : State) (l : LineNo) (c : Held) : State :=
  match (s.line l).asm.state with
  | .between => (s.openInbound l).storeContinuous l c
  | .inStory _ _ => s.storeContinuous l c
  | .skipping => s

/-! ## Decoding (R67, R68) -/

/-- The storing character an entry yields under a record, if its kind stores (R67, R68). -/
def LineRecord.yields (r : LineRecord) (e : Entry) (doubtful : Bool) : Option Byte :=
  match e.kind with
  | .print => some (if doubtful && r.markDoubtful then r.doubtfulSubstitute else e.char)
  | .space => some (if doubtful && r.markDoubtful then r.doubtfulSubstitute else 0x20)
  | .lf => some 0x0A
  | .bell => some 0x07
  | .cr => none
  | .ltrs => none
  | .figs => none
  | .blank => none
  | .ignore => none

/-- The decoder case after an entry (R67). -/
def LineRecord.caseAfter (r : LineRecord) (e : Entry) (c : Case) : Case :=
  match e.kind with
  | .ltrs => .letters
  | .figs => .figures
  | .space => if r.rxUnshift then .letters else c
  | .print => c
  | .cr => c
  | .lf => c
  | .bell => c
  | .blank => c
  | .ignore => c

/-- The idle-gap timer restarted by a storing character in IN_STORY or SKIPPING (R67, R82). -/
def State.restartIdleGap (s : State) (l : LineNo) : State :=
  match (s.line l).asm.state with
  | .between => s
  | .inStory _ _ => s.loadIdleGap l
  | .skipping => s.loadIdleGap l

/-- A delivered code decoded and acted on (R67). -/
def State.decodeCode (s : State) (l : LineNo) (k : Code) (doubtful : Bool) : State :=
  let r := (s.line l).record
  let e := (s.tables.get r.slot).entry (s.line l).asm.decoderCase k
  let s := s.modAsm l fun a => { a with decoderCase := r.caseAfter e a.decoderCase }
  match r.yields e doubtful with
  | none => s
  | some x =>
    let s := s.restartIdleGap l
    match r.framing with
    | .framed => s.framedChar l { char := x, doubtful := doubtful }
    | .continuous => s.continuousChar l { char := x, doubtful := doubtful }

/-! ## Idle gap, open line, reset (R83, R84, R85, R25) -/

/-- Expiry of the idle-gap timer (R83). -/
def State.idleGapOver (s : State) (l : LineNo) : State :=
  let s := s.modAsm l fun a => { a with idleGap := none }
  match (s.line l).asm.state with
  | .inStory _ _ =>
    match (s.line l).record.framing with
    | .framed => s.closeCommitting l false true
    | .continuous => s.closeCommitting l false false
  | .skipping => s.modAsm l fun a => { a with state := .between, held := [] }
  | .between => s

/-- The assembler is told that the receiver is OPEN (R84). -/
def State.assemblerOpen (s : State) (l : LineNo) : State :=
  let s :=
    match (s.line l).asm.state with
    | .inStory _ _ => s.closeCommitting l false true
    | .between => s.setHeld l []
    | .skipping => s.setHeld l []
  s.modAsm l fun a => { a with decoderCase := .letters }

/-- A line reset, or the removal of the receive side, acting on the assembler (R85). -/
def State.resetAssembler (s : State) (l : LineNo) : State :=
  let s :=
    match (s.line l).asm.state with
    | .inStory _ _ => s.closeCommitting l true false
    | .between => s
    | .skipping => s
  s.modAsm l fun _ => freshAssembler

/-- Every held character committed at once, at a change of framing or of a sequence (R25). -/
def State.commitHeld (s : State) (l : LineNo) : State :=
  let held := (s.line l).asm.held
  match (s.setHeld l []).commitAll l held with
  | (.stored, s) => s
  | (.capped, s) => s.cutShort l .capped
  | (.noCell, s) => s.cutShort l .noCell

end Sys2Proof.Machine
end

