-- ==== Sys2Proof/Machine/Receiving.lean ====
section
/-! DEFINITION. The receive side (chapter 4) and the input filter that feeds it (R36, R37): reports, sample decisions,
delivery, the quality figure and the open line. -/

namespace Sys2Proof.Machine

/-! ## Levels and settled ticks (R49) -/

/-- The line's level at a tick: the level held since its own tick, and the opposite one before it, since reports alternate
(R49). A receiver with no level reads as its idle line, mark. -/
def Receiver.levelAt (x : Receiver) (t : Nat) : Level :=
  match x.level with
  | none => .mark
  | some v => if v.since ≤ t then v.level else v.level.other

/-- The level at a tick is settled: the filter holds no pending change first seen at or before it (R49). -/
def Line.settled (x : Line) (t : Nat) : Bool :=
  match x.filter with
  | none => true
  | some f =>
    match f.pending with
    | none => true
    | some p => decide (t < p.since)

/-! ## Ticks of the decisions (R50, R60) -/

/-- The tick of the start check. -/
def Character.startCheckTick (c : Character) : Nat := c.start + c.settings.unit / 2

/-- The tick of element sample k. -/
def Character.elementTick (c : Character) (k : Nat) : Nat := c.start + (2 * k + 1) * c.settings.unit / 2

/-- The tick of the stop sample. -/
def Character.stopTick (c : Character) : Nat := c.start + 13 * c.settings.unit / 2

/-- A character of a receiver. -/
def RxState.char : RxState → Option Character
  | .inCharacter c => some c
  | .disabled => none
  | .idleMark => none
  | .spaceHold => none
  | .opened => none

/-- The tick of the next sample decision of a character (R50). -/
def Character.nextTick (c : Character) : Nat :=
  if c.confirmed = false then c.startCheckTick
  else if c.elements.length < 5 then c.elementTick (c.elements.length + 1)
  else c.stopTick

/-- The ticks of the decisions that a receive side still has to take: the next sample, and the end of the space count
(R50, R60). -/
def Line.decisionTicks (x : Line) : List Nat :=
  (match x.rx.state.char with
    | none => []
    | some c => [c.nextTick]) ++
  (match x.rx.space with
    | none => []
    | some c => [c.begun + c.openTime])

/-- No decision about an earlier tick is still to be taken: decisions and reports are handled in the order of their ticks
(R49). -/
def Line.firstAt (x : Line) (t : Nat) : Bool := x.decisionTicks.all fun d => decide (t ≤ d)

/-- A tick, once its level is settled and its turn has come (R49). -/
def Line.onceSettled (x : Line) (t : Nat) : Option Nat := if x.settled t && x.firstAt t then some t else none

/-- When the start check is due (R51). -/
def Line.startCheckDue (x : Line) : Option Nat :=
  match x.rx.state.char with
  | none => none
  | some c => if c.confirmed then none else x.onceSettled c.startCheckTick

/-- When the next element sample is due (R52). -/
def Line.elementDue (x : Line) : Option Nat :=
  match x.rx.state.char with
  | none => none
  | some c =>
    if c.confirmed ∧ c.elements.length < 5 then x.onceSettled (c.elementTick (c.elements.length + 1)) else none

/-- When the stop sample is due (R53). -/
def Line.stopDue (x : Line) : Option Nat :=
  match x.rx.state.char with
  | none => none
  | some c => if c.confirmed ∧ 5 ≤ c.elements.length then x.onceSettled c.stopTick else none

/-- When the space count expires (R60). -/
def Line.spaceDue (x : Line) : Option Nat :=
  match x.rx.space with
  | none => none
  | some c => x.onceSettled (c.begun + c.openTime)

/-- When the pending change of the filter completes, and is reported (R36): a report waits for the decisions about ticks before
its own (R49). -/
def Line.pendingDue (x : Line) : Option Nat :=
  match x.filter with
  | none => none
  | some f =>
    match f.pending with
    | none => none
    | some p => if x.firstAt p.since then some (p.since + p.filter) else none

/-! ## Distortion (R56) -/

/-- The distance of `x` ticks from the nearest multiple of the unit (R56). -/
def deviationOf (x unit : Nat) : Nat := min (x % unit) (unit - x % unit)

/-- A transition of the frame at a tick: the deviation is kept when it is the largest (R56). -/
def Character.transition (c : Character) (t : Nat) : Character :=
  if c.start < t ∧ t ≤ c.stopTick then
    { c with deviation := max c.deviation (deviationOf (t - c.start) c.settings.unit) }
  else c

/-- The distortion of a character (R56). -/
def Character.distortion (c : Character) : Nat := 100 * c.deviation / c.settings.unit

/-! ## Reports (R50, R55, R62) -/

/-- A space count begun at a tick with the record's effective open time now (R60). -/
def Line.spaceFrom (x : Line) (t : Nat) : SpaceCount := { begun := t, openTime := x.record.effectiveOpen }

/-- The settings a start edge reads (R24). -/
def LineRecord.charSettings (r : LineRecord) : CharSettings :=
  { unit := r.unit, limit := r.distortionLimit, poor := r.poorThreshold, good := r.goodThreshold }

/-- The character a start edge begins (R50). -/
def Line.newCharacter (x : Line) (t : Nat) : Character :=
  { start := t, settings := x.record.charSettings, confirmed := false, elements := [], deviation := 0 }

/-- The receive side after a report (R55). -/
def Line.reported (x : Line) (v : Level) (t : Nat) : Receiver :=
  let level := some { level := v, since := t : LevelSince }
  match x.rx.state, v with
  | .disabled, _ => x.rx
  | .idleMark, .mark => { x.rx with level := level, space := none }
  | .idleMark, .space =>
    { x.rx with level := level, state := .inCharacter (x.newCharacter t), space := some (x.spaceFrom t) }
  | .inCharacter c, .mark => { x.rx with level := level, state := .inCharacter (c.transition t), space := none }
  | .inCharacter c, .space =>
    { x.rx with level := level, state := .inCharacter (c.transition t), space := some (x.spaceFrom t) }
  | .spaceHold, .mark => { x.rx with level := level, state := .idleMark, space := none }
  | .spaceHold, .space => { x.rx with level := level }
  | .opened, .mark => { x.rx with level := level, state := .idleMark, space := none }
  | .opened, .space => { x.rx with level := level }

/-- A level report taken by the receive side; leaving OPEN posts LINE_STATE (R55, R62). -/
def State.report (s : State) (l : LineNo) (v : Level) (t : Nat) : State :=
  let leaves := decide ((s.line l).rx.state = .opened) && decide (v = .mark)
  let s := s.modLine l fun x => { x with rx := x.reported v t }
  if leaves then s.postLine l .receive (.receiver .idleMark) else s

/-! ## The input filter (R36, R37) -/

/-- The filtered level becomes the pending one, and the change is reported with its first tick (R36). -/
def State.completeChange (s : State) (l : LineNo) : State :=
  match (s.line l).filter with
  | none => s
  | some f =>
    match f.pending with
    | none => s
    | some p => (s.modLine l fun x => { x with filter := some { level := p.level, pending := none } }).report l p.level p.since

/-- A change of raw level now, to the line's present raw level (R36). -/
def State.rawChanged (s : State) (l : LineNo) : State :=
  match (s.line l).filter with
  | none => s
  | some f =>
    let raw := (s.line l).rawLevel
    match f.pending with
    | some _ => if raw = f.level then s.modLine l fun x => { x with filter := some { f with pending := none } } else s
    | none =>
      if raw = f.level then s
      else
        let wait := (s.line l).record.inputFilter.ticks
        let s := s.modLine l fun x =>
          { x with filter := some { f with pending := some { level := raw, since := s.tick, filter := wait } } }
        if wait = 0 then s.completeChange l else s

/-- The raw level of a line compared with an earlier one: a change goes to the filter (R34, R36). -/
def State.feedFilter (s : State) (l : LineNo) (before : Level) : State :=
  if (s.line l).rawLevel = before then s else s.rawChanged l

/-- The filter begun afresh from the raw level (R37). -/
def Line.freshFilter (x : Line) : InputFilter := { level := x.rawLevel, pending := none }

/-! ## Sample decisions (R51, R52, R53) -/

/-- The start check: MARK drops the character as a GLITCH, SPACE confirms it (R51). -/
def State.checkStart (s : State) (l : LineNo) : State :=
  s.modRx l fun x =>
    match x.state with
    | .inCharacter c =>
      match x.levelAt c.startCheckTick with
      | .mark => { x with state := .idleMark }
      | .space => { x with state := .inCharacter { c with confirmed := true } }
    | .disabled => x
    | .idleMark => x
    | .spaceHold => x
    | .opened => x

/-- An element sample stores the level (R52). -/
def State.sampleElement (s : State) (l : LineNo) : State :=
  s.modRx l fun x =>
    match x.state with
    | .inCharacter c =>
      { x with
        state := .inCharacter
          { c with elements := c.elements ++ [x.levelAt (c.elementTick (c.elements.length + 1))] } }
    | .disabled => x
    | .idleMark => x
    | .spaceHold => x
    | .opened => x

/-- The quality figure after a delivered character (R58). -/
def qualityAfter (q : Nat) (doubtful : Bool) : Nat := min (q - q / 16 + (if doubtful then 16 else 0)) 255

/-- The quality state judged against thresholds (R59). -/
def Quality.judged (x : Quality) (q poor good : Nat) : Quality :=
  match x with
  | .good => if poor ≤ q then .poor else .good
  | .poor => if q < good then .good else .poor

/-- The delivery of a character: last distortion, quality figure and state with its notice, then the code to the assembler
(R57, R58, R59). -/
def State.deliver (s : State) (l : LineNo) (c : Character) (framingGood : Bool) : State :=
  let doubtful := !framingGood || decide (c.settings.limit < c.distortion)
  let x := (s.line l).rx
  let q := qualityAfter x.quality doubtful
  let state := x.qualityState.judged q c.settings.poor c.settings.good
  let s := s.modRx l fun x => { x with distortion := c.distortion, quality := q, qualityState := state }
  let s := if state = x.qualityState then s else s.postLine l .receive (.quality state)
  s.decodeCode l (elementsCode c.elements) doubtful

/-- The stop sample: framing is judged, the receiver goes to IDLE_MARK or SPACE_HOLD, the character is delivered (R53). -/
def State.sampleStop (s : State) (l : LineNo) : State :=
  match (s.line l).rx.state with
  | .inCharacter c =>
    match (s.line l).rx.levelAt c.stopTick with
    | .mark => (s.modRx l fun x => { x with state := .idleMark }).deliver l c true
    | .space => (s.modRx l fun x => { x with state := .spaceHold }).deliver l c false
  | .disabled => s
  | .idleMark => s
  | .spaceHold => s
  | .opened => s

/-- Expiry of the space count: OPEN, its notice, and the assembler told (R61). -/
def State.openLine (s : State) (l : LineNo) : State :=
  ((s.modRx l fun x => { x with state := .opened, space := none }).postLine l .receive
    (.receiver .opened)).assemblerOpen l

/-! ## Start, reset and removal of the receive side (R63, R64, R29) -/

/-- A receiver as a start or a reset leaves it, from a starting level at a tick (R47, R60). -/
def Line.startedReceiver (x : Line) (t : Nat) : Receiver where
  state := .idleMark
  level := some { level := x.rawLevel, since := t }
  space := if x.rawLevel = .space then some (x.spaceFrom t) else none
  distortion := 0
  quality := 0
  qualityState := .good

/-- The notices of a reset or a removal: the receiver's state when it was OPEN, the quality state when it was POOR (R63,
R64). -/
def State.postReceiverReset (s : State) (l : LineNo) (was : Receiver) (now : RxReport) : State :=
  let s := if was.state = .opened then s.postLine l .receive (.receiver now) else s
  if was.qualityState = .poor then s.postLine l .receive (.quality .good) else s

/-- Step 4 of the line reset: filter and receiver begin afresh (R63, R37). -/
def State.resetReceiver (s : State) (l : LineNo) : State :=
  let was := (s.line l).rx
  (s.modLine l fun x => { x with filter := some x.freshFilter, rx := x.startedReceiver s.tick }).postReceiverReset l was
    .idleMark

/-- The receiver of a removed receive side (R64). -/
def State.disableReceiver (s : State) (l : LineNo) : State :=
  let was := (s.line l).rx
  (s.modLine l fun x => { x with filter := none, rx := disabledReceiver }).postReceiverReset l was .disabled

end Sys2Proof.Machine
end

