-- ==== Sys2Proof/Machine/Sensing.lean ====
section
/-! DEFINITION. The loop sensing unit's converter and loop states (R38 to R44), and what a change of loop state does to the
send side (R164, R165). -/

namespace Sys2Proof.Machine

/-! ## Channels (R32, R33) -/

/-- The line of a channel. -/
def channelLine (c : ChannelNo) : LineNo := Fin.ofNat 16 c.val

/-- The side of a channel: 0..15 receive, 16..31 send. -/
def channelSide (c : ChannelNo) : Side := if c.val < 16 then .receive else .send

/-- The loop channel of a side. -/
def Line.channel (x : Line) : Side → LoopChannel
  | .receive => x.rxLoop
  | .send => x.txLoop

/-- A line with the loop channel of a side replaced. -/
def Line.setChannel (x : Line) (side : Side) (c : LoopChannel) : Line :=
  match side with
  | .receive => { x with rxLoop := c }
  | .send => { x with txLoop := c }

/-- The current on the pin of a side. -/
def Line.current (x : Line) : Side → Int
  | .receive => x.rxCurrent
  | .send => x.txCurrent

/-- The side's channel is active (R33). -/
def Line.active (x : Line) : Side → Bool
  | .receive => x.record.mode.hasReceive
  | .send => x.record.mode.hasSend

/-- The side's channel is eligible for conversion (R39). -/
def Line.eligible (x : Line) (side : Side) : Bool :=
  x.active side &&
    match side with
    | .receive => decide (x.record.keying = .polar) || decide (x.rawLevel = .mark)
    | .send => decide (x.sendKeying = .polar) || decide (x.send.key = .mark)

/-- A channel is eligible (R39). -/
def State.eligible (s : State) (c : ChannelNo) : Bool := (s.line (channelLine c)).eligible (channelSide c)

/-! ## The converter (R38) -/

/-- The order in which a search looks at the channels: from one above the position, wrapping, the position last (R38). -/
def searchOrder (position : ChannelNo) : List ChannelNo :=
  (List.range' 1 32).map fun k => Fin.ofNat 32 (position.val + k)

/-- The converter's search: the first eligible channel is converted at once and becomes the position; with none the converter
rests (R38). -/
def State.searchConverter (s : State) : State :=
  match (searchOrder s.converter.position).find? s.eligible with
  | none => { s with converter := { s.converter with conversion := none } }
  | some c =>
    { s with
      converter :=
        { position := c
          conversion := some
            { channel := c
              start := s.tick
              current := (s.line (channelLine c)).current (channelSide c)
              void := false } } }

/-- A resting converter searches at each moment when some channel may have become eligible (R38). -/
def State.wakeConverter (s : State) : State :=
  if s.converter.conversion.isSome then s else s.searchConverter

/-- The reading of a conversion on one of a line's channels is to be discarded: the line has been reset, or the channel has
become inactive (R40). -/
def State.voidConversion (s : State) (l : LineNo) (hit : Side → Bool) : State :=
  match s.converter.conversion with
  | none => s
  | some c =>
    if channelLine c.channel = l ∧ hit (channelSide c.channel) then
      { s with converter := { s.converter with conversion := some { c with void := true } } }
    else s

/-- When the conversion in progress ends (R38). -/
def State.conversionDue (s : State) : Option Nat :=
  match s.converter.conversion with
  | none => none
  | some c => some (c.start + Config.conversionTicks)

/-! ## Loop states (R41 to R44) -/

/-- The send side told of a change of its loop state: OPEN is a break-in in STARTING, IDLE, SENDING and HALTED; leaving OPEN
for NORMAL or LOW loads the guard while BREAK_IN holds (R164, R165). -/
def State.sendLoopChanged (s : State) (l : LineNo) (was now : LoopState) : State :=
  if now = .opened then
    match (s.line l).send.state with
    | .off => s
    | .stopped => s
    | .starting => s.takeBreakIn l
    | .idle => s.takeBreakIn l
    | .sending => s.takeBreakIn l
    | .halted => s.takeBreakIn l
  else if was = .opened ∧ now ≠ .unmeasured ∧ (s.line l).send.breakIn = true then
    s.modSend l fun x => { x with guard := some (s.timerS (s.line l).record.breakGuard) }
  else s

/-- A delivered reading classified; a change of loop state is posted and handed on (R41, R42, R44). -/
def State.classify (s : State) (l : LineNo) (side : Side) (value : Nat) : State :=
  let was := (s.line l).channel side
  let now := was.classified ((s.line l).record.classOf side value)
  let s := s.modLine l fun x => x.setChannel side now
  if now.loop = was.loop then s
  else
    let s := s.postLine l side (.loop now.loop)
    match side with
    | .receive => s
    | .send => s.sendLoopChanged l was.loop now.loop

/-- A channel returned to UNMEASURED, posted when its state was another (R43, R44). -/
def State.unmeasure (s : State) (l : LineNo) (side : Side) : State :=
  let was := (s.line l).channel side
  let s := s.modLine l fun x => x.setChannel side unmeasuredChannel
  if was.loop = .unmeasured then s else s.postLine l side (.loop .unmeasured)

/-- The end of the conversion: its reading is classified unless it is discarded, and the converter searches (R38, R40). -/
def State.endConversion (s : State) : State :=
  match s.converter.conversion with
  | none => s
  | some c =>
    let s := { s with converter := { s.converter with conversion := none } }
    let s := if c.void then s else s.classify (channelLine c.channel) (channelSide c.channel) (reading c.current)
    s.searchConverter

end Sys2Proof.Machine
end

