-- ==== Sys2Proof/Machine/Configuring.lean ====
section
/-! DEFINITION. The line reset, the removal and the addition of a side, and the taking of a line record (chapter 2). -/

namespace Sys2Proof.Machine

/-! ## The send side (R30 steps 1 to 3, R166) -/

/-- A send side with its work stopped: frame cut, steady mark, causes and timers gone, motor off (R166, steps 1 to 3). -/
def stoppedSendSide (state : SendState) : SendSide := { offSendSide with state := state }

/-- The state a reset or an addition leaves the send side in: STOPPED under motor control, IDLE without (R153). -/
def LineRecord.restState (r : LineRecord) : SendState := if r.motorControl then .stopped else .idle

/-- The send side stopped into a state, CLEAR posted when BREAK_IN was in the set (R166). -/
def State.stopSendSide (s : State) (l : LineNo) (state : SendState) : State :=
  let held := (s.line l).send.breakIn
  let s := s.modSend l fun _ => stoppedSendSide state
  if held then s.postLine l .send (.breakIn false) else s

/-- Steps 1 to 3 of the line reset, the send side ending in a state (R30, R28). -/
def State.clearSending (s : State) (l : LineNo) (state : SendState) : State :=
  ((s.stopSendSide l state).abandonLine l).modEnc l fun _ => freshEncoder

/-! ## The line reset (R30) -/

/-- Step 6 for one side: UNMEASURED, and a conversion in progress discarded (R43, R40). -/
def State.resetChannel (s : State) (l : LineNo) (side : Side) : State :=
  (s.voidConversion l fun x => decide (x = side)).unmeasure l side

/-- LINE_CONTROL RESET: the six steps on the sides the line has (R30). A resting converter searches after the last step, so a
reading it then begins counts (R38, R40; log 30). -/
def State.resetLine (s : State) (l : LineNo) : State :=
  let mode := (s.line l).record.mode
  let s := if mode.hasSend then s.clearSending l (s.line l).record.restState else s
  let s := if mode.hasReceive then (s.resetReceiver l).resetAssembler l else s
  let s := if mode.hasReceive then s.resetChannel l .receive else s
  let s := if mode.hasSend then s.resetChannel l .send else s
  s.wakeConverter

/-! ## Mode changes (R28, R29) -/

/-- The send side is removed (R28). -/
def State.removeSend (s : State) (l : LineNo) : State := (s.clearSending l .off).resetChannel l .send

/-- The receive side is removed (R28, R64, R85). -/
def State.removeReceive (s : State) (l : LineNo) : State :=
  ((s.disableReceiver l).resetAssembler l).resetChannel l .receive

/-- The send side is added (R29). -/
def State.addSend (s : State) (l : LineNo) : State :=
  s.modLine l fun x =>
    { x with
      txLoop := unmeasuredChannel
      dist := freshDistribution
      enc := freshEncoder
      send := stoppedSendSide x.record.restState }

/-- The receive side is added (R29, R37). -/
def State.addReceive (s : State) (l : LineNo) : State :=
  s.modLine l fun x =>
    { x with
      rxLoop := unmeasuredChannel
      filter := some x.freshFilter
      rx := x.startedReceiver s.tick
      asm := freshAssembler }

/-- A line's record replaced. -/
def State.setLineRecord (s : State) (l : LineNo) (r : LineRecord) : State := s.modLine l fun x => { x with record := r }

/-- A change of motor control acting at once on a kept send side (R27). -/
def State.changeMotorControl (s : State) (l : LineNo) (was now : Bool) : State :=
  if was = now then s else if now then s.motorTurnedOn l else s.motorTurnedOff l

/-- The fields whose change commits the hold-back buffer differ (R25). -/
def LineRecord.framingDiffers (r q : LineRecord) : Bool :=
  decide (r.framing ≠ q.framing) || decide (r.opening ≠ q.opening) || decide (r.closing ≠ q.closing)

/-- A line record taken: it replaces the line's record; sides are removed, the send side first, and then added; then a kept
send side follows motor control, and a kept receive side its hold-back buffer and its comparator (R20, R25, R27, R28, R29,
R34; order: log 12). While sides are being removed the line has the sides the two modes share. -/
def State.takeRecord (s : State) (l : LineNo) (r : LineRecord) : State :=
  let old := (s.line l).record
  let raw := (s.line l).rawLevel
  let s := s.setLineRecord l { r with mode := old.mode.meet r.mode }
  let s := if old.mode.hasSend && !r.mode.hasSend then s.removeSend l else s
  let s := if old.mode.hasReceive && !r.mode.hasReceive then s.removeReceive l else s
  let s := s.setLineRecord l r
  let s := if !old.mode.hasReceive && r.mode.hasReceive then s.addReceive l else s
  let s := if !old.mode.hasSend && r.mode.hasSend then s.addSend l else s
  let s := if old.mode.hasSend && r.mode.hasSend then s.changeMotorControl l old.motorControl r.motorControl else s
  let s := if old.mode.hasReceive && r.mode.hasReceive && old.framingDiffers r then s.commitHeld l else s
  let s := if old.mode.hasReceive && r.mode.hasReceive then s.feedFilter l raw else s
  s.wakeConverter

end Sys2Proof.Machine
end

