-- ==== Sys2Proof/Machine/Desk.lean ====
section
/-! DEFINITION. The desk commands (R173): each takes the issuing port and the payload, tests them in the order its rule gives,
and answers with a status, a response payload and the state after. A refused command answers with the state it was given. -/

namespace Sys2Proof.Machine

/-- What a command came to: its status, its response payload, and the state after. -/
structure Reply where
  status : Status
  payload : List Byte
  state : State
  deriving DecidableEq, Repr

/-- A command refused: no payload, nothing changed (R173, R181). -/
def State.refuse (s : State) (st : Status) : Reply := { status := st, payload := [], state := s }

/-- A command taken. -/
def State.done (s : State) (payload : List Byte) : Reply := { status := .done, payload := payload, state := s }

/-- The current handle at the head of a payload with its story (R92). -/
def State.namedStory (s : State) (xs : List Byte) : Option (Handle × Story) :=
  match handleAtByte xs 0 with
  | none => none
  | some h =>
    match s.storyOf h with
    | none => none
    | some st => some (h, st)

/-! ## Room and port commands -/

/-- STATUS (R174). -/
def statusCommand (xs : List Byte) (s : State) : Reply :=
  if xs.length ≠ 0 then s.refuse .badLength else s.done s.statusBytes

/-- SET_CLOCK (R188). -/
def setClockCommand (xs : List Byte) (s : State) : Reply :=
  if xs.length ≠ 6 then s.refuse .badLength
  else if Config.secondsPerDay ≤ numAt xs 2 4 then s.refuse .badValue
  else
    (s.modRoom fun r =>
      { r with clock := { day := numAt xs 0 2, second := numAt xs 2 4, millis := 0, isSet := true } }).done []

/-- SET_PORT (R175): the settings replaced, the silence state UNTIMED or ACTIVE, a change of it handed to the room. -/
def setPortCommand (p : Port) (xs : List Byte) (s : State) : Reply :=
  if xs.length ≠ 5 then s.refuse .badLength
  else
    let interval := byteAt xs 4
    let mask : BitVec 11 := BitVec.ofNat 11 (numAt xs 2 2)
    let silence : Silence := if interval = 0 then .untimed else .active
    let was := (s.port p).silence
    let s := s.modPort p fun q =>
      { q with
        interest := lineSetAt xs 0
        noticeMask := mask
        interval := interval
        silence := silence
        silenceTimer := if interval = 0 then none else some (s.timerS interval) }
    let s := if silence = was then s else s.judgeRoom
    s.done (leBytes 2 (lineSetAt xs 0).toNat ++ leBytes 2 mask.toNat ++ [byte1 interval])

/-- SET_STORE_LIMITS (R98). -/
def setStoreLimitsCommand (xs : List Byte) (s : State) : Reply :=
  if xs.length ≠ 4 then s.refuse .badLength
  else
    let reserve := clampTo 0 2048 (numAt xs 0 2)
    let floor := clampTo 0 1024 (numAt xs 2 2)
    ((s.modStore fun x => { x with deskReserve := reserve, reclaimMark := floor }).judgePool.judgeExhausted).done
      (leBytes 2 reserve ++ leBytes 2 floor)

/-- SET_ROOM_OPTIONS (R191). -/
def setRoomOptionsCommand (xs : List Byte) (s : State) : Reply :=
  if xs.length ≠ 11 then s.refuse .badLength
  else
    match readRoomOptions xs with
    | none => s.refuse .badValue
    | some o => (s.modRoom fun r => { r with options := o }).done o.bytes

/-- RESUME (R194). -/
def resumeCommand (xs : List Byte) (s : State) : Reply :=
  if xs.length ≠ 0 then s.refuse .badLength
  else if s.room.unattended then
    ((s.modRoom fun r => { r with unattended := false }).postBoth .unattendedEnd).done []
  else s.done []

/-- FETCH_NOTICES (R178). -/
def fetchNoticesCommand (p : Port) (xs : List Byte) (s : State) : Reply :=
  if xs.length ≠ 1 then s.refuse .badLength
  else
    let q := s.port p
    let given := q.notices.take (clampTo 1 16 (byteAt xs 0))
    (s.modPort p fun x => { x with notices := x.notices.drop given.length, overflow := false }).done
      ([byte1 (boolNum q.overflow), byte1 given.length] ++ given.flatMap Notice.bytes)

/-! ## Line commands -/

/-- CONFIGURE_LINE (R20). -/
def configureLineCommand (xs : List Byte) (s : State) : Reply :=
  if xs.length ≠ 62 then s.refuse .badLength
  else
    match lineOf (byteAt xs 0) with
    | none => s.refuse .badValue
    | some l =>
      match readRecord (xs.drop 1) with
      | none => s.refuse .badValue
      | some r => (s.takeRecord l r.clamped).done (byte1 l.val :: r.clamped.bytes)

/-- READ_LINE (R21). -/
def readLineCommand (xs : List Byte) (s : State) : Reply :=
  if xs.length ≠ 1 then s.refuse .badLength
  else
    match lineOf (byteAt xs 0) with
    | none => s.refuse .badValue
    | some l => s.done (byte1 l.val :: (s.line l).record.bytes ++ (s.line l).workingBytes)

/-- LINE_CONTROL (R30): RESET on a line that is not OFF, HOLD and RESUME on a line with a send side. -/
def lineControlCommand (xs : List Byte) (s : State) : Reply :=
  if xs.length ≠ 2 then s.refuse .badLength
  else
    match lineOf (byteAt xs 0) with
    | none => s.refuse .badValue
    | some l =>
      let mode := (s.line l).record.mode
      if 2 < byteAt xs 1 then s.refuse .badValue
      else if byteAt xs 1 = 0 then
        (if mode = .off then s.refuse .lineMode else (s.resetLine l).done [])
      else if mode.hasSend = false then s.refuse .lineMode
      else if byteAt xs 1 = 1 then (s.holdLine l).done []
      else (s.resumeLine l).done []

/-! ## Table commands -/

/-- A table slot, 0..3. -/
def slotOf (n : Nat) : Option (Fin 4) := if n < 4 then some (Fin.ofNat 4 n) else none

/-- A line keeps a slot in use: its mode is not OFF and its record names it, or its current transmission's copy does (R14). -/
def Line.usesSlot (x : Line) (k : Fin 4) : Bool :=
  (decide (x.record.mode ≠ .off) && decide (x.record.slot = k))
    || (x.dist.current.isSome && decide (x.enc.copy.map SendCopy.slot = some k))

/-- A slot is in use (R14). -/
def State.slotInUse (s : State) (k : Fin 4) : Bool := s.lines.toList.any fun x => x.usesSlot k

/-- LOAD_TABLE (R13). -/
def loadTableCommand (xs : List Byte) (s : State) : Reply :=
  if xs.length ≠ 130 then s.refuse .badLength
  else
    match slotOf (byteAt xs 0) with
    | none => s.refuse .badValue
    | some k =>
      if k = 0 then s.refuse .badValue
      else
        match readTable xs with
        | none => s.refuse .badValue
        | some t =>
          if s.slotInUse k then s.refuse .tableInUse
          else if t.valid = false then s.refuse .tableInvalid
          else { s with tables := s.tables.set k.val t }.done []

/-- READ_TABLE (R16). -/
def readTableCommand (xs : List Byte) (s : State) : Reply :=
  if xs.length ≠ 1 then s.refuse .badLength
  else
    match slotOf (byteAt xs 0) with
    | none => s.refuse .badValue
    | some k => s.done (s.tables.get k).bytes

/-! ## Story commands -/

/-- A story passes a filter of state set bits, priority bound and origin byte (R110). -/
def Story.passes (st : Story) (states bound origin : Nat) : Bool :=
  states.testBit (st.state.number - 1) && decide (st.priority.number ≤ bound)
    && (decide (origin = 0xFF) || decide (origin = st.origin.number))

/-- The stories of records from index `i` on that pass a filter, with their handles (R110). -/
def passing (states bound origin : Nat) : List StoryRecord → Nat → List (Handle × Story)
  | [], _ => []
  | r :: rest, i =>
    match r.story with
    | none => passing states bound origin rest (i + 1)
    | some st =>
      if st.passes states bound origin then
        ({ index := Fin.ofNat 256 i, generation := r.generation }, st) :: passing states bound origin rest (i + 1)
      else passing states bound origin rest (i + 1)

/-- The continue index of a list of summaries (R110). -/
def continueIndex (given : List (Handle × Story)) : Option Nat :=
  match given.getLast? with
  | none => none
  | some (h, _) => if given.length = 15 ∧ h.index.val < 255 then some (h.index.val + 1) else none

/-- LIST_STORIES (R110). -/
def listStoriesCommand (xs : List Byte) (s : State) : Reply :=
  let states := byteAt xs 1 % 8
  let bound := byteAt xs 2
  let origin := byteAt xs 3
  if xs.length ≠ 4 then s.refuse .badLength
  else if states = 0 ∨ 4 < bound ∨ (17 < origin ∧ origin ≠ 0xFF) then s.refuse .badValue
  else
    let start := byteAt xs 0
    let given := (passing states bound origin (s.store.records.toList.drop start) start).take 15
    let next := continueIndex given
    s.done ([byte1 given.length, byte1 (boolNum next.isSome), byte1 (next.getD 0)]
      ++ given.flatMap fun p => summaryBytes p.1 p.2)

/-- READ_STORY (R109). -/
def readStoryCommand (xs : List Byte) (s : State) : Reply :=
  if xs.length ≠ 5 then s.refuse .badLength
  else
    match s.namedStory xs with
    | none => s.refuse .stale
    | some (_, st) =>
      let offset := numAt xs 2 2
      if byteAt xs 4 = 0 then s.refuse .badValue
      else
        let count := min (min (byteAt xs 4) 240) (st.length - offset)
        s.done ([byte1 st.state.number] ++ leBytes 2 st.length ++ [byte1 count]
          ++ s.store.text.charsFrom st.chain offset count)

/-- The story OPEN_STORY makes (R104). -/
def State.newComposed (s : State) (p : Port) (priority : Priority) : Story where
  state := .composing
  origin := .desk p
  priority := priority
  truncated := false
  unterminated := false
  length := 0
  chain := []
  doubtful := 0
  openedStamp := s.stamp
  closedStamp := none
  holder := some p
  interest := PortSet.empty.add p
  pending := 0

/-- OPEN_STORY (R104). -/
def openStoryCommand (p : Port) (xs : List Byte) (s : State) : Reply :=
  if xs.length ≠ 1 then s.refuse .badLength
  else
    match Priority.ofNumber (byteAt xs 0) with
    | none => s.refuse .badValue
    | some priority =>
      match s.store.lowestFree with
      | none => s.refuse .directoryFull
      | some i => (s.makeStory i (s.newComposed p priority)).done (s.handleAt i).bytes

/-- The cells a text of a length fills (R91). -/
def cellsFor (length : Nat) : Nat := (length + Config.cellPlaces - 1) / Config.cellPlaces

/-- Characters appended to a story: `n` cells taken, then the places filled in order (R105). -/
def State.appendChars (s : State) (h : Handle) (n : Nat) (cs : List Byte) : State :=
  let s := s.modStore fun x => x.allocate h.index n
  match s.storyOf h with
  | none => s
  | some st =>
    (s.modStore fun x => { x with text := x.text.putChars st.chain st.length cs }).modStory h fun st =>
      { st with length := st.length + cs.length }

/-- APPEND_TEXT (R105). An append that needs no new cell is no allocation: it starts no reclamation (R98, R100; log 31). -/
def appendTextCommand (p : Port) (xs : List Byte) (s : State) : Reply :=
  if xs.length < 3 ∨ 242 < xs.length then s.refuse .badLength
  else
    match s.namedStory xs with
    | none => s.refuse .stale
    | some (h, st) =>
      let cs := xs.drop 2
      let n := cellsFor (st.length + cs.length) - cellsFor st.length
      if st.state ≠ .composing then s.refuse .wrongState
      else if st.holder ≠ some p then s.refuse .notHolder
      else if Config.storyCap < st.length + cs.length then s.refuse .tooLong
      else if n ≠ 0 ∧ s.store.freeCount < s.store.deskReserve + n then s.refuse .poolLow
      else
        let s := s.appendChars h n cs
        (if n = 0 then s else s.afterAllocation).done (leBytes 2 (st.length + cs.length))

/-- A COMPOSING story completed at its holder's submission (R111). -/
def Story.completed (st : Story) (now : Stamp) : Story :=
  match st.state with
  | .composing => { st with state := .complete, holder := none, closedStamp := some now }
  | .assembling => st
  | .complete => st

/-- SUBMIT_STORY (R116, R111). -/
def submitStoryCommand (p : Port) (xs : List Byte) (s : State) : Reply :=
  if xs.length ≠ 4 then s.refuse .badLength
  else
    match s.namedStory xs with
    | none => s.refuse .stale
    | some (h, st) =>
      if st.state = .assembling then s.refuse .wrongState
      else if st.state = .composing ∧ st.holder ≠ some p then s.refuse .notHolder
      else
        let stamp := s.stamp
        let s := s.modStory h fun st => st.completed stamp
        let (rs, s) := s.tryLines h st.priority (.port p) (linesOf (lineSetAt xs 2))
        (s.freeingTest h.index).done (resultBytes rs)

/-- WITHDRAW_STORY (R128). -/
def withdrawStoryCommand (xs : List Byte) (s : State) : Reply :=
  if xs.length ≠ 4 then s.refuse .badLength
  else
    match s.namedStory xs with
    | none => s.refuse .stale
    | some (h, _) =>
      let (rs, s) := s.withdrawLines h (linesOf (lineSetAt xs 2))
      (s.freeingTest h.index).done (resultBytes rs)

/-- RETAIN_STORY (R107). -/
def retainStoryCommand (p : Port) (xs : List Byte) (s : State) : Reply :=
  if xs.length ≠ 2 then s.refuse .badLength
  else
    match s.namedStory xs with
    | none => s.refuse .stale
    | some (h, _) => (s.modStory h fun st => { st with interest := st.interest.add p }).done []

/-- RELEASE_STORY (R108). -/
def releaseStoryCommand (p : Port) (xs : List Byte) (s : State) : Reply :=
  if xs.length ≠ 2 then s.refuse .badLength
  else
    match s.namedStory xs with
    | none => s.refuse .stale
    | some (h, st) =>
      if st.state = .composing ∧ st.holder = some p then s.refuse .wrongState
      else if st.interest.has p = false then s.done []
      else
        ((s.modStory h fun st => { st with interest := st.interest.drop p }).freeingTest h.index).done []

/-- DISCARD_STORY (R106). -/
def discardStoryCommand (p : Port) (xs : List Byte) (s : State) : Reply :=
  if xs.length ≠ 2 then s.refuse .badLength
  else
    match s.namedStory xs with
    | none => s.refuse .stale
    | some (h, st) =>
      if st.state ≠ .composing then s.refuse .wrongState
      else if st.holder ≠ some p then s.refuse .notHolder
      else
        (s.freeStory h.index fun t =>
          if st.interest.has p.other then t.post p.other (discardNotice h st .discard) else t).done []

/-! ## Taking a frame (R171, R172, R173) -/

/-- The command a good frame names, run on the state; a COMMAND byte that names none is answered UNKNOWN_COMMAND (R173). -/
def runCommand (p : Port) (g : GoodFrame) (s : State) : Reply :=
  let xs := g.frame.payload
  match g.code.toNat with
  | 0x01 => statusCommand xs s
  | 0x02 => setClockCommand xs s
  | 0x03 => setPortCommand p xs s
  | 0x04 => setStoreLimitsCommand xs s
  | 0x05 => setRoomOptionsCommand xs s
  | 0x06 => resumeCommand xs s
  | 0x07 => fetchNoticesCommand p xs s
  | 0x10 => configureLineCommand xs s
  | 0x11 => readLineCommand xs s
  | 0x12 => lineControlCommand xs s
  | 0x18 => loadTableCommand xs s
  | 0x19 => readTableCommand xs s
  | 0x20 => listStoriesCommand xs s
  | 0x21 => readStoryCommand xs s
  | 0x22 => openStoryCommand p xs s
  | 0x23 => appendTextCommand p xs s
  | 0x24 => submitStoryCommand p xs s
  | 0x25 => withdrawStoryCommand xs s
  | 0x26 => retainStoryCommand p xs s
  | 0x27 => releaseStoryCommand p xs s
  | 0x28 => discardStoryCommand p xs s
  | _ => s.refuse .unknownCommand

/-- A frame taken: the command runs, and its response begins at once at the rate of its frame (R172, R173). -/
def State.takeFrame (s : State) (p : Port) (g : GoodFrame) (run : State → Reply) : State :=
  let r := run s
  r.state.modPort p fun q =>
    { q with
      response := some
        { bytes := responseBytes g.code r.status r.payload, rate := g.frame.rate, start := r.state.tick } }

/-- A good frame at a port: taken when the sender is idle and nothing is held, held when the sender is busy and nothing is
held, else discarded (R171, steps 2 to 4). -/
def State.offerFrame (s : State) (p : Port) (g : GoodFrame) (run : State → Reply) : State :=
  if (s.port p).held.isSome then s
  else if (s.port p).response.isSome then s.modPort p fun q => { q with held := some g }
  else s.takeFrame p g run

/-- The end of a response: the sender is idle, and a held frame is taken (R171, R172). -/
def State.endResponse (s : State) (p : Port) : State :=
  let held := (s.port p).held
  let s := s.modPort p fun q => { q with response := none, held := none }
  match held with
  | none => s
  | some g => s.takeFrame p g (runCommand p g)

/-! ## The link receiver (R169, R170, R171, R176) -/

/-- The partial frame abandoned at a tick: HUNTING from there on, gap timer stopped (R170). -/
def DeskPort.abandonFrame (q : DeskPort) (tick : Nat) : DeskPort :=
  { q with link := .hunting, huntFrom := tick, received := [], byteStart := none, gapFrom := none }

/-- What the samples of the byte in progress read as: the tick of the stop sample, the byte, and the stop bit (R170). -/
def DeskPort.sampled (q : DeskPort) (level : Level) (changes : List Nat) : Option (Nat × Byte × Level) :=
  match q.link, q.byteStart, q.rate with
  | .inFrame, some e, some r => some (bitSampleTick e r 9, sampledByte e r level changes, bitSample e r level changes 9)
  | _, _, _ => none

/-- When the gap timer expires (R170). -/
def DeskPort.gapDue (q : DeskPort) : Option Nat := q.gapFrom.map (· + Config.gapTicks)

/-- When the response in progress ends (R172). -/
def DeskPort.responseDue (q : DeskPort) : Option Nat := q.response.map Response.endTick

/-- When the silence timer expires; it runs only in ACTIVE (R176). -/
def DeskPort.silenceDue (q : DeskPort) : Option Nat :=
  match q.silence with
  | .active => q.silenceTimer.map Timer.due
  | .untimed => none
  | .silent => none

/-- The bytes a frame has from SYNC to its last payload byte, once its LENGTH is known (R171, R180). -/
def bodyLength (received : List Byte) : Option Nat :=
  if received.length < 3 then none else some (3 + byteAt received 2)

/-- The next byte of the frame is its CHECK (R171). -/
def DeskPort.checkNext (q : DeskPort) : Bool := decide (bodyLength q.received = some q.received.length)

/-- A byte other than CHECK joins the partial frame at its stop sample; a space stop bit, or a LENGTH above 250, abandons the
frame (R170, R171). -/
def DeskPort.takeByte (q : DeskPort) (x : Byte) (stop : Level) (sample : Nat) : DeskPort :=
  match stop with
  | .space => q.abandonFrame sample
  | .mark =>
    if q.received.length = 2 ∧ Config.maxPayload < x.toNat then q.abandonFrame sample
    else { q with received := q.received ++ [x], byteStart := none, gapFrom := some sample }

/-- The good frame of a whole frame without its CHECK (R171). -/
def DeskPort.goodFrame (q : DeskPort) : GoodFrame :=
  { code := q.received.getD 1 0, frame := { rate := q.rate.getD 0, payload := q.received.drop 3 } }

/-- The check of a whole frame: COMMAND, LENGTH, payload and CHECK sum to 0 (R171). -/
def DeskPort.checkGood (q : DeskPort) (check : Byte) : Bool := decide (byteSum (q.received.drop 1) + check = 0)

/-- A good frame restarts the silence timer of a timed port; SILENT becomes ACTIVE, handed to the room (R176). -/
def State.hearFrame (s : State) (p : Port) : State :=
  match (s.port p).silence with
  | .untimed => s
  | .active => s.modPort p fun q => { q with silenceTimer := some (s.timerS q.interval) }
  | .silent =>
    (s.modPort p fun q => { q with silence := .active, silenceTimer := some (s.timerS q.interval) }).judgeRoom

/-- The stop sample, at a tick, of the CHECK byte (R171); a space stop bit is a byte framing error (R170). -/
def State.completeFrame (s : State) (p : Port) (check : Byte) (stop : Level) (sample : Nat) : State :=
  let q := s.port p
  let s := s.modPort p fun q => q.abandonFrame sample
  match stop with
  | .space => s
  | .mark =>
    if q.checkGood check then (s.hearFrame p).offerFrame p q.goodFrame (runCommand p q.goodFrame) else s

/-- The silence timer has expired: SILENT, PORT_SILENT to the other port, then the room's judgement (R176, R192). -/
def State.silenceOver (s : State) (p : Port) : State :=
  ((s.modPort p fun q => { q with silence := .silent, silenceTimer := none }).post p.other (.portSilent p)).judgeRoom

end Sys2Proof.Machine
end

