-- ==== Sys2Proof/Machine/DeskRows.lean ====
section
/-! DEFINITION. Meanings of the desk command rows. Each is a good frame with that COMMAND byte at a port: taken, held or
discarded by R171 (log 6), and, when taken, run by its own rule (R173). -/

namespace Sys2Proof.Machine

/-- UNKNOWN_COMMAND: a frame whose COMMAND byte names no command is answered UNKNOWN_COMMAND (R173; log 19). -/
def execUnknownCommand (p : Port) (code : Byte) (f : CommandFrame) (s : State) : Host.Outcome State Fault Refusal :=
  .next (s.offerFrame p { code := code, frame := f } (runCommand p { code := code, frame := f }))

/-- STATUS (R174). -/
def execStatus (p : Port) (f : CommandFrame) (s : State) : Host.Outcome State Fault Refusal :=
  .next (s.offerFrame p { code := 0x01, frame := f } (statusCommand f.payload))

/-- SET_CLOCK (R188). -/
def execSetClock (p : Port) (f : CommandFrame) (s : State) : Host.Outcome State Fault Refusal :=
  .next (s.offerFrame p { code := 0x02, frame := f } (setClockCommand f.payload))

/-- SET_PORT (R175). -/
def execSetPort (p : Port) (f : CommandFrame) (s : State) : Host.Outcome State Fault Refusal :=
  .next (s.offerFrame p { code := 0x03, frame := f } (setPortCommand p f.payload))

/-- SET_STORE_LIMITS (R98). -/
def execSetStoreLimits (p : Port) (f : CommandFrame) (s : State) : Host.Outcome State Fault Refusal :=
  .next (s.offerFrame p { code := 0x04, frame := f } (setStoreLimitsCommand f.payload))

/-- SET_ROOM_OPTIONS (R191). -/
def execSetRoomOptions (p : Port) (f : CommandFrame) (s : State) : Host.Outcome State Fault Refusal :=
  .next (s.offerFrame p { code := 0x05, frame := f } (setRoomOptionsCommand f.payload))

/-- RESUME (R194). -/
def execResume (p : Port) (f : CommandFrame) (s : State) : Host.Outcome State Fault Refusal :=
  .next (s.offerFrame p { code := 0x06, frame := f } (resumeCommand f.payload))

/-- FETCH_NOTICES (R178). -/
def execFetchNotices (p : Port) (f : CommandFrame) (s : State) : Host.Outcome State Fault Refusal :=
  .next (s.offerFrame p { code := 0x07, frame := f } (fetchNoticesCommand p f.payload))

/-- CONFIGURE_LINE (R20). -/
def execConfigureLine (p : Port) (f : CommandFrame) (s : State) : Host.Outcome State Fault Refusal :=
  .next (s.offerFrame p { code := 0x10, frame := f } (configureLineCommand f.payload))

/-- READ_LINE (R21). -/
def execReadLine (p : Port) (f : CommandFrame) (s : State) : Host.Outcome State Fault Refusal :=
  .next (s.offerFrame p { code := 0x11, frame := f } (readLineCommand f.payload))

/-- LOAD_TABLE (R13). -/
def execLoadTable (p : Port) (f : CommandFrame) (s : State) : Host.Outcome State Fault Refusal :=
  .next (s.offerFrame p { code := 0x18, frame := f } (loadTableCommand f.payload))

/-- READ_TABLE (R16). -/
def execReadTable (p : Port) (f : CommandFrame) (s : State) : Host.Outcome State Fault Refusal :=
  .next (s.offerFrame p { code := 0x19, frame := f } (readTableCommand f.payload))

/-- LIST_STORIES (R110). -/
def execListStories (p : Port) (f : CommandFrame) (s : State) : Host.Outcome State Fault Refusal :=
  .next (s.offerFrame p { code := 0x20, frame := f } (listStoriesCommand f.payload))

/-- READ_STORY (R109). -/
def execReadStory (p : Port) (f : CommandFrame) (s : State) : Host.Outcome State Fault Refusal :=
  .next (s.offerFrame p { code := 0x21, frame := f } (readStoryCommand f.payload))

/-- OPEN_STORY (R104). -/
def execOpenStory (p : Port) (f : CommandFrame) (s : State) : Host.Outcome State Fault Refusal :=
  .next (s.offerFrame p { code := 0x22, frame := f } (openStoryCommand p f.payload))

/-- APPEND_TEXT (R105). -/
def execAppendText (p : Port) (f : CommandFrame) (s : State) : Host.Outcome State Fault Refusal :=
  .next (s.offerFrame p { code := 0x23, frame := f } (appendTextCommand p f.payload))

/-- SUBMIT_STORY (R116). -/
def execSubmitStory (p : Port) (f : CommandFrame) (s : State) : Host.Outcome State Fault Refusal :=
  .next (s.offerFrame p { code := 0x24, frame := f } (submitStoryCommand p f.payload))

/-- WITHDRAW_STORY (R128). -/
def execWithdrawStory (p : Port) (f : CommandFrame) (s : State) : Host.Outcome State Fault Refusal :=
  .next (s.offerFrame p { code := 0x25, frame := f } (withdrawStoryCommand f.payload))

/-- RETAIN_STORY (R107). -/
def execRetainStory (p : Port) (f : CommandFrame) (s : State) : Host.Outcome State Fault Refusal :=
  .next (s.offerFrame p { code := 0x26, frame := f } (retainStoryCommand p f.payload))

/-- RELEASE_STORY (R108). -/
def execReleaseStory (p : Port) (f : CommandFrame) (s : State) : Host.Outcome State Fault Refusal :=
  .next (s.offerFrame p { code := 0x27, frame := f } (releaseStoryCommand p f.payload))

/-- DISCARD_STORY (R106). -/
def execDiscardStory (p : Port) (f : CommandFrame) (s : State) : Host.Outcome State Fault Refusal :=
  .next (s.offerFrame p { code := 0x28, frame := f } (discardStoryCommand p f.payload))

/-- A LINE_CONTROL frame with its action byte put after the line byte (R181; log 8). -/
def withAction (f : CommandFrame) (action : Byte) : CommandFrame :=
  { f with
    payload := match f.payload with
      | [] => []
      | l :: rest => l :: action :: rest }

/-- LINE_CONTROL with action 0 RESET (R30). -/
def execLineControlReset (p : Port) (f : CommandFrame) (s : State) : Host.Outcome State Fault Refusal :=
  .next (s.offerFrame p { code := 0x12, frame := withAction f 0 } (lineControlCommand (withAction f 0).payload))

/-- LINE_CONTROL with action 1 HOLD (R30, R162). -/
def execLineControlHold (p : Port) (f : CommandFrame) (s : State) : Host.Outcome State Fault Refusal :=
  .next (s.offerFrame p { code := 0x12, frame := withAction f 1 } (lineControlCommand (withAction f 1).payload))

/-- LINE_CONTROL with action 2 RESUME (R30, R163). -/
def execLineControlResume (p : Port) (f : CommandFrame) (s : State) : Host.Outcome State Fault Refusal :=
  .next (s.offerFrame p { code := 0x12, frame := withAction f 2 } (lineControlCommand (withAction f 2).payload))

end Sys2Proof.Machine
end

