-- ==== Sys2Proof/Machine/LineEvents.lean ====
section
/-! DEFINITION. Meanings of the rows that happen on a line's loops: RAW_LEVEL_CHANGE, PENDING_CHANGE_COMPLETE, CONVERSION_END,
START_CHECK, ELEMENT_SAMPLE, STOP_SAMPLE, SPACE_COUNT_EXPIRY, IDLE_GAP_EXPIRY, FRAME_END, KEY_LEVEL_CHANGE,
START_DELAY_EXPIRY, STOP_DELAY_EXPIRY, GUARD_TIMER_EXPIRY. -/

namespace Sys2Proof.Machine

/-! ## Loop sensing -/

/-- The current on a channel's pin becomes another; on a receive channel a change of raw level goes to the filter (R34 to
R36), and a resting converter searches (R38). -/
def State.setCurrent (s : State) (c : ChannelNo) (current : Int) : State :=
  let l := channelLine c
  match channelSide c with
  | .receive =>
    let raw := (s.line l).rawLevel
    ((s.modLine l fun x => { x with rxCurrent := current }).feedFilter l raw).wakeConverter
  | .send => s.modLine l fun x => { x with txCurrent := current }

/-- RAW_LEVEL_CHANGE (R34, R35, R36). -/
def execRawLevelChange (c : ChannelNo) (current : Int) (tick : Nat) (s : State) : Host.Outcome State Fault Refusal :=
  .next ((s.advanceTo tick).setCurrent c current)

/-- PENDING_CHANGE_COMPLETE (R36, R55). -/
def execPendingChangeComplete (l : LineNo) (s : State) : Host.Outcome State Fault Refusal :=
  .next (s.whenDue (s.line l).pendingDue fun t => t.completeChange l)

/-- CONVERSION_END (R38, R40 to R44). -/
def execConversionEnd (s : State) : Host.Outcome State Fault Refusal :=
  .next (s.whenDue s.conversionDue State.endConversion)

/-! ## Character reception and assembly -/

/-- START_CHECK (R51). -/
def execStartCheck (l : LineNo) (s : State) : Host.Outcome State Fault Refusal :=
  .next (s.whenDue (s.line l).startCheckDue fun t => t.checkStart l)

/-- ELEMENT_SAMPLE (R52). -/
def execElementSample (l : LineNo) (s : State) : Host.Outcome State Fault Refusal :=
  .next (s.whenDue (s.line l).elementDue fun t => t.sampleElement l)

/-- STOP_SAMPLE (R53, R57, and the decoding of chapter 5). -/
def execStopSample (l : LineNo) (s : State) : Host.Outcome State Fault Refusal :=
  .next (s.whenDue (s.line l).stopDue fun t => t.sampleStop l)

/-- SPACE_COUNT_EXPIRY (R61). -/
def execSpaceCountExpiry (l : LineNo) (s : State) : Host.Outcome State Fault Refusal :=
  .next (s.whenDue (s.line l).spaceDue fun t => t.openLine l)

/-- When the idle-gap timer expires (R82). -/
def Line.idleGapDue (x : Line) : Option Nat := x.asm.idleGap.map Timer.due

/-- IDLE_GAP_EXPIRY (R83). -/
def execIdleGapExpiry (l : LineNo) (s : State) : Host.Outcome State Fault Refusal :=
  .next (s.whenDue (s.line l).idleGapDue fun t => t.idleGapOver l)

/-! ## Sending -/

/-- The tick at which a code frame ends (R154). -/
def CodeFrame.endTick (f : CodeFrame) : Nat := f.start + 6 * f.unit + f.stopLength * f.unit / 16

/-- When the frame in progress ends (R154). -/
def Line.frameEndDue (x : Line) : Option Nat := x.send.frame.map CodeFrame.endTick

/-- When the next element of the frame in progress begins (R154). -/
def Line.keyDue (x : Line) : Option Nat :=
  match x.send.frame with
  | none => none
  | some f => if f.element < 6 then some (f.start + (f.element + 1) * f.unit) else none

/-- The next element of the frame is keyed (R154). -/
def SendSide.nextElement (x : SendSide) : SendSide :=
  match x.frame with
  | none => x
  | some f => { x with frame := some { f with element := f.element + 1 }, key := elementLevel f.code (f.element + 1) }

/-- The frame in progress is over: steady mark, and while SENDING the next request (R155). -/
def State.endFrame (s : State) (l : LineNo) : State :=
  let s := s.modSend l fun x => { x with frame := none, key := .mark }
  (if (s.line l).send.state = .sending then s.request l requestRounds else s).wakeConverter

/-- FRAME_END (R155). -/
def execFrameEnd (l : LineNo) (s : State) : Host.Outcome State Fault Refusal :=
  .next (s.whenDue (s.line l).frameEndDue fun t => t.endFrame l)

/-- KEY_LEVEL_CHANGE (R154, R38). -/
def execKeyLevelChange (l : LineNo) (s : State) : Host.Outcome State Fault Refusal :=
  .next (s.whenDue (s.line l).keyDue fun t => (t.modSend l SendSide.nextElement).wakeConverter)

/-- When the start delay expires (R157, R160). -/
def Line.startDelayDue (x : Line) : Option Nat := x.send.startDelay.map Timer.due

/-- START_DELAY_EXPIRY (R157, R160). -/
def execStartDelayExpiry (l : LineNo) (s : State) : Host.Outcome State Fault Refusal :=
  .next (s.whenDue (s.line l).startDelayDue fun t => t.startDelayOver l)

/-- When the stop delay expires: it counts only in IDLE (R158). -/
def Line.stopDelayDue (x : Line) : Option Nat :=
  match x.send.state with
  | .idle => x.send.stopDelay.map Timer.due
  | .off => none
  | .stopped => none
  | .starting => none
  | .sending => none
  | .halted => none

/-- STOP_DELAY_EXPIRY: STOPPED, motor off (R158). -/
def execStopDelayExpiry (l : LineNo) (s : State) : Host.Outcome State Fault Refusal :=
  .next (s.whenDue (s.line l).stopDelayDue fun t =>
    t.modSend l fun x => { x with state := .stopped, motor := false, stopDelay := none })

/-- When the guard expires (R165). -/
def Line.guardDue (x : Line) : Option Nat := x.send.guard.map Timer.due

/-- The guard has expired: under AUTO BREAK_IN leaves the set, under HOLD only the guard stops (R165). -/
def State.guardOver (s : State) (l : LineNo) : State :=
  let s := s.modSend l fun x => { x with guard := none }
  match (s.line l).record.breakPolicy with
  | .auto => if (s.line l).send.breakIn then (s.dropBreakIn l).leaveIfFree l else s
  | .hold => s

/-- GUARD_TIMER_EXPIRY (R165). -/
def execGuardTimerExpiry (l : LineNo) (s : State) : Host.Outcome State Fault Refusal :=
  .next (s.whenDue (s.line l).guardDue fun t => t.guardOver l)

end Sys2Proof.Machine
end

