-- ==== Sys2Proof/Machine/LinkEvents.lean ====
section
/-! DEFINITION. Meanings of the rows of the desk links: FRAME_START, BYTE_START_EDGE, BYTE_STOP_SAMPLE, FRAME_COMPLETE,
GAP_TIMER_EXPIRY, RESPONSE_END, SILENCE_TIMER_EXPIRY. -/

namespace Sys2Proof.Machine

/-- An edge to space begins a frame: it falls within HUNTING, its space run has a length in range, and the samples of
positions 8 and 9 both read mark (R169). -/
def DeskPort.isFrameStart (q : DeskPort) (edge run : Nat) (level : Level) (changes : List Nat) : Bool :=
  decide (q.link = .hunting) && decide (q.huntFrom ≤ edge) && decide (Config.minRun ≤ run) && decide (run ≤ Config.maxRun)
    && decide (bitSample edge run level changes 8 = .mark) && decide (bitSample edge run level changes 9 = .mark)

/-- The frame begun by a SYNC (R169). -/
def DeskPort.startFrame (q : DeskPort) (run sample : Nat) : DeskPort :=
  { q with link := .inFrame, rate := some run, received := [0x80], byteStart := none, gapFrom := some sample }

/-- FRAME_START (R169). A run that is not a frame start is passed over without trace. -/
def execFrameStart (p : Port) (edge run : Nat) (level : Level) (changes : List Nat) (s : State) :
    Host.Outcome State Fault Refusal :=
  .next
    (if (s.port p).isFrameStart edge run level changes then
      (s.advanceTo (bitSampleTick edge run 9)).modPort p fun q => q.startFrame run (bitSampleTick edge run 9)
    else s)

/-- A change to space in IN_FRAME: not after the last stop sample it is no start edge; within the gap time it begins the next
byte; later it finds that the gap timer has expired, and the frame abandoned (R170, R179; log 20). -/
def DeskPort.startByte (q : DeskPort) (edge : Nat) : DeskPort :=
  match q.link, q.gapFrom with
  | .inFrame, some g =>
    if edge ≤ g then q
    else if edge ≤ g + Config.gapTicks then { q with byteStart := some edge, gapFrom := none }
    else q.abandonFrame (g + Config.gapTicks)
  | _, _ => q

/-- BYTE_START_EDGE (R170). -/
def execByteStartEdge (p : Port) (edge : Nat) (s : State) : Host.Outcome State Fault Refusal :=
  .next ((s.advanceTo edge).modPort p fun q => q.startByte edge)

/-- BYTE_STOP_SAMPLE, for a byte other than CHECK (R170, R171). -/
def execByteStopSample (p : Port) (level : Level) (changes : List Nat) (s : State) : Host.Outcome State Fault Refusal :=
  .next
    (match (s.port p).sampled level changes with
      | none => s
      | some (d, x, stop) =>
        if (s.port p).checkNext then s else (s.advanceTo d).modPort p fun q => q.takeByte x stop d)

/-- FRAME_COMPLETE: the stop sample of the CHECK byte (R171). -/
def execFrameComplete (p : Port) (level : Level) (changes : List Nat) (s : State) : Host.Outcome State Fault Refusal :=
  .next
    (match (s.port p).sampled level changes with
      | none => s
      | some (d, x, stop) => if (s.port p).checkNext then (s.advanceTo d).completeFrame p x stop d else s)

/-- GAP_TIMER_EXPIRY (R170). -/
def execGapTimerExpiry (p : Port) (s : State) : Host.Outcome State Fault Refusal :=
  .next
    (match (s.port p).gapDue with
      | none => s
      | some d => (s.advanceTo d).modPort p fun q => q.abandonFrame d)

/-- RESPONSE_END (R172). -/
def execResponseEnd (p : Port) (s : State) : Host.Outcome State Fault Refusal :=
  .next (s.whenDue (s.port p).responseDue fun t => t.endResponse p)

/-- SILENCE_TIMER_EXPIRY (R176). -/
def execSilenceTimerExpiry (p : Port) (s : State) : Host.Outcome State Fault Refusal :=
  .next (s.whenDue (s.port p).silenceDue fun t => t.silenceOver p)

end Sys2Proof.Machine
end

