-- ==== Sys2Proof/Machine/RoomEvents.lean ====
section
/-! DEFINITION. Meanings of the rows of the whole part and of the room controller: POWER_ON, CLOCK_SECOND, BELL_TONE_END,
BELL_GAP_END. -/

namespace Sys2Proof.Machine

/-- The lines after power-on: every block at its power-on state, the currents on the pins as they are (log 17). -/
def State.powerOnLines (s : State) : Vector Line 16 where
  toArray := ⟨s.lines.toList.map fun x => { powerOnLine with rxCurrent := x.rxCurrent, txCurrent := x.txCurrent }⟩
  size_toArray := by simp

/-- POWER_ON (R17 and the power-on values of every chapter). Commands still waiting stay in the queue. -/
def execPowerOn (s : State) : Host.Outcome State Fault Refusal :=
  .next { State.reset with lines := s.powerOnLines, pending := s.pending }

/-- The tick at which the next second of day begins (R188). -/
def State.nextSecond (s : State) : Nat :=
  (s.tick / Config.ticksPerMs + (Config.msPerSecond - s.room.clock.millis)) * Config.ticksPerMs

/-- CLOCK_SECOND: time runs on to the edge at which the millisecond phase reaches 1,000 (R188). -/
def execClockSecond (s : State) : Host.Outcome State Fault Refusal := .next (s.advanceTo s.nextSecond)

/-- When the tone of the bell ends (R189). -/
def Bell.toneDue (b : Bell) : Option Nat :=
  match b.phase with
  | .tone t => some t.due
  | .quiet => none
  | .gap _ => none

/-- When the gap of the bell ends (R189). -/
def Bell.gapDue (b : Bell) : Option Nat :=
  match b.phase with
  | .gap t => some t.due
  | .quiet => none
  | .tone _ => none

/-- The bell enters its gap (R189). -/
def State.endTone (s : State) : State :=
  s.modRoom fun r => { r with bell := { r.bell with phase := .gap (s.timerMs Config.bellMs) } }

/-- A burst is over: the next begins at the frequency read now, or the bell is QUIET (R189). -/
def State.endGap (s : State) : State :=
  s.modRoom fun r =>
    let left := r.bell.remaining - 1
    { r with
      bell :=
        if left = 0 then { remaining := 0, phase := .quiet, tone := none }
        else { remaining := left, phase := .tone (s.timerMs Config.bellMs), tone := some r.options.tone } }

/-- BELL_TONE_END (R189). -/
def execBellToneEnd (s : State) : Host.Outcome State Fault Refusal := .next (s.whenDue s.room.bell.toneDue State.endTone)

/-- BELL_GAP_END (R189). -/
def execBellGapEnd (s : State) : Host.Outcome State Fault Refusal := .next (s.whenDue s.room.bell.gapDue State.endGap)

end Sys2Proof.Machine
end

