-- ==== Sys2Proof/Machine/Dispatch.lean ====
section
/-! DEFINITION. One arm per command of the table. -/

namespace Sys2Proof.Machine

def exec (i : Instr) (s : State) : Host.Outcome State Fault Refusal :=
  match i with
  | .powerOn => Sys2Proof.Machine.execPowerOn s
  | .clockSecond => Sys2Proof.Machine.execClockSecond s
  | .rawLevelChange channel current tick => Sys2Proof.Machine.execRawLevelChange channel current tick s
  | .pendingChangeComplete line => Sys2Proof.Machine.execPendingChangeComplete line s
  | .startCheck line => Sys2Proof.Machine.execStartCheck line s
  | .elementSample line => Sys2Proof.Machine.execElementSample line s
  | .stopSample line => Sys2Proof.Machine.execStopSample line s
  | .spaceCountExpiry line => Sys2Proof.Machine.execSpaceCountExpiry line s
  | .idleGapExpiry line => Sys2Proof.Machine.execIdleGapExpiry line s
  | .bellToneEnd => Sys2Proof.Machine.execBellToneEnd s
  | .bellGapEnd => Sys2Proof.Machine.execBellGapEnd s
  | .conversionEnd => Sys2Proof.Machine.execConversionEnd s
  | .guardTimerExpiry line => Sys2Proof.Machine.execGuardTimerExpiry line s
  | .startDelayExpiry line => Sys2Proof.Machine.execStartDelayExpiry line s
  | .stopDelayExpiry line => Sys2Proof.Machine.execStopDelayExpiry line s
  | .frameEnd line => Sys2Proof.Machine.execFrameEnd line s
  | .frameComplete port level changes => Sys2Proof.Machine.execFrameComplete port level changes s
  | .gapTimerExpiry port => Sys2Proof.Machine.execGapTimerExpiry port s
  | .responseEnd port => Sys2Proof.Machine.execResponseEnd port s
  | .silenceTimerExpiry port => Sys2Proof.Machine.execSilenceTimerExpiry port s
  | .unknownCommand port code frame => Sys2Proof.Machine.execUnknownCommand port code frame s
  | .status port frame => Sys2Proof.Machine.execStatus port frame s
  | .setClock port frame => Sys2Proof.Machine.execSetClock port frame s
  | .setPort port frame => Sys2Proof.Machine.execSetPort port frame s
  | .setStoreLimits port frame => Sys2Proof.Machine.execSetStoreLimits port frame s
  | .setRoomOptions port frame => Sys2Proof.Machine.execSetRoomOptions port frame s
  | .resume port frame => Sys2Proof.Machine.execResume port frame s
  | .fetchNotices port frame => Sys2Proof.Machine.execFetchNotices port frame s
  | .configureLine port frame => Sys2Proof.Machine.execConfigureLine port frame s
  | .readLine port frame => Sys2Proof.Machine.execReadLine port frame s
  | .lineControlReset port frame => Sys2Proof.Machine.execLineControlReset port frame s
  | .lineControlHold port frame => Sys2Proof.Machine.execLineControlHold port frame s
  | .lineControlResume port frame => Sys2Proof.Machine.execLineControlResume port frame s
  | .loadTable port frame => Sys2Proof.Machine.execLoadTable port frame s
  | .readTable port frame => Sys2Proof.Machine.execReadTable port frame s
  | .listStories port frame => Sys2Proof.Machine.execListStories port frame s
  | .readStory port frame => Sys2Proof.Machine.execReadStory port frame s
  | .openStory port frame => Sys2Proof.Machine.execOpenStory port frame s
  | .appendText port frame => Sys2Proof.Machine.execAppendText port frame s
  | .submitStory port frame => Sys2Proof.Machine.execSubmitStory port frame s
  | .withdrawStory port frame => Sys2Proof.Machine.execWithdrawStory port frame s
  | .retainStory port frame => Sys2Proof.Machine.execRetainStory port frame s
  | .releaseStory port frame => Sys2Proof.Machine.execReleaseStory port frame s
  | .discardStory port frame => Sys2Proof.Machine.execDiscardStory port frame s
  | .frameStart port edge run level changes => Sys2Proof.Machine.execFrameStart port edge run level changes s
  | .byteStartEdge port edge => Sys2Proof.Machine.execByteStartEdge port edge s
  | .byteStopSample port level changes => Sys2Proof.Machine.execByteStopSample port level changes s
  | .keyLevelChange line => Sys2Proof.Machine.execKeyLevelChange line s

end Sys2Proof.Machine
end

