-- ==== Sys2Proof/Machine/Scheduling.lean ====
section
/-! DEFINITION. What the part does by itself on an empty queue: the event that has come due first joins the queue; when none
is due, the reference clock ticks once (log 2, 4). -/

namespace Sys2Proof.Machine

/-- The tick at which an event of the part's own is due, if it is to come. Commands and level changes from outside are never
due. -/
def State.dueTick (s : State) : Instr → Option Nat
  | .pendingChangeComplete l => (s.line l).pendingDue
  | .startCheck l => (s.line l).startCheckDue
  | .elementSample l => (s.line l).elementDue
  | .stopSample l => (s.line l).stopDue
  | .spaceCountExpiry l => (s.line l).spaceDue
  | .idleGapExpiry l => (s.line l).idleGapDue
  | .bellToneEnd => s.room.bell.toneDue
  | .bellGapEnd => s.room.bell.gapDue
  | .conversionEnd => s.conversionDue
  | .guardTimerExpiry l => (s.line l).guardDue
  | .startDelayExpiry l => (s.line l).startDelayDue
  | .stopDelayExpiry l => (s.line l).stopDelayDue
  | .frameEnd l => (s.line l).frameEndDue
  | .keyLevelChange l => (s.line l).keyDue
  | .gapTimerExpiry p => (s.port p).gapDue
  | .responseEnd p => (s.port p).responseDue
  | .silenceTimerExpiry p => (s.port p).silenceDue
  | _ => none

/-- An event has come due. -/
def State.isDue (s : State) (i : Instr) : Bool :=
  match s.dueTick i with
  | none => false
  | some d => decide (d ≤ s.tick)

/-- The events of a line in the order in which those of one tick are taken: a report before the decisions (R49), the
decisions in the order of the frame, then the timers, then the send side (log 4). -/
def lineEvents (l : LineNo) : List Instr :=
  [.pendingChangeComplete l, .startCheck l, .elementSample l, .stopSample l, .spaceCountExpiry l, .idleGapExpiry l,
    .keyLevelChange l, .frameEnd l, .startDelayExpiry l, .stopDelayExpiry l, .guardTimerExpiry l]

/-- The events of a port. -/
def portEvents (p : Port) : List Instr := [.gapTimerExpiry p, .responseEnd p, .silenceTimerExpiry p]

/-- All events of the part's own, in the order of one tick (log 4). -/
def ownEvents : List Instr :=
  allLines.flatMap lineEvents ++ [.conversionEnd, .bellToneEnd, .bellGapEnd] ++ portEvents .a ++ portEvents .b

/-- The events that have come due (log 4). -/
def State.dueEvents (s : State) : List Instr := ownEvents.filter s.isDue

/-- The event of a list that is due at the earliest tick, the first of them where two are due at one tick (R49; log 4). -/
def State.soonest (s : State) : List Instr → Option Instr
  | [] => none
  | c :: cs =>
    match s.soonest cs with
    | none => some c
    | some d => if (s.dueTick c).getD 0 ≤ (s.dueTick d).getD 0 then some c else some d

/-- The part on an empty queue: the event due first joins it, and what is due after it is judged anew then; with none due the
clock ticks (log 2). -/
def State.idle (s : State) : State :=
  match s.soonest s.dueEvents with
  | none => s.advanceTo (s.tick + 1)
  | some c => { s with pending := [c] }

end Sys2Proof.Machine
end

