-- ==== Sys2Proof/Safety.lean ====
section
/-! DEFINITION. The laws that the spec states over the part's state. A safe run is one whose every state keeps them. -/

namespace Sys2Proof.Machine

/-! ## The store (R88) -/

/-- The cells a record holds: its story's chain, none when it is FREE. -/
def StoryRecord.cells (r : StoryRecord) : List Nat :=
  match r.story with
  | none => []
  | some st => st.chain

/-- All cells of the store: the free list, then the chains in the order of the records. -/
def Store.cells (x : Store) : List Nat := x.freeList ++ x.records.toList.flatMap StoryRecord.cells

/-- The law over the cells (R88): every cell is once on the free list or once in one chain, and the free count counts the
free list. The text is in its canonical form. -/
structure Store.Lawful (x : Store) : Prop where
  text : x.text.wf = true
  count : x.freeCount = x.freeList.length
  cells : x.cells.Perm (List.range' 0 Config.cellCount)

/-! ## Distribution, notices, room -/

/-- The bounds of R114: at most 32 queue entries, at most 2 stacked ones. -/
structure Distribution.Lawful (d : Distribution) : Prop where
  queue : d.queue.length ≤ Config.queueRoom
  stack : d.stack.length ≤ Config.stackRoom

/-- The bound of R177: at most 48 notices. -/
def DeskPort.noticesFit (p : DeskPort) : Prop := p.notices.length ≤ Config.noticeRoom

/-- The ranges of the day clock (R187). -/
structure DayClock.Lawful (c : DayClock) : Prop where
  day : c.day < Config.dayNumbers
  second : c.second < Config.secondsPerDay
  millis : c.millis < Config.msPerSecond

/-- The bell unit (R187, R189): at most 9 bursts, and QUIET exactly when none remains. -/
structure Bell.Lawful (b : Bell) : Prop where
  bound : b.remaining ≤ 9
  quiet : b.phase = .quiet ↔ b.remaining = 0

/-- The bell counts of the room options lie in 0..9 (R191). -/
def RoomOptions.countsFit (o : RoomOptions) : Prop := ∀ i : Fin 5, o.bellCounts.get i ≤ 9

/-- The room controller (R187). -/
structure Room.Lawful (r : Room) : Prop where
  clock : r.clock.Lawful
  bell : r.bell.Lawful
  counts : r.options.countsFit

/-! ## The send side (R153, R156, R159) -/

/-- Some halt cause holds the line (R159). -/
def SendSide.caused (x : SendSide) : Prop := x.deskHold = true ∨ x.breakIn = true

/-- The send side of a line and its record: HALTED exactly while the set of causes is not empty (R159); OFF exactly when
the line has no send side, and then all as after power-on (R153, R166); the motor output of R156, by state and motor control;
without motor control neither STOPPED nor STARTING, and no motor timer (R156, R158). -/
structure Line.SendLawful (x : Line) : Prop where
  halted : x.send.state = .halted ↔ x.send.caused
  off : x.send.state = .off ↔ x.record.mode.hasSend = false
  removed : x.send.state = .off → x.send = offSendSide
  stopped : x.send.state = .stopped → x.send.motor = false
  starting : x.send.state = .starting → x.send.motor = true
  running : x.record.motorControl = true → x.send.state = .idle ∨ x.send.state = .sending → x.send.motor = true
  unmotored : x.record.motorControl = false →
    x.send.state ≠ .stopped ∧ x.send.state ≠ .starting ∧ x.send.motor = false ∧ x.send.startDelay = none ∧
      x.send.stopDelay = none

/-! ## The receive side (R33, R47, R56, R58) -/

/-- What a character in progress keeps to: at most five elements, a deviation of at most half its unit (R47, R56). -/
structure Character.Lawful (c : Character) : Prop where
  elements : c.elements.length ≤ 5
  deviation : 2 * c.deviation ≤ c.settings.unit

/-- A receiver in the ranges of R47. -/
structure Receiver.Lawful (x : Receiver) : Prop where
  character : ∀ c, x.state = .inCharacter c → c.Lawful
  distortion : x.distortion ≤ 50
  quality : x.quality ≤ 255

/-- The receive side of a line and its record: DISABLED, and without a filter, exactly when the line has no receive side
(R33, R47); no space count runs in DISABLED and in OPEN (R60). -/
structure Line.ReceiveLawful (x : Line) : Prop where
  disabled : x.rx.state = .disabled ↔ x.record.mode.hasReceive = false
  space : x.rx.state = .disabled ∨ x.rx.state = .opened → x.rx.space = none
  filter : x.filter = none ↔ x.record.mode.hasReceive = false
  receiver : x.rx.Lawful

/-! ## The code tables (R6, R7, R12) -/

/-- Slot 0 holds the fixed table, and every slot holds a valid one. -/
structure State.TablesLawful (s : State) : Prop where
  fixed : s.tables.get 0 = fixedTable
  valid : ∀ k : Fin 4, (s.tables.get k).valid = true

/-! ## The desk link (R168, R169, R170, R175, R176) -/

/-- A port's link receiver: HUNTING holds no partial frame and no timer; IN_FRAME has a rate and either a byte in progress
or the gap timer running. A rate lies in 64..3840. -/
structure DeskPort.LinkLawful (q : DeskPort) : Prop where
  hunting : q.link = .hunting → q.received = [] ∧ q.byteStart = none ∧ q.gapFrom = none
  inFrame : q.link = .inFrame → q.rate.isSome ∧ q.received ≠ [] ∧ (q.byteStart.isSome ↔ q.gapFrom = none)
  rate : ∀ r, q.rate = some r → Config.minRun ≤ r ∧ r ≤ Config.maxRun

/-- A port's silence: UNTIMED exactly with interval 0, and the timer running exactly in ACTIVE (R175, R176). -/
structure DeskPort.SilenceLawful (q : DeskPort) : Prop where
  untimed : q.silence = .untimed ↔ q.interval = 0
  timer : q.silence = .active ↔ q.silenceTimer.isSome

/-! ## Stories and the lines that hold them (R91, R95, R96, R114) -/

/-- The stories a line holds: of its current transmission, its suspended stack and its queue (R114). -/
def Distribution.handles (d : Distribution) : List Handle := d.inAbandonOrder.map DistEntry.handle

/-- What a story keeps to: a holder exactly in COMPOSING, and in the interest set (R91, R104, R108); a closed stamp exactly in
COMPLETE; the two bounds of the length and the doubtful count, and the cell count (R91); waiting on lines only when COMPLETE
(R114); and, when COMPLETE, retained by a port or a line (R96). -/
structure Story.Lawful (st : Story) : Prop where
  holder : st.holder = none ↔ st.state ≠ .composing
  interest : ∀ p, st.holder = some p → st.interest.has p = true
  closed : st.closedStamp = none ↔ st.state ≠ .complete
  length : st.length ≤ Config.storyCap
  doubtful : st.doubtful ≤ st.length
  cells : st.chain.length = cellsFor st.length
  pending : st.pending ≠ 0 → st.state = .complete
  retained : st.state = .complete → st.interest.a = true ∨ st.interest.b = true ∨ st.pending ≠ 0

/-- The stories of the store and the lines: every story lawful; a story in a line's pending set exactly when the line holds
it, and once (R114); nothing held by a line without a send side (R117, R130); the open story of an assembler ASSEMBLING, and of
one assembler alone (R66, R75). -/
structure State.StoriesLawful (s : State) : Prop where
  story : ∀ i st, (s.record i).story = some st → st.Lawful
  once : ∀ l, (s.line l).dist.handles.Nodup
  pending : ∀ l h, h ∈ (s.line l).dist.handles ↔ ∃ st, s.storyOf h = some st ∧ lineIn st.pending l = true
  sendless : ∀ l, (s.line l).record.mode.hasSend = false → (s.line l).dist.handles = []
  assembling : ∀ l h, (s.line l).asm.state.story = some h → ∃ st, s.storyOf h = some st ∧ st.state = .assembling
  alone : ∀ l m h, (s.line l).asm.state.story = some h → (s.line m).asm.state.story = some h → l = m

/-! ## The whole part -/

/-- The laws over the shared blocks and the bounded queues. -/
structure State.Lawful (s : State) : Prop where
  store : s.store.Lawful
  room : s.room.Lawful
  dist : ∀ l, (s.line l).dist.Lawful
  notices : ∀ p, (s.port p).noticesFit

/-! ## Words of the statements -/

/-- A port that takes the next good frame at once: its sender is idle and it holds no frame (R171, step 2). -/
def DeskPort.ready (q : DeskPort) : Prop := q.response = none ∧ q.held = none

/-- The state in which a port begins, now, the response to a frame (R172). -/
def State.answer (s : State) (p : Port) (code : Byte) (f : CommandFrame) (st : Status) (payload : List Byte) : State :=
  s.modPort p fun q =>
    { q with response := some { bytes := responseBytes code st payload, rate := f.rate, start := s.tick } }

/-- What a receiving printer makes of codes from a case on: the characters, and the case it is left in (R5, R11). -/
def Table.printed (t : Table) : Case → List Code → List Byte × Case
  | c, [] => ([], c)
  | c, k :: ks =>
    let e := t.entry c k
    let next : Case := if e.kind = .ltrs then .letters else if e.kind = .figs then .figures else c
    (e.produces.toList ++ (t.printed next ks).1, (t.printed next ks).2)

/-- The port and the good frame that a desk row stands for (R171, R173; log 6, 8). -/
def goodFrameOf : Instr → Option (Port × GoodFrame)
  | .unknownCommand p code f => some (p, { code := code, frame := f })
  | .status p f => some (p, { code := 0x01, frame := f })
  | .setClock p f => some (p, { code := 0x02, frame := f })
  | .setPort p f => some (p, { code := 0x03, frame := f })
  | .setStoreLimits p f => some (p, { code := 0x04, frame := f })
  | .setRoomOptions p f => some (p, { code := 0x05, frame := f })
  | .resume p f => some (p, { code := 0x06, frame := f })
  | .fetchNotices p f => some (p, { code := 0x07, frame := f })
  | .configureLine p f => some (p, { code := 0x10, frame := f })
  | .readLine p f => some (p, { code := 0x11, frame := f })
  | .lineControlReset p f => some (p, { code := 0x12, frame := withAction f 0 })
  | .lineControlHold p f => some (p, { code := 0x12, frame := withAction f 1 })
  | .lineControlResume p f => some (p, { code := 0x12, frame := withAction f 2 })
  | .loadTable p f => some (p, { code := 0x18, frame := f })
  | .readTable p f => some (p, { code := 0x19, frame := f })
  | .listStories p f => some (p, { code := 0x20, frame := f })
  | .readStory p f => some (p, { code := 0x21, frame := f })
  | .openStory p f => some (p, { code := 0x22, frame := f })
  | .appendText p f => some (p, { code := 0x23, frame := f })
  | .submitStory p f => some (p, { code := 0x24, frame := f })
  | .withdrawStory p f => some (p, { code := 0x25, frame := f })
  | .retainStory p f => some (p, { code := 0x26, frame := f })
  | .releaseStory p f => some (p, { code := 0x27, frame := f })
  | .discardStory p f => some (p, { code := 0x28, frame := f })
  | .powerOn => none
  | .clockSecond => none
  | .rawLevelChange _ _ _ => none
  | .pendingChangeComplete _ => none
  | .startCheck _ => none
  | .elementSample _ => none
  | .stopSample _ => none
  | .spaceCountExpiry _ => none
  | .idleGapExpiry _ => none
  | .bellToneEnd => none
  | .bellGapEnd => none
  | .conversionEnd => none
  | .guardTimerExpiry _ => none
  | .startDelayExpiry _ => none
  | .stopDelayExpiry _ => none
  | .frameEnd _ => none
  | .frameComplete _ _ _ => none
  | .gapTimerExpiry _ => none
  | .responseEnd _ => none
  | .silenceTimerExpiry _ => none
  | .frameStart _ _ _ _ _ => none
  | .byteStartEdge _ _ => none
  | .byteStopSample _ _ _ => none
  | .keyLevelChange _ => none

end Sys2Proof.Machine
end

