-- ==== Sys2Proof/WellFormed.lean ====
section
/-! DEFINITION. When a command could come from the part's pins: its frame fits the link (R169, R171). A meaning never asks
for it: an ill-formed command runs as its rule says (a payload of a wrong length is answered BAD_LENGTH). -/

namespace Sys2Proof

/-- The frame's rate can have been measured (R169) and its payload can have been announced by LENGTH (R171). -/
def CommandFrame.wellFormed (f : CommandFrame) : Bool :=
  decide (Config.minRun ≤ f.rate) && decide (f.rate ≤ Config.maxRun)
    && decide (f.payload.length ≤ Config.maxPayload)

/-- The COMMAND bytes that name a command (R173). -/
def commandCodes : List Byte :=
  [0x01, 0x02, 0x03, 0x04, 0x05, 0x06, 0x07, 0x10, 0x11, 0x12, 0x18, 0x19,
   0x20, 0x21, 0x22, 0x23, 0x24, 0x25, 0x26, 0x27, 0x28]

/-- A LINE_CONTROL frame given without its action byte: one byte fewer fits. -/
def CommandFrame.wellFormedLineControl (f : CommandFrame) : Bool :=
  f.wellFormed && decide (f.payload.length < Config.maxPayload)

/-- The changes of a line come one after the other, each at a later tick (R169, R170). -/
def risingChanges : List Nat → Bool
  | [] => true
  | [_] => true
  | a :: b :: rest => decide (a < b) && risingChanges (b :: rest)

/-- Well-formedness of a command. Operands of a bounded type need no check. -/
def Instr.wellFormed : Instr → Bool
  | .powerOn => true
  | .clockSecond => true
  | .rawLevelChange _ _ _ => true
  | .pendingChangeComplete _ => true
  | .startCheck _ => true
  | .elementSample _ => true
  | .stopSample _ => true
  | .spaceCountExpiry _ => true
  | .idleGapExpiry _ => true
  | .bellToneEnd => true
  | .bellGapEnd => true
  | .conversionEnd => true
  | .guardTimerExpiry _ => true
  | .startDelayExpiry _ => true
  | .stopDelayExpiry _ => true
  | .frameEnd _ => true
  | .frameComplete _ _ changes => risingChanges changes
  | .gapTimerExpiry _ => true
  | .responseEnd _ => true
  | .silenceTimerExpiry _ => true
  | .unknownCommand _ code f => f.wellFormed && !commandCodes.contains code
  | .status _ f => f.wellFormed
  | .setClock _ f => f.wellFormed
  | .setPort _ f => f.wellFormed
  | .setStoreLimits _ f => f.wellFormed
  | .setRoomOptions _ f => f.wellFormed
  | .resume _ f => f.wellFormed
  | .fetchNotices _ f => f.wellFormed
  | .configureLine _ f => f.wellFormed
  | .readLine _ f => f.wellFormed
  | .lineControlReset _ f => f.wellFormedLineControl
  | .lineControlHold _ f => f.wellFormedLineControl
  | .lineControlResume _ f => f.wellFormedLineControl
  | .loadTable _ f => f.wellFormed
  | .readTable _ f => f.wellFormed
  | .listStories _ f => f.wellFormed
  | .readStory _ f => f.wellFormed
  | .openStory _ f => f.wellFormed
  | .appendText _ f => f.wellFormed
  | .submitStory _ f => f.wellFormed
  | .withdrawStory _ f => f.wellFormed
  | .retainStory _ f => f.wellFormed
  | .releaseStory _ f => f.wellFormed
  | .discardStory _ f => f.wellFormed
  | .frameStart _ edge run level changes =>
    decide (0 < run) && risingChanges ((edge + run) :: changes) && decide (level = .mark ↔ changes.length % 2 = 0)
  | .byteStartEdge _ _ => true
  | .byteStopSample _ _ changes => risingChanges changes
  | .keyLevelChange _ => true

end Sys2Proof
end

