-- ==== Sys2Proof/Certificates/Slice0/Obligations.lean ====
section
/-! DEFINITION. The statements about the part. A statement of a row's result says the whole next state: what it does not
write, it leaves. Words used in them: `advanceTo` (time runs on to a tick: at a row of the part's own, to the row's moment, and
not at all when the moment is past, the model's choice, log 1), `modLine`, `modRx`, `modAsm`, `modSend`, `modPort`, `modRoom`,
`modStore`, `modStory` (one piece of the state changed), `answer` (a port begins its response now). -/

open Sys2Proof Sys2Proof.Machine

/-! ## The queue of commands, power-on -/

/-- A step takes the command at the front of the queue and runs it with the rest of the queue. -/
def Obligations.StepRunsTheFrontCommand : Prop :=
  ∀ (s : State) (c : Instr) (rest : List Instr),
    s.pending = c :: rest → step s = exec c { s with pending := rest }

/-- On an empty queue the event of the part's own that is due first joins the queue, and where two are due at one tick the one
that stands first in the list of the part's events; when none is due the clock ticks once. The model's choice: log 2 and 4.
The list, spelled; and the tick at which each event is due, none being due otherwise: a filter's completion (R36), the decisions
of a character and the end of a space count once settled and in their turn (R49 to R53, R60; log 22), the expiry of each timer (R1,
R83, R157, R158, R165, R176, R189), an element and the end of a code frame (R154), of a conversion (R38), of the gap of a frame
(R170) and of a response (R172). -/
def Obligations.StepOnTheEmptyQueue : Prop :=
  (ownEvents =
     (List.finRange 16).flatMap (fun l =>
       [.pendingChangeComplete l, .startCheck l, .elementSample l, .stopSample l, .spaceCountExpiry l, .idleGapExpiry l,
         .keyLevelChange l, .frameEnd l, .startDelayExpiry l, .stopDelayExpiry l, .guardTimerExpiry l]) ++
     [.conversionEnd, .bellToneEnd, .bellGapEnd, .gapTimerExpiry .a, .responseEnd .a, .silenceTimerExpiry .a,
       .gapTimerExpiry .b, .responseEnd .b, .silenceTimerExpiry .b]) ∧
  (∀ (s : State) (l : LineNo) (d : Nat),
     let x := s.line l
     let turn := x.settled d = true ∧ x.firstAt d = true
     (s.dueTick (.pendingChangeComplete l) = some d ↔
       ∃ f p, x.filter = some f ∧ f.pending = some p ∧ x.firstAt p.since = true ∧ d = p.since + p.filter) ∧
     (s.dueTick (.startCheck l) = some d ↔
       ∃ c, x.rx.state = .inCharacter c ∧ c.confirmed = false ∧ d = c.start + c.settings.unit / 2 ∧ turn) ∧
     (s.dueTick (.elementSample l) = some d ↔
       ∃ c, x.rx.state = .inCharacter c ∧ c.confirmed = true ∧ c.elements.length < 5 ∧
         d = c.start + (2 * (c.elements.length + 1) + 1) * c.settings.unit / 2 ∧ turn) ∧
     (s.dueTick (.stopSample l) = some d ↔
       ∃ c, x.rx.state = .inCharacter c ∧ c.confirmed = true ∧ 5 ≤ c.elements.length ∧
         d = c.start + 13 * c.settings.unit / 2 ∧ turn) ∧
     (s.dueTick (.spaceCountExpiry l) = some d ↔ ∃ k, x.rx.space = some k ∧ d = k.begun + k.openTime ∧ turn) ∧
     (s.dueTick (.idleGapExpiry l) = some d ↔ ∃ t, x.asm.idleGap = some t ∧ d = t.due) ∧
     (s.dueTick (.keyLevelChange l) = some d ↔
       ∃ f, x.send.frame = some f ∧ f.element < 6 ∧ d = f.start + (f.element + 1) * f.unit) ∧
     (s.dueTick (.frameEnd l) = some d ↔
       ∃ f, x.send.frame = some f ∧ d = f.start + 6 * f.unit + f.stopLength * f.unit / 16) ∧
     (s.dueTick (.startDelayExpiry l) = some d ↔ ∃ t, x.send.startDelay = some t ∧ d = t.due) ∧
     (s.dueTick (.stopDelayExpiry l) = some d ↔ x.send.state = .idle ∧ ∃ t, x.send.stopDelay = some t ∧ d = t.due) ∧
     (s.dueTick (.guardTimerExpiry l) = some d ↔ ∃ t, x.send.guard = some t ∧ d = t.due)) ∧
  (∀ (s : State) (p : Port) (d : Nat),
     let q := s.port p
     (s.dueTick .conversionEnd = some d ↔ ∃ k, s.converter.conversion = some k ∧ d = k.start + 512) ∧
     (s.dueTick .bellToneEnd = some d ↔ ∃ t, s.room.bell.phase = .tone t ∧ d = t.due) ∧
     (s.dueTick .bellGapEnd = some d ↔ ∃ t, s.room.bell.phase = .gap t ∧ d = t.due) ∧
     (s.dueTick (.gapTimerExpiry p) = some d ↔ ∃ g, q.gapFrom = some g ∧ d = g + 40960) ∧
     (s.dueTick (.responseEnd p) = some d ↔
       ∃ y, q.response = some y ∧ d = y.start + y.bytes.length * (10 * y.rate / 8)) ∧
     (s.dueTick (.silenceTimerExpiry p) = some d ↔ q.silence = .active ∧ ∃ t, q.silenceTimer = some t ∧ d = t.due)) ∧
  ∀ s : State, s.pending = [] →
    ((∀ c ∈ ownEvents, ∀ d, s.dueTick c = some d → s.tick < d) → step s = .next (s.advanceTo (s.tick + 1))) ∧
    (∀ (before : List Instr) (c : Instr) (after : List Instr) (d : Nat),
      ownEvents = before ++ c :: after → s.dueTick c = some d → d ≤ s.tick →
      (∀ e ∈ before, ∀ k, s.dueTick e = some k → d < k) → (∀ e ∈ after, ∀ k, s.dueTick e = some k → d ≤ k) →
        step s = .next { s with pending := [c] }) ∧
    (∀ c d, s.dueTick c = some d → c ∈ ownEvents)

/-- Time runs on to a tick (R1, R188): the day clock gains the edges of the 1 ms base that pass, a millisecond each, and
nothing else changes; a tick already reached changes nothing. CLOCK_SECOND: at the edge at which the millisecond phase would
reach 1,000, the second of day rises by 1, and at 86,400 the day number does, wrapping from 65,535 to 0. -/
def Obligations.ClockSecondAndTimeResult : Prop :=
  (∀ (s : State) (t : Nat), s.room.clock.Lawful →
     let u := s.advanceTo t
     let ms := fun c : DayClock => c.second * 1000 + c.millis
     (t ≤ s.tick → u = s) ∧
     (s.tick < t →
       u = { s with tick := t, room := { s.room with clock := u.room.clock } } ∧
       (u.room.clock.isSet = s.room.clock.isSet ∧ u.room.clock.Lawful) ∧
       ∃ days, ms u.room.clock + days * 86400000 = ms s.room.clock + (t / 4096 - s.tick / 4096) ∧
         u.room.clock.day = (s.room.clock.day + days) % 65536)) ∧
  ∀ s : State, s.room.clock.Lawful →
    let c := s.room.clock
    exec .clockSecond s =
      .next
        { s with
          tick := (s.tick / 4096 + (1000 - c.millis)) * 4096
          room :=
            { s.room with
              clock :=
                { day := if c.second = 86399 then (if c.day = 65535 then 0 else c.day + 1) else c.day
                  second := if c.second = 86399 then 0 else c.second + 1
                  millis := 0
                  isSet := c.isSet } } }

/-- A timer of the 1 ms base (R1): loaded with 0 it expires at its load; loaded with N ms it expires at the tick that is an
edge of the base, a multiple of 4,096, with N edges after the load up to it; seconds count 1,000 ms each, and a reload counts
from the reload. -/
def Obligations.TimerExpiry : Prop :=
  ∀ (s : State) (n : Nat),
    (s.timerMs 0).due = s.tick ∧ s.timerS n = s.timerMs (1000 * n) ∧
    (n ≠ 0 →
      let d := (s.timerMs n).due
      d % 4096 = 0 ∧ s.tick < d ∧ ((List.range (d + 1)).filter fun e => s.tick < e ∧ e % 4096 = 0).length = n)

/-- Every command of the table completes, leaves the waiting commands as they are, and, POWER_ON apart, time never runs
back. An event of the part's own whose moment does not exist is not taken: nothing changes (the model's choice: log 3). -/
def Obligations.EveryCommandCompletes : Prop :=
  (∀ (c : Instr) (s : State), ∃ t, exec c s = .next t ∧ t.pending = s.pending ∧ (c ≠ .powerOn → s.tick ≤ t.tick)) ∧
  ∀ (c : Instr) (s : State), c ∈ ownEvents → s.dueTick c = none → exec c s = .next s

/-- What the spec says the part holds after power-on, with the record of R17 and the table of R6 written out; and POWER_ON puts
every piece of state at that value. The currents on the loop pins are the outside's and the waiting commands the model's: they
stay (log 17, 25); that no place of the cells holds a character is the model's choice (log 13). -/
def Obligations.PowerOnResult : Prop :=
  ((∀ l, let x := State.reset.line l
     x.record =
       { mode := .off, keying := .neutral, unit := 90112, stopLength := 24, inputFilter := .quarter, markThreshold := 26,
         openThreshold := 8, lowThreshold := 36, slot := 0, rxUnshift := true, framing := .framed,
         opening := [0x5A, 0x43, 0x5A, 0x43], closing := [0x4E, 0x4E, 0x4E, 0x4E], idleGap := 120, defaultPriority := .routine,
         priorityLetters := #v[0x46, 0x42, 0x55, 0x52, 0x44], distortionLimit := 35, poorThreshold := 48, goodThreshold := 24,
         markDoubtful := false, doubtfulSubstitute := 0x3F, openTime := 1500, txUnshift := true, width := 69, crCount := 2,
         ltrsFill := 1, refreshInterval := 0, unrepPolicy := .substitute, unrepSubstitute := 0x3F, flashBells := 3,
         bulletinBells := 1, separation := 4, preempt := .flash, motorControl := false, startDelay := 1500, stopDelay := 90,
         breakPolicy := .hold, breakGuard := 3, alarmOnOpen := false } ∧
     x.filter = none ∧ x.rxLoop = { loop := .unmeasured, candidate := none, run := 0 } ∧
     x.txLoop = { loop := .unmeasured, candidate := none, run := 0 } ∧
     x.rx = { state := .disabled, level := none, space := none, distortion := 0, quality := 0, qualityState := .good } ∧
     x.asm = { decoderCase := .letters, state := .between, held := [], idleGap := none } ∧
     x.dist = { queue := [], stack := [], current := none } ∧
     x.enc =
       { encCase := .unknown, column := 0, refresh := 0, group := [], groupEnd := .nothing, progress := none, owed := false,
         copy := none } ∧
     x.send =
       { state := .off, motor := false, deskHold := false, breakIn := false, holdWaiting := false, startDelay := none,
         stopDelay := none, guard := none, frame := none, key := .mark }) ∧
   State.reset.converter = { position := 31, conversion := none } ∧
   (∀ k, State.reset.tables.get k =
     { fold := true
       letters := #v[
         ⟨.blank, 0x00⟩, ⟨.print, 0x45⟩, ⟨.lf, 0x0A⟩, ⟨.print, 0x41⟩, ⟨.space, 0x20⟩, ⟨.print, 0x53⟩, ⟨.print, 0x49⟩, ⟨.print, 0x55⟩,
         ⟨.cr, 0x00⟩, ⟨.print, 0x44⟩, ⟨.print, 0x52⟩, ⟨.print, 0x4A⟩, ⟨.print, 0x4E⟩, ⟨.print, 0x46⟩, ⟨.print, 0x43⟩, ⟨.print, 0x4B⟩,
         ⟨.print, 0x54⟩, ⟨.print, 0x5A⟩, ⟨.print, 0x4C⟩, ⟨.print, 0x57⟩, ⟨.print, 0x48⟩, ⟨.print, 0x59⟩, ⟨.print, 0x50⟩, ⟨.print, 0x51⟩,
         ⟨.print, 0x4F⟩, ⟨.print, 0x42⟩, ⟨.print, 0x47⟩, ⟨.figs, 0x00⟩, ⟨.print, 0x4D⟩, ⟨.print, 0x58⟩, ⟨.print, 0x56⟩, ⟨.ltrs, 0x00⟩]
       figures := #v[
         ⟨.blank, 0x00⟩, ⟨.print, 0x33⟩, ⟨.lf, 0x0A⟩, ⟨.print, 0x2D⟩, ⟨.space, 0x20⟩, ⟨.print, 0x27⟩, ⟨.print, 0x38⟩, ⟨.print, 0x37⟩,
         ⟨.cr, 0x00⟩, ⟨.ignore, 0x00⟩, ⟨.print, 0x34⟩, ⟨.bell, 0x07⟩, ⟨.print, 0x2C⟩, ⟨.ignore, 0x00⟩, ⟨.print, 0x3A⟩, ⟨.print, 0x28⟩,
         ⟨.print, 0x35⟩, ⟨.print, 0x2B⟩, ⟨.print, 0x29⟩, ⟨.print, 0x32⟩, ⟨.ignore, 0x00⟩, ⟨.print, 0x36⟩, ⟨.print, 0x30⟩, ⟨.print, 0x31⟩,
         ⟨.print, 0x39⟩, ⟨.print, 0x3F⟩, ⟨.ignore, 0x00⟩, ⟨.figs, 0x00⟩, ⟨.print, 0x2E⟩, ⟨.print, 0x2F⟩, ⟨.print, 0x3D⟩, ⟨.ltrs, 0x00⟩] }) ∧
   (∀ i, State.reset.record i = { generation := 0, story := none }) ∧
   (State.reset.store.freeList = List.range' 0 4096 ∧ State.reset.store.freeCount = 4096 ∧
     State.reset.store.deskReserve = 256 ∧ State.reset.store.reclaimMark = 128 ∧ State.reset.store.poolLow = false ∧
     State.reset.store.exhausted = false) ∧
   (∀ p, State.reset.port p =
     { link := .hunting, huntFrom := 0, rate := none, received := [], byteStart := none, gapFrom := none, held := none,
       response := none, interval := 0, silence := .untimed, silenceTimer := none, interest := 0, noticeMask := 0x7FF,
       notices := [], overflow := false }) ∧
   State.reset.room =
     { clock := { day := 0, second := 0, millis := 0, isSet := false }
       bell := { remaining := 0, phase := .quiet, tone := none }
       unattended := false
       options :=
         { monitors := 0, sources := 0xFFFF, bound := .bulletin, tone := .hz1000, bellCounts := #v[5, 3, 0, 0, 0] } }) ∧
  ∀ s : State, ∃ t, exec .powerOn s = .next t ∧ t.tick = 0 ∧ t.pending = s.pending ∧
    t.converter = State.reset.converter ∧ t.tables = State.reset.tables ∧ t.store = State.reset.store ∧
    t.portA = State.reset.portA ∧ t.portB = State.reset.portB ∧ t.room = State.reset.room ∧
    ∀ l, t.line l = { State.reset.line l with rxCurrent := (s.line l).rxCurrent, txCurrent := (s.line l).txCurrent }

/-! ## The room controller -/

/-- The bell unit (R189). A request: a count of 0 changes nothing; a count of 1 to 9 sets the bell remaining to the larger of
the two, and in QUIET a burst of 250 ms begins at the frequency of the options, while in TONE and GAP the burst in progress
runs on. BELL_TONE_END: the phase becomes GAP for 250 ms. BELL_GAP_END: the remaining count falls by 1, and a new burst begins
at the frequency read then, or the bell is QUIET. The bell output carries the tone only in TONE. -/
def Obligations.BellUnitResult : Prop :=
  (∀ b : Bell, (∀ t, b.phase = .tone t → b.output = b.tone) ∧ ((∀ t, b.phase ≠ .tone t) → b.output = none)) ∧
  (∀ (s : State) (p : Priority),
     let c := s.room.options.bellCounts.get p.index
     let b := s.room.bell
     (c = 0 → s.ringFor p = s) ∧
     (c ≠ 0 → b.phase = .quiet →
       s.ringFor p =
         { s with
           room :=
             { s.room with
               bell :=
                 { remaining := max b.remaining c
                   phase := .tone { loadedAt := s.tick, ms := 250 }
                   tone := some s.room.options.tone } } }) ∧
     (c ≠ 0 → b.phase ≠ .quiet →
       s.ringFor p = { s with room := { s.room with bell := { b with remaining := max b.remaining c } } })) ∧
  ∀ (s : State) (t : Timer),
    let u := s.advanceTo t.due
    let b := s.room.bell
    (b.phase = .tone t →
      exec .bellToneEnd s =
        .next { u with room := { u.room with bell := { b with phase := .gap { loadedAt := u.tick, ms := 250 } } } }) ∧
    (b.phase = .gap t → 1 < b.remaining →
      exec .bellGapEnd s =
        .next
          { u with
            room :=
              { u.room with
                bell :=
                  { remaining := b.remaining - 1
                    phase := .tone { loadedAt := u.tick, ms := 250 }
                    tone := some s.room.options.tone } } }) ∧
    (b.phase = .gap t → b.remaining ≤ 1 →
      exec .bellGapEnd s =
        .next { u with room := { u.room with bell := { remaining := 0, phase := .quiet, tone := none } } })

/-! ## Loop sensing -/

/-- RAW_LEVEL_CHANGE (R34, R36; its operands: log 5). On a send channel only the current on the pin changes. On a receive
channel a change of raw level begins a pending change, completes one at once when F is 0, or discards the pending one; then a
resting converter searches.
The raw level of a current I (R34, R35): under NEUTRAL mark exactly when I * 256 / 100 mA has reached the mark threshold, under
POLAR mark exactly when it flows in the mark direction. That a negative current is below every NEUTRAL threshold, whatever its
magnitude, is the model's choice (log 17). -/
def Obligations.RawLevelChangeResult : Prop :=
  (∀ (r : LineRecord) (i : Int),
    (r.keying = .neutral → (r.rawLevel i = .mark ↔ (r.markThreshold : Int) * 100000 ≤ i * 256)) ∧
    (r.keying = .polar → (r.rawLevel i = .mark ↔ 0 < i))) ∧
  ∀ (s : State) (c : ChannelNo) (i : Int) (t : Nat),
    let u := s.advanceTo t
    let l := channelLine c
    let x : Line := { u.line l with rxCurrent := i }
    let done := exec (.rawLevelChange c i t) s
    (16 ≤ c.val → done = .next (u.modLine l fun x => { x with txCurrent := i })) ∧
    (c.val < 16 → x.filter = none ∨ x.rawLevel = (s.line l).rawLevel →
      done = .next (u.modLine l fun _ => x).wakeConverter) ∧
    (c.val < 16 → x.rawLevel ≠ (s.line l).rawLevel → ∀ f, x.filter = some f →
      (f.pending = none → x.rawLevel ≠ f.level → x.record.inputFilter ≠ .none →
        done =
          .next
            (u.modLine l fun _ =>
              { x with
                filter :=
                  some
                    { level := f.level
                      pending :=
                        some
                          { level := x.rawLevel
                            since := u.tick
                            filter :=
                              match x.record.inputFilter with
                              | .none => 0
                              | .quarter => 1024
                              | .half => 2048
                              | .one => 4096 } } }).wakeConverter) ∧
      (f.pending = none → x.rawLevel ≠ f.level → x.record.inputFilter = .none →
        done =
          .next
            ((u.modLine l fun _ => { x with filter := some { level := x.rawLevel, pending := none } }).report l x.rawLevel
              u.tick).wakeConverter) ∧
      (f.pending ≠ none → x.rawLevel = f.level →
        done = .next (u.modLine l fun _ => { x with filter := some { level := f.level, pending := none } }).wakeConverter) ∧
      ((f.pending = none ↔ x.rawLevel = f.level) → done = .next (u.modLine l fun _ => x).wakeConverter))

/-- PENDING_CHANGE_COMPLETE (R36): at t1 + F, once no decision about a tick before t1 is still to be taken (R49), the filtered
level becomes the pending one, the pending change is cleared, and the change is reported with its first tick (its turn: log 22). The
report, by the receiver state in which it arrives (R50, R55, R56, R60, R62). -/
def Obligations.PendingChangeCompleteResult : Prop :=
  (∀ (s : State) (l : LineNo) (f : InputFilter) (p : PendingChange),
     (s.line l).filter = some f → f.pending = some p → (s.line l).firstAt p.since = true →
       exec (.pendingChangeComplete l) s =
         .next
           (((s.advanceTo (p.since + p.filter)).modLine l fun x =>
             { x with filter := some { level := p.level, pending := none } }).report l p.level p.since)) ∧
  ∀ (s : State) (l : LineNo) (t : Nat),
    let x := (s.line l).rx
    let r := (s.line l).record
    let count : SpaceCount := { begun := t, openTime := max (r.openTime * 4096) (10 * r.unit) }
    let moved := fun c : Character =>
      if c.start < t ∧ t ≤ c.start + 13 * c.settings.unit / 2 then
        { c with
          deviation :=
            max c.deviation
              (min ((t - c.start) % c.settings.unit) (c.settings.unit - (t - c.start) % c.settings.unit)) }
      else c
    (∀ v, x.state = .disabled → s.report l v t = s) ∧
    (x.state = .idleMark →
      s.report l .mark t = (s.modRx l fun x => { x with level := some { level := .mark, since := t }, space := none }) ∧
      s.report l .space t =
        s.modRx l fun x =>
          { x with
            level := some { level := .space, since := t }
            state :=
              .inCharacter
                { start := t
                  settings := { unit := r.unit, limit := r.distortionLimit, poor := r.poorThreshold, good := r.goodThreshold }
                  confirmed := false
                  elements := []
                  deviation := 0 }
            space := some count }) ∧
    (∀ c, x.state = .inCharacter c →
      s.report l .mark t =
          (s.modRx l fun x =>
            { x with level := some { level := .mark, since := t }, state := .inCharacter (moved c), space := none }) ∧
      s.report l .space t =
        s.modRx l fun x =>
          { x with level := some { level := .space, since := t }, state := .inCharacter (moved c), space := some count }) ∧
    (x.state = .spaceHold →
      s.report l .mark t =
        s.modRx l fun x => { x with level := some { level := .mark, since := t }, state := .idleMark, space := none }) ∧
    (x.state = .opened →
      s.report l .mark t =
        ((s.modRx l fun x =>
          { x with level := some { level := .mark, since := t }, state := .idleMark, space := none }).post .a
            (.lineState l .receive (.receiver .idleMark))).post .b (.lineState l .receive (.receiver .idleMark)))

/-- CONVERSION_END (R38, R40, R41, R44): 512 ticks after its beginning the reading floor(I * 256 / 100) of the magnitude I, at
most 255, is classified, a change of loop state is posted to both ports and, on a send channel, handed to the send side; a
discarded reading counts for nothing; then the converter searches.
The send side told of its loop state (R164, R165): OPEN is taken as BREAK_IN in STARTING, IDLE, SENDING and HALTED and changes
nothing in OFF and STOPPED; OPEN left for NORMAL or LOW while BREAK_IN is in the set loads the guard; nothing else acts. -/
def Obligations.ConversionEndResult : Prop :=
  (∀ (s : State) (l : LineNo) (was now : LoopState),
    let x := s.line l
    let told := s.sendLoopChanged l was now
    (now = .opened → x.send.state = .off ∨ x.send.state = .stopped → told = s) ∧
    (now = .opened → x.send.state ≠ .off → x.send.state ≠ .stopped → told = s.takeBreakIn l) ∧
    (was = .opened → now = .normal ∨ now = .low → x.send.breakIn = true →
      told = s.modSend l fun y => { y with guard := some { loadedAt := s.tick, ms := x.record.breakGuard * 1000 } }) ∧
    (was = .opened → now = .normal ∨ now = .low → x.send.breakIn = false → told = s) ∧
    (now ≠ .opened → was ≠ .opened ∨ now = .unmeasured → told = s)) ∧
  ∀ (s : State) (k : Conversion), s.converter.conversion = some k →
    let u := { s.advanceTo (k.start + 512) with converter := { s.converter with conversion := none } }
    let l := channelLine k.channel
    let side := channelSide k.channel
    let was := (s.line l).channel side
    let now := was.classified ((s.line l).record.classOf side (min (k.current.natAbs * 256 / 100000) 255))
    let v := u.modLine l fun x => x.setChannel side now
    let w := (v.post .a (.lineState l side (.loop now.loop))).post .b (.lineState l side (.loop now.loop))
    (k.void = true → exec .conversionEnd s = .next u.searchConverter) ∧
    (k.void = false → now.loop = was.loop → exec .conversionEnd s = .next v.searchConverter) ∧
    (k.void = false → now.loop ≠ was.loop → side = .receive → exec .conversionEnd s = .next w.searchConverter) ∧
    (k.void = false → now.loop ≠ was.loop → side = .send →
      exec .conversionEnd s = .next (w.sendLoopChanged l was.loop now.loop).searchConverter)

/-- The converter's search (R38): the channels are looked at in ascending order from one above the position, wrapping, the
position last; the first eligible one is converted at once and becomes the position; with none the converter rests at its
position. Eligible (R39): an active receive channel under POLAR keying, or whose raw level is mark; an active send channel that
is keyed POLAR, or whose key is at mark; a send side keys by the frame in progress, else by the send copy, else by the
record (R23, R26). -/
def Obligations.ConverterSearchResult : Prop :=
  (∀ (s : State) (l : LineNo) (c : ChannelNo),
    let x := s.line l
    (c.val = l.val →
      (s.eligible c = true ↔
        (x.record.mode = .inbound ∨ x.record.mode = .both) ∧ (x.record.keying = .polar ∨ x.rawLevel = .mark))) ∧
    (c.val = 16 + l.val → ∀ keying : Keying,
      ((∃ f, x.send.frame = some f ∧ keying = f.keying) ∨
        (x.send.frame = none ∧ ∃ y, x.enc.copy = some y ∧ keying = y.keying) ∨
        (x.send.frame = none ∧ x.enc.copy = none ∧ keying = x.record.keying)) →
      (s.eligible c = true ↔
        (x.record.mode = .outbound ∨ x.record.mode = .both) ∧ (keying = .polar ∨ x.send.key = .mark)))) ∧
  ∀ s : State,
    ((∀ c, s.eligible c = false) → s.searchConverter = { s with converter := { s.converter with conversion := none } }) ∧
    ∀ k : Nat, 1 ≤ k → k ≤ 32 →
      let c : ChannelNo := Fin.ofNat 32 (s.converter.position.val + k)
      s.eligible c = true →
      (∀ j, 1 ≤ j → j < k → s.eligible (Fin.ofNat 32 (s.converter.position.val + j)) = false) →
      s.searchConverter =
        { s with
          converter :=
            { position := c
              conversion :=
                some
                  { channel := c
                    start := s.tick
                    current := (s.line (channelLine c)).current (channelSide c)
                    void := false } } }

/-- The class of a reading by the thresholds held (R41). A loop state changes after three consecutive readings in one class,
different from the state, and not before: the run count stays below 3, and a reading that equals the state clears it (R42). -/
def Obligations.ThreeReadingsChangeTheLoopState : Prop :=
  (∀ (r : LineRecord) (side : Side) (v : Nat),
    (v < r.openThreshold → (side = .send ∨ r.keying = .polar) → r.classOf side v = .opened) ∧
    (v < r.openThreshold → side = .receive → r.keying = .neutral → r.classOf side v = .low) ∧
    (r.openThreshold ≤ v → v < r.lowThreshold → r.classOf side v = .low) ∧
    (r.openThreshold ≤ v → r.lowThreshold ≤ v → r.classOf side v = .normal)) ∧
  ∀ (c : LoopChannel) (k : LoopClass),
    (k.state = c.loop → c.classified k = { loop := c.loop, candidate := none, run := 0 }) ∧
    (k.state ≠ c.loop → c.candidate ≠ some k →
      c.classified k = { loop := c.loop, candidate := some k, run := 1 } ∧
      (c.classified k).classified k = { loop := c.loop, candidate := some k, run := 2 } ∧
      ((c.classified k).classified k).classified k = { loop := k.state, candidate := none, run := 0 }) ∧
    (k.state ≠ c.loop → c.candidate = some k → c.run ≠ 2 →
      c.classified k = { loop := c.loop, candidate := some k, run := c.run + 1 }) ∧
    (k.state ≠ c.loop → c.candidate = some k → c.run = 2 →
      c.classified k = { loop := k.state, candidate := none, run := 0 }) ∧
    (c.run ≤ 2 → (c.classified k).run ≤ 2)

/-! ## Character reception -/

/-- START_CHECK (R51): at t0 + floor(U/2), settled, MARK is a glitch: back to IDLE_MARK, and D, Q, the quality state, the
notices and the assembler keep what they hold; SPACE confirms the start.
What a decision waits for (R49): the level at a tick is settled when no pending change was first seen at or before it, and
decisions are taken in the order of their ticks: no earlier sample and no earlier end of a space count is still to come (log 22).
The level at a tick is the level held since its own tick, the other one before it. -/
def Obligations.StartCheckResult : Prop :=
  ((∀ (x : Line) (t : Nat),
     (x.settled t = true ↔ ∀ f p, x.filter = some f → f.pending = some p → t < p.since) ∧
     (x.firstAt t = true ↔
       (∀ c, x.rx.state = .inCharacter c → t ≤ c.nextTick) ∧ ∀ k, x.rx.space = some k → t ≤ k.begun + k.openTime) ∧
     ∀ v, x.rx.level = some v →
       (v.since ≤ t → x.rx.levelAt t = v.level) ∧ (t < v.since → v.level = .mark → x.rx.levelAt t = .space) ∧
       (t < v.since → v.level = .space → x.rx.levelAt t = .mark)) ∧
   ∀ c : Character,
     (c.confirmed = false → c.nextTick = c.start + c.settings.unit / 2) ∧
     (c.confirmed = true → c.elements.length < 5 →
       c.nextTick = c.start + (2 * (c.elements.length + 1) + 1) * c.settings.unit / 2) ∧
     (c.confirmed = true → 5 ≤ c.elements.length → c.nextTick = c.start + 13 * c.settings.unit / 2)) ∧
  ∀ (s : State) (l : LineNo) (c : Character),
    let t := c.start + c.settings.unit / 2
    (s.line l).rx.state = .inCharacter c → c.confirmed = false →
    (s.line l).settled t = true → (s.line l).firstAt t = true →
      ((s.line l).rx.levelAt t = .mark →
        exec (.startCheck l) s = .next ((s.advanceTo t).modRx l fun x => { x with state := .idleMark })) ∧
      ((s.line l).rx.levelAt t = .space →
        exec (.startCheck l) s =
          .next ((s.advanceTo t).modRx l fun x => { x with state := .inCharacter { c with confirmed := true } }))

/-- ELEMENT_SAMPLE (R52): element k is the level at t0 + floor((2k+1)U/2), settled and in its turn (R49), whatever it is, and the
character goes on; after
element 5 the code value is the sum of 2^(k-1) over the elements that are mark. -/
def Obligations.ElementSampleResult : Prop :=
  (∀ (s : State) (l : LineNo) (c : Character) (k : Nat),
    let t := c.start + (2 * k + 1) * c.settings.unit / 2
    (s.line l).rx.state = .inCharacter c → c.confirmed = true → c.elements.length + 1 = k → k ≤ 5 →
      (s.line l).settled t = true → (s.line l).firstAt t = true →
      exec (.elementSample l) s =
        .next
          ((s.advanceTo t).modRx l fun x =>
            { x with state := .inCharacter { c with elements := c.elements ++ [(s.line l).rx.levelAt t] } })) ∧
  ∀ es : List Level, es.length = 5 →
    (elementsCode es).val = ((List.range 5).map fun k => if es[k]? = some .mark then 2 ^ k else 0).sum

/-- STOP_SAMPLE (R53, R57, R58, R59): at t0 + floor(13U/2), settled and in its turn (R49), MARK leads to IDLE_MARK and SPACE to
SPACE_HOLD; D becomes the last distortion, Q decays and takes 16 for a doubtful character up to 255, the quality state is judged
with its notice, and the code is handed to the assembler.
Quality and distortion stay in their ranges: Q in 0..255; a good character lowers Q by floor(Q/16), a doubtful one raises it by
16 - floor(Q/16) up to the clamp; a deviation is a distance to the nearest multiple of U and never exceeds half a unit, so D
lies in 0..50 (R56, R58). -/
def Obligations.StopSampleResult : Prop :=
  ((∀ q b, qualityAfter q b ≤ 255) ∧
   (∀ q, q ≤ 255 → qualityAfter q false = q - q / 16) ∧
   (∀ q, q ≤ 254 → q < qualityAfter q true ∧ qualityAfter q true = q + 16 - q / 16) ∧
   qualityAfter 255 true = 255 ∧
   (∀ x u, 2 * deviationOf x u ≤ u) ∧
   (∀ x u k, 0 < u → deviationOf x u ≤ (x - k * u) + (k * u - x)) ∧
   ∀ (c : Character) (t : Nat), c.Lawful → (c.transition t).Lawful ∧ c.distortion ≤ 50) ∧
  ∀ (s : State) (l : LineNo) (c : Character),
    let t := c.start + 13 * c.settings.unit / 2
    let x := (s.line l).rx
    let good := decide (x.levelAt t = .mark)
    let d := 100 * c.deviation / c.settings.unit
    let doubtful := !good || decide (c.settings.limit < d)
    let q := min (x.quality - x.quality / 16 + if doubtful then 16 else 0) 255
    let state : Quality :=
      if x.qualityState = .good then (if c.settings.poor ≤ q then .poor else .good)
      else if q < c.settings.good then .good
      else .poor
    let u := (s.advanceTo t).modRx l fun x =>
      { x with
        state := if good then .idleMark else .spaceHold
        distortion := d
        quality := q
        qualityState := state }
    let v :=
      if state = x.qualityState then u
      else (u.post .a (.lineState l .receive (.quality state))).post .b (.lineState l .receive (.quality state))
    x.state = .inCharacter c → c.confirmed = true → c.elements.length = 5 →
    (s.line l).settled t = true → (s.line l).firstAt t = true →
      exec (.stopSample l) s = .next (v.decodeCode l (elementsCode c.elements) doubtful)

/-- SPACE_COUNT_EXPIRY (R61, R84): at the beginning + T, settled and in its turn (R49), the receiver goes to OPEN, posted to
both ports, and the assembler is told: an open story is closed UNTERMINATED, else what is held is discarded; the decoder case
becomes LETTERS. -/
def Obligations.SpaceCountExpiryResult : Prop :=
  ∀ (s : State) (l : LineNo) (k : SpaceCount),
    let t := k.begun + k.openTime
    let u := (((s.advanceTo t).modRx l fun x => { x with state := .opened, space := none }).post .a
      (.lineState l .receive (.receiver .opened))).post .b (.lineState l .receive (.receiver .opened))
    (s.line l).rx.space = some k → (s.line l).settled t = true → (s.line l).firstAt t = true →
      ((s.line l).asm.state = .between ∨ (s.line l).asm.state = .skipping →
        exec (.spaceCountExpiry l) s = .next (u.modAsm l fun a => { a with held := [], decoderCase := .letters })) ∧
      (∀ h decided, (s.line l).asm.state = .inStory h decided →
        exec (.spaceCountExpiry l) s =
          .next ((u.closeCommitting l false true).modAsm l fun a => { a with decoderCase := .letters }))

/-! ## Assembly -/

/-- IDLE_GAP_EXPIRY (R83): IN_STORY commits what is held and closes, UNTERMINATED on a FRAMED line and with no flag on a
CONTINUOUS one; SKIPPING discards what is held and goes to BETWEEN.
A close, steps 2 to 7 of R77: an undecided priority is decided as it stands, with its bell request; flags, COMPLETE and the
closed stamp; STORY_CLOSED to the interest set; in UNATTENDED the story offered; the freeing test; then BETWEEN, SKIPPING with
its timer, or the next story opened. Offered (R118, R193): from a source line, at or above the bound, each monitor line in
ascending order is tried for ROOM, and each that refuses gives NOT_QUEUED to both ports; meanwhile the story stands as not yet
COMPLETE (the model's choice: log 26). The freeing test (R96) frees a COMPLETE story with both sets empty. A close that commits
first, and one that discards what is held at the cap or a full store (R77 step 1, R80, R81). -/
def Obligations.IdleGapExpiryResult : Prop :=
  (∀ (s : State) (l : LineNo) (h : Handle) (st : Story) (decided truncated unterminated : Bool),
     (s.line l).asm.state = .inStory h decided → s.storyOf h = some st →
       let u :=
         if decided = true then s
         else
           ((s.modAsm l fun a => { a with state := .inStory h true }).modStory h fun x =>
             { x with priority := st.priority }).ringFor st.priority
       let closed :=
         (u.modStory h fun x =>
           { x with
             state := .complete
             truncated := truncated
             unterminated := unterminated
             closedStamp := some { day := s.room.clock.day, second := s.room.clock.second } }).modAsm l fun a =>
         { a with state := .between, idleGap := none }
       let told := closed.postSet st.interest (.storyClosed l h st.priority truncated unterminated st.length)
       let done := (told.offerStory l h st.priority).freeingTest h.index
       (s.finishClose l truncated unterminated .between = done ∧
         s.finishClose l truncated unterminated .skipping =
           done.modAsm l fun a =>
             { a with
               state := .skipping
               idleGap := some { loadedAt := done.tick, ms := (done.line l).record.idleGap * 1000 } }) ∧
       s.finishClose l truncated unterminated .reopen = done.openInbound l ∧
       (s.room.unattended = false → (st.interest.a = true ∨ st.interest.b = true) → done = told)) ∧
  (∀ (s : State) (l : LineNo) (h : Handle) (p : Priority),
     let o := s.room.options
     let routed := s.room.unattended = true ∧ o.sources.getLsbD l.val = true ∧ p.number ≤ o.bound.number
     let monitors := (List.finRange 16).filter fun k => o.monitors.getLsbD k.val
     let tried := fun (t : State) (k : LineNo) =>
       let r := t.tryLine k h p .room
       if r.1 = .queued then r.2
       else (r.2.post .a (.distributionEnd k h .notQueued 0)).post .b (.distributionEnd k h .notQueued 0)
     (¬routed → s.offerStory l h p = s) ∧
     (routed →
       s.offerStory l h p =
         (monitors.foldl tried (s.modStory h fun x => { x with state := .assembling })).modStory h fun x =>
           { x with state := .complete })) ∧
  (∀ (s : State) (i : Fin 256),
     ((s.record i).story = none → s.freeingTest i = s) ∧
     ∀ st, (s.record i).story = some st →
       let goes := st.state = .complete ∧ st.interest.a = false ∧ st.interest.b = false ∧ st.pending = 0
       (goes → s.freeingTest i = s.freeStory i id) ∧ (¬goes → s.freeingTest i = s)) ∧
  (∀ (s : State) (l : LineNo),
     let raised := fun t : State => { t with store := { t.store with exhausted := true } }
     let emptied := fun t : State => t.modAsm l fun a => { a with held := [] }
     (s.cutShort l .capped = (emptied s).finishClose l true false .skipping ∧
       s.cutShort l .noCell = (emptied (raised s)).finishClose l true false .skipping) ∧
     ∀ truncated unterminated,
       let r := (emptied s).commitAll l (s.line l).asm.held
       let close := s.closeCommitting l truncated unterminated
       (r.1 = .stored → close = r.2.finishClose l truncated unterminated .between) ∧
       (r.1 = .capped → close = r.2.finishClose l true unterminated .between) ∧
       (r.1 = .noCell → close = (raised r.2).finishClose l true unterminated .between)) ∧
  (∀ (s : State) (l : LineNo) (c : Held) (cs : List Held),
     let r := s.commit l c
     s.commitAll l [] = (.stored, s) ∧ (r.1 = .stored → s.commitAll l (c :: cs) = r.2.commitAll l cs) ∧
     (r.1 ≠ .stored → s.commitAll l (c :: cs) = r)) ∧
  ∀ (s : State) (l : LineNo) (t : Timer), (s.line l).asm.idleGap = some t →
    let u := s.advanceTo t.due
    (∀ h decided, (s.line l).asm.state = .inStory h decided → (s.line l).record.framing = .framed →
      exec (.idleGapExpiry l) s = .next ((u.modAsm l fun a => { a with idleGap := none }).closeCommitting l false true)) ∧
    (∀ h decided, (s.line l).asm.state = .inStory h decided → (s.line l).record.framing = .continuous →
      exec (.idleGapExpiry l) s = .next ((u.modAsm l fun a => { a with idleGap := none }).closeCommitting l false false)) ∧
    ((s.line l).asm.state = .skipping →
      exec (.idleGapExpiry l) s =
        .next (u.modAsm l fun a => { a with state := .between, held := [], idleGap := none })) ∧
    ((s.line l).asm.state = .between →
      exec (.idleGapExpiry l) s = .next (u.modAsm l fun a => { a with idleGap := none }))

/-- A delivered code (R67, R68): a kind that stores nothing changes the decoder case or nothing; any other yields its character,
a doubtful PRINT or SPACE the substitute where the line marks doubtful ones, restarts a running idle gap, and goes to the
matching of a FRAMED line or to the rule of a CONTINUOUS one (R74).
An arrival (R70 to R72): a candidate equal to a watched sequence acts on it; a proper beginning of one is held; else its oldest
character is committed and the rest is judged again, up to a refusal. Committed (R73): stored IN_STORY, else discarded. Stored
(R79 to R81): refused at the cap; at a multiple of 32 only with a cell; the place after the text takes it, the length rises by 1,
the doubtful count by 1 when it is doubtful; every other place of the pool keeps its character. The first one that is neither
0x20 nor 0x0A decides the priority, with its bell request (R78).
An opening (R75, R76): the record given becomes the ASSEMBLING story, its timer is loaded, STORY_ARRIVING goes to the interested
ports; with none INBOUND_LOST does, STORE_EXHAUSTED is raised, and the line is SKIPPING. -/
def Obligations.DecodedAndStoredCharacters : Prop :=
  (∀ (s : State) (l : LineNo) (k : Code) (doubtful : Bool),
     let r := (s.line l).record
     let e := (s.tables.get r.slot).entry (s.line l).asm.decoderCase k
     let x : Byte :=
       if e.kind = .lf then 0x0A
       else if e.kind = .bell then 0x07
       else if doubtful = true ∧ r.markDoubtful = true then r.doubtfulSubstitute
       else if e.kind = .space then 0x20
       else e.char
     let u := s.modAsm l fun a =>
       { a with
         decoderCase := if e.kind = .space ∧ r.rxUnshift = true then .letters else a.decoderCase
         idleGap := if a.state = .between then a.idleGap else some { loadedAt := s.tick, ms := r.idleGap * 1000 } }
     (e.kind = .ltrs → s.decodeCode l k doubtful = s.modAsm l fun a => { a with decoderCase := .letters }) ∧
     (e.kind = .figs → s.decodeCode l k doubtful = s.modAsm l fun a => { a with decoderCase := .figures }) ∧
     (e.kind = .cr ∨ e.kind = .blank ∨ e.kind = .ignore → s.decodeCode l k doubtful = s) ∧
     (e.kind = .print ∨ e.kind = .space ∨ e.kind = .lf ∨ e.kind = .bell →
       (r.framing = .framed → s.decodeCode l k doubtful = u.framedChar l { char := x, doubtful := doubtful }) ∧
       (r.framing = .continuous → s.decodeCode l k doubtful = u.continuousChar l { char := x, doubtful := doubtful }))) ∧
  (∀ (s : State) (l : LineNo) (c : Held),
     let a := (s.line l).asm
     let storing := fun t : State =>
       let r := t.commit l c
       if r.1 = .stored then r.2 else r.2.cutShort l r.1
     s.framedChar l c = (s.modAsm l fun a => { a with held := [] }).arrive l (a.held ++ [c]) ∧
     (a.state = .between → s.continuousChar l c = storing (s.openInbound l)) ∧
     (∀ h decided, a.state = .inStory h decided → s.continuousChar l c = storing s) ∧
     (a.state = .skipping → s.continuousChar l c = s)) ∧
  (∀ (s : State) (l : LineNo) (c : Held) (cs : List Held),
     let a := (s.line l).asm.state
     let r := (s.line l).record
     let chars := c.char :: cs.map Held.char
     let begins := fun seq : List Byte => ∃ more, more ≠ [] ∧ seq = chars ++ more
     let inside := ∃ h decided, a = .inStory h decided
     let watched := begins r.opening ∨ (a ≠ .between ∧ begins r.closing)
     let matched := chars = r.opening ∨ (a ≠ .between ∧ chars = r.closing)
     let went := s.arrive l (c :: cs)
     (inside → chars = r.closing → went = s.finishClose l false false .between) ∧
     (inside → chars ≠ r.closing → chars = r.opening → went = s.finishClose l false true .reopen) ∧
     (¬inside → chars = r.opening → went = s.openInbound l) ∧
     (a = .skipping → chars ≠ r.opening → chars = r.closing →
       went = s.modAsm l fun a => { a with state := .between, idleGap := none }) ∧
     (¬matched → watched → went = s.modAsm l fun a => { a with held := c :: cs }) ∧
     (¬matched → ¬watched → (s.commit l c).1 = .stored → went = (s.commit l c).2.arrive l cs) ∧
     (¬matched → ¬watched → (s.commit l c).1 ≠ .stored → went = (s.commit l c).2.cutShort l (s.commit l c).1) ∧
     s.arrive l [] = s) ∧
  (∀ (s : State) (l : LineNo) (c : Held),
     ((s.line l).asm.state = .between ∨ (s.line l).asm.state = .skipping → s.commit l c = (.stored, s)) ∧
     ∀ h decided, (s.line l).asm.state = .inStory h decided →
       let r := s.storeChar h c
       (r.1 = .stored → s.commit l c = (.stored, r.2.considerPriority l h decided c.char)) ∧
       (r.1 ≠ .stored → s.commit l c = r)) ∧
  (∀ (s : State) (l : LineNo) (h : Handle) (x : Byte),
     let w := (s.line l).record.priorityLetters
     s.considerPriority l h true x = s ∧ s.considerPriority l h false 0x20 = s ∧ s.considerPriority l h false 0x0A = s ∧
     ∀ st, s.storyOf h = some st → x ≠ 0x20 → x ≠ 0x0A →
       let p : Priority :=
         if x = w[0] then .flash else if x = w[1] then .bulletin else if x = w[2] then .urgent
         else if x = w[3] then .routine else if x = w[4] then .deferred else st.priority
       s.considerPriority l h false x =
         ((s.modAsm l fun a => { a with state := .inStory h true }).modStory h fun y => { y with priority := p }).ringFor p) ∧
  (∀ (s : State) (h : Handle) (c : Held) (st : Story), s.storyOf h = some st →
     let put := fun (t : State) (y : Story) =>
       ({ t with
           store :=
             { t.store with text := t.store.text.write (textAddress y.chain y.length) c.char } }).modStory h fun y =>
         { y with length := y.length + 1, doubtful := y.doubtful + if c.doubtful then 1 else 0 }
     let r := s.requestCell h.index
     (16384 ≤ st.length → s.storeChar h c = (.capped, s)) ∧
     (st.length < 16384 → st.length % 32 = 0 → r.1 = false → s.storeChar h c = (.noCell, r.2)) ∧
     (∀ y, st.length < 16384 → st.length % 32 = 0 → r.1 = true → r.2.storyOf h = some y →
       s.storeChar h c = (.stored, put r.2 y)) ∧
     (s.store.text.wf = true → st.length < 16384 → st.length % 32 ≠ 0 →
       let a := textAddress st.chain st.length
       let t := (s.storeChar h c).2
       (s.storeChar h c).1 = .stored ∧
       t =
         { s with store := { s.store with text := t.store.text, records := t.store.records } } ∧
       (∀ i, i ≠ h.index → t.record i = s.record i) ∧
       t.storyOf h = some { st with length := st.length + 1, doubtful := st.doubtful + if c.doubtful then 1 else 0 } ∧
       t.store.text.read a = c.char ∧ ∀ b, b ≠ a → t.store.text.read b = s.store.text.read b)) ∧
  ∀ (s t : State) (l : LineNo),
    let ports : PortSet := { a := t.portA.interest.getLsbD l.val, b := t.portB.interest.getLsbD l.val }
    let r := (t.line l).record
    (s.requestRecord = (none, t) →
      let u := t.postSet ports (.inboundLost l)
      s.openInbound l =
        ({ u with store := { u.store with exhausted := true } }).modAsm l fun a =>
          { a with state := .skipping, idleGap := some { loadedAt := t.tick, ms := r.idleGap * 1000 } }) ∧
    ∀ i, s.requestRecord = (some i, t) →
      let h : Handle := { index := i, generation := (t.record i).generation }
      let u :=
        (t.setRecord i
          { generation := h.generation
            story :=
              some
                { state := .assembling
                  origin := .line l
                  priority := r.defaultPriority
                  truncated := false
                  unterminated := false
                  length := 0
                  chain := []
                  doubtful := 0
                  openedStamp := { day := t.room.clock.day, second := t.room.clock.second }
                  closedStamp := none
                  holder := none
                  interest := ports
                  pending := 0 } }).judgeExhausted
      let opened := fun decided => u.modAsm l fun a => { a with state := .inStory h decided }
      let timed := fun v : State =>
        (v.modAsm l fun a => { a with idleGap := some { loadedAt := t.tick, ms := r.idleGap * 1000 } }).postSet ports
          (.storyArriving l h r.defaultPriority)
      (r.framing = .framed → s.openInbound l = timed (opened false)) ∧
      (r.framing = .continuous →
        s.openInbound l =
          timed (((opened true).modStory h fun x => { x with priority := r.defaultPriority }).ringFor r.defaultPriority))

/-! ## The story store -/

/-- A freeing (R90, R97): the chain joins the tail of the free list, the record becomes FREE with its generation one higher
modulo 16, so that every handle of the old generation is stale (R92); the notices of the cause come next, then the pool notices
and STORE_EXHAUSTED.
The next victim of reclamation (R101) is a candidate, a COMPLETE story with an empty pending set, and no candidate comes before
it: lowest priority first, then the earliest closed stamp, then the lowest index; there is none only without a candidate. Each
victim is freed with RECLAIM told to its interest set (R102); reclamation goes on until its end condition holds, the mark
reached and the cell or the record asked for free, or no candidate is left (R100); its bound of 256 victims: log 23. -/
def Obligations.FreeingAndVictims : Prop :=
  (∀ (s : State) (i : Fin 256) (st : Story) (tell : State → State), (s.record i).story = some st →
     let u : State :=
       { s with
         store :=
           { s.store with
             freeList := s.store.freeList ++ st.chain
             freeCount := s.store.freeCount + st.chain.length
             records :=
               s.store.records.set i.val
                 { generation := Fin.ofNat 16 ((s.record i).generation.val + 1), story := none } } }
     s.freeStory i tell = (tell u).judgePool.judgeExhausted ∧
       u.storyOf { index := i, generation := (s.record i).generation } = none ∧
       ∀ h, h.index ≠ i → u.storyOf h = s.storyOf h) ∧
  (∀ x : Store,
    (x.victim = none ↔ ∀ (i : Fin 256) (st : Story), (x.records.get i).story = some st → st.state = .complete → st.pending ≠ 0) ∧
    ∀ i st, x.victim = some (i, st) →
      (x.records.get i).story = some st ∧ st.state = .complete ∧ st.pending = 0 ∧
      ∀ (j : Fin 256) (y : Story), (x.records.get j).story = some y → y.state = .complete → y.pending = 0 → j ≠ i →
        y.priority.number < st.priority.number ∨
        (y.priority.number = st.priority.number ∧
          ((st.closedAt.day < y.closedAt.day ∨ (st.closedAt.day = y.closedAt.day ∧ st.closedAt.second < y.closedAt.second)) ∨
            (st.closedAt = y.closedAt ∧ i.val < j.val)))) ∧
  (∀ (s : State) (done : Store → Bool),
     (done s.store = true ∨ s.store.victim = none → s.reclaim done 256 = s) ∧
     (∀ (n : Nat) (i : Fin 256) (st : Story), done s.store = false → s.store.victim = some (i, st) →
       s.reclaim done (n + 1) =
         (s.freeStory i fun t =>
           let told : Notice :=
             .storyDiscarded st.origin { index := i, generation := (s.record i).generation } .reclaim st.priority st.length
           t.postSet st.interest told).reclaim done n) ∧
     let t := s.reclaim done 256
     done t.store = true ∨ t.store.victim = none) ∧
  (∀ x : Store,
     let reached := x.reclaimMark ≤ x.freeCount
     (x.markReached = true ↔ reached) ∧ (x.cellReady = true ↔ reached ∧ x.freeList ≠ []) ∧
     (x.recordReady = true ↔ reached ∧ ∃ i : Fin 256, (x.records.get i).story = none) ∧
     (x.lowestFree = none ↔ ∀ i : Fin 256, (x.records.get i).story ≠ none) ∧
     ∀ i, x.lowestFree = some i ↔
       (x.records.get i).story = none ∧ ∀ j : Fin 256, j.val < i.val → (x.records.get j).story ≠ none) ∧
  ∀ (s : State),
    let emptied := s.reclaim Store.cellReady 256
    let vacated := s.reclaim Store.recordReady 256
    (∀ i, s.store.lowestFree = some i → s.requestRecord = (some i, s)) ∧
    (s.store.lowestFree = none → vacated.store.recordReady = true → s.requestRecord = (vacated.store.lowestFree, vacated)) ∧
    (s.store.lowestFree = none → vacated.store.recordReady = false → s.requestRecord = (none, vacated)) ∧
    (∀ (i : Fin 256) (st : Story) (c : Nat) (rest : List Nat), (s.record i).story = some st → s.store.freeList = c :: rest →
      let taken : State :=
        { s with
          store :=
            { s.store with
              freeList := rest
              freeCount := s.store.freeCount - 1
              records :=
                s.store.records.set i.val
                  { generation := (s.record i).generation, story := some { st with chain := st.chain ++ [c] } } } }
      s.requestCell i = (true, taken.judgePool.judgeExhausted.reclaim Store.markReached 256)) ∧
    (∀ i, s.store.freeList = [] → emptied.store.cellReady = false → s.requestCell i = (false, emptied)) ∧
    ∀ i, s.store.freeList = [] → emptied.store.cellReady = true → s.requestCell i = emptied.requestCell i

/-- SET_STORE_LIMITS (R98): reserve and mark are taken, clamped to 2,048 and 1,024; the pool notices, then STORE_EXHAUSTED,
are judged; the values taken are returned.
The pool-low mark (R99) and the clearing of STORE_EXHAUSTED (R103), each judged against the free count. -/
def Obligations.SetStoreLimitsResult : Prop :=
  (∀ s : State,
     let x := s.store
     (x.poolLow = false → x.freeCount ≤ x.deskReserve →
       s.judgePool = (({ s with store := { x with poolLow := true } }).post .a (.poolLow x.freeCount)).post .b
         (.poolLow x.freeCount)) ∧
     (x.poolLow = true → x.deskReserve < x.freeCount →
       s.judgePool = (({ s with store := { x with poolLow := false } }).post .a (.poolRecovered x.freeCount)).post .b
         (.poolRecovered x.freeCount)) ∧
     ((x.poolLow = false ↔ x.deskReserve < x.freeCount) → s.judgePool = s) ∧
     ((x.exhausted = true ∧ x.reclaimMark < x.freeCount ∧ ∃ i, (s.record i).story = none) →
       s.judgeExhausted = { s with store := { x with exhausted := false } }) ∧
     (¬(x.exhausted = true ∧ x.reclaimMark < x.freeCount ∧ ∃ i, (s.record i).story = none) → s.judgeExhausted = s)) ∧
  (∀ (s : State) (p : Port) (f : CommandFrame), (s.port p).ready → f.payload.length ≠ 4 →
    exec (.setStoreLimits p f) s = .next (s.answer p 0x04 f .badLength [])) ∧
  ∀ (s : State) (p : Port) (rate : Nat) (r0 r1 m0 m1 : Byte), (s.port p).ready →
    let f : CommandFrame := ⟨rate, [r0, r1, m0, m1]⟩
    let reserve := min (r0.toNat + 256 * r1.toNat) 2048
    let mark := min (m0.toNat + 256 * m1.toNat) 1024
    exec (.setStoreLimits p f) s =
      .next
        ((({ s with store := { s.store with deskReserve := reserve, reclaimMark := mark } }).judgePool.judgeExhausted).answer p
          0x04 f .done [byte1 reserve, byte1 (reserve / 256), byte1 mark, byte1 (mark / 256)])

/-- What APPEND_TEXT puts at the end of a story reads back in order, with the text before it and every other story's text as they
were (R88, R105, R109). Two different places of lawful chains are two different places of the pool. -/
def Obligations.AppendedTextReadsBack : Prop :=
  (∀ (x : Store) (i j : Fin 256) (st z : Story) (p q : Nat), x.Lawful →
     (x.records.get i).story = some st → (x.records.get j).story = some z →
     p < 32 * st.chain.length → q < 32 * z.chain.length → textAddress st.chain p = textAddress z.chain q → i = j ∧ p = q) ∧
  ∀ (s : State) (h : Handle) (st : Story) (cs : List Byte),
    let n := (st.length + cs.length + 31) / 32 - (st.length + 31) / 32
    s.store.Lawful → s.storyOf h = some st → st.chain.length = (st.length + 31) / 32 → n ≤ s.store.freeCount →
      let t := s.appendChars h n cs
      ∃ y, t.storyOf h = some y ∧ y.length = st.length + cs.length ∧ y.chain = st.chain ++ s.store.freeList.take n ∧
        t.store.freeList = s.store.freeList.drop n ∧ t.store.freeCount = s.store.freeCount - n ∧
        (∀ p, p < st.length → t.store.text.charAt y.chain p = s.store.text.charAt st.chain p) ∧
        (∀ p (hp : p < cs.length), t.store.text.charAt y.chain (st.length + p) = cs[p]) ∧
        ∀ (g : Handle) (z : Story), g.index ≠ h.index → s.storyOf g = some z → z.chain.length = (z.length + 31) / 32 →
          t.storyOf g = some z ∧ ∀ p, p < z.length → t.store.text.charAt z.chain p = s.store.text.charAt z.chain p

/-! ## Distribution -/

/-- Queue order (R115): a new entry goes immediately behind the last entry whose priority is equal to or higher than its own,
or to the head when there is none, and the others keep their order.
The next-story choice (R120, R121): the queue head when the stack is empty or its top is of strictly lower priority, from
its preamble; else the stack top, at its text, at its resume offset. -/
def Obligations.QueueOrderAndNextStoryChoice : Prop :=
  (∀ (e : DistEntry) (q : List DistEntry),
     ∃ before after, q = before ++ after ∧ enqueue e q = before ++ e :: after ∧
       (∀ x ∈ after, e.priority.number < x.priority.number) ∧
       ∀ x, before.getLast? = some x → x.priority.number ≤ e.priority.number) ∧
  ∀ d : Distribution,
    let begun := fun e : DistEntry =>
      ({ entry := { e with resumeOffset := 0, lineStart := 0 }, phase := .preamble, withdrawn := false } : Transmission)
    let resumed := fun e : DistEntry =>
      ({ entry := { e with lineStart := e.resumeOffset }, phase := .text, withdrawn := false } : Transmission)
    (d.queue = [] → d.stack = [] → d.choose = none) ∧
    (∀ e q, d.queue = e :: q → (∀ top, d.stack.head? = some top → e.priority.number < top.priority.number) →
      d.choose = some ({ queue := q, stack := d.stack, current := some (begun e) }, false)) ∧
    (∀ top rest, d.stack = top :: rest → (∀ e, d.queue.head? = some e → top.priority.number ≤ e.priority.number) →
      d.choose = some ({ queue := d.queue, stack := rest, current := some (resumed top) }, true))

/-- SUBMIT_STORY (R111, R116): an ASSEMBLING story is refused WRONG_STATE, another port's COMPOSING story NOT_HOLDER; else a
COMPOSING story is completed, each line named is tried in ascending order with the port as submitter, the freeing test is
applied, and the per-line results are returned (their numbers: LayoutsReadBack).
Trying a line for a submission (R117): the three tests in order, and, when all pass, the entry placed by the queue order, the
line in the story's pending set, and work arriving on a line that had none. Lines are tried one after the other, each in the
state the line before it left.
Work arriving (R157): STOPPED starts the motor and the start delay, an OPEN loop being taken as BREAK_IN (R164), and a delay of
0 expires at once, after the break-in (the model's choice: log 14); IDLE stops its stop delay and enters SENDING; elsewhere
nothing changes. Entering SENDING (R119, R155) makes the next-story choice and, without a frame in progress, the first request
(its bound of 40 rounds: log 23). -/
def Obligations.SubmitStoryResult : Prop :=
  (∀ (s : State) (l : LineNo) (h : Handle) (p : Priority) (w : Submitter),
     let x := s.line l
     let appears := (∃ e ∈ x.dist.queue, e.handle = h) ∨ (∃ e ∈ x.dist.stack, e.handle = h) ∨
       ∃ u, x.dist.current = some u ∧ u.entry.handle = h
     let e : DistEntry :=
       { handle := h, priority := p, submitter := w, resumeOffset := 0, lineStart := 0, substitutions := 0 }
     let t := (s.modDist l fun d => { d with queue := enqueue e d.queue }).modStory h fun st =>
       { st with pending := st.pending ||| BitVec.twoPow 16 l.val }
     (x.record.mode.hasSend = false → s.tryLine l h p w = (.lineMode, s)) ∧
     (x.record.mode.hasSend = true → appears → s.tryLine l h p w = (.already, s)) ∧
     (x.record.mode.hasSend = true → ¬appears → 32 ≤ x.dist.queue.length → s.tryLine l h p w = (.queueFull, s)) ∧
     (x.record.mode.hasSend = true → ¬appears → x.dist.queue.length < 32 →
       s.tryLine l h p w = (.queued, if s.hasWork l then t else t.workArrives l)) ∧
     (s.hasWork l = true ↔ x.dist.current ≠ none ∨ x.dist.queue ≠ [] ∨ x.dist.stack ≠ [])) ∧
  (∀ (s : State) (h : Handle) (p : Priority) (w : Submitter) (l : LineNo) (ls : List LineNo),
     let first := s.tryLine l h p w
     let rest := first.2.tryLines h p w ls
     s.tryLines h p w [] = ([], s) ∧ s.tryLines h p w (l :: ls) = ((l, first.1) :: rest.1, rest.2)) ∧
  (∀ (s : State) (l : LineNo),
     let x := s.line l
     let started := s.modSend l fun y =>
       { y with
         state := .starting
         motor := true
         startDelay := some { loadedAt := s.tick, ms := x.record.startDelay } }
     let running := s.modSend l fun y =>
       { y with motor := true, startDelay := none, guard := if x.txLoop.loop = .opened then none else y.guard }
     let sending := (s.modSend l fun y => { y with state := .sending }).chooseNext l
     (x.send.state = .stopped → x.record.startDelay ≠ 0 →
       s.workArrives l = if x.txLoop.loop = .opened then started.takeBreakIn l else started) ∧
     (x.send.state = .stopped → x.record.startDelay = 0 → (x.txLoop.loop ≠ .opened ∨ x.send.breakIn = true) →
       s.hasWork l = true → s.workArrives l = running.enterSending l) ∧
     (x.send.state = .stopped → x.record.startDelay = 0 → (x.txLoop.loop ≠ .opened ∨ x.send.breakIn = true) →
       s.hasWork l = false →
       s.workArrives l =
         running.modSend l fun y =>
           { y with
             state := .idle
             stopDelay :=
               if x.record.motorControl then some { loadedAt := s.tick, ms := x.record.stopDelay * 1000 }
               else y.stopDelay }) ∧
     (x.send.state = .stopped → x.record.startDelay = 0 → x.txLoop.loop = .opened → x.send.breakIn = false →
       s.workArrives l = (started.takeBreakIn l).modSend l fun y => { y with startDelay := none }) ∧
     (x.send.state = .idle → s.workArrives l = (s.modSend l fun y => { y with stopDelay := none }).enterSending l) ∧
     (x.send.state ≠ .stopped → x.send.state ≠ .idle → s.workArrives l = s) ∧
     (x.send.frame = none → s.enterSending l = sending.request l 40) ∧
     (x.send.frame ≠ none → s.enterSending l = sending)) ∧
  (∀ (s : State) (p : Port) (f : CommandFrame), (s.port p).ready → f.payload.length ≠ 4 →
     exec (.submitStory p f) s = .next (s.answer p 0x24 f .badLength [])) ∧
  (∀ (s : State) (p : Port) (rate : Nat) (i g l0 l1 : Byte), (s.port p).ready →
     (∀ h : Handle, i.toNat = h.index.val → g.toNat = h.generation.val → s.storyOf h = none) →
     exec (.submitStory p ⟨rate, [i, g, l0, l1]⟩) s = .next (s.answer p 0x24 ⟨rate, [i, g, l0, l1]⟩ .stale [])) ∧
  ∀ (s : State) (p : Port) (rate : Nat) (i g l0 l1 : Byte) (h : Handle) (st : Story),
    (s.port p).ready → i.toNat = h.index.val → g.toNat = h.generation.val → s.storyOf h = some st →
      let f : CommandFrame := ⟨rate, [i, g, l0, l1]⟩
      let lines := (List.finRange 16).filter fun l => (l0.toNat + 256 * l1.toNat).testBit l.val
      let completed := s.modStory h fun x =>
        { x with
          state := .complete
          holder := none
          closedStamp := some { day := s.room.clock.day, second := s.room.clock.second } }
      let tried := fun t : State => t.tryLines h st.priority (.port p) lines
      let answered := fun r : List (LineNo × LineResult) × State =>
        (r.2.freeingTest h.index).answer p 0x24 f .done (r.1.flatMap fun q => [byte1 q.1.val, byte1 q.2.number])
      (st.state = .assembling → exec (.submitStory p f) s = .next (s.answer p 0x24 f .wrongState [])) ∧
      (st.state = .composing → st.holder ≠ some p → exec (.submitStory p f) s = .next (s.answer p 0x24 f .notHolder [])) ∧
      (st.state = .composing → st.holder = some p → exec (.submitStory p f) s = .next (answered (tried completed))) ∧
      (st.state = .complete → exec (.submitStory p f) s = .next (answered (tried s)))

/-- A transmission's end (R126, R157, R158, R162): the current transmission and the send copy go, the line leaves the pending
set, DISTRIBUTION_END goes to the submitter, the freeing test is applied; then a waiting hold halts the side, or the next story
is chosen, or a SENDING side goes to IDLE with its stop delay loaded under motor control.
The next-story choice on a line (R119, R121, R149): without a current story and with one to take, the send copy is taken afresh
from the record, and a resumed story starts at column 0.
A print-line end (R122, R123, R124, R147): the print-line start moves to the position; a withdrawn story goes to its postamble;
else a queue head of strictly higher priority that the threshold admits, with room on the stack, suspends it and is chosen; a
waiting hold halts the side (at a cut too, the model's choice: log 9), and then nothing is chosen. -/
def Obligations.TransmissionEndResult : Prop :=
  (∀ (s : State) (l : LineNo),
     let x := s.line l
     let r := x.record
     (x.dist.current ≠ none ∨ x.dist.choose = none → s.chooseNext l = s) ∧
     ∀ d resumed, x.dist.current = none → x.dist.choose = some (d, resumed) →
       s.chooseNext l =
         s.modLine l fun x =>
           { x with
             dist := d
             enc :=
               { x.enc with
                 copy :=
                   some
                     { keying := r.keying, unit := r.unit, stopLength := r.stopLength, slot := r.slot, framing := r.framing,
                       opening := r.opening, closing := r.closing, txUnshift := r.txUnshift, width := r.width,
                       crCount := r.crCount, ltrsFill := r.ltrsFill, refreshInterval := r.refreshInterval,
                       unrepPolicy := r.unrepPolicy, unrepSubstitute := r.unrepSubstitute, flashBells := r.flashBells,
                       bulletinBells := r.bulletinBells, separation := r.separation }
                 progress := none
                 column := if resumed then 0 else x.enc.column } }) ∧
  (∀ (s : State) (l : LineNo) (v : Transmission) (st : Story),
     let x := s.line l
     let e : DistEntry := { v.entry with lineStart := v.entry.resumeOffset }
     let held := fun t : State =>
       if x.send.holdWaiting = true then
         t.modSend l fun y => { y with state := .halted, stopDelay := none, deskHold := true, holdWaiting := false }
       else t
     let preempts := ∃ q rest, x.dist.queue = q :: rest ∧ q.priority.number < v.entry.priority.number ∧
       x.dist.stack.length < 2 ∧
       ((x.record.preempt = .flash ∧ q.priority = .flash) ∨
         (x.record.preempt = .bulletin ∧ (q.priority = .flash ∨ q.priority = .bulletin)))
     let suspended := s.modLine l fun x =>
       { x with
         dist := { x.dist with stack := e :: x.dist.stack, current := none }
         enc := { x.enc with copy := none, progress := none } }
     x.dist.current = some v → s.storyOf v.entry.handle = some st →
       (v.withdrawn = true →
         s.printLineEnd l =
           held
             (s.modLine l fun x =>
               { x with
                 dist :=
                   { x.dist with
                     current := some { entry := { e with lineStart := st.length }, phase := .postamble, withdrawn := true } }
                 enc := { x.enc with progress := none } })) ∧
       (v.withdrawn = false → preempts → x.send.holdWaiting = true ∨ x.send.state = .halted →
         s.printLineEnd l = held suspended) ∧
       (v.withdrawn = false → preempts → x.send.holdWaiting = false → x.send.state ≠ .halted →
         s.printLineEnd l = suspended.chooseNext l) ∧
       (v.withdrawn = false → ¬preempts →
         s.printLineEnd l = held (s.modDist l fun d => { d with current := some { v with entry := e } }))) ∧
  ∀ (s : State) (l : LineNo) (u : Transmission),
    let x := s.line l
    let t := s.modLine l fun x =>
      { x with
        dist := { x.dist with current := none }
        enc := { x.enc with copy := none, group := [], groupEnd := .nothing, progress := none, owed := false } }
    let v := (t.modStory u.entry.handle fun st => { st with pending := st.pending &&& ~~~(BitVec.twoPow 16 l.val) }).postSubmitter
      u.entry.submitter
      (.distributionEnd l u.entry.handle (if u.withdrawn then .withdrawn else .completed) u.entry.substitutions)
    let w := v.freeingTest u.entry.handle.index
    x.dist.current = some u →
      (x.send.holdWaiting = true →
        s.endTransmission l =
          w.modSend l fun y => { y with state := .halted, stopDelay := none, deskHold := true, holdWaiting := false }) ∧
      (x.send.holdWaiting = false → x.dist.queue ≠ [] ∨ x.dist.stack ≠ [] → s.endTransmission l = w.chooseNext l) ∧
      (x.send.holdWaiting = false → x.dist.queue = [] → x.dist.stack = [] → x.send.state ≠ .sending →
        s.endTransmission l = w) ∧
      (x.send.holdWaiting = false → x.dist.queue = [] → x.dist.stack = [] → x.send.state = .sending →
        s.endTransmission l =
          w.modSend l fun y =>
            { y with
              state := .idle
              startDelay := none
              stopDelay :=
                if x.record.motorControl then some { loadedAt := s.tick, ms := x.record.stopDelay * 1000 }
                else y.stopDelay })

/-- WITHDRAW_STORY (R128): each line named is treated in ascending order, the freeing test is applied, and the per-line results
are returned.
A withdrawal from one line (R128): a queued or stacked entry is removed at once, with DISTRIBUTION_END; a current story is
marked; a story that is not on the line is NOT_PENDING and nothing changes. Work running out (R157): a SENDING side goes to
IDLE, with its stop delay loaded under motor control; any other side stays (in STARTING up to the expiry: log 32). The numbers
of the results are those of LayoutsReadBack. -/
def Obligations.WithdrawStoryResult : Prop :=
  (∀ (s : State) (l : LineNo) (h : Handle),
     let d := (s.line l).dist
     let left := fun (t : State) (e : DistEntry) =>
       ((t.modStory h fun st => { st with pending := st.pending &&& ~~~(BitVec.twoPow 16 l.val) }).postSubmitter e.submitter
         (.distributionEnd l h .withdrawn e.substitutions))
     (∀ before e after, d.queue = before ++ e :: after → e.handle = h → (∀ x ∈ before, x.handle ≠ h) →
       let t := left (s.modDist l fun d => { d with queue := before ++ after }) e
       s.withdrawLine l h = (.withdrawn, if t.hasWork l then t else t.workRunsOut l)) ∧
     (∀ before e after, (∀ x ∈ d.queue, x.handle ≠ h) → d.stack = before ++ e :: after → e.handle = h →
       (∀ x ∈ before, x.handle ≠ h) →
       let t := left (s.modDist l fun d => { d with stack := before ++ after }) e
       s.withdrawLine l h = (.withdrawn, if t.hasWork l then t else t.workRunsOut l)) ∧
     (∀ u, (∀ x ∈ d.queue, x.handle ≠ h) → (∀ x ∈ d.stack, x.handle ≠ h) → d.current = some u → u.entry.handle = h →
       s.withdrawLine l h = (.withdrawn, s.modDist l fun d => { d with current := some { u with withdrawn := true } })) ∧
     ((∀ x ∈ d.queue, x.handle ≠ h) → (∀ x ∈ d.stack, x.handle ≠ h) → (∀ u, d.current = some u → u.entry.handle ≠ h) →
       s.withdrawLine l h = (.notPending, s))) ∧
  (∀ (s : State) (h : Handle) (l : LineNo) (ls : List LineNo),
     let first := s.withdrawLine l h
     let rest := first.2.withdrawLines h ls
     s.withdrawLines h [] = ([], s) ∧ s.withdrawLines h (l :: ls) = ((l, first.1) :: rest.1, rest.2)) ∧
  (∀ (s : State) (l : LineNo),
     let x := s.line l
     (x.send.state ≠ .sending → s.workRunsOut l = s) ∧
     (x.send.state = .sending →
       s.workRunsOut l =
         s.modSend l fun y =>
           { y with
             state := .idle
             startDelay := none
             stopDelay :=
               if x.record.motorControl then some { loadedAt := s.tick, ms := x.record.stopDelay * 1000 }
               else y.stopDelay })) ∧
  (∀ (s : State) (p : Port) (f : CommandFrame), (s.port p).ready → f.payload.length ≠ 4 →
     exec (.withdrawStory p f) s = .next (s.answer p 0x25 f .badLength [])) ∧
  (∀ (s : State) (p : Port) (rate : Nat) (i g l0 l1 : Byte), (s.port p).ready →
     (∀ h : Handle, i.toNat = h.index.val → g.toNat = h.generation.val → s.storyOf h = none) →
     exec (.withdrawStory p ⟨rate, [i, g, l0, l1]⟩) s = .next (s.answer p 0x25 ⟨rate, [i, g, l0, l1]⟩ .stale [])) ∧
  ∀ (s : State) (p : Port) (rate : Nat) (i g l0 l1 : Byte) (h : Handle),
    (s.port p).ready → i.toNat = h.index.val → g.toNat = h.generation.val → s.storyOf h ≠ none →
      let f : CommandFrame := ⟨rate, [i, g, l0, l1]⟩
      let lines := (List.finRange 16).filter fun l => (l0.toNat + 256 * l1.toNat).testBit l.val
      let r := s.withdrawLines h lines
      exec (.withdrawStory p f) s =
        .next
          ((r.2.freeingTest h.index).answer p 0x25 f .done (r.1.flatMap fun q => [byte1 q.1.val, byte1 q.2.number]))

/-! ## Codes and encoding -/

/-- The value of a code and its elements (R2): the receive side's value is the sum of the weights 2^(k-1) of the mark elements;
the send side keys element k as mark exactly where the value has that weight, element 1 first; both directions agree. -/
def Obligations.CodeElements : Prop :=
  (∀ es : List Level, es.length = 5 →
    (elementsCode es).val = ((List.range 5).map fun k => if es[k]? = some .mark then 2 ^ k else 0).sum) ∧
  (∀ (c : Code) (k : Nat), 1 ≤ k → k ≤ 5 →
    (elementLevel c k = .mark ↔ c.val / 2 ^ (k - 1) % 2 = 1) ∧ (elementLevel c k = .space ↔ c.val / 2 ^ (k - 1) % 2 = 0)) ∧
  (∀ c : Code, elementLevel c 0 = .space ∧ elementLevel c 6 = .mark ∧
    elementsCode ((List.range' 1 5).map (elementLevel c)) = c) ∧
  ∀ es : List Level, es.length = 5 → (List.range' 1 5).map (elementLevel (elementsCode es)) = es

/-- The reverse map (R9, R10): in each case the lowest code whose entry produces the character, absent when none does; with
fold on, a lower-case letter that no entry of either case produces takes its capital's codes. -/
def Obligations.ReverseMap : Prop :=
  ∀ (t : Table) (c : Case) (x : Byte),
    (∀ k, t.ownCode c x = some k ↔
      (t.entry c k).produces = some x ∧ ∀ j : Code, j.val < k.val → (t.entry c j).produces ≠ some x) ∧
    (t.ownCode c x = none ↔ ∀ k, (t.entry c k).produces ≠ some x) ∧
    ((t.fold = true ∧ 0x61 ≤ x.toNat ∧ x.toNat ≤ 0x7A ∧ ∀ d k, (t.entry d k).produces ≠ some x) →
      t.reverse c x = t.ownCode c (x - 0x20)) ∧
    (¬(t.fold = true ∧ 0x61 ≤ x.toNat ∧ x.toNat ≤ 0x7A ∧ ∀ d k, (t.entry d k).produces ≠ some x) →
      t.reverse c x = t.ownCode c x)

/-- What the encoder sends for a character, a receiving printer prints (R9, R10, R11, R145): under a valid slot the codes that
step 7 chooses for a represented character print that character, or its capital where it folds, and nothing else, and leave
the printer in the encoder's case; from UNKNOWN they do so from either case. -/
def Obligations.ChosenCodesPrintTheCharacter : Prop :=
  ∀ (t : Table) (e : Encoder) (x : Byte) (c : Case), t.valid = true → t.represents x = true →
    (e.encCase.known = some c ∨ e.encCase = .unknown) →
      let codes := (e.chooseCode t x).1
      let after := (e.chooseCode t x).2
      (t.printed c codes).1 = [t.folded x] ∧
      (after.encCase.known = some (t.printed c codes).2 ∨ (after.encCase = .unknown ∧ codes.length = 1)) ∧
      codes.length ≤ 2 ∧ (codes.length = 2 → after.refresh = 0) ∧ after.column = e.column

/-- The newline sequence (R140): the CR codes, one LF code and the LTRS fill, each the lowest code of its kind in the encoder's
case; from UNKNOWN the lowest code that is of the kind in both cases, or, without one, after the LTRS code, the LETTERS one. The
column becomes 0, and with a fill the case LETTERS and the refresh count 0. Under slot 0 every newline sequence is code 8 CR count
times, code 2, and code 31 fill times, from every case. -/
def Obligations.NewlineSequence : Prop :=
  (∀ (t : Table) (e : Encoder) (kind : Kind) (n : Nat) (j : Code),
    let lowestIn := fun k : Case => (t.entry k j).kind = kind ∧ ∀ i : Code, i.val < j.val → (t.entry k i).kind ≠ kind
    let common := fun i : Code => (t.entry .letters i).kind = kind ∧ (t.entry .figures i).kind = kind
    (e.encCase = .letters → lowestIn .letters → e.carriage t kind n = (List.replicate n j, e)) ∧
    (e.encCase = .figures → lowestIn .figures → e.carriage t kind n = (List.replicate n j, e)) ∧
    (e.encCase = .unknown → common j → (∀ i : Code, i.val < j.val → ¬common i) →
      e.carriage t kind n = (List.replicate n j, e)) ∧
    ∀ z, e.encCase = .unknown → (∀ i, ¬common i) → lowestIn .letters → t.ltrsCode = some z →
      e.carriage t kind n = (z :: List.replicate n j, { e with encCase := .letters, refresh := 0 })) ∧
  (∀ (t : Table) (e : Encoder) (c : SendCopy),
    let crs := e.carriage t .cr c.crCount
    let lf := crs.2.carriage t .lf 1
    (c.ltrsFill = 0 → e.newline t c = (crs.1 ++ lf.1, { lf.2 with column := 0 })) ∧
    ∀ z, c.ltrsFill ≠ 0 → t.ltrsCode = some z →
      e.newline t c =
        (crs.1 ++ lf.1 ++ List.replicate c.ltrsFill z, { lf.2 with column := 0, encCase := .letters, refresh := 0 })) ∧
  ∀ (e : Encoder) (c : SendCopy),
    e.newline fixedTable c =
      (List.replicate c.crCount 8 ++ [2] ++ List.replicate c.ltrsFill 31,
        { e with
          column := 0
          encCase := if c.ltrsFill = 0 then e.encCase else .letters
          refresh := if c.ltrsFill = 0 then e.refresh else 0 })

/-- The treatment of a character (R138, R139, R141 to R146): 0x0D is taken without a code; 0x0A is the newline sequence; 0x07 is
the slot's bell code, without a shift from UNKNOWN where both cases give the same one, or dropped and counted; a character without
a code is dropped and counted, or carried as the substitute and counted, unless that is 0x0A, 0x0D, 0x07 or has no code; a carried
one at the full column waits behind a newline sequence, which takes a space with it; else the refresh shift when it is due, the
chosen codes, the counters, and LETTERS after a space under unshift.
The forming of a group (R134 to R137, R147 to R149): an owed newline first; then the items of the preamble; then the text from the
position, the postamble beginning when the last character is taken (R125; behind a newline at its print-line end: log 10); then the
items of the postamble, whose last code ends the transmission; that each separation line feed is a group of its own is the model's
choice (log 33); the phase TEXT is taken up at a request (log 29). A request hands
the group's oldest code, forming a group first when there is none; the frame of the code begins, and the last code of a group then
hands on its end: that the frame begins before a print-line end or a transmission end is treated is the model's choice (log 11). The
bound on the rounds: log 23. -/
def Obligations.GroupForming : Prop :=
  (∀ (c : SendCopy) (column : Nat),
    let bells := fun n : Nat => (if c.framing = .framed then c.opening.map FrameItem.char else []) ++ List.replicate n (.char 0x07)
    (preambleItems c .flash = bells c.flashBells ∧ preambleItems c .bulletin = bells c.bulletinBells ∧
      preambleItems c .urgent = bells 0 ∧ preambleItems c .routine = bells 0 ∧ preambleItems c .deferred = bells 0) ∧
    postambleItems c column =
      (if column = 0 then [] else [.newline]) ++
        (if c.framing = .framed then c.closing.map FrameItem.char ++ [.newline] else []) ++
        List.replicate c.separation .lineFeed) ∧
  (∀ (t : Table) (e : Encoder) (c : SendCopy) (x : Byte),
    let coded := fun y : Byte => t.reverse .letters y ≠ none ∨ t.reverse .figures y ≠ none
    let bare := fun y : Byte => y ≠ 0x0A ∧ y ≠ 0x0D ∧ y ≠ 0x07
    let line := e.newline t c
    let y := c.unrepSubstitute
    (e.treat t c 0x0D = ⟨[], e, true, false, false⟩ ∧ e.treat t c 0x0A = ⟨line.1, line.2, true, false, true⟩) ∧
    (¬coded 0x07 → e.treat t c 0x07 = ⟨[], e, true, true, false⟩) ∧
    (∀ k, e.encCase = .unknown → t.reverse .letters 0x07 = some k → t.reverse .figures 0x07 = some k →
      e.treat t c 0x07 = ⟨[k], e, true, false, false⟩) ∧
    (coded 0x07 → (e.encCase ≠ .unknown ∨ t.reverse .letters 0x07 ≠ t.reverse .figures 0x07) →
      e.treat t c 0x07 = ⟨(e.chooseCode t 0x07).1, (e.chooseCode t 0x07).2, true, false, false⟩) ∧
    (bare x → coded x → e.treat t c x = e.carried t c x false) ∧
    (bare x → ¬coded x → c.unrepPolicy = .substitute ∧ bare y ∧ coded y → e.treat t c x = e.carried t c y true) ∧
    (bare x → ¬coded x → ¬(c.unrepPolicy = .substitute ∧ bare y ∧ coded y) →
      e.treat t c x = ⟨[], e, true, true, false⟩)) ∧
  (∀ (t : Table) (e : Encoder) (c : SendCopy) (x : Byte) (counted : Bool),
    let line := e.newline t c
    let due := c.refreshInterval ≠ 0 ∧ c.refreshInterval ≤ e.refresh
    let plain := e.chooseCode t x
    let fresh := ({ e with refresh := 0 } : Encoder).chooseCode t x
    let after := fun e : Encoder =>
      { e with
        column := e.column + 1
        refresh := min (e.refresh + 1) 80
        encCase := if c.txUnshift = true ∧ x = 0x20 then .letters else e.encCase }
    (e.column = c.width → x = 0x20 → e.carried t c x counted = ⟨line.1, line.2, true, counted, true⟩) ∧
    (e.column = c.width → x ≠ 0x20 → e.carried t c x counted = ⟨line.1, line.2, false, false, true⟩) ∧
    (e.column ≠ c.width → e.encCase = .unknown ∨ ¬due →
      e.carried t c x counted = ⟨plain.1, after plain.2, true, counted, false⟩) ∧
    (∀ z, e.column ≠ c.width → e.encCase = .letters → due → t.ltrsCode = some z →
      e.carried t c x counted = ⟨z :: fresh.1, after fresh.2, true, counted, false⟩) ∧
    (∀ z, e.column ≠ c.width → e.encCase = .figures → due → t.figsCode = some z →
      e.carried t c x counted = ⟨z :: fresh.1, after fresh.2, true, counted, false⟩)) ∧
  (∀ (t : Table) (e : Encoder) (c : SendCopy) (char : Nat → Byte) (length : Nat) (u : Transmission),
    let round := e.formRound t c char length u
    let item := fun i : FrameItem =>
      match i with
      | .char x => e.treat t c x
      | .newline => ⟨(e.newline t c).1, (e.newline t c).2, true, false, true⟩
      | .lineFeed => ⟨(e.carriage t .lf 1).1, (e.carriage t .lf 1).2, true, false, false⟩
    let counting := fun (u : Transmission) (r : Treated) =>
      { u with
        entry :=
          { u.entry with substitutions := if r.counted then min (u.entry.substitutions + 1) 65535 else u.entry.substitutions } }
    let ending := fun u : Transmission => { u with phase := .postamble, entry := { u.entry with lineStart := length } }
    let left := fun (r : Treated) (i : FrameItem) (rest : List FrameItem) => if r.taken then rest else i :: rest
    (e.owed = true →
      round = .formed u { (e.newline t c).2 with group := (e.newline t c).1, groupEnd := .nothing, owed := false }) ∧
    (e.owed = false → u.phase = .preamble →
      (e.progress = none → round = .formed u { e with progress := some (preambleItems c u.entry.priority) }) ∧
      (e.progress = some [] → round = .formed { u with phase := .text } { e with progress := none }) ∧
      ∀ i rest, e.progress = some (i :: rest) →
        round =
          .formed (counting u (item i))
            { (item i).enc with group := (item i).codes, groupEnd := .nothing, progress := some (left (item i) i rest) }) ∧
    (e.owed = false → u.phase = .text →
      (length ≤ u.entry.resumeOffset → round = .formed (ending u) { e with progress := none }) ∧
      (u.entry.resumeOffset < length →
        let r := e.treat t c (char u.entry.resumeOffset)
        let offset := u.entry.resumeOffset + if r.taken then 1 else 0
        let v : Transmission := { u with entry := { (counting u r).entry with resumeOffset := offset } }
        round =
          .formed (if offset = length ∧ r.newline = false then ending v else v)
            { r.enc with
              group := r.codes
              groupEnd := if r.newline then .printLineEnd else .nothing
              progress := none })) ∧
    (e.owed = false → u.phase = .postamble →
      (e.progress = some [] ∨ (e.progress = none ∧ postambleItems c e.column = []) → round = .spent u e) ∧
      (e.progress = none → postambleItems c e.column ≠ [] →
        round = .formed u { e with progress := some (postambleItems c e.column) }) ∧
      ∀ i rest, e.progress = some (i :: rest) →
        round =
          .formed (counting u (item i))
            { (item i).enc with
              group := (item i).codes
              groupEnd := if left (item i) i rest = [] then .postambleEnd else .nothing
              progress := some (left (item i) i rest) }) ∧
    ∀ n v f,
      (round = .spent v f → e.form t c char length u (n + 1) = .spent v f) ∧
      (round = .formed v f → f.group ≠ [] → e.form t c char length u (n + 1) = .formed v f) ∧
      (round = .formed v f → f.group = [] → e.form t c char length u (n + 1) = f.form t c char length v n)) ∧
  (∀ (s : State) (l : LineNo) (n : Nat) (u : Transmission) (c : SendCopy) (st : Story),
    let x := s.line l
    let formed := x.enc.form (s.tables.get c.slot) c (s.store.text.charAt st.chain) st.length u 17000
    let put := fun (v : Transmission) (e : Encoder) =>
      s.modLine l fun x => { x with enc := e, dist := { x.dist with current := some v } }
    (x.dist.current = none ∨ x.enc.copy = none → s.request l (n + 1) = s) ∧
    (x.dist.current = some u → x.enc.copy = some c → x.enc.group ≠ [] → s.request l (n + 1) = s.handCode l c) ∧
    (x.dist.current = some u → x.enc.copy = some c → x.enc.group = [] → s.storyOf u.entry.handle = some st →
      (∀ v e, formed = .formed v e → s.request l (n + 1) = (put v e).handCode l c) ∧
      ∀ v e, formed = .spent v e →
        let t := (put v e).endTransmission l
        ((t.line l).send.state = .sending → s.request l (n + 1) = t.request l n) ∧
        ((t.line l).send.state ≠ .sending → s.request l (n + 1) = t))) ∧
  ∀ (s : State) (l : LineNo) (c : SendCopy) (k : Code) (rest : List Code),
    let x := s.line l
    let begun := s.modLine l fun y =>
      { y with
        enc := { y.enc with group := rest, groupEnd := if rest = [] then .nothing else y.enc.groupEnd }
        send :=
          { y.send with
            frame :=
              some { code := k, start := s.tick, unit := c.unit, stopLength := c.stopLength, keying := c.keying, element := 0 }
            key := .space
            stopDelay :=
              if y.record.motorControl then some { loadedAt := s.tick, ms := y.record.stopDelay * 1000 }
              else y.send.stopDelay } }
    (x.enc.group = [] → s.handCode l c = s) ∧
    (x.enc.group = k :: rest → rest ≠ [] ∨ x.enc.groupEnd = .nothing → s.handCode l c = begun) ∧
    (x.enc.group = k :: rest → rest = [] → x.enc.groupEnd = .printLineEnd → s.handCode l c = begun.printLineEnd l) ∧
    (x.enc.group = k :: rest → rest = [] → x.enc.groupEnd = .postambleEnd → s.handCode l c = begun.endTransmission l)

/-! ## Sending -/

/-- FRAME_END (R154, R155): at f + 6U + floor(S*U/16) the loop is at steady mark again; a side that is not SENDING begins no
frame; a SENDING side whose group holds more than one further code begins the next one's frame, reloading the stop delay
under motor control; any other SENDING side asks the encoder/formatter (the bound of its rounds: log 23).
KEY_LEVEL_CHANGE (R154): at f + n*U element n begins: the code's element n for n = 1 to 5, mark for the stop element. -/
def Obligations.FrameEndAndKeyLevelResult : Prop :=
  (∀ (s : State) (l : LineNo) (f : CodeFrame), (s.line l).send.frame = some f →
     let x := s.line l
     let u := s.advanceTo (f.start + 6 * f.unit + f.stopLength * f.unit / 16)
     let v := u.modSend l fun y => { y with frame := none, key := .mark }
     (x.send.state ≠ .sending → exec (.frameEnd l) s = .next v.wakeConverter) ∧
     (x.send.state = .sending → exec (.frameEnd l) s = .next (v.request l requestRounds).wakeConverter) ∧
     (∀ k k2 rest t c, x.send.state = .sending → x.enc.group = k :: k2 :: rest → x.dist.current = some t → x.enc.copy = some c →
       exec (.frameEnd l) s =
         .next
           (u.modLine l fun y =>
             { y with
               enc := { y.enc with group := k2 :: rest }
               send :=
                 { y.send with
                   frame :=
                     some
                       { code := k, start := u.tick, unit := c.unit, stopLength := c.stopLength, keying := c.keying, element := 0 }
                   key := .space
                   stopDelay :=
                     if x.record.motorControl then some { loadedAt := u.tick, ms := x.record.stopDelay * 1000 }
                     else x.send.stopDelay } }).wakeConverter)) ∧
  ∀ (s : State) (l : LineNo) (f : CodeFrame) (n : Nat), (s.line l).send.frame = some f → f.element + 1 = n → n ≤ 6 →
    exec (.keyLevelChange l) s =
      .next
        (((s.advanceTo (f.start + n * f.unit)).modSend l fun y =>
          { y with
            frame := some { f with element := n }
            key := if n = 6 ∨ f.code.val.testBit (n - 1) then .mark else .space }).wakeConverter)

/-- START_DELAY_EXPIRY (R157, R160): STARTING goes to SENDING with work and to IDLE without, as R157 says and not as the first
row of R167 does (the model's choice: log 32); in any other state only the timer stops. STOP_DELAY_EXPIRY (R158): STOPPED, motor
off. -/
def Obligations.MotorDelayResults : Prop :=
  ∀ (s : State) (l : LineNo) (t : Timer),
    let x := s.line l
    let u := s.advanceTo t.due
    (x.send.startDelay = some t → x.send.state = .starting → x.dist.hasWork = true →
      exec (.startDelayExpiry l) s = .next ((u.modSend l fun y => { y with startDelay := none }).enterSending l)) ∧
    (x.send.startDelay = some t → x.send.state = .starting → x.dist.hasWork = false →
      exec (.startDelayExpiry l) s =
        .next
          (u.modSend l fun y =>
            { y with
              state := .idle
              startDelay := none
              stopDelay :=
                if x.record.motorControl then some { loadedAt := u.tick, ms := x.record.stopDelay * 1000 }
                else y.stopDelay })) ∧
    (x.send.startDelay = some t → x.send.state ≠ .starting →
      exec (.startDelayExpiry l) s = .next (u.modSend l fun y => { y with startDelay := none })) ∧
    (x.send.stopDelay = some t → x.send.state = .idle →
      exec (.stopDelayExpiry l) s =
        .next (u.modSend l fun y => { y with state := .stopped, motor := false, stopDelay := none }))

/-- GUARD_TIMER_EXPIRY (R165): under HOLD the guard stops and BREAK_IN stays; under AUTO BREAK_IN leaves the set, CLEAR is
posted to both ports, and a HALTED side without another cause leaves HALTED.
Leaving HALTED by the table of R161; entering STARTING with an OPEN send loop takes BREAK_IN (R164), and a start delay of
0 expires at once (R157), after the break-in (the model's choice: log 14). -/
def Obligations.GuardTimerExpiryAndLeavingHalted : Prop :=
  (∀ (s : State) (l : LineNo),
     let x := s.line l
     let work := x.dist.hasWork
     let running := s.modSend l fun y => { y with state := .starting }
     let started := s.modSend l fun y =>
       { y with
         state := .starting
         motor := true
         startDelay := some { loadedAt := s.tick, ms := x.record.startDelay } }
     let ready := s.modSend l fun y =>
       { y with motor := true, startDelay := none, guard := if x.txLoop.loop = .opened then none else y.guard }
     (x.record.motorControl = true → x.send.motor = true → x.send.startDelay ≠ none → work = true →
       s.leaveHalted l = if x.txLoop.loop = .opened then running.takeBreakIn l else running) ∧
     (x.record.motorControl = true → x.send.motor = true → work = false →
       s.leaveHalted l =
         s.modSend l fun y =>
           { y with
             state := .idle
             startDelay := none
             stopDelay := some { loadedAt := s.tick, ms := x.record.stopDelay * 1000 } }) ∧
     (x.record.motorControl = true → x.send.motor = true → x.send.startDelay = none → work = true →
       s.leaveHalted l = s.enterSending l) ∧
     (x.record.motorControl = true → x.send.motor = false → work = true → x.record.startDelay ≠ 0 →
       s.leaveHalted l = if x.txLoop.loop = .opened then started.takeBreakIn l else started) ∧
     (x.record.motorControl = true → x.send.motor = false → work = true → x.record.startDelay = 0 →
       (x.txLoop.loop ≠ .opened ∨ x.send.breakIn = true) → s.leaveHalted l = ready.enterSending l) ∧
     (x.record.motorControl = true → x.send.motor = false → work = true → x.record.startDelay = 0 →
       x.txLoop.loop = .opened → x.send.breakIn = false →
       s.leaveHalted l = (started.takeBreakIn l).modSend l fun y => { y with startDelay := none }) ∧
     (x.record.motorControl = true → x.send.motor = false → work = false →
       s.leaveHalted l = s.modSend l fun y => { y with state := .stopped }) ∧
     (x.record.motorControl = false → work = true → s.leaveHalted l = s.enterSending l) ∧
     (x.record.motorControl = false → work = false → s.leaveHalted l = s.modSend l fun y => { y with state := .idle })) ∧
  ∀ (s : State) (l : LineNo) (t : Timer), (s.line l).send.guard = some t →
    let x := s.line l
    let u := s.advanceTo t.due
    let v := ((u.modSend l fun y => { y with breakIn := false, guard := none }).post .a (.lineState l .send (.breakIn false))).post
      .b (.lineState l .send (.breakIn false))
    (x.record.breakPolicy = .hold ∨ x.send.breakIn = false →
      exec (.guardTimerExpiry l) s = .next (u.modSend l fun y => { y with guard := none })) ∧
    (x.record.breakPolicy = .auto → x.send.breakIn = true → x.send.state = .halted ∧ x.send.deskHold = false →
      exec (.guardTimerExpiry l) s = .next (v.leaveHalted l)) ∧
    (x.record.breakPolicy = .auto → x.send.breakIn = true → ¬(x.send.state = .halted ∧ x.send.deskHold = false) →
      exec (.guardTimerExpiry l) s = .next v)

/-- Taking BREAK_IN (R150, R159, R164): in the set already, only the guard stops; else the encoder drops its group, goes to
UNKNOWN and, with a current story, owes a newline and the story goes back to its print-line start; the side is HALTED, a
waiting hold joins, and SET is posted to both ports. The frame in progress and the motor go on. -/
def Obligations.BreakInResult : Prop :=
  ∀ (s : State) (l : LineNo),
    let x := s.line l
    let halted : SendSide :=
      if x.send.state = .halted then { x.send with breakIn := true }
      else
        { x.send with
          state := .halted
          breakIn := true
          deskHold := x.send.deskHold || x.send.holdWaiting
          holdWaiting := false
          stopDelay := none }
    let told := fun t : State => (t.post .a (.lineState l .send (.breakIn true))).post .b (.lineState l .send (.breakIn true))
    (x.send.breakIn = true → s.takeBreakIn l = s.modSend l fun y => { y with guard := none }) ∧
    (x.send.breakIn = false → x.dist.current = none →
      s.takeBreakIn l =
        told (s.modLine l fun x => { x with enc := { x.enc with encCase := .unknown, refresh := 0 }, send := halted })) ∧
    (∀ u, x.send.breakIn = false → x.dist.current = some u →
      s.takeBreakIn l =
        told
          (s.modLine l fun x =>
            { x with
              enc :=
                { x.enc with
                  group := []
                  groupEnd := .nothing
                  encCase := .unknown
                  refresh := 0
                  owed := true
                  progress := none }
              dist :=
                { x.dist with current := some { u with entry := { u.entry with resumeOffset := u.entry.lineStart } } }
              send := halted }))

/-! ## The desk links -/

/-- The hunt (R169): a change to space within HUNTING, its space run of 64 to 3,840 ticks, whose samples at positions 8 and 9
read mark, is a frame start: the rate, the SYNC and the gap timer from the stop sample; any other run leaves no trace. The line
ends at the level given and turned over at each of the changes given, from its tick on (log 20).
The bytes of a frame (R170, R171): a start edge after the last stop sample and within 40,960 ticks of it stops the gap timer and
begins a byte, and a later one finds the frame abandoned; position n is sampled at floor((2n+1)R/16), positions 1 to 8 giving the
byte, least significant bit first, and 9 the stop bit: mark adds the byte, while space, or a LENGTH above 250, abandons the
frame; the gap timer's expiry abandons it too. -/
def Obligations.FrameReceptionResult : Prop :=
  let mark := fun (level : Level) (changes : List Nat) (t : Nat) =>
    level = .mark ↔ (changes.filter fun c => decide (t < c)).length % 2 = 0
  (∀ (s : State) (p : Port) (edge run : Nat) (level : Level) (changes : List Nat),
     let begins := (s.port p).link = .hunting ∧ (s.port p).huntFrom ≤ edge ∧ 64 ≤ run ∧ run ≤ 3840 ∧
       mark level changes (edge + 17 * run / 16) ∧ mark level changes (edge + 19 * run / 16)
     let sample := edge + 19 * run / 16
     (begins →
       exec (.frameStart p edge run level changes) s =
         .next
           ((s.advanceTo sample).modPort p fun q =>
             { q with link := .inFrame, rate := some run, received := [0x80], byteStart := none, gapFrom := some sample })) ∧
     (¬begins → exec (.frameStart p edge run level changes) s = .next s)) ∧
  ∀ (s : State) (p : Port),
    let q := s.port p
    let abandoned := fun (tick : Nat) (q : DeskPort) =>
      { q with link := .hunting, huntFrom := tick, received := [], byteStart := none, gapFrom := none }
    (∀ edge g, q.link = .inFrame → q.gapFrom = some g → g < edge → edge ≤ g + 40960 →
      exec (.byteStartEdge p edge) s =
        .next ((s.advanceTo edge).modPort p fun q => { q with byteStart := some edge, gapFrom := none })) ∧
    (∀ edge g, q.link = .inFrame → q.gapFrom = some g → g + 40960 < edge →
      exec (.byteStartEdge p edge) s = .next ((s.advanceTo edge).modPort p (abandoned (g + 40960)))) ∧
    (∀ edge, (q.link = .hunting ∨ q.gapFrom = none ∨ ∃ g, q.gapFrom = some g ∧ edge ≤ g) →
      exec (.byteStartEdge p edge) s = .next (s.advanceTo edge)) ∧
    (q.checkNext = true ↔ 3 ≤ q.received.length ∧ q.received.length = 3 + (q.received.getD 2 0).toNat) ∧
    (∀ level changes, (q.link = .hunting ∨ q.byteStart = none ∨ q.checkNext = true) →
      exec (.byteStopSample p level changes) s = .next s) ∧
    (∀ (level : Level) (changes : List Nat) (x : Byte) (e r : Nat),
      q.link = .inFrame → q.byteStart = some e → q.rate = some r → q.checkNext = false →
      (∀ n, n < 8 → (x.getLsbD n = true ↔ mark level changes (e + (2 * (n + 1) + 1) * r / 16))) →
      let d := e + 19 * r / 16
      let done := exec (.byteStopSample p level changes) s
      (¬mark level changes d → done = .next ((s.advanceTo d).modPort p (abandoned d))) ∧
      (mark level changes d → q.received.length = 2 ∧ 250 < x.toNat → done = .next ((s.advanceTo d).modPort p (abandoned d))) ∧
      (mark level changes d → ¬(q.received.length = 2 ∧ 250 < x.toNat) →
        done =
          .next
            ((s.advanceTo d).modPort p fun q =>
              { q with received := q.received ++ [x], byteStart := none, gapFrom := some d }))) ∧
    (∀ g, q.gapFrom = some g → exec (.gapTimerExpiry p) s = .next ((s.advanceTo (g + 40960)).modPort p (abandoned (g + 40960))))

/-- FRAME_COMPLETE (R170, R171, R176), for a frame whose next byte is its CHECK: the receiver is HUNTING; a space stop bit, or
a sum other than 0, has no other effect; a sum of 0 makes a good frame of the COMMAND byte, the rate and the payload, which
restarts the silence timer of an ACTIVE port, makes a SILENT one ACTIVE, and is taken at once by a port that is ready, held by
one whose sender alone is busy, else discarded. The CHECK is sampled as every byte is. -/
def Obligations.FrameCompleteResult : Prop :=
  let mark := fun (level : Level) (changes : List Nat) (t : Nat) =>
    level = .mark ↔ (changes.filter fun c => decide (t < c)).length % 2 = 0
  (∀ (s : State) (p : Port) (level : Level) (changes : List Nat),
     ((s.port p).link = .hunting ∨ (s.port p).byteStart = none ∨ (s.port p).checkNext = false) →
       exec (.frameComplete p level changes) s = .next s) ∧
  ∀ (s : State) (p : Port) (level : Level) (changes : List Nat) (check : Byte) (e r : Nat),
    let q := s.port p
    let d := e + 19 * r / 16
    let u := (s.advanceTo d).modPort p fun q =>
      { q with link := .hunting, huntFrom := d, received := [], byteStart := none, gapFrom := none }
    let sum := (q.received.drop 1).foldl (· + ·) check
    let g : GoodFrame := { code := q.received.getD 1 0, frame := { rate := r, payload := q.received.drop 3 } }
    let heard : State :=
      match q.silence with
      | .untimed => u
      | .active => u.modPort p fun q => { q with silenceTimer := some { loadedAt := u.tick, ms := q.interval * 1000 } }
      | .silent =>
        (u.modPort p fun q =>
          { q with silence := .active, silenceTimer := some { loadedAt := u.tick, ms := q.interval * 1000 } }).judgeRoom
    let done := exec (.frameComplete p level changes) s
    q.link = .inFrame → q.byteStart = some e → q.rate = some r → q.checkNext = true →
    (∀ n, n < 8 → (check.getLsbD n = true ↔ mark level changes (e + (2 * (n + 1) + 1) * r / 16))) →
      (¬mark level changes d → done = .next u) ∧
      (mark level changes d → sum ≠ 0 → done = .next u) ∧
      (mark level changes d → sum = 0 → q.ready →
        done =
          .next
            ((runCommand p g heard).state.answer p g.code g.frame (runCommand p g heard).status
              (runCommand p g heard).payload)) ∧
      (mark level changes d → sum = 0 → q.response ≠ none → q.held = none →
        done = .next (heard.modPort p fun q => { q with held := some g })) ∧
      (mark level changes d → sum = 0 → q.held ≠ none → done = .next heard)

/-- RESPONSE_END (R171, R172): when the last stop bit of the last byte ends, ten bit times of R/8 ticks a byte, the sender is
idle; a held frame is taken then and its response begins. -/
def Obligations.ResponseEndResult : Prop :=
  ∀ (s : State) (p : Port) (r : Response), (s.port p).response = some r →
    let u := (s.advanceTo (r.start + r.bytes.length * (10 * r.rate / 8))).modPort p fun q =>
      { q with response := none, held := none }
    ((s.port p).held = none → exec (.responseEnd p) s = .next u) ∧
    ∀ g, (s.port p).held = some g →
      exec (.responseEnd p) s =
        .next ((runCommand p g u).state.answer p g.code g.frame (runCommand p g u).status (runCommand p g u).payload)

/-- SILENCE_TIMER_EXPIRY (R176): an ACTIVE port becomes SILENT, PORT_SILENT naming it goes to the other port, and the room
judges entry.
Entry to UNATTENDED (R192): from ATTENDED, when at least one port is timed and every timed port is SILENT; otherwise
nothing changes. -/
def Obligations.SilenceTimerExpiryResult : Prop :=
  (∀ s : State,
     let deserted := (∃ p, (s.port p).silence ≠ .untimed) ∧ ∀ p, (s.port p).silence ≠ .untimed → (s.port p).silence = .silent
     (s.room.unattended = false → deserted →
       s.judgeRoom =
         (({ s with room := { s.room with unattended := true } }).post .a .unattendedBegin).post .b .unattendedBegin) ∧
     (¬(s.room.unattended = false ∧ deserted) → s.judgeRoom = s)) ∧
  ∀ (s : State) (p : Port) (t : Timer), (s.port p).silence = .active → (s.port p).silenceTimer = some t →
    exec (.silenceTimerExpiry p) s =
      .next
        ((((s.advanceTo t.due).modPort p fun q => { q with silence := .silent, silenceTimer := none }).post p.other
          (.portSilent p)).judgeRoom)

/-- A notice posted to a port (R177): masked, it leaves no trace; below 48 it joins the tail; at 48 it is dropped and the
overflow flag set; the other port keeps what it has. A notice for a set of ports goes to each of them, one for ROOM (R127) and a
LINE_STATE to both, port A first.
The attention output is asserted while the queue is not empty or the overflow flag is set (R177). -/
def Obligations.PostedNoticeAndAttention : Prop :=
  (∀ (s : State) (p : Port) (n : Notice),
     let q := s.port p
     (q.noticeMask.getLsbD (n.kind - 1) = false → s.post p n = s) ∧
     (q.noticeMask.getLsbD (n.kind - 1) = true → q.notices.length < 48 →
       s.post p n = s.modPort p fun q => { q with notices := q.notices ++ [n] }) ∧
     (q.noticeMask.getLsbD (n.kind - 1) = true → 48 ≤ q.notices.length →
       s.post p n = s.modPort p fun q => { q with overflow := true }) ∧
     n.kind - 1 < 11 ∧ n.bytes.length = 8) ∧
  (∀ (s : State) (n : Notice) (l : LineNo) (side : Side) (v : LineReport),
     (∀ ps : PortSet,
       let t := if ps.a = true then s.post .a n else s
       s.postSet ps n = if ps.b = true then t.post .b n else t) ∧
     (∀ p, s.postSubmitter (.port p) n = s.post p n) ∧ s.postSubmitter .room n = (s.post .a n).post .b n ∧
     s.postLine l side v = (s.post .a (.lineState l side v)).post .b (.lineState l side v)) ∧
  ∀ (s : State) (p : Port), (s.port p).attention = true ↔ (s.port p).notices ≠ [] ∨ (s.port p).overflow = true

/-! ## Desk commands: frames and refusals -/

/-- A good frame (R171, R172, R173), for each of the desk rows: discarded when a frame is held, held when only the sender is
busy, and otherwise taken at once, its response beginning now, after the command has acted. -/
def Obligations.GoodFrameTakenHeldOrDiscarded : Prop :=
  ∀ (c : Instr) (s : State) (p : Port) (g : GoodFrame), goodFrameOf c = some (p, g) →
    ((s.port p).held ≠ none → exec c s = .next s) ∧
    ((s.port p).held = none → (s.port p).response ≠ none →
      exec c s = .next (s.modPort p fun q => { q with held := some g })) ∧
    ((s.port p).ready →
      exec c s =
        .next ((runCommand p g s).state.answer p g.code g.frame (runCommand p g s).status (runCommand p g s).payload))

/-- A COMMAND byte that names no command is answered UNKNOWN_COMMAND, a payload of another length than the layout gives
BAD_LENGTH, and, for the commands that name a story, a handle that is not current STALE, each with nothing changed and no
payload (R92, R173, R181).
Every refused command changes nothing and answers with no payload; only the bytes of the table name commands; every
response payload fits in LENGTH. A response is SYNC 0x80, ECHO, STATUS, LENGTH, the payload and CHECK, in this order, its bytes from
ECHO to CHECK summing to 0 modulo 256, with the thirteen numbers of STATUS (R172, R173, R180). -/
def Obligations.CommandTestsAndRefusals : Prop :=
  (∀ (s : State) (p : Port) (f : CommandFrame),
     (∀ code : Byte, code ∉ commandCodes →
       runCommand p { code := code, frame := f } s = { status := .unknownCommand, payload := [], state := s }) ∧
     (∀ code : Byte, code ∉ commandCodes → (s.port p).ready →
       exec (.unknownCommand p code f) s = .next (s.answer p code f .unknownCommand [])) ∧
     (∀ code low high,
       (code, low, high) ∈
         ([(0x01, 0, 0), (0x02, 6, 6), (0x03, 5, 5), (0x04, 4, 4), (0x05, 11, 11), (0x06, 0, 0), (0x07, 1, 1), (0x10, 62, 62),
           (0x11, 1, 1), (0x12, 2, 2), (0x18, 130, 130), (0x19, 1, 1), (0x20, 4, 4), (0x21, 5, 5), (0x22, 1, 1),
           (0x23, 3, 242), (0x24, 4, 4), (0x25, 4, 4), (0x26, 2, 2), (0x27, 2, 2), (0x28, 2, 2)] : List (Byte × Nat × Nat)) →
       f.payload.length < low ∨ high < f.payload.length →
         runCommand p { code := code, frame := f } s = { status := .badLength, payload := [], state := s }) ∧
     (∀ code low high,
       (code, low, high) ∈
         ([(0x21, 5, 5), (0x23, 3, 242), (0x24, 4, 4), (0x25, 4, 4), (0x26, 2, 2), (0x27, 2, 2), (0x28, 2, 2)] :
           List (Byte × Nat × Nat)) →
       low ≤ f.payload.length → f.payload.length ≤ high →
       (∀ h : Handle, byteAt f.payload 0 = h.index.val → byteAt f.payload 1 = h.generation.val → s.storyOf h = none) →
         runCommand p { code := code, frame := f } s = { status := .stale, payload := [], state := s })) ∧
  (∀ (s : State) (p : Port) (g : GoodFrame),
    let r := runCommand p g s
    (r.status ≠ .done → r.state = s ∧ r.payload = []) ∧ (r.status = .unknownCommand ↔ g.code ∉ commandCodes) ∧
      r.payload.length ≤ 250) ∧
  [Status.done, .unknownCommand, .badLength, .badValue, .stale, .notHolder, .wrongState, .poolLow, .directoryFull, .tooLong,
      .tableInUse, .tableInvalid, .lineMode].map Status.number = [0, 1, 2, 3, 4, 5, 6, 7, 8, 9, 10, 11, 12] ∧
  ∀ (code : Byte) (st : Status) (payload : List Byte), ∃ check : Byte,
    responseBytes code st payload =
      [0x80, code, BitVec.ofNat 8 st.number, BitVec.ofNat 8 payload.length] ++ payload ++ [check] ∧
    ((responseBytes code st payload).drop 1).foldl (· + ·) 0 = 0

/-! ## Desk commands: results at a port that is ready -/

/-- STATUS, READ_LINE, READ_TABLE, LIST_STORIES and READ_STORY answer DONE with the part as it stands and change nothing else
(R16, R21, R109, R110, R174), and what each of them refuses: another length BAD_LENGTH; a line above 15, a slot above 3, an
empty state set, a bound above 4, an origin that is neither 0..17 nor 0xFF, a count of 0 BAD_VALUE; a handle that is not
current STALE.
What LIST_STORIES lists (R110): exactly the stories at or above the start index that pass the filter, each with its current
handle, in ascending index, the first 15 of them. The continue index is the last summary's index plus 1 when there are 15 and
that index is below 255, and absent otherwise. The bytes of the responses are those of LayoutsReadBack. -/
def Obligations.ReadingCommandsResult : Prop :=
  (∀ (s : State) (states bound origin start : Nat), start < 256 →
     let xs := passing states bound origin (s.store.records.toList.drop start) start
     (∀ (h : Handle) (st : Story), (h, st) ∈ xs ↔
       start ≤ h.index.val ∧ s.storyOf h = some st ∧
         states.testBit (st.state.number - 1) = true ∧ st.priority.number ≤ bound ∧
         (origin = 255 ∨ origin = st.origin.number)) ∧
     xs.Pairwise fun x y => x.1.index.val < y.1.index.val) ∧
  (continueIndex [] = none ∧
   ∀ (xs : List (Handle × Story)) (h : Handle) (st : Story),
     (xs.length = 14 → h.index.val < 255 → continueIndex (xs ++ [(h, st)]) = some (h.index.val + 1)) ∧
     (xs.length = 14 → h.index.val = 255 → continueIndex (xs ++ [(h, st)]) = none) ∧
     (xs.length ≠ 14 → continueIndex (xs ++ [(h, st)]) = none)) ∧
  (∀ (s : State) (p : Port) (f : CommandFrame), (s.port p).ready →
     (f.payload.length ≠ 0 → exec (.status p f) s = .next (s.answer p 0x01 f .badLength [])) ∧
     (f.payload.length ≠ 1 → exec (.readLine p f) s = .next (s.answer p 0x11 f .badLength [])) ∧
     (∀ n : Byte, f.payload = [n] → 15 < n.toNat → exec (.readLine p f) s = .next (s.answer p 0x11 f .badValue [])) ∧
     (f.payload.length ≠ 1 → exec (.readTable p f) s = .next (s.answer p 0x19 f .badLength [])) ∧
     (∀ n : Byte, f.payload = [n] → 3 < n.toNat → exec (.readTable p f) s = .next (s.answer p 0x19 f .badValue [])) ∧
     (f.payload.length ≠ 4 → exec (.listStories p f) s = .next (s.answer p 0x20 f .badLength [])) ∧
     (∀ start states bound origin : Byte, f.payload = [start, states, bound, origin] →
       (states.toNat % 8 = 0 ∨ 4 < bound.toNat ∨ (17 < origin.toNat ∧ origin.toNat ≠ 255)) →
       exec (.listStories p f) s = .next (s.answer p 0x20 f .badValue [])) ∧
     (f.payload.length ≠ 5 → exec (.readStory p f) s = .next (s.answer p 0x21 f .badLength [])) ∧
     ∀ i g o0 o1 n : Byte, f.payload = [i, g, o0, o1, n] →
       ((∀ h : Handle, i.toNat = h.index.val → g.toNat = h.generation.val → s.storyOf h = none) →
         exec (.readStory p f) s = .next (s.answer p 0x21 f .stale [])) ∧
       (∀ h : Handle, i.toNat = h.index.val → g.toNat = h.generation.val → s.storyOf h ≠ none → n = 0 →
         exec (.readStory p f) s = .next (s.answer p 0x21 f .badValue []))) ∧
  ∀ (s : State) (p : Port) (rate : Nat), (s.port p).ready →
    (exec (.status p ⟨rate, []⟩) s = .next (s.answer p 0x01 ⟨rate, []⟩ .done s.statusBytes)) ∧
    (∀ (n : Byte) (l : LineNo), n.toNat = l.val →
      exec (.readLine p ⟨rate, [n]⟩) s =
        .next (s.answer p 0x11 ⟨rate, [n]⟩ .done (n :: (s.line l).record.bytes ++ (s.line l).workingBytes))) ∧
    (∀ (n : Byte) (k : Fin 4), n.toNat = k.val →
      exec (.readTable p ⟨rate, [n]⟩) s = .next (s.answer p 0x19 ⟨rate, [n]⟩ .done (s.tables.get k).bytes)) ∧
    (∀ start states bound origin : Byte,
      states.toNat % 8 ≠ 0 → bound.toNat ≤ 4 → (origin.toNat ≤ 17 ∨ origin.toNat = 255) →
      let given :=
        (passing (states.toNat % 8) bound.toNat origin.toNat (s.store.records.toList.drop start.toNat) start.toNat).take 15
      let next := continueIndex given
      exec (.listStories p ⟨rate, [start, states, bound, origin]⟩) s =
        .next
          (s.answer p 0x20 ⟨rate, [start, states, bound, origin]⟩ .done
            ([byte1 given.length, if next = none then 0 else 1, byte1 (next.getD 0)] ++
              given.flatMap fun q => summaryBytes q.1 q.2))) ∧
    ∀ (i g o0 o1 n : Byte) (h : Handle) (st : Story),
      i.toNat = h.index.val → g.toNat = h.generation.val → s.storyOf h = some st → n ≠ 0 →
      let offset := o0.toNat + 256 * o1.toNat
      let count := min (min n.toNat 240) (st.length - offset)
      exec (.readStory p ⟨rate, [i, g, o0, o1, n]⟩) s =
        .next
          (s.answer p 0x21 ⟨rate, [i, g, o0, o1, n]⟩ .done
            ([byte1 st.state.number, byte1 st.length, byte1 (st.length / 256), byte1 count] ++
              (List.range count).map fun k => s.store.text.charAt st.chain (offset + k)))

/-- SET_CLOCK (R188): day and second as given, least significant byte first, the millisecond phase 0, the clock set; a second
above 86,399 is refused BAD_VALUE, a wrong length BAD_LENGTH. No timer and no stamp moves. -/
def Obligations.SetClockResult : Prop :=
  (∀ (s : State) (p : Port) (f : CommandFrame), (s.port p).ready → f.payload.length ≠ 6 →
    exec (.setClock p f) s = .next (s.answer p 0x02 f .badLength [])) ∧
  ∀ (s : State) (p : Port) (rate : Nat) (d0 d1 c0 c1 c2 c3 : Byte), (s.port p).ready →
    let f : CommandFrame := ⟨rate, [d0, d1, c0, c1, c2, c3]⟩
    let second := c0.toNat + 256 * c1.toNat + 65536 * c2.toNat + 16777216 * c3.toNat
    (second ≤ 86399 →
      exec (.setClock p f) s =
        .next
          (({ s with
              room :=
                { s.room with
                  clock := { day := d0.toNat + 256 * d1.toNat, second := second, millis := 0, isSet := true } } }).answer
            p 0x02 f .done [])) ∧
    (86399 < second → exec (.setClock p f) s = .next (s.answer p 0x02 f .badValue []))

/-- SET_PORT (R175): the issuing port's masks and interval are replaced; an interval of 0 makes it UNTIMED and stops its
timer, another makes it ACTIVE and loads it; a change of silence state goes to the room; the settings as taken are returned. -/
def Obligations.SetPortResult : Prop :=
  (∀ (s : State) (p : Port) (f : CommandFrame), (s.port p).ready → f.payload.length ≠ 5 →
    exec (.setPort p f) s = .next (s.answer p 0x03 f .badLength [])) ∧
  ∀ (s : State) (p : Port) (rate : Nat) (i0 i1 m0 m1 n : Byte), (s.port p).ready →
    let f : CommandFrame := ⟨rate, [i0, i1, m0, m1, n]⟩
    let mask : BitVec 11 := BitVec.ofNat 11 (m0.toNat + 256 * m1.toNat)
    let t := s.modPort p fun q =>
      { q with
        interest := BitVec.ofNat 16 (i0.toNat + 256 * i1.toNat)
        noticeMask := mask
        interval := n.toNat
        silence := if n = 0 then .untimed else .active
        silenceTimer := if n = 0 then none else some { loadedAt := s.tick, ms := n.toNat * 1000 } }
    let bytes := [i0, i1, m0, byte1 (mask.toNat / 256), n]
    ((s.port p).silence = (if n = 0 then .untimed else .active) →
      exec (.setPort p f) s = .next (t.answer p 0x03 f .done bytes)) ∧
    ((s.port p).silence ≠ (if n = 0 then .untimed else .active) →
      exec (.setPort p f) s = .next (t.judgeRoom.answer p 0x03 f .done bytes))

/-- SET_ROOM_OPTIONS (R191): bell counts above 9 are clamped, and the options replace the room's whole; a bound above 4 or a
frequency code above 3 is refused BAD_VALUE with nothing changed.
RESUME (R194): UNATTENDED becomes ATTENDED and UNATTENDED_END goes to both ports; in ATTENDED nothing changes; the alarm
is then asserted only for STORE_EXHAUSTED or LOOP_OPEN.
The alarm output is asserted while the mode is UNATTENDED, or STORE_EXHAUSTED is raised, or some line with alarm on open
has its receiver, its receive loop or its send loop OPEN (R190). -/
def Obligations.RoomCommandsResult : Prop :=
  (∀ s : State,
     s.alarm = true ↔
       s.room.unattended = true ∨ s.store.exhausted = true ∨
         ∃ l, (s.line l).record.alarmOnOpen = true ∧
           ((s.line l).rx.state = .opened ∨ (s.line l).rxLoop.loop = .opened ∨ (s.line l).txLoop.loop = .opened)) ∧
  (∀ (s : State) (p : Port) (f : CommandFrame), (s.port p).ready →
     (f.payload.length ≠ 11 → exec (.setRoomOptions p f) s = .next (s.answer p 0x05 f .badLength [])) ∧
     (f.payload.length ≠ 0 → exec (.resume p f) s = .next (s.answer p 0x06 f .badLength []))) ∧
  (∀ (s : State) (p : Port) (rate : Nat) (m0 m1 o0 o1 b t c0 c1 c2 c3 c4 : Byte), (s.port p).ready →
     let f : CommandFrame := ⟨rate, [m0, m1, o0, o1, b, t, c0, c1, c2, c3, c4]⟩
     (∀ (bound : Priority) (tone : BellTone), b.toNat = bound.number → t.toNat = tone.number →
       exec (.setRoomOptions p f) s =
         .next
           (({ s with
               room :=
                 { s.room with
                   options :=
                     { monitors := BitVec.ofNat 16 (m0.toNat + 256 * m1.toNat)
                       sources := BitVec.ofNat 16 (o0.toNat + 256 * o1.toNat)
                       bound := bound
                       tone := tone
                       bellCounts := #v[min c0.toNat 9, min c1.toNat 9, min c2.toNat 9, min c3.toNat 9, min c4.toNat 9] } } }).answer
             p 0x05 f .done
             [m0, m1, o0, o1, b, t, byte1 (min c0.toNat 9), byte1 (min c1.toNat 9), byte1 (min c2.toNat 9),
               byte1 (min c3.toNat 9), byte1 (min c4.toNat 9)])) ∧
     (4 < b.toNat ∨ 3 < t.toNat → exec (.setRoomOptions p f) s = .next (s.answer p 0x05 f .badValue []))) ∧
  ∀ (s : State) (p : Port) (rate : Nat), (s.port p).ready →
    let t := (({ s with room := { s.room with unattended := false } }).post .a .unattendedEnd).post .b .unattendedEnd
    (s.room.unattended = true → exec (.resume p ⟨rate, []⟩) s = .next (t.answer p 0x06 ⟨rate, []⟩ .done [])) ∧
    (s.room.unattended = false → exec (.resume p ⟨rate, []⟩) s = .next (s.answer p 0x06 ⟨rate, []⟩ .done [])) ∧
    (t.alarm = true ↔ s.store.exhausted = true ∨ s.loopOpenCause = true)

/-- FETCH_NOTICES (R178): the oldest notices, as many as the count of 1 to 16 and the queue allow, leave the queue and are
returned with the overflow flag, which is then cleared. -/
def Obligations.FetchNoticesResult : Prop :=
  (∀ (s : State) (p : Port) (f : CommandFrame), (s.port p).ready → f.payload.length ≠ 1 →
    exec (.fetchNotices p f) s = .next (s.answer p 0x07 f .badLength [])) ∧
  ∀ (s : State) (p : Port) (rate : Nat) (n : Byte), (s.port p).ready →
    let q := s.port p
    let k := min (max 1 (min n.toNat 16)) q.notices.length
    exec (.fetchNotices p ⟨rate, [n]⟩) s =
      .next
        ((s.modPort p fun q => { q with notices := q.notices.drop k, overflow := false }).answer p 0x07 ⟨rate, [n]⟩ .done
          ([if q.overflow then 1 else 0, byte1 k] ++ (q.notices.take k).flatMap Notice.bytes))

/-- CONFIGURE_LINE (R18, R20, R25, R27, R28, R29, R34): a record that can be read is clamped and taken, and returned as taken; a
line above 15, or a record with an undefined field, is refused BAD_VALUE, a wrong length BAD_LENGTH. A record cannot be read
exactly when an enumerated field has a number without a value, or a sequence count is 0 or above 6 (R19, R20); one that can has in
each field what its bytes say (R182), a sequence its first count places, a number of several bytes least significant byte first,
the slot at most 3 (R18).
The taking of a record, whatever mode the line had: the removed sides go, the send side first, by the steps of the line reset
that LineResetResult spells, the send side to OFF and the receive side to DISABLED; the added sides start fresh; a kept send
side follows a change of motor control at once (R27); a kept receive side commits its hold-back buffer at a change of framing or
of a sequence (R25) and hands a changed raw level to the filter (R34, R36); a resting converter searches. Nothing else of the line
changes, so on a line that was OFF nothing but the record and the added sides.
The order of these steps, and the mode held between removal and addition, are the model's (log 12). -/
def Obligations.ConfigureLineResult : Prop :=
  (∀ bytes : List Byte, bytes.length = 61 →
     let n := fun i : Nat => (bytes.getD i 0).toNat
     (readRecord bytes = none ↔
       3 < n 0 ∨ 1 < n 1 ∨ 3 < n 6 ∨ 1 < n 11 ∨ 1 < n 12 ∨ (n 13 = 0 ∨ 6 < n 13) ∨ (n 20 = 0 ∨ 6 < n 20) ∨ 4 < n 29 ∨
         1 < n 38 ∨ 1 < n 42 ∨ 1 < n 47 ∨ 2 < n 52 ∨ 1 < n 53 ∨ 1 < n 58 ∨ 1 < n 60) ∧
     ∀ r : LineRecord, readRecord bytes = some r →
       ([Mode.off, .inbound, .outbound, .both][n 0]? = some r.mode ∧ [Keying.neutral, .polar][n 1]? = some r.keying ∧
         [FilterTime.none, .quarter, .half, .one][n 6]? = some r.inputFilter ∧
         [Framing.framed, .continuous][n 12]? = some r.framing ∧
         [Priority.flash, .bulletin, .urgent, .routine, .deferred][n 29]? = some r.defaultPriority ∧
         [UnrepPolicy.substitute, .drop][n 47]? = some r.unrepPolicy ∧
         [PreemptThreshold.off, .flash, .bulletin][n 52]? = some r.preempt ∧
         [BreakPolicy.auto, .hold][n 58]? = some r.breakPolicy) ∧
       ([false, true][n 11]? = some r.rxUnshift ∧ [false, true][n 38]? = some r.markDoubtful ∧
         [false, true][n 42]? = some r.txUnshift ∧ [false, true][n 53]? = some r.motorControl ∧
         [false, true][n 60]? = some r.alarmOnOpen) ∧
       (r.opening = (bytes.drop 14).take (n 13) ∧ r.closing = (bytes.drop 21).take (n 20) ∧ r.slot.val = min (n 10) 3) ∧
       (r.unit = n 2 + 256 * n 3 + 65536 * n 4 ∧ r.stopLength = n 5 ∧ r.markThreshold = n 7 ∧ r.openThreshold = n 8 ∧
         r.lowThreshold = n 9 ∧ r.idleGap = n 27 + 256 * n 28 ∧ r.distortionLimit = n 35 ∧ r.poorThreshold = n 36 ∧
         r.goodThreshold = n 37 ∧ r.openTime = n 40 + 256 * n 41 ∧ r.width = n 43 ∧ r.crCount = n 44 ∧ r.ltrsFill = n 45 ∧
         r.refreshInterval = n 46 ∧ r.flashBells = n 49 ∧ r.bulletinBells = n 50 ∧ r.separation = n 51 ∧
         r.startDelay = n 54 + 256 * n 55 ∧ r.stopDelay = n 56 + 256 * n 57 ∧ r.breakGuard = n 59) ∧
       r.priorityLetters.toList = (bytes.drop 30).take 5 ∧ bytes[39]? = some r.doubtfulSubstitute ∧
         bytes[48]? = some r.unrepSubstitute) ∧
  (∀ (s : State) (p : Port) (f : CommandFrame), (s.port p).ready → f.payload.length ≠ 62 →
    exec (.configureLine p f) s = .next (s.answer p 0x10 f .badLength [])) ∧
  (∀ (s : State) (p : Port) (rate : Nat) (n : Byte) (bytes : List Byte), (s.port p).ready → bytes.length = 61 →
    let f : CommandFrame := ⟨rate, n :: bytes⟩
    (15 < n.toNat ∨ readRecord bytes = none → exec (.configureLine p f) s = .next (s.answer p 0x10 f .badValue [])) ∧
    ∀ (l : LineNo) (offered : LineRecord), n.toNat = l.val → readRecord bytes = some offered →
      exec (.configureLine p f) s =
        .next ((s.takeRecord l offered.clamped).answer p 0x10 f .done (n :: offered.clamped.bytes))) ∧
  ∀ (s : State) (l : LineNo) (r : LineRecord),
    let old := (s.line l).record
    let raw := (s.line l).rawLevel
    let receives : Mode → Bool := fun m => decide (m = .inbound ∨ m = .both)
    let sends : Mode → Bool := fun m => decide (m = .outbound ∨ m = .both)
    let withReceive := fun x : Line =>
      { x with
        rxLoop := { loop := .unmeasured, candidate := none, run := 0 }
        filter := some { level := x.rawLevel, pending := none }
        rx :=
          { state := .idleMark
            level := some { level := x.rawLevel, since := s.tick }
            space := if x.rawLevel = .space then some { begun := s.tick, openTime := r.effectiveOpen } else none
            distortion := 0
            quality := 0
            qualityState := .good }
        asm := { decoderCase := .letters, state := .between, held := [], idleGap := none } }
    let withSend := fun x : Line =>
      { x with
        txLoop := { loop := .unmeasured, candidate := none, run := 0 }
        dist := { queue := [], stack := [], current := none }
        enc :=
          { encCase := .unknown, column := 0, refresh := 0, group := [], groupEnd := .nothing, progress := none, owed := false,
            copy := none }
        send :=
          { state := if r.motorControl then .stopped else .idle, motor := false, deskHold := false, breakIn := false,
            holdWaiting := false, startDelay := none, stopDelay := none, guard := none, frame := none, key := .mark } }
    let sent := fun (t : State) =>
      let off := t.modSend l fun y => { y with motor := false, startDelay := none, stopDelay := none }
      let on := t.modSend l fun y => { y with motor := true }
      if r.motorControl = true then
        match (t.line l).send.state with
        | .idle => on.modSend l fun y => { y with stopDelay := some { loadedAt := t.tick, ms := r.stopDelay * 1000 } }
        | .sending => on
        | .halted => on
        | _ => t
      else
        match (t.line l).send.state with
        | .off => t
        | .stopped => off.modSend l fun y => { y with state := .idle }
        | .starting => if t.hasWork l then off.enterSending l else off.modSend l fun y => { y with state := .idle }
        | _ => off
    let committed := fun (t : State) =>
      let c := (t.modAsm l fun a => { a with held := [] }).commitAll l (t.line l).asm.held
      if c.1 = .stored then c.2 else c.2.cutShort l c.1
    let fed := fun (t : State) =>
      let now := (t.line l).rawLevel
      match (t.line l).filter with
      | none => t
      | some f =>
        if now = raw ∨ (now = f.level ↔ f.pending = none) then t
        else if now = f.level then t.modLine l fun x => { x with filter := some { level := f.level, pending := none } }
        else if r.inputFilter = .none then
          (t.modLine l fun x => { x with filter := some { level := now, pending := none } }).report l now t.tick
        else
          t.modLine l fun x =>
            { x with
              filter :=
                some
                  { level := f.level
                    pending := some { level := now, since := t.tick, filter := r.inputFilter.ticks } } }
    let shared : Mode :=
      if receives old.mode ∧ receives r.mode then (if sends old.mode ∧ sends r.mode then .both else .inbound)
      else if sends old.mode ∧ sends r.mode then .outbound
      else .off
    let a := s.modLine l fun x => { x with record := { r with mode := shared } }
    let b := if sends old.mode ∧ ¬sends r.mode then (a.clearSending l .off).resetChannel l .send else a
    let c :=
      if receives old.mode ∧ ¬receives r.mode then ((b.disableReceiver l).resetAssembler l).resetChannel l .receive else b
    let d := c.modLine l fun x => { x with record := r }
    let e := if ¬receives old.mode ∧ receives r.mode then d.modLine l withReceive else d
    let f := if ¬sends old.mode ∧ sends r.mode then e.modLine l withSend else e
    let g := if sends old.mode ∧ sends r.mode ∧ old.motorControl ≠ r.motorControl then sent f else f
    let h :=
      if receives old.mode ∧ receives r.mode ∧
          (old.framing ≠ r.framing ∨ old.opening ≠ r.opening ∨ old.closing ≠ r.closing) then committed g
      else g
    let k := if receives old.mode ∧ receives r.mode then fed h else h
    s.takeRecord l r = (if k.converter.conversion = none then k.searchConverter else k) ∧
      (old.mode = .off →
        s.takeRecord l r =
          (s.modLine l fun x =>
            let y : Line := { x with record := r }
            let z : Line := if receives r.mode then withReceive y else y
            if sends r.mode then withSend z else z).wakeConverter) ∧
      [FilterTime.none, .quarter, .half, .one].map FilterTime.ticks = [0, 1024, 2048, 4096]

/-- Clamping (R18): each numeric field outside its range of R17 takes the nearer limit; the low threshold is then above the
open one, the good threshold lies in 1..Tp - 1, a refresh interval of 1 to 7 becomes 8, and the start delay is rounded down to a
multiple of 100; every other field stays. A clamped record lies in the ranges, and a record already in them is not changed. -/
def Obligations.ClampedRecordLiesInRange : Prop :=
  let inRange := fun r : LineRecord =>
    (20480 ≤ r.unit ∧ r.unit ≤ 131071) ∧ (16 ≤ r.stopLength ∧ r.stopLength ≤ 32) ∧
    (8 ≤ r.markThreshold ∧ r.markThreshold ≤ 128) ∧ (1 ≤ r.openThreshold ∧ r.openThreshold ≤ 64) ∧
    (r.openThreshold < r.lowThreshold ∧ 2 ≤ r.lowThreshold ∧ r.lowThreshold ≤ 200) ∧ (1 ≤ r.idleGap ∧ r.idleGap ≤ 600) ∧
    (5 ≤ r.distortionLimit ∧ r.distortionLimit ≤ 45) ∧ (2 ≤ r.poorThreshold ∧ r.poorThreshold ≤ 255) ∧
    (1 ≤ r.goodThreshold ∧ r.goodThreshold < r.poorThreshold) ∧ (100 ≤ r.openTime ∧ r.openTime ≤ 5000) ∧
    (40 ≤ r.width ∧ r.width ≤ 80) ∧ (1 ≤ r.crCount ∧ r.crCount ≤ 3) ∧ r.ltrsFill ≤ 3 ∧
    (r.refreshInterval = 0 ∨ (8 ≤ r.refreshInterval ∧ r.refreshInterval ≤ 80)) ∧ r.flashBells ≤ 10 ∧ r.bulletinBells ≤ 10 ∧
    r.separation ≤ 8 ∧ (r.startDelay ≤ 5000 ∧ r.startDelay % 100 = 0) ∧ (1 ≤ r.stopDelay ∧ r.stopDelay ≤ 600) ∧
    (1 ≤ r.breakGuard ∧ r.breakGuard ≤ 10)
  (∀ r : LineRecord,
    r.clamped =
      { r with
        unit := max 20480 (min r.unit 131071)
        stopLength := max 16 (min r.stopLength 32)
        markThreshold := max 8 (min r.markThreshold 128)
        openThreshold := max 1 (min r.openThreshold 64)
        lowThreshold := max (max 2 (min r.lowThreshold 200)) (max 1 (min r.openThreshold 64) + 1)
        idleGap := max 1 (min r.idleGap 600)
        distortionLimit := max 5 (min r.distortionLimit 45)
        poorThreshold := max 2 (min r.poorThreshold 255)
        goodThreshold := max 1 (min r.goodThreshold (max 2 (min r.poorThreshold 255) - 1))
        openTime := max 100 (min r.openTime 5000)
        width := max 40 (min r.width 80)
        crCount := max 1 (min r.crCount 3)
        ltrsFill := min r.ltrsFill 3
        refreshInterval := if r.refreshInterval = 0 then 0 else max 8 (min r.refreshInterval 80)
        flashBells := min r.flashBells 10
        bulletinBells := min r.bulletinBells 10
        separation := min r.separation 8
        startDelay := min r.startDelay 5000 / 100 * 100
        stopDelay := max 1 (min r.stopDelay 600)
        breakGuard := max 1 (min r.breakGuard 10) }) ∧
  (∀ n : Nat, (clampSlot n).val = min n 3) ∧
  ∀ r : LineRecord, inRange r.clamped ∧ (inRange r → r.clamped = r)

/-- The byte layouts of 10.7, byte by byte: the line record of 61 bytes and the working state of 22 (R182), a table entry and
the 16 bytes of a story summary (R183), a notice of 8 bytes (R184), the 46 bytes of STATUS (R185), with the numbers of every
enumerated field and of the results of a line (R186); a number of several bytes goes least significant byte first (R180).
The record and the table layouts lose nothing (R19, R182, R183): a taken record, written in its 61 bytes and read again, is
itself; a slot's content, returned by READ_TABLE and offered to another slot, is itself. -/
def Obligations.LayoutsReadBack : Prop :=
  let b : Nat → Byte := BitVec.ofNat 8
  let yes : Bool → Nat := fun v => if v then 1 else 0
  let handle : Option Handle → List Byte := fun h =>
    match h with
    | none => [0xFF, 0xFF]
    | some h => [b h.index.val, b h.generation.val]
  ([Mode.off, .inbound, .outbound, .both].map Mode.number = [0, 1, 2, 3] ∧
   [Keying.neutral, .polar].map Keying.number = [0, 1] ∧
   [FilterTime.none, .quarter, .half, .one].map FilterTime.number = [0, 1, 2, 3] ∧
   [Framing.framed, .continuous].map Framing.number = [0, 1] ∧
   [Priority.flash, .bulletin, .urgent, .routine, .deferred].map Priority.number = [0, 1, 2, 3, 4] ∧
   [PreemptThreshold.off, .flash, .bulletin].map PreemptThreshold.number = [0, 1, 2] ∧
   [UnrepPolicy.substitute, .drop].map UnrepPolicy.number = [0, 1] ∧
   [BreakPolicy.auto, .hold].map BreakPolicy.number = [0, 1] ∧
   [BellTone.hz500, .hz1000, .hz2000, .hz4000].map BellTone.number = [0, 1, 2, 3] ∧
   [RxReport.disabled, .idleMark, .inCharacter, .spaceHold, .opened].map RxReport.number = [0, 1, 2, 3, 4] ∧
   (∀ c, [RxState.disabled, .idleMark, .inCharacter c, .spaceHold, .opened].map RxState.number = [0, 1, 2, 3, 4]) ∧
   [Quality.good, .poor].map Quality.number = [0, 1] ∧
   [LoopState.unmeasured, .normal, .low, .opened].map LoopState.number = [0, 1, 2, 3] ∧
   (∀ h d, [AsmState.between, .inStory h d, .skipping].map AsmState.number = [0, 1, 2] ∧
     [AsmState.between, .inStory h d, .skipping].map AsmState.story = [none, some h, none]) ∧
   [Case.letters, .figures].map Case.number = [0, 1] ∧
   [EncCase.letters, .figures, .unknown].map EncCase.number = [0, 1, 2] ∧
   [SendState.off, .stopped, .starting, .idle, .sending, .halted].map SendState.number = [0, 1, 2, 3, 4, 5] ∧
   [Silence.untimed, .active, .silent].map Silence.number = [0, 1, 2] ∧
   [Kind.print, .space, .cr, .lf, .ltrs, .figs, .bell, .blank, .ignore].map Kind.number = [0, 1, 2, 3, 4, 5, 6, 7, 8] ∧
   [StoryState.assembling, .composing, .complete].map StoryState.number = [1, 2, 3] ∧
   [DiscardCause.discard, .reclaim].map DiscardCause.number = [0, 1] ∧
   [DistOutcome.completed, .withdrawn, .abandoned, .notQueued].map DistOutcome.number = [0, 1, 2, 3] ∧
   [LineResult.queued, .already, .queueFull, .lineMode, .withdrawn, .notPending].map LineResult.number = [0, 1, 2, 3, 4, 5] ∧
   [Side.receive, .send].map Side.number = [0, 1] ∧
   (∀ l : LineNo, (Origin.line l).number = l.val) ∧ (Origin.desk .a).number = 16 ∧ (Origin.desk .b).number = 17) ∧
  (∀ r : LineRecord,
    r.bytes =
      [b r.mode.number, b r.keying.number, b r.unit, b (r.unit / 256), b (r.unit / 65536), b r.stopLength,
        b r.inputFilter.number, b r.markThreshold, b r.openThreshold, b r.lowThreshold, b r.slot.val, b (yes r.rxUnshift),
        b r.framing.number, b r.opening.length] ++ (List.range 6).map (fun k => r.opening.getD k 0) ++
        [b r.closing.length] ++ (List.range 6).map (fun k => r.closing.getD k 0) ++
      [b r.idleGap, b (r.idleGap / 256), b r.defaultPriority.number, r.priorityLetters.get 0, r.priorityLetters.get 1,
        r.priorityLetters.get 2, r.priorityLetters.get 3, r.priorityLetters.get 4, b r.distortionLimit, b r.poorThreshold,
        b r.goodThreshold, b (yes r.markDoubtful), r.doubtfulSubstitute, b r.openTime, b (r.openTime / 256),
        b (yes r.txUnshift), b r.width, b r.crCount, b r.ltrsFill, b r.refreshInterval, b r.unrepPolicy.number,
        r.unrepSubstitute, b r.flashBells, b r.bulletinBells, b r.separation, b r.preempt.number, b (yes r.motorControl),
        b r.startDelay, b (r.startDelay / 256), b r.stopDelay, b (r.stopDelay / 256), b r.breakPolicy.number, b r.breakGuard,
        b (yes r.alarmOnOpen)]) ∧
  (∀ x : Line,
    let o := x.record.effectiveOpen
    x.workingBytes =
      [b o, b (o / 256), b (o / 65536), b (o / 16777216), b x.rx.state.number, b x.rx.distortion, b x.rx.quality,
        b x.rx.qualityState.number, b x.rxLoop.loop.number, b x.txLoop.loop.number, b x.asm.state.number,
        b x.asm.decoderCase.number] ++ handle x.asm.state.story ++
      [b x.send.state.number, b (yes x.send.deskHold + 2 * yes x.send.breakIn)] ++
      handle (x.dist.current.map fun u => u.entry.handle) ++
      [b x.dist.queue.length, b x.dist.stack.length, b x.enc.encCase.number, b x.enc.column] ∧
    x.workingBytes.length = 22) ∧
  (∀ t : Table,
    t.bytes =
      b (yes t.fold) ::
        ((List.finRange 32).flatMap (fun k => [b (t.letters.get k).kind.number, (t.letters.get k).char]) ++
          (List.finRange 32).flatMap fun k => [b (t.figures.get k).kind.number, (t.figures.get k).char])) ∧
  (∀ (h : Handle) (st : Story),
    summaryBytes h st =
      [b h.index.val, b h.generation.val,
        b (st.state.number + 4 * yes st.interest.a + 8 * yes st.interest.b +
          16 * (match st.holder with | none => 0 | some .a => 1 | some .b => 2)),
        b st.origin.number, b (st.priority.number + 8 * yes st.truncated + 16 * yes st.unterminated), b st.length,
        b (st.length / 256), b st.doubtful, b (st.doubtful / 256), b st.pending.toNat, b (st.pending.toNat / 256),
        b st.openedStamp.day, b (st.openedStamp.day / 256), b st.openedStamp.second, b (st.openedStamp.second / 256),
        b (st.openedStamp.second / 65536)]) ∧
  (∀ (l : LineNo) (h : Handle) (q : Priority) (t u : Bool) (n : Nat) (o : Origin) (c : DiscardCause) (d : DistOutcome)
     (side : Side) (p : Port),
    let hb := handle (some h)
    (Notice.storyArriving l h q).bytes = [1, b l.val] ++ hb ++ [b q.number, 0, 0, 0] ∧
    (Notice.storyClosed l h q t u n).bytes =
      [2, b l.val] ++ hb ++ [b q.number, b (yes t + 2 * yes u), b n, b (n / 256)] ∧
    (Notice.storyDiscarded o h c q n).bytes = [3, b o.number] ++ hb ++ [b c.number, b q.number, b n, b (n / 256)] ∧
    (Notice.inboundLost l).bytes = [4, b l.val, 0xFF, 0xFF, 0, 0, 0, 0] ∧
    (Notice.distributionEnd l h d n).bytes = [5, b l.val] ++ hb ++ [b d.number, 0, b n, b (n / 256)] ∧
    (∀ v, (Notice.lineState l side (.receiver v)).bytes =
      [6, b l.val, 0xFF, 0xFF, b side.number, 0, b v.number, 0]) ∧
    (∀ v, (Notice.lineState l side (.quality v)).bytes = [6, b l.val, 0xFF, 0xFF, b side.number, 1, b v.number, 0]) ∧
    (∀ v, (Notice.lineState l side (.loop v)).bytes = [6, b l.val, 0xFF, 0xFF, b side.number, 2, b v.number, 0]) ∧
    (∀ v, (Notice.lineState l side (.breakIn v)).bytes = [6, b l.val, 0xFF, 0xFF, b side.number, 3, b (yes v), 0]) ∧
    (Notice.poolLow n).bytes = [7, 0xFF, 0xFF, 0xFF, b n, b (n / 256), 0, 0] ∧
    (Notice.poolRecovered n).bytes = [8, 0xFF, 0xFF, 0xFF, b n, b (n / 256), 0, 0] ∧
    (Notice.portSilent p).bytes = [9, 0xFF, 0xFF, 0xFF, (match p with | .a => 0 | .b => 1), 0, 0, 0] ∧
    Notice.unattendedBegin.bytes = [10, 0xFF, 0xFF, 0xFF, 0, 0, 0, 0] ∧
    Notice.unattendedEnd.bytes = [11, 0xFF, 0xFF, 0xFF, 0, 0, 0, 0]) ∧
  (∀ s : State,
    let free := ((List.finRange 256).filter fun i => (s.record i).story.isNone).length
    let anyOpen := (List.finRange 16).any fun l =>
      (s.line l).record.alarmOnOpen &&
        (decide ((s.line l).rx.state = .opened) || decide ((s.line l).rxLoop.loop = .opened) ||
          decide ((s.line l).txLoop.loop = .opened))
    s.statusBytes =
      [b (yes s.room.unattended), b s.store.freeCount, b (s.store.freeCount / 256), b free, b (free / 256),
        b s.room.clock.day, b (s.room.clock.day / 256), b s.room.clock.second, b (s.room.clock.second / 256),
        b (s.room.clock.second / 65536), b (s.room.clock.second / 16777216), b (yes s.room.clock.isSet),
        b (yes s.room.unattended + 2 * yes s.store.exhausted + 4 * yes anyOpen)] ++
      ((List.finRange 16).flatMap fun l =>
        let x := s.line l
        [b (x.record.mode.number + 4 * x.rx.state.number + 32 * x.send.state.number),
          b (x.rxLoop.loop.number + 4 * x.txLoop.loop.number + 16 * x.rx.qualityState.number +
            32 * yes x.send.deskHold + 64 * yes x.send.breakIn)]) ++
      [b (s.portA.silence.number + 4 * s.portB.silence.number)] ∧
    s.statusBytes.length = 46) ∧
  (∀ bytes offered, bytes.length = 61 → readRecord bytes = some offered →
    offered.clamped.bytes.length = 61 ∧ readRecord offered.clamped.bytes = some offered.clamped) ∧
  ∀ (bytes : List Byte) (t : Table) (k : Byte), readTable bytes = some t →
    t.bytes.length = 129 ∧ readTable (k :: t.bytes) = some t

/-- LINE_CONTROL RESET (R30, R40, R43, R63, R85, R130, R166): the six steps on the sides the line has. A send side is stopped, with
CLEAR posted when BREAK_IN held it; every story on the line is abandoned, current, stack from the top, queue from the head, each
leaving its pending set with DISTRIBUTION_END ABANDONED and the freeing test; the encoder is fresh. A receive side begins afresh,
with LINE_STATE for a receiver that was OPEN and a quality that was POOR; an open story closes with TRUNCATED, what is held
committed. Each loop channel goes to UNMEASURED, and a conversion in progress on it is void. The same steps remove a side.
A RESET of an OFF line is refused LINE_MODE, a line above 15 or an action above 2 BAD_VALUE. On a BOTH line with no story open
the whole line is spelled.
The row carries the line byte alone, the action being the row's own: the model's choice (log 8). That a resting converter
searches after the last step (log 30), and that step 6 takes the receive channel before the send channel (log 21), are the model's
choices. -/
def Obligations.LineResetResult : Prop :=
  let fresh : Encoder :=
    { encCase := .unknown, column := 0, refresh := 0, group := [], groupEnd := .nothing, progress := none, owed := false,
      copy := none }
  let idleAsm : Assembler := { decoderCase := .letters, state := .between, held := [], idleGap := none }
  let rest : LineRecord → SendState := fun r => if r.motorControl then .stopped else .idle
  let cleared : SendState → SendSide := fun state =>
    { state := state, motor := false, deskHold := false, breakIn := false, holdWaiting := false, startDelay := none,
      stopDelay := none, guard := none, frame := none, key := .mark }
  (∀ (s : State) (l : LineNo) (state : SendState),
     let x := s.line l
     let stopped := s.modSend l fun _ => cleared state
     let told := if x.send.breakIn = true then stopped.postLine l .send (.breakIn false) else stopped
     let entries := (x.dist.current.map fun u => u.entry).toList ++ x.dist.stack ++ x.dist.queue
     let emptied := told.modLine l fun y =>
       { y with
         dist := { queue := [], stack := [], current := none }
         enc := { y.enc with copy := none, group := [], groupEnd := .nothing, progress := none, owed := false } }
     let gone := fun (t : State) (e : DistEntry) =>
       ((t.modStory e.handle fun st => { st with pending := st.pending &&& ~~~(BitVec.twoPow 16 l.val) }).postSubmitter
         e.submitter (.distributionEnd l e.handle .abandoned e.substitutions)).freeingTest e.handle.index
     s.clearSending l state = (entries.foldl gone emptied).modEnc l fun _ => fresh) ∧
  (∀ (s : State) (l : LineNo),
     let x := s.line l
     let started := s.modLine l fun y =>
       { y with
         filter := some { level := x.rawLevel, pending := none }
         rx :=
           { state := .idleMark
             level := some { level := x.rawLevel, since := s.tick }
             space := if x.rawLevel = .space then some { begun := s.tick, openTime := x.record.effectiveOpen } else none
             distortion := 0
             quality := 0
             qualityState := .good } }
     let removed := s.modLine l fun y =>
       { y with
         filter := none
         rx := { state := .disabled, level := none, space := none, distortion := 0, quality := 0, qualityState := .good } }
     let told := fun (now : RxReport) (t : State) =>
       let u := if x.rx.state = .opened then t.postLine l .receive (.receiver now) else t
       if x.rx.qualityState = .poor then u.postLine l .receive (.quality .good) else u
     s.resetReceiver l = told .idleMark started ∧ s.disableReceiver l = told .disabled removed ∧
     (∀ h decided, x.asm.state = .inStory h decided →
       s.resetAssembler l = (s.closeCommitting l true false).modAsm l fun _ => idleAsm) ∧
     (x.asm.state = .between ∨ x.asm.state = .skipping → s.resetAssembler l = s.modAsm l fun _ => idleAsm)) ∧
  (∀ (s : State) (l : LineNo) (side : Side),
     let channel : ChannelNo :=
       Fin.ofNat 32 (match side with
         | .receive => l.val
         | .send => 16 + l.val)
     let voided : State :=
       match s.converter.conversion with
       | none => s
       | some c =>
         if c.channel = channel then
           { s with converter := { s.converter with conversion := some { c with void := true } } }
         else s
     let loop :=
       match side with
       | .receive => (s.line l).rxLoop.loop
       | .send => (s.line l).txLoop.loop
     let reset := voided.modLine l fun x =>
       match side with
       | .receive => { x with rxLoop := { loop := .unmeasured, candidate := none, run := 0 } }
       | .send => { x with txLoop := { loop := .unmeasured, candidate := none, run := 0 } }
     s.resetChannel l side = if loop = .unmeasured then reset else reset.postLine l side (.loop .unmeasured)) ∧
  (∀ (s : State) (l : LineNo),
     let r := (s.line l).record
     let searched := fun t : State => if t.converter.conversion = none then t.searchConverter else t
     (r.mode = .outbound → s.resetLine l = searched ((s.clearSending l (rest r)).resetChannel l .send)) ∧
     (r.mode = .inbound →
       s.resetLine l = searched (((s.resetReceiver l).resetAssembler l).resetChannel l .receive)) ∧
     (r.mode = .both →
       s.resetLine l =
         searched
           (((((s.clearSending l (rest r)).resetReceiver l).resetAssembler l).resetChannel l .receive).resetChannel l
             .send))) ∧
  (∀ (s : State) (p : Port) (rate : Nat) (n a : Byte), (s.port p).ready →
     (15 < n.toNat →
       exec (.lineControlReset p ⟨rate, [n]⟩) s = .next (s.answer p 0x12 ⟨rate, [n, 0]⟩ .badValue [])) ∧
     (15 < n.toNat ∨ 2 < a.toNat →
       runCommand p ⟨0x12, ⟨rate, [n, a]⟩⟩ s = { status := .badValue, payload := [], state := s })) ∧
  ∀ (s : State) (p : Port) (rate : Nat) (n : Byte) (l : LineNo), (s.port p).ready → n.toNat = l.val →
    let x := s.line l
    let f : CommandFrame := ⟨rate, [n]⟩
    let g : CommandFrame := ⟨rate, [n, 0]⟩
    (x.record.mode = .off → exec (.lineControlReset p f) s = .next (s.answer p 0x12 g .lineMode [])) ∧
    (x.record.mode ≠ .off → exec (.lineControlReset p f) s = .next ((s.resetLine l).answer p 0x12 g .done [])) ∧
    (x.record.mode = .both → (x.asm.state = .between ∨ x.asm.state = .skipping) →
      (s.resetLine l).line l =
        { record := x.record
          rxCurrent := x.rxCurrent
          txCurrent := x.txCurrent
          rxLoop := { loop := .unmeasured, candidate := none, run := 0 }
          txLoop := { loop := .unmeasured, candidate := none, run := 0 }
          filter := some { level := x.rawLevel, pending := none }
          rx :=
            { state := .idleMark
              level := some { level := x.rawLevel, since := s.tick }
              space := if x.rawLevel = .space then some { begun := s.tick, openTime := x.record.effectiveOpen } else none
              distortion := 0
              quality := 0
              qualityState := .good }
          asm := idleAsm
          dist := { queue := [], stack := [], current := none }
          enc := fresh
          send := cleared (rest x.record) } ∧
      (s.resetLine l).tables = s.tables ∧ (s.resetLine l).room = s.room ∧ ∀ k, k ≠ l → (s.resetLine l).line k = s.line k)

/-- LINE_CONTROL HOLD (R162), by the send state; on a line without a send side it is refused LINE_MODE.
LINE_CONTROL RESUME (R163): hold waiting and DESK_HOLD go; BREAK_IN goes, with its notice, when the loop is not OPEN and,
under AUTO, the guard is stopped; a HALTED side without a cause leaves HALTED; on a line without a send side it is refused
LINE_MODE. A line above 15 is refused BAD_VALUE by both.
The rows carry the line byte alone, the action being the row's own: the model's choice (log 8). -/
def Obligations.LineHoldAndResumeResult : Prop :=
  (∀ (s : State) (p : Port) (rate : Nat) (n : Byte), (s.port p).ready → 15 < n.toNat →
     exec (.lineControlHold p ⟨rate, [n]⟩) s = .next (s.answer p 0x12 ⟨rate, [n, 1]⟩ .badValue []) ∧
     exec (.lineControlResume p ⟨rate, [n]⟩) s = .next (s.answer p 0x12 ⟨rate, [n, 2]⟩ .badValue [])) ∧
  (∀ (s : State) (p : Port) (rate : Nat) (n : Byte) (l : LineNo), (s.port p).ready → n.toNat = l.val →
     let x := s.line l
     let f : CommandFrame := ⟨rate, [n]⟩
     let g : CommandFrame := ⟨rate, [n, 1]⟩
     let done := exec (.lineControlHold p f) s
     (x.record.mode = .off ∨ x.record.mode = .inbound → done = .next (s.answer p 0x12 g .lineMode [])) ∧
     (x.record.mode = .outbound ∨ x.record.mode = .both →
       (x.send.state = .sending →
         done = .next ((s.modSend l fun y => { y with holdWaiting := true }).answer p 0x12 g .done [])) ∧
       (x.send.state = .starting ∨ x.send.state = .idle ∨ x.send.state = .stopped →
         done =
           .next
             ((s.modSend l fun y =>
               { y with state := .halted, deskHold := true, holdWaiting := false, stopDelay := none }).answer p 0x12 g .done [])) ∧
       (x.send.state = .halted →
         done = .next ((s.modSend l fun y => { y with deskHold := true }).answer p 0x12 g .done [])))) ∧
  ∀ (s : State) (p : Port) (rate : Nat) (n : Byte) (l : LineNo), (s.port p).ready → n.toNat = l.val →
    let x := s.line l
    let f : CommandFrame := ⟨rate, [n]⟩
    let g : CommandFrame := ⟨rate, [n, 2]⟩
    let done := exec (.lineControlResume p f) s
    let u := s.modSend l fun y => { y with holdWaiting := false, deskHold := false }
    let v := ((s.modSend l fun y =>
        { y with holdWaiting := false, deskHold := false, breakIn := false, guard := none }).post .a
          (.lineState l .send (.breakIn false))).post .b (.lineState l .send (.breakIn false))
    let goes := x.txLoop.loop ≠ .opened ∧ (x.record.breakPolicy = .hold ∨ x.send.guard = none)
    (x.record.mode = .off ∨ x.record.mode = .inbound → done = .next (s.answer p 0x12 g .lineMode [])) ∧
    (x.record.mode = .outbound ∨ x.record.mode = .both →
      (x.send.breakIn = false → x.send.state ≠ .halted → done = .next (u.answer p 0x12 g .done [])) ∧
      (x.send.breakIn = false → x.send.state = .halted → done = .next ((u.leaveHalted l).answer p 0x12 g .done [])) ∧
      (x.send.breakIn = true → ¬goes → done = .next (u.answer p 0x12 g .done [])) ∧
      (x.send.breakIn = true → goes → x.send.state ≠ .halted → done = .next (v.answer p 0x12 g .done [])) ∧
      (x.send.breakIn = true → goes → x.send.state = .halted → done = .next ((v.leaveHalted l).answer p 0x12 g .done [])))

/-- LOAD_TABLE (R13, R14): a valid table for one of the slots 1 to 3 that no line uses becomes the slot's content; a slot in use
is refused TABLE_IN_USE, an invalid table TABLE_INVALID, slot 0, a fold flag above 1 or a kind number above 8 BAD_VALUE, a wrong
length BAD_LENGTH. A table is valid by the six conditions of R12. A PRINT entry keeps the character given; every other kind takes
the one it produces, or 0x00 (R13). -/
def Obligations.LoadTableResult : Prop :=
  (∀ t : Table,
    let once := fun k : Kind =>
      ∃ c : Code, ∀ j : Code, ((t.letters.get j).kind = k ↔ j = c) ∧ ((t.figures.get j).kind = k ↔ j = c)
    let inBoth := fun k : Kind => (∃ j : Code, (t.letters.get j).kind = k) ∧ ∃ j : Code, (t.figures.get j).kind = k
    let allowed := fun e : Entry => e.kind = .print → e.char ≠ 0x0A ∧ e.char ≠ 0x0D ∧ e.char ≠ 0x07
    t.valid = true ↔
      once .ltrs ∧ once .figs ∧ inBoth .space ∧ inBoth .cr ∧ inBoth .lf ∧
        ∀ j : Code, allowed (t.letters.get j) ∧ allowed (t.figures.get j)) ∧
  (∀ (n : Byte) (bytes : List Byte), bytes.length = 129 →
    let kinds : List Kind := [.print, .space, .cr, .lf, .ltrs, .figs, .bell, .blank, .ignore]
    let byteOf := fun i : Nat => bytes.getD i 0
    let taken := fun (e : Entry) (i : Nat) =>
      kinds[(byteOf i).toNat]? = some e.kind ∧
        e.char =
          match e.kind with
          | .print => byteOf (i + 1)
          | .space => 0x20
          | .lf => 0x0A
          | .bell => 0x07
          | _ => 0x00
    (readTable (n :: bytes) = none ↔ 1 < (byteOf 0).toNat ∨ ∃ i, i < 64 ∧ 8 < (byteOf (1 + 2 * i)).toNat) ∧
    ∀ t : Table, readTable (n :: bytes) = some t →
      (t.fold = true ↔ byteOf 0 = 1) ∧
        ∀ j : Code, taken (t.letters.get j) (1 + 2 * j.val) ∧ taken (t.figures.get j) (65 + 2 * j.val)) ∧
  (∀ (s : State) (p : Port) (f : CommandFrame), (s.port p).ready → f.payload.length ≠ 130 →
    exec (.loadTable p f) s = .next (s.answer p 0x18 f .badLength [])) ∧
  ∀ (s : State) (p : Port) (rate : Nat) (n : Byte) (bytes : List Byte), (s.port p).ready → bytes.length = 129 →
    let f : CommandFrame := ⟨rate, n :: bytes⟩
    let used := fun k : Fin 4 => ∃ l, ((s.line l).record.mode ≠ .off ∧ (s.line l).record.slot = k) ∨
      ((s.line l).dist.current ≠ none ∧ ∃ c, (s.line l).enc.copy = some c ∧ c.slot = k)
    (n = 0 ∨ 3 < n.toNat ∨ readTable (n :: bytes) = none →
      exec (.loadTable p f) s = .next (s.answer p 0x18 f .badValue [])) ∧
    ∀ (k : Fin 4) (t : Table), n.toNat = k.val → k ≠ 0 → readTable (n :: bytes) = some t →
      (used k → exec (.loadTable p f) s = .next (s.answer p 0x18 f .tableInUse [])) ∧
      (¬used k → t.valid = false → exec (.loadTable p f) s = .next (s.answer p 0x18 f .tableInvalid [])) ∧
      (¬used k → t.valid = true →
        exec (.loadTable p f) s = .next (({ s with tables := s.tables.set k.val t }).answer p 0x18 f .done []))

/-- OPEN_STORY (R94, R104): the FREE record of lowest index becomes COMPOSING with the fields of R104, held by the issuing
port; without a FREE record it is refused DIRECTORY_FULL, with a priority above 4 BAD_VALUE. -/
def Obligations.OpenStoryResult : Prop :=
  (∀ (s : State) (p : Port) (f : CommandFrame), (s.port p).ready → f.payload.length ≠ 1 →
    exec (.openStory p f) s = .next (s.answer p 0x22 f .badLength [])) ∧
  ∀ (s : State) (p : Port) (rate : Nat) (n : Byte), (s.port p).ready →
    let f : CommandFrame := ⟨rate, [n]⟩
    (4 < n.toNat → exec (.openStory p f) s = .next (s.answer p 0x22 f .badValue [])) ∧
    (n.toNat ≤ 4 → (∀ i, (s.record i).story ≠ none) →
      exec (.openStory p f) s = .next (s.answer p 0x22 f .directoryFull [])) ∧
    ∀ (i : Fin 256) (priority : Priority), n.toNat = priority.number → (s.record i).story = none →
      (∀ j : Fin 256, j.val < i.val → (s.record j).story ≠ none) →
      exec (.openStory p f) s =
        .next
          (((s.setRecord i
              { generation := (s.record i).generation
                story :=
                  some
                    { state := .composing
                      origin := .desk p
                      priority := priority
                      truncated := false
                      unterminated := false
                      length := 0
                      chain := []
                      doubtful := 0
                      openedStamp := { day := s.room.clock.day, second := s.room.clock.second }
                      closedStamp := none
                      holder := some p
                      interest := { a := decide (p = .a), b := decide (p = .b) }
                      pending := 0 } }).judgeExhausted).answer p 0x22 f .done
            [byte1 i.val, byte1 (s.record i).generation.val])

/-- APPEND_TEXT (R105): the tests in their order; when taken, the characters join the text in n new cells, the pool notices are
evaluated and reclamation runs below the mark when n is not 0 (at most one round a record: log 23), and the new length is returned.
That an append with n = 0 starts no reclamation, even with the free count below the mark, is the model's choice (log 31). -/
def Obligations.AppendTextResult : Prop :=
  (∀ (s : State) (p : Port) (f : CommandFrame), (s.port p).ready → f.payload.length < 3 ∨ 242 < f.payload.length →
     exec (.appendText p f) s = .next (s.answer p 0x23 f .badLength [])) ∧
  (∀ (s : State) (p : Port) (rate : Nat) (i g : Byte) (cs : List Byte), (s.port p).ready → 1 ≤ cs.length → cs.length ≤ 240 →
     (∀ h : Handle, i.toNat = h.index.val → g.toNat = h.generation.val → s.storyOf h = none) →
     exec (.appendText p ⟨rate, i :: g :: cs⟩) s = .next (s.answer p 0x23 ⟨rate, i :: g :: cs⟩ .stale [])) ∧
  ∀ (s : State) (p : Port) (rate : Nat) (i g : Byte) (cs : List Byte) (h : Handle) (st : Story),
    (s.port p).ready → 1 ≤ cs.length → cs.length ≤ 240 → i.toNat = h.index.val → g.toNat = h.generation.val →
    s.storyOf h = some st →
      let f : CommandFrame := ⟨rate, i :: g :: cs⟩
      let n := (st.length + cs.length + 31) / 32 - (st.length + 31) / 32
      let length := st.length + cs.length
      let done := exec (.appendText p f) s
      (st.state ≠ .composing → done = .next (s.answer p 0x23 f .wrongState [])) ∧
      (st.state = .composing → st.holder ≠ some p → done = .next (s.answer p 0x23 f .notHolder [])) ∧
      (st.state = .composing → st.holder = some p → 16384 < length → done = .next (s.answer p 0x23 f .tooLong [])) ∧
      (st.state = .composing → st.holder = some p → length ≤ 16384 → n ≠ 0 → s.store.freeCount < s.store.deskReserve + n →
        done = .next (s.answer p 0x23 f .poolLow [])) ∧
      (st.state = .composing → st.holder = some p → length ≤ 16384 → n = 0 →
        done = .next ((s.appendChars h 0 cs).answer p 0x23 f .done [byte1 length, byte1 (length / 256)])) ∧
      (st.state = .composing → st.holder = some p → length ≤ 16384 → n ≠ 0 → s.store.deskReserve + n ≤ s.store.freeCount →
        done =
          .next
            (((s.appendChars h n cs).judgePool.judgeExhausted.reclaim Store.markReached victimRounds).answer p 0x23 f .done
              [byte1 length, byte1 (length / 256)]))

/-- RETAIN_STORY, RELEASE_STORY and DISCARD_STORY (R106, R107, R108): a wrong length is refused BAD_LENGTH, a handle that is
not current STALE, and on a current handle each has the tests and the effect of its rule. -/
def Obligations.KeepingCommandsResult : Prop :=
  (∀ (s : State) (p : Port) (f : CommandFrame), (s.port p).ready → f.payload.length ≠ 2 →
     exec (.retainStory p f) s = .next (s.answer p 0x26 f .badLength []) ∧
     exec (.releaseStory p f) s = .next (s.answer p 0x27 f .badLength []) ∧
     exec (.discardStory p f) s = .next (s.answer p 0x28 f .badLength [])) ∧
  (∀ (s : State) (p : Port) (rate : Nat) (i g : Byte), (s.port p).ready →
     (∀ h : Handle, i.toNat = h.index.val → g.toNat = h.generation.val → s.storyOf h = none) →
     let f : CommandFrame := ⟨rate, [i, g]⟩
     exec (.retainStory p f) s = .next (s.answer p 0x26 f .stale []) ∧
     exec (.releaseStory p f) s = .next (s.answer p 0x27 f .stale []) ∧
     exec (.discardStory p f) s = .next (s.answer p 0x28 f .stale [])) ∧
  ∀ (s : State) (p : Port) (rate : Nat) (i g : Byte) (h : Handle) (st : Story),
    (s.port p).ready → i.toNat = h.index.val → g.toNat = h.generation.val → s.storyOf h = some st →
      let f : CommandFrame := ⟨rate, [i, g]⟩
      let out := s.modStory h fun x =>
        { x with interest := { a := x.interest.a && decide (p ≠ .a), b := x.interest.b && decide (p ≠ .b) } }
      let inSet : Port → Bool := fun q => match q with | .a => st.interest.a | .b => st.interest.b
      exec (.retainStory p f) s =
        .next
          ((s.modStory h fun x =>
              { x with interest := { a := x.interest.a || decide (p = .a), b := x.interest.b || decide (p = .b) } }).answer
            p 0x26 f .done []) ∧
      (st.state = .composing → st.holder = some p → exec (.releaseStory p f) s = .next (s.answer p 0x27 f .wrongState [])) ∧
      (¬(st.state = .composing ∧ st.holder = some p) → inSet p = false →
        exec (.releaseStory p f) s = .next (s.answer p 0x27 f .done [])) ∧
      (¬(st.state = .composing ∧ st.holder = some p) → inSet p = true →
        exec (.releaseStory p f) s = .next ((out.freeingTest h.index).answer p 0x27 f .done [])) ∧
      (st.state ≠ .composing → exec (.discardStory p f) s = .next (s.answer p 0x28 f .wrongState [])) ∧
      (st.state = .composing → st.holder ≠ some p → exec (.discardStory p f) s = .next (s.answer p 0x28 f .notHolder [])) ∧
      (st.state = .composing → st.holder = some p →
        exec (.discardStory p f) s =
          .next
            ((s.freeStory h.index fun t =>
                if inSet p.other then t.post p.other (.storyDiscarded st.origin h .discard st.priority st.length) else t).answer p
              0x28 f .done []))

/-! ## Laws that every step keeps -/

/-- From a state under the laws of the shared blocks (R88 over the cells; R114 on the lengths of queue and stack; R177 on the
notice queues; the ranges of R187 and R191 in the room), a step leads to a state under them. -/
def Obligations.EveryStepKeepsTheSharedLaws : Prop :=
  ∀ s t : State, s.Lawful → step s = .next t → t.Lawful

/-- From a state in which every line keeps the laws of its send side (R156, R159) and of its receive side (R33, R47, R56, R58),
a step leads to such a state. -/
def Obligations.EveryStepKeepsTheLineLaws : Prop :=
  ∀ s t : State, (∀ l, (s.line l).SendLawful ∧ (s.line l).ReceiveLawful) → step s = .next t →
    ∀ l, (t.line l).SendLawful ∧ (t.line l).ReceiveLawful

/-- From a state under the laws of the shared blocks and the laws of stories and lines, a step leads to a state under the latter:
a story has ceil(length / 32) cells and at most 16,384 characters, and a holder exactly in COMPOSING (R91); every COMPLETE story
is retained by a port or a line (R96); a line is in a story's pending set exactly when the story appears once among the line's
queue, current transmission and stack (R114). -/
def Obligations.EveryStepKeepsTheStoryLaws : Prop :=
  ∀ s t : State, s.Lawful → s.StoriesLawful → step s = .next t → t.StoriesLawful

/-- From a state whose slots are valid, slot 0 the fixed table (R6, R7, R12), and whose ports keep the laws of the link and of
silence (R168 to R170, R175, R176), a step leads to such a state. -/
def Obligations.EveryStepKeepsTheTableAndPortLaws : Prop :=
  ∀ s t : State, (s.TablesLawful ∧ ∀ p, (s.port p).LinkLawful ∧ (s.port p).SilenceLawful) → step s = .next t →
    t.TablesLawful ∧ ∀ p, (t.port p).LinkLawful ∧ (t.port p).SilenceLawful

/-- The state after power-on is under all these laws. -/
def Obligations.PowerOnStateIsUnderTheLaws : Prop :=
  State.reset.Lawful ∧ (∀ l, (State.reset.line l).SendLawful ∧ (State.reset.line l).ReceiveLawful) ∧
    State.reset.StoriesLawful ∧ State.reset.TablesLawful ∧
    ∀ p, (State.reset.port p).LinkLawful ∧ (State.reset.port p).SilenceLawful
end

