-- ==== Sys2Proof/Laws/Memory.lean ====
section
/-! SUPPORT. The text of the cells: a read after a write, and the canonical form kept by every write. -/

namespace Sys2Proof.Machine

/-- An address below every entry of a list reads as unwritten. -/
theorem readCells_above {cells : List Host.Cell} {a b : Nat} (h : cellsAbove a cells = true) (hb : b ≤ a) :
    readCells cells b = unwritten := by
  induction cells with
  | nil => rfl
  | cons c rest ih =>
    obtain ⟨k, v⟩ := c
    simp only [cellsAbove, List.all_cons, Bool.and_eq_true, decide_eq_true_eq] at h
    have : k ≠ b := by omega
    simp only [readCells, this, if_false]
    exact ih h.2

/-- What a list in canonical form says of its head. -/
theorem cellsWf_cons {k : Nat} {v : Byte} {rest : List Host.Cell} :
    cellsWf ((k, v) :: rest) = true ↔ v ≠ unwritten ∧ cellsAbove k rest = true ∧ cellsWf rest = true := by
  simp [cellsWf, and_assoc]

/-- A bound below all addresses may be lowered. -/
theorem cellsAbove_mono {cells : List Host.Cell} {a b : Nat} (h : cellsAbove a cells = true) (hb : b ≤ a) :
    cellsAbove b cells = true := by
  simp only [cellsAbove, List.all_eq_true, decide_eq_true_eq] at h ⊢
  exact fun c hc => Nat.lt_of_le_of_lt hb (h c hc)

/-- A write above a bound stays above it. -/
theorem cellsAbove_write {cells : List Host.Cell} {a b : Nat} (x : Byte) (h : cellsAbove b cells = true) (hb : b < a) :
    cellsAbove b (writeCells cells a x) = true := by
  induction cells with
  | nil => by_cases e : x = unwritten <;> simp [writeCells, e, cellsAbove, hb]
  | cons c rest ih =>
    obtain ⟨k, v⟩ := c
    have ⟨hk, hr⟩ : b < k ∧ cellsAbove b rest = true := by simpa [cellsAbove] using h
    have cons : ∀ {j : Nat} {w : Byte} {cells : List Host.Cell}, b < j → cellsAbove b cells = true →
        cellsAbove b ((j, w) :: cells) = true := fun hj hc => by simp [cellsAbove] at hc ⊢; exact ⟨hj, hc⟩
    simp only [writeCells]
    split
    · split
      · exact h
      · exact cons hb h
    · split
      · split
        · exact hr
        · exact cons hb hr
      · exact cons hk (ih hr)

/-- A write keeps the canonical form. -/
theorem cellsWf_write {cells : List Host.Cell} (a : Nat) (x : Byte) (h : cellsWf cells = true) :
    cellsWf (writeCells cells a x) = true := by
  induction cells with
  | nil => by_cases e : x = unwritten <;> simp [writeCells, e, cellsWf, cellsAbove]
  | cons c rest ih =>
    obtain ⟨k, v⟩ := c
    obtain ⟨hv, ha, hw⟩ := cellsWf_cons.mp h
    simp only [writeCells]
    split
    · split
      · exact h
      · refine cellsWf_cons.mpr ⟨by assumption, ?_, h⟩
        simp only [cellsAbove, List.all_cons, Bool.and_eq_true, decide_eq_true_eq]
        exact ⟨by assumption, cellsAbove_mono ha (by omega)⟩
    · split
      · split
        · exact hw
        · rename_i e _; subst e
          exact cellsWf_cons.mpr ⟨by assumption, ha, hw⟩
      · exact cellsWf_cons.mpr ⟨hv, cellsAbove_write x ha (by omega), ih hw⟩

/-- A read after a write gives the byte at the written address, and every other address as before. -/
theorem readCells_write {cells : List Host.Cell} (a b : Nat) (x : Byte) (h : cellsWf cells = true) :
    readCells (writeCells cells a x) b = if b = a then x else readCells cells b := by
  induction cells with
  | nil =>
    by_cases e : x = unwritten
    · simp [writeCells, e, readCells]
    · by_cases hb : a = b <;> simp [writeCells, e, readCells, hb, eq_comm]
  | cons c rest ih =>
    obtain ⟨k, v⟩ := c
    obtain ⟨hv, ha, hw⟩ := cellsWf_cons.mp h
    have ih := ih hw
    simp only [writeCells]
    by_cases h1 : a < k
    · have hk : k ≠ a := by omega
      by_cases e : x = unwritten
      · by_cases hb : b = a
        · subst hb; subst e
          simp [h1, readCells, hk, readCells_above ha (Nat.le_of_lt h1)]
        · simp [h1, e, hb]
      · by_cases hb : b = a
        · subst hb; simp [h1, e, readCells]
        · simp [h1, e, readCells, hb, Ne.symm hb]
    · by_cases h2 : a = k
      · subst h2
        by_cases e : x = unwritten
        · by_cases hb : b = a
          · subst hb; simp [e, readCells_above ha (Nat.le_refl _)]
          · simp [e, readCells, hb, Ne.symm hb]
        · by_cases hb : b = a
          · subst hb; simp [e, readCells]
          · simp [e, readCells, hb, Ne.symm hb]
      · simp only [h1, h2, if_false, readCells, ih]
        by_cases hb : k = b
        · subst hb; simp [Ne.symm h2]
        · simp [hb]

/-- A write keeps the canonical form of the memory. -/
theorem Memory.wf_write {m : Memory} (a : Nat) (x : Byte) (h : m.wf = true) : (m.write a x).wf = true :=
  cellsWf_write a x h

/-- A read after a write. -/
theorem Memory.read_write {m : Memory} (a b : Nat) (x : Byte) (h : m.wf = true) :
    (m.write a x).read b = if b = a then x else m.read b :=
  readCells_write a b x h

/-- A write leaves every other address alone. -/
theorem Memory.read_write_ne {m : Memory} {a b : Nat} (x : Byte) (h : m.wf = true) (hb : b ≠ a) :
    (m.write a x).read b = m.read b := by
  simp [Memory.read_write a b x h, hb]

/-- Several characters written keep the canonical form. -/
theorem Memory.wf_putChars {m : Memory} (chain : List Nat) (p : Nat) (cs : List Byte) (h : m.wf = true) :
    (m.putChars chain p cs).wf = true := by
  induction cs generalizing m p with
  | nil => exact h
  | cons c cs ih => exact ih _ (Memory.wf_write _ _ h)

/-- An address that none of the written positions has reads as before. -/
theorem Memory.read_putChars_ne {m : Memory} (chain : List Nat) (p : Nat) (cs : List Byte) (a : Nat) (h : m.wf = true)
    (ha : ∀ i, i < cs.length → textAddress chain (p + i) ≠ a) : (m.putChars chain p cs).read a = m.read a := by
  induction cs generalizing m p with
  | nil => rfl
  | cons c cs ih =>
    have h0 : a ≠ textAddress chain p := fun e => ha 0 (by simp) (by simp [e])
    have := ih (m := m.write (textAddress chain p) c) (p + 1) (Memory.wf_write _ _ h) fun i hi => by
      have := ha (i + 1) (by simpa using hi)
      rwa [Nat.add_comm i 1, ← Nat.add_assoc] at this
    simpa [Memory.putChars, Memory.read_write_ne c h h0] using this

/-- Memories that read alike are equal data. -/
theorem cellsWf_ext {xs ys : List Host.Cell} (hx : cellsWf xs = true) (hy : cellsWf ys = true)
    (h : ∀ a, readCells xs a = readCells ys a) : xs = ys := by
  induction xs generalizing ys with
  | nil =>
    cases ys with
    | nil => rfl
    | cons y ys =>
      obtain ⟨k, v⟩ := y
      have := h k
      simp [readCells] at this
      exact absurd this.symm (cellsWf_cons.mp hy).1
  | cons x xs ih =>
    obtain ⟨k, v⟩ := x
    obtain ⟨hv, ha, hw⟩ := cellsWf_cons.mp hx
    cases ys with
    | nil =>
      have := h k
      simp [readCells] at this
      exact absurd this hv
    | cons y ys =>
      obtain ⟨j, w⟩ := y
      obtain ⟨hv', ha', hw'⟩ := cellsWf_cons.mp hy
      have hkj : k = j := by
        rcases Nat.lt_trichotomy k j with hlt | heq | hgt
        · have := h k
          have hne : j ≠ k := by omega
          simp [readCells, hne, readCells_above ha' (by omega : k ≤ j)] at this
          exact absurd this hv
        · exact heq
        · have := h j
          have hne : k ≠ j := by omega
          simp [readCells, hne, readCells_above ha (by omega : j ≤ k)] at this
          exact absurd this.symm hv'
      subst hkj
      have hvw : v = w := by simpa [readCells] using h k
      subst hvw
      congr 1
      refine ih hw hw' fun a => ?_
      by_cases e : k = a
      · subst e; rw [readCells_above ha (Nat.le_refl _), readCells_above ha' (Nat.le_refl _)]
      · simpa [readCells, e] using h a

/-- Characters written at positions of different addresses read back in order. -/
theorem Memory.read_putChars {m : Memory} (chain : List Nat) (p : Nat) (cs : List Byte) (h : m.wf = true)
    (inj : ∀ i j, i < cs.length → j < cs.length → textAddress chain (p + i) = textAddress chain (p + j) → i = j) (i : Nat)
    (hi : i < cs.length) : (m.putChars chain p cs).read (textAddress chain (p + i)) = cs[i] := by
  induction cs generalizing m p i with
  | nil => cases hi
  | cons c cs ih =>
    have hw : (m.write (textAddress chain p) c).wf = true := Memory.wf_write _ _ h
    cases i with
    | zero =>
      have := Memory.read_putChars_ne (m := m.write (textAddress chain p) c) chain (p + 1) cs (textAddress chain p) hw
        fun j hj e => by
          have := inj (j + 1) 0 (by simpa using hj) (by simp) (by simpa [Nat.add_assoc, Nat.add_comm 1] using e)
          omega
      simpa [Memory.putChars, Memory.read_write _ _ c h] using this
    | succ i =>
      have := ih (m := m.write (textAddress chain p) c) (p + 1) hw
        (fun a b ha hb e => by
          have := inj (a + 1) (b + 1) (by simpa using ha) (by simpa using hb)
            (by simpa [Nat.add_assoc, Nat.add_comm 1] using e)
          omega)
        i (by simpa using hi)
      simpa [Memory.putChars, Nat.add_assoc, Nat.add_comm 1] using this

/-- Positions within one chain of different cells have different addresses. -/
theorem textAddress_inj {chain : List Nat} (hn : chain.Nodup) {p q : Nat} (hp : p < 32 * chain.length)
    (hq : q < 32 * chain.length) (e : textAddress chain p = textAddress chain q) : p = q := by
  have h1 : p / 32 < chain.length := by omega
  have h2 : q / 32 < chain.length := by omega
  simp only [textAddress, Config.cellPlaces, List.getD_eq_getElem?_getD, List.getElem?_eq_getElem h1,
    List.getElem?_eq_getElem h2, Option.getD_some] at e
  have hc : chain[p / 32] = chain[q / 32] := by omega
  have := (hn.getElem_inj_iff).mp hc
  omega

/-- Positions of two chains without a common cell have different addresses. -/
theorem textAddress_ne {xs ys : List Nat} (hd : xs.Disjoint ys) {p q : Nat} (hp : p < 32 * xs.length)
    (hq : q < 32 * ys.length) : textAddress xs p ≠ textAddress ys q := by
  intro e
  have h1 : p / 32 < xs.length := by omega
  have h2 : q / 32 < ys.length := by omega
  simp only [textAddress, Config.cellPlaces, List.getD_eq_getElem?_getD, List.getElem?_eq_getElem h1,
    List.getElem?_eq_getElem h2, Option.getD_some] at e
  have hc : xs[p / 32] = ys[q / 32] := by omega
  exact hd (List.getElem_mem h1) (hc ▸ List.getElem_mem h2)

/-- A longer chain has the same addresses at the positions of the shorter one. -/
theorem textAddress_append (xs ys : List Nat) {p : Nat} (hp : p < 32 * xs.length) :
    textAddress (xs ++ ys) p = textAddress xs p := by
  have h1 : p / 32 < xs.length := by omega
  simp [textAddress, Config.cellPlaces, List.getElem?_append_left h1]

end Sys2Proof.Machine
end

