-- ==== Sys2Proof/Laws/State.lean ====
section
/-! SUPPORT. Field lemmas of the state updates: one per field and update, and the reads of lines, ports and records after
them. -/

namespace Sys2Proof.Machine

/-! ## Time -/

theorem advanceTo_tick (s : State) (t : Nat) : (s.advanceTo t).tick = max s.tick t := by
  unfold State.advanceTo; split <;> simp <;> omega

@[simp] theorem advanceTo_lines (s : State) (t : Nat) : (s.advanceTo t).lines = s.lines := by
  unfold State.advanceTo; split <;> rfl

@[simp] theorem advanceTo_converter (s : State) (t : Nat) : (s.advanceTo t).converter = s.converter := by
  unfold State.advanceTo; split <;> rfl

@[simp] theorem advanceTo_tables (s : State) (t : Nat) : (s.advanceTo t).tables = s.tables := by
  unfold State.advanceTo; split <;> rfl

@[simp] theorem advanceTo_store (s : State) (t : Nat) : (s.advanceTo t).store = s.store := by
  unfold State.advanceTo; split <;> rfl

@[simp] theorem advanceTo_portA (s : State) (t : Nat) : (s.advanceTo t).portA = s.portA := by
  unfold State.advanceTo; split <;> rfl

@[simp] theorem advanceTo_portB (s : State) (t : Nat) : (s.advanceTo t).portB = s.portB := by
  unfold State.advanceTo; split <;> rfl

@[simp] theorem advanceTo_pending (s : State) (t : Nat) : (s.advanceTo t).pending = s.pending := by
  unfold State.advanceTo; split <;> rfl

@[simp] theorem advanceTo_room_bell (s : State) (t : Nat) : (s.advanceTo t).room.bell = s.room.bell := by
  unfold State.advanceTo; split <;> rfl

@[simp] theorem advanceTo_room_unattended (s : State) (t : Nat) : (s.advanceTo t).room.unattended = s.room.unattended := by
  unfold State.advanceTo; split <;> rfl

@[simp] theorem advanceTo_room_options (s : State) (t : Nat) : (s.advanceTo t).room.options = s.room.options := by
  unfold State.advanceTo; split <;> rfl

@[simp] theorem advanceTo_line (s : State) (t : Nat) (l : LineNo) : (s.advanceTo t).line l = s.line l := by
  simp [State.line]

@[simp] theorem advanceTo_port (s : State) (t : Nat) (p : Port) : (s.advanceTo t).port p = s.port p := by
  cases p <;> simp [State.port]

@[simp] theorem advanceTo_record (s : State) (t : Nat) (i : Fin 256) : (s.advanceTo t).record i = s.record i := by
  simp [State.record]

/-- A tick already reached changes nothing. -/
theorem advanceTo_of_le (s : State) {t : Nat} (h : t ≤ s.tick) : s.advanceTo t = s := by
  simp [State.advanceTo, h]

/-- Two advances are one to the later tick, as far as the tick goes. -/
theorem advanceTo_idem (s : State) (t : Nat) : (s.advanceTo t).advanceTo t = s.advanceTo t :=
  advanceTo_of_le _ (by rw [advanceTo_tick]; omega)

theorem whenDue_none (s : State) (act : State → State) : s.whenDue none act = s := rfl

theorem whenDue_some (s : State) (d : Nat) (act : State → State) : s.whenDue (some d) act = act (s.advanceTo d) := rfl

/-! ## Lines -/

@[simp] theorem line_modLine_same (s : State) (l : LineNo) (f : Line → Line) : (s.modLine l f).line l = f (s.line l) := by
  simp [State.modLine, State.line, Vector.get_eq_getElem]

@[simp] theorem line_modLine_ne (s : State) (l m : LineNo) (f : Line → Line) (h : m ≠ l) :
    (s.modLine l f).line m = s.line m := by
  have : l.val ≠ m.val := fun e => h (Fin.ext e.symm)
  simp [State.modLine, State.line, Vector.get_eq_getElem, Vector.getElem_set_ne, this]

theorem line_modLine (s : State) (l m : LineNo) (f : Line → Line) :
    (s.modLine l f).line m = if m = l then f (s.line l) else s.line m := by
  by_cases h : m = l
  · subst h; simp
  · simp [h]

/-- Two changes of one line are one. -/
theorem modLine_modLine (s : State) (l : LineNo) (f g : Line → Line) :
    (s.modLine l f).modLine l g = s.modLine l fun x => g (f x) := by
  simp only [State.modLine, State.line, Vector.get_eq_getElem, Vector.getElem_set_self, Vector.set_set]

/-- A change of a line counts only by what it makes of that line. -/
theorem modLine_congr {s : State} {l : LineNo} {f g : Line → Line} (h : f (s.line l) = g (s.line l)) :
    s.modLine l f = s.modLine l g := by simp only [State.modLine, h]

/-- A change that leaves the line as it is leaves the state as it is. -/
theorem modLine_self {s : State} {l : LineNo} {f : Line → Line} (h : f (s.line l) = s.line l) : s.modLine l f = s := by
  simp only [State.modLine, h]
  simp [State.line, Vector.get_eq_getElem]

@[simp] theorem modLine_tick (s : State) (l : LineNo) (f : Line → Line) : (s.modLine l f).tick = s.tick := rfl

@[simp] theorem modLine_converter (s : State) (l : LineNo) (f : Line → Line) : (s.modLine l f).converter = s.converter := rfl

@[simp] theorem modLine_tables (s : State) (l : LineNo) (f : Line → Line) : (s.modLine l f).tables = s.tables := rfl

@[simp] theorem modLine_store (s : State) (l : LineNo) (f : Line → Line) : (s.modLine l f).store = s.store := rfl

@[simp] theorem modLine_portA (s : State) (l : LineNo) (f : Line → Line) : (s.modLine l f).portA = s.portA := rfl

@[simp] theorem modLine_portB (s : State) (l : LineNo) (f : Line → Line) : (s.modLine l f).portB = s.portB := rfl

@[simp] theorem modLine_room (s : State) (l : LineNo) (f : Line → Line) : (s.modLine l f).room = s.room := rfl

@[simp] theorem modLine_pending (s : State) (l : LineNo) (f : Line → Line) : (s.modLine l f).pending = s.pending := rfl

@[simp] theorem modRx_tick (s : State) (l : LineNo) (f : Receiver → Receiver) : (s.modRx l f).tick = s.tick := rfl

@[simp] theorem modRx_converter (s : State) (l : LineNo) (f : Receiver → Receiver) : (s.modRx l f).converter = s.converter := rfl

@[simp] theorem modRx_tables (s : State) (l : LineNo) (f : Receiver → Receiver) : (s.modRx l f).tables = s.tables := rfl

@[simp] theorem modRx_store (s : State) (l : LineNo) (f : Receiver → Receiver) : (s.modRx l f).store = s.store := rfl

@[simp] theorem modRx_portA (s : State) (l : LineNo) (f : Receiver → Receiver) : (s.modRx l f).portA = s.portA := rfl

@[simp] theorem modRx_portB (s : State) (l : LineNo) (f : Receiver → Receiver) : (s.modRx l f).portB = s.portB := rfl

@[simp] theorem modRx_room (s : State) (l : LineNo) (f : Receiver → Receiver) : (s.modRx l f).room = s.room := rfl

@[simp] theorem modRx_pending (s : State) (l : LineNo) (f : Receiver → Receiver) : (s.modRx l f).pending = s.pending := rfl

@[simp] theorem line_modRx_same (s : State) (l : LineNo) (f : Receiver → Receiver) :
    (s.modRx l f).line l = { s.line l with rx := f (s.line l).rx } := by
  simp [State.modRx]

@[simp] theorem line_modRx_ne (s : State) (l m : LineNo) (f : Receiver → Receiver) (h : m ≠ l) :
    (s.modRx l f).line m = s.line m := by
  simp [State.modRx, h]

@[simp] theorem modAsm_tick (s : State) (l : LineNo) (f : Assembler → Assembler) : (s.modAsm l f).tick = s.tick := rfl

@[simp] theorem modAsm_converter (s : State) (l : LineNo) (f : Assembler → Assembler) : (s.modAsm l f).converter = s.converter := rfl

@[simp] theorem modAsm_tables (s : State) (l : LineNo) (f : Assembler → Assembler) : (s.modAsm l f).tables = s.tables := rfl

@[simp] theorem modAsm_store (s : State) (l : LineNo) (f : Assembler → Assembler) : (s.modAsm l f).store = s.store := rfl

@[simp] theorem modAsm_portA (s : State) (l : LineNo) (f : Assembler → Assembler) : (s.modAsm l f).portA = s.portA := rfl

@[simp] theorem modAsm_portB (s : State) (l : LineNo) (f : Assembler → Assembler) : (s.modAsm l f).portB = s.portB := rfl

@[simp] theorem modAsm_room (s : State) (l : LineNo) (f : Assembler → Assembler) : (s.modAsm l f).room = s.room := rfl

@[simp] theorem modAsm_pending (s : State) (l : LineNo) (f : Assembler → Assembler) : (s.modAsm l f).pending = s.pending := rfl

@[simp] theorem line_modAsm_same (s : State) (l : LineNo) (f : Assembler → Assembler) :
    (s.modAsm l f).line l = { s.line l with asm := f (s.line l).asm } := by
  simp [State.modAsm]

@[simp] theorem line_modAsm_ne (s : State) (l m : LineNo) (f : Assembler → Assembler) (h : m ≠ l) :
    (s.modAsm l f).line m = s.line m := by
  simp [State.modAsm, h]

@[simp] theorem modDist_tick (s : State) (l : LineNo) (f : Distribution → Distribution) : (s.modDist l f).tick = s.tick := rfl

@[simp] theorem modDist_converter (s : State) (l : LineNo) (f : Distribution → Distribution) : (s.modDist l f).converter = s.converter := rfl

@[simp] theorem modDist_tables (s : State) (l : LineNo) (f : Distribution → Distribution) : (s.modDist l f).tables = s.tables := rfl

@[simp] theorem modDist_store (s : State) (l : LineNo) (f : Distribution → Distribution) : (s.modDist l f).store = s.store := rfl

@[simp] theorem modDist_portA (s : State) (l : LineNo) (f : Distribution → Distribution) : (s.modDist l f).portA = s.portA := rfl

@[simp] theorem modDist_portB (s : State) (l : LineNo) (f : Distribution → Distribution) : (s.modDist l f).portB = s.portB := rfl

@[simp] theorem modDist_room (s : State) (l : LineNo) (f : Distribution → Distribution) : (s.modDist l f).room = s.room := rfl

@[simp] theorem modDist_pending (s : State) (l : LineNo) (f : Distribution → Distribution) : (s.modDist l f).pending = s.pending := rfl

@[simp] theorem line_modDist_same (s : State) (l : LineNo) (f : Distribution → Distribution) :
    (s.modDist l f).line l = { s.line l with dist := f (s.line l).dist } := by
  simp [State.modDist]

@[simp] theorem line_modDist_ne (s : State) (l m : LineNo) (f : Distribution → Distribution) (h : m ≠ l) :
    (s.modDist l f).line m = s.line m := by
  simp [State.modDist, h]

@[simp] theorem modEnc_tick (s : State) (l : LineNo) (f : Encoder → Encoder) : (s.modEnc l f).tick = s.tick := rfl

@[simp] theorem modEnc_converter (s : State) (l : LineNo) (f : Encoder → Encoder) : (s.modEnc l f).converter = s.converter := rfl

@[simp] theorem modEnc_tables (s : State) (l : LineNo) (f : Encoder → Encoder) : (s.modEnc l f).tables = s.tables := rfl

@[simp] theorem modEnc_store (s : State) (l : LineNo) (f : Encoder → Encoder) : (s.modEnc l f).store = s.store := rfl

@[simp] theorem modEnc_portA (s : State) (l : LineNo) (f : Encoder → Encoder) : (s.modEnc l f).portA = s.portA := rfl

@[simp] theorem modEnc_portB (s : State) (l : LineNo) (f : Encoder → Encoder) : (s.modEnc l f).portB = s.portB := rfl

@[simp] theorem modEnc_room (s : State) (l : LineNo) (f : Encoder → Encoder) : (s.modEnc l f).room = s.room := rfl

@[simp] theorem modEnc_pending (s : State) (l : LineNo) (f : Encoder → Encoder) : (s.modEnc l f).pending = s.pending := rfl

@[simp] theorem line_modEnc_same (s : State) (l : LineNo) (f : Encoder → Encoder) :
    (s.modEnc l f).line l = { s.line l with enc := f (s.line l).enc } := by
  simp [State.modEnc]

@[simp] theorem line_modEnc_ne (s : State) (l m : LineNo) (f : Encoder → Encoder) (h : m ≠ l) :
    (s.modEnc l f).line m = s.line m := by
  simp [State.modEnc, h]

@[simp] theorem modSend_tick (s : State) (l : LineNo) (f : SendSide → SendSide) : (s.modSend l f).tick = s.tick := rfl

@[simp] theorem modSend_converter (s : State) (l : LineNo) (f : SendSide → SendSide) : (s.modSend l f).converter = s.converter := rfl

@[simp] theorem modSend_tables (s : State) (l : LineNo) (f : SendSide → SendSide) : (s.modSend l f).tables = s.tables := rfl

@[simp] theorem modSend_store (s : State) (l : LineNo) (f : SendSide → SendSide) : (s.modSend l f).store = s.store := rfl

@[simp] theorem modSend_portA (s : State) (l : LineNo) (f : SendSide → SendSide) : (s.modSend l f).portA = s.portA := rfl

@[simp] theorem modSend_portB (s : State) (l : LineNo) (f : SendSide → SendSide) : (s.modSend l f).portB = s.portB := rfl

@[simp] theorem modSend_room (s : State) (l : LineNo) (f : SendSide → SendSide) : (s.modSend l f).room = s.room := rfl

@[simp] theorem modSend_pending (s : State) (l : LineNo) (f : SendSide → SendSide) : (s.modSend l f).pending = s.pending := rfl

@[simp] theorem line_modSend_same (s : State) (l : LineNo) (f : SendSide → SendSide) :
    (s.modSend l f).line l = { s.line l with send := f (s.line l).send } := by
  simp [State.modSend]

@[simp] theorem line_modSend_ne (s : State) (l m : LineNo) (f : SendSide → SendSide) (h : m ≠ l) :
    (s.modSend l f).line m = s.line m := by
  simp [State.modSend, h]

/-! ## Reads that a line update leaves -/

@[simp] theorem port_modLine (s : State) (l : LineNo) (f : Line → Line) (p : Port) : (s.modLine l f).port p = s.port p := by
  cases p <;> rfl

@[simp] theorem record_modLine (s : State) (l : LineNo) (f : Line → Line) (i : Fin 256) :
    (s.modLine l f).record i = s.record i := rfl

@[simp] theorem storyOf_modLine (s : State) (l : LineNo) (f : Line → Line) (h : Handle) :
    (s.modLine l f).storyOf h = s.storyOf h := rfl

/-! ## Ports -/

/-- Two changes of one port are one. -/
theorem modPort_modPort (s : State) (p : Port) (f g : DeskPort → DeskPort) :
    (s.modPort p f).modPort p g = s.modPort p fun q => g (f q) := by cases p <;> rfl

/-- A change of a port counts only by what it makes of that port. -/
theorem modPort_congr {s : State} {p : Port} {f g : DeskPort → DeskPort} (h : f (s.port p) = g (s.port p)) :
    s.modPort p f = s.modPort p g := by
  cases p
  · exact congrArg (fun q => { s with portA := q }) h
  · exact congrArg (fun q => { s with portB := q }) h

/-- A change that leaves the port as it is leaves the state as it is. -/
theorem modPort_self {s : State} {p : Port} {f : DeskPort → DeskPort} (h : f (s.port p) = s.port p) : s.modPort p f = s := by
  cases p
  · exact congrArg (fun q => { s with portA := q }) h
  · exact congrArg (fun q => { s with portB := q }) h

@[simp] theorem modPort_tick (s : State) (p : Port) (f : DeskPort → DeskPort) : (s.modPort p f).tick = s.tick := by
  cases p <;> rfl

@[simp] theorem modPort_lines (s : State) (p : Port) (f : DeskPort → DeskPort) : (s.modPort p f).lines = s.lines := by
  cases p <;> rfl

@[simp] theorem modPort_converter (s : State) (p : Port) (f : DeskPort → DeskPort) : (s.modPort p f).converter = s.converter := by
  cases p <;> rfl

@[simp] theorem modPort_tables (s : State) (p : Port) (f : DeskPort → DeskPort) : (s.modPort p f).tables = s.tables := by
  cases p <;> rfl

@[simp] theorem modPort_store (s : State) (p : Port) (f : DeskPort → DeskPort) : (s.modPort p f).store = s.store := by
  cases p <;> rfl

@[simp] theorem modPort_room (s : State) (p : Port) (f : DeskPort → DeskPort) : (s.modPort p f).room = s.room := by
  cases p <;> rfl

@[simp] theorem modPort_pending (s : State) (p : Port) (f : DeskPort → DeskPort) : (s.modPort p f).pending = s.pending := by
  cases p <;> rfl

@[simp] theorem port_modPort_same (s : State) (p : Port) (f : DeskPort → DeskPort) : (s.modPort p f).port p = f (s.port p) := by
  cases p <;> rfl

@[simp] theorem port_modPort_other (s : State) (p : Port) (f : DeskPort → DeskPort) :
    (s.modPort p f).port p.other = s.port p.other := by
  cases p <;> rfl

theorem port_modPort (s : State) (p q : Port) (f : DeskPort → DeskPort) :
    (s.modPort p f).port q = if q = p then f (s.port p) else s.port q := by
  cases p <;> cases q <;> rfl

@[simp] theorem line_modPort (s : State) (p : Port) (f : DeskPort → DeskPort) (l : LineNo) :
    (s.modPort p f).line l = s.line l := by
  cases p <;> rfl

@[simp] theorem record_modPort (s : State) (p : Port) (f : DeskPort → DeskPort) (i : Fin 256) :
    (s.modPort p f).record i = s.record i := by
  cases p <;> rfl

/-! ## Store and room -/

@[simp] theorem modStore_tick (s : State) (f : Store → Store) : (s.modStore f).tick = s.tick := rfl

@[simp] theorem modStore_lines (s : State) (f : Store → Store) : (s.modStore f).lines = s.lines := rfl

@[simp] theorem modStore_converter (s : State) (f : Store → Store) : (s.modStore f).converter = s.converter := rfl

@[simp] theorem modStore_tables (s : State) (f : Store → Store) : (s.modStore f).tables = s.tables := rfl

@[simp] theorem modStore_portA (s : State) (f : Store → Store) : (s.modStore f).portA = s.portA := rfl

@[simp] theorem modStore_portB (s : State) (f : Store → Store) : (s.modStore f).portB = s.portB := rfl

@[simp] theorem modStore_room (s : State) (f : Store → Store) : (s.modStore f).room = s.room := rfl

@[simp] theorem modStore_pending (s : State) (f : Store → Store) : (s.modStore f).pending = s.pending := rfl

@[simp] theorem modStore_store (s : State) (f : Store → Store) : (s.modStore f).store = f s.store := rfl

@[simp] theorem line_modStore (s : State) (f : Store → Store) (l : LineNo) : (s.modStore f).line l = s.line l := rfl

@[simp] theorem port_modStore (s : State) (f : Store → Store) (p : Port) : (s.modStore f).port p = s.port p := by
  cases p <;> rfl

@[simp] theorem modRoom_tick (s : State) (f : Room → Room) : (s.modRoom f).tick = s.tick := rfl

@[simp] theorem modRoom_lines (s : State) (f : Room → Room) : (s.modRoom f).lines = s.lines := rfl

@[simp] theorem modRoom_converter (s : State) (f : Room → Room) : (s.modRoom f).converter = s.converter := rfl

@[simp] theorem modRoom_tables (s : State) (f : Room → Room) : (s.modRoom f).tables = s.tables := rfl

@[simp] theorem modRoom_store (s : State) (f : Room → Room) : (s.modRoom f).store = s.store := rfl

@[simp] theorem modRoom_portA (s : State) (f : Room → Room) : (s.modRoom f).portA = s.portA := rfl

@[simp] theorem modRoom_portB (s : State) (f : Room → Room) : (s.modRoom f).portB = s.portB := rfl

@[simp] theorem modRoom_pending (s : State) (f : Room → Room) : (s.modRoom f).pending = s.pending := rfl

@[simp] theorem modRoom_room (s : State) (f : Room → Room) : (s.modRoom f).room = f s.room := rfl

@[simp] theorem line_modRoom (s : State) (f : Room → Room) (l : LineNo) : (s.modRoom f).line l = s.line l := rfl

@[simp] theorem port_modRoom (s : State) (f : Room → Room) (p : Port) : (s.modRoom f).port p = s.port p := by
  cases p <;> rfl

/-! ## Records -/

@[simp] theorem record_setRecord_same (s : State) (i : Fin 256) (r : StoryRecord) : (s.setRecord i r).record i = r := by
  simp [State.setRecord, State.record, State.modStore, Vector.get_eq_getElem]

@[simp] theorem record_setRecord_ne (s : State) (i j : Fin 256) (r : StoryRecord) (h : j ≠ i) :
    (s.setRecord i r).record j = s.record j := by
  have : i.val ≠ j.val := fun e => h (Fin.ext e.symm)
  simp [State.setRecord, State.record, State.modStore, Vector.get_eq_getElem, Vector.getElem_set_ne, this]

@[simp] theorem setRecord_tick (s : State) (i : Fin 256) (r : StoryRecord) : (s.setRecord i r).tick = s.tick := rfl

@[simp] theorem setRecord_lines (s : State) (i : Fin 256) (r : StoryRecord) : (s.setRecord i r).lines = s.lines := rfl

@[simp] theorem setRecord_converter (s : State) (i : Fin 256) (r : StoryRecord) : (s.setRecord i r).converter = s.converter := rfl

@[simp] theorem setRecord_tables (s : State) (i : Fin 256) (r : StoryRecord) : (s.setRecord i r).tables = s.tables := rfl

@[simp] theorem setRecord_portA (s : State) (i : Fin 256) (r : StoryRecord) : (s.setRecord i r).portA = s.portA := rfl

@[simp] theorem setRecord_portB (s : State) (i : Fin 256) (r : StoryRecord) : (s.setRecord i r).portB = s.portB := rfl

@[simp] theorem setRecord_room (s : State) (i : Fin 256) (r : StoryRecord) : (s.setRecord i r).room = s.room := rfl

@[simp] theorem setRecord_pending (s : State) (i : Fin 256) (r : StoryRecord) : (s.setRecord i r).pending = s.pending := rfl

@[simp] theorem setRecord_store_text (s : State) (i : Fin 256) (r : StoryRecord) : (s.setRecord i r).store.text = s.store.text := rfl

@[simp] theorem setRecord_store_freeList (s : State) (i : Fin 256) (r : StoryRecord) : (s.setRecord i r).store.freeList = s.store.freeList := rfl

@[simp] theorem setRecord_store_freeCount (s : State) (i : Fin 256) (r : StoryRecord) : (s.setRecord i r).store.freeCount = s.store.freeCount := rfl

@[simp] theorem setRecord_store_deskReserve (s : State) (i : Fin 256) (r : StoryRecord) : (s.setRecord i r).store.deskReserve = s.store.deskReserve := rfl

@[simp] theorem setRecord_store_reclaimMark (s : State) (i : Fin 256) (r : StoryRecord) : (s.setRecord i r).store.reclaimMark = s.store.reclaimMark := rfl

@[simp] theorem setRecord_store_poolLow (s : State) (i : Fin 256) (r : StoryRecord) : (s.setRecord i r).store.poolLow = s.store.poolLow := rfl

@[simp] theorem setRecord_store_exhausted (s : State) (i : Fin 256) (r : StoryRecord) : (s.setRecord i r).store.exhausted = s.store.exhausted := rfl

/-- The story a current handle names lies in the record of its index. -/
theorem storyOf_eq_some {s : State} {h : Handle} {st : Story} (e : s.storyOf h = some st) :
    (s.record h.index).generation = h.generation ∧ (s.record h.index).story = some st := by
  unfold State.storyOf at e
  split at e
  · exact ⟨by assumption, e⟩
  · cases e

/-- A change of a story is a change of its record, or of nothing. -/
theorem modStory_cases (s : State) (h : Handle) (f : Story → Story) :
    s.modStory h f = s ∨ ∃ st, s.storyOf h = some st ∧
      s.modStory h f = s.setRecord h.index { generation := h.generation, story := some (f st) } := by
  unfold State.modStory
  split
  · exact .inl rfl
  · exact .inr ⟨_, by assumption, rfl⟩

/-- A change of the story of a current handle replaces its record. -/
theorem modStory_some {s : State} {h : Handle} {st : Story} (e : s.storyOf h = some st) (f : Story → Story) :
    s.modStory h f = s.setRecord h.index { generation := h.generation, story := some (f st) } := by
  simp [State.modStory, e]

/-- Replacing a record by itself changes nothing. -/
theorem setRecord_self (s : State) (i : Fin 256) : s.setRecord i (s.record i) = s := by
  have e : s.store.records.set i.val (s.record i) = s.store.records := by
    simp [State.record, Vector.get_eq_getElem]
  exact congrArg (fun r => { s with store := { s.store with records := r } }) e

/-- A change that leaves the story as it is leaves the state as it is. -/
theorem modStory_self {s : State} {h : Handle} {f : Story → Story} (hf : ∀ st, s.storyOf h = some st → f st = st) :
    s.modStory h f = s := by
  cases e : s.storyOf h with
  | none => simp [State.modStory, e]
  | some st =>
    rw [modStory_some e, hf st e]
    obtain ⟨h1, h2⟩ := storyOf_eq_some e
    rw [← h1, ← h2]
    exact setRecord_self s h.index

/-- After a change of the story of a current handle the handle names the changed story. -/
theorem storyOf_modStory_same {s : State} {h : Handle} {st : Story} (e : s.storyOf h = some st) (f : Story → Story) :
    (s.modStory h f).storyOf h = some (f st) := by
  have m : s.modStory h f = s.setRecord h.index { generation := h.generation, story := some (f st) } := by
    simp [State.modStory, e]
  simp [m, State.storyOf]

end Sys2Proof.Machine
end

