-- ==== Sys2Proof/Laws/Store.lean ====
section
/-! SUPPORT. The law over the cells (R88) is kept by every change of the store. -/

namespace Sys2Proof.Machine

/-- The chains of all records, cut at one record, before and after that record is replaced. -/
theorem recordCells_set (v : Vector StoryRecord 256) (i : Fin 256) (r : StoryRecord) :
    ∃ before after, v.toList.flatMap StoryRecord.cells = before ++ (v.get i).cells ++ after ∧
      (v.set i.val r).toList.flatMap StoryRecord.cells = before ++ r.cells ++ after := by
  have hi : i.val < v.toList.length := by simp
  refine ⟨(v.toList.take i.val).flatMap StoryRecord.cells, (v.toList.drop (i.val + 1)).flatMap StoryRecord.cells, ?_, ?_⟩
  · conv_lhs => rw [← List.take_append_drop i.val v.toList, List.drop_eq_getElem_cons hi]
    simp [List.flatMap_append, Vector.get_eq_getElem]
  · have : (v.set i.val r).toList = v.toList.set i.val r := by simp [Vector.toList_set]
    rw [this, List.set_eq_take_append_cons_drop, if_pos hi]
    simp [List.flatMap_append]

/-- A change that leaves text, free list, free count and the chain of every record keeps the law. -/
theorem Store.Lawful.congr {x y : Store} (h : x.Lawful) (ht : y.text.wf = true) (hc : y.freeCount = x.freeCount)
    (hf : y.freeList = x.freeList) (hr : y.cells = x.cells) : y.Lawful :=
  ⟨ht, by rw [hc, hf, h.count], hr ▸ h.cells⟩

/-- A record replaced by one with the same chain. -/
theorem Store.cells_setRecord {x : Store} {i : Fin 256} {r : StoryRecord} (hr : r.cells = (x.records.get i).cells) :
    Store.cells { x with records := x.records.set i.val r } = x.cells := by
  obtain ⟨before, after, h1, h2⟩ := recordCells_set x.records i r
  simp only [Store.cells, h1, h2, hr]

theorem Store.Lawful.setRecord {x : Store} (h : x.Lawful) {i : Fin 256} {r : StoryRecord}
    (hr : r.cells = (x.records.get i).cells) : Store.Lawful { x with records := x.records.set i.val r } :=
  h.congr h.text rfl rfl (Store.cells_setRecord hr)

/-- A freed story's chain goes to the tail of the free list (R90). -/
theorem Store.Lawful.release {x : Store} (h : x.Lawful) {i : Fin 256} {st : Story}
    (hs : (x.records.get i).story = some st) : (x.release i st).Lawful := by
  obtain ⟨before, after, h1, h2⟩ :=
    recordCells_set x.records i { generation := (x.records.get i).generation + 1, story := none }
  refine ⟨h.text, by simp [Store.release, h.count], List.Perm.trans ?_ h.cells⟩
  have hc : (x.records.get i).cells = st.chain := by simp [StoryRecord.cells, hs]
  simp only [Store.cells, Store.release, h1, h2, hc]
  simp only [StoryRecord.cells, List.append_nil, List.append_assoc]
  refine List.Perm.append_left _ ?_
  rw [← List.append_assoc, ← List.append_assoc]
  exact List.Perm.append_right _ List.perm_append_comm

/-- Cells taken from the head of the free list go to the tail of a chain (R89). -/
theorem Store.Lawful.allocate {x : Store} (h : x.Lawful) (i : Fin 256) (n : Nat) : (x.allocate i n).Lawful := by
  unfold Store.allocate
  split
  · exact h
  · rename_i st hs
    obtain ⟨before, after, h1, h2⟩ := recordCells_set x.records i
      { generation := (x.records.get i).generation, story := some { st with chain := st.chain ++ x.freeList.take n } }
    refine ⟨h.text, by simp [h.count]; omega, List.Perm.trans ?_ h.cells⟩
    have hc : (x.records.get i).cells = st.chain := by simp [StoryRecord.cells, hs]
    simp only [Store.cells, h1, h2, hc]
    simp only [StoryRecord.cells]
    conv_rhs => rw [← List.take_append_drop n x.freeList]
    simp only [List.append_assoc]
    rw [List.perm_iff_count]
    intro a
    simp only [List.count_append]
    omega

/-- Under the law no chain holds a cell twice, and none holds a free cell. -/
theorem Store.Lawful.chain {x : Store} (h : x.Lawful) {i : Fin 256} {st : Story} (hs : (x.records.get i).story = some st) :
    st.chain.Nodup ∧ st.chain.Disjoint x.freeList := by
  have hn : x.cells.Nodup := h.cells.symm.nodup List.nodup_range'
  obtain ⟨before, after, h1, -⟩ := recordCells_set x.records i (x.records.get i)
  have hc : (x.records.get i).cells = st.chain := by simp [StoryRecord.cells, hs]
  unfold Store.cells at hn
  rw [h1, hc] at hn
  refine ⟨((List.nodup_append'.mp ((List.nodup_append'.mp ((List.nodup_append'.mp hn).2.1)).1)).2.1), ?_⟩
  have := (List.nodup_append'.mp hn).2.2
  exact fun a ha hb => this hb (by simp [ha])

/-- Under the law two stories' chains have no common cell. -/
theorem Store.Lawful.disjoint {x : Store} (h : x.Lawful) {i j : Fin 256} (hij : i ≠ j) {y z : Story}
    (hy : (x.records.get i).story = some y) (hz : (x.records.get j).story = some z) : y.chain.Disjoint z.chain := by
  have hn : x.cells.Nodup := h.cells.symm.nodup List.nodup_range'
  have hp := (List.nodup_flatMap.mp (List.nodup_append'.mp hn).2.1).2
  rw [List.pairwise_iff_getElem] at hp
  have cy : (x.records.get i).cells = y.chain := by simp [StoryRecord.cells, hy]
  have cz : (x.records.get j).cells = z.chain := by simp [StoryRecord.cells, hz]
  have key : ∀ a b : Fin 256, a.val < b.val → (x.records.get a).cells.Disjoint (x.records.get b).cells := by
    intro a b hab
    simpa [Vector.get_eq_getElem] using hp a.val b.val (by simp) (by simp) hab
  rcases Nat.lt_or_gt_of_ne (fun e => hij (Fin.ext e)) with hlt | hlt
  · rw [← cy, ← cz]; exact key i j hlt
  · rw [← cy, ← cz]; exact (key j i hlt).symm

end Sys2Proof.Machine
end

