-- ==== Sys2Proof/Laws/Kept.lean ====
section
/-! SUPPORT. What the inner operations of the part leave alone, said once: `Kept` for all of them, `Works` for those that
leave reception and sensing alone too. Each shared operation has one lemma. -/

namespace Sys2Proof.Machine

/-- What everything that happens on lines and in the store keeps: time, queue, tables, clock, room options and mode, the ports
but for their notices, the store's limits; and the laws of store, bell, notices and distribution. -/
structure Shared (s t : State) : Prop where
  tick : t.tick = s.tick
  pending : t.pending = s.pending
  tables : t.tables = s.tables
  clock : t.room.clock = s.room.clock
  options : t.room.options = s.room.options
  unattended : t.room.unattended = s.room.unattended
  bell : s.room.options.countsFit → s.room.bell.Lawful → t.room.bell.Lawful
  port : ∀ p, ∃ ns o, t.port p = { s.port p with notices := ns, overflow := o }
  notices : ∀ p, (s.port p).noticesFit → (t.port p).noticesFit
  store : s.store.Lawful → t.store.Lawful
  deskReserve : t.store.deskReserve = s.store.deskReserve
  reclaimMark : t.store.reclaimMark = s.store.reclaimMark
  dist : ∀ l, (s.line l).dist.Lawful → (t.line l).dist.Lawful

/-- What every inner operation keeps besides: the lines' records and currents. -/
structure Kept (s t : State) : Prop extends Shared s t where
  record : ∀ l, (t.line l).record = (s.line l).record
  rxCurrent : ∀ l, (t.line l).rxCurrent = (s.line l).rxCurrent
  txCurrent : ∀ l, (t.line l).txCurrent = (s.line l).txCurrent

/-- What an operation of store, assembler, distribution and sending keeps besides: the converter, and every line's loop
channels, filter and receiver. -/
structure Works (s t : State) : Prop where
  kept : Kept s t
  converter : t.converter = s.converter
  rxLoop : ∀ l, (t.line l).rxLoop = (s.line l).rxLoop
  txLoop : ∀ l, (t.line l).txLoop = (s.line l).txLoop
  filter : ∀ l, (t.line l).filter = (s.line l).filter
  rx : ∀ l, (t.line l).rx = (s.line l).rx

namespace Shared

theorem refl (s : State) : Shared s s where
  tick := rfl
  pending := rfl
  tables := rfl
  clock := rfl
  options := rfl
  unattended := rfl
  bell := fun _ h => h
  port := fun p => ⟨(s.port p).notices, (s.port p).overflow, rfl⟩
  notices := fun _ h => h
  store := id
  deskReserve := rfl
  reclaimMark := rfl
  dist := fun _ h => h

theorem trans {s t u : State} (a : Shared s t) (b : Shared t u) : Shared s u where
  tick := b.tick.trans a.tick
  pending := b.pending.trans a.pending
  tables := b.tables.trans a.tables
  clock := b.clock.trans a.clock
  options := b.options.trans a.options
  unattended := b.unattended.trans a.unattended
  bell := fun c h => b.bell (a.options ▸ c) (a.bell c h)
  port := fun p => by
    obtain ⟨ns, o, e⟩ := a.port p
    obtain ⟨ns', o', e'⟩ := b.port p
    exact ⟨ns', o', by rw [e', e]⟩
  notices := fun p h => b.notices p (a.notices p h)
  store := fun h => b.store (a.store h)
  deskReserve := b.deskReserve.trans a.deskReserve
  reclaimMark := b.reclaimMark.trans a.reclaimMark
  dist := fun l h => b.dist l (a.dist l h)

/-- The last operation of a chain first: its lemma fixes the state it starts from. -/
theorem after {s t u : State} (b : Shared t u) (a : Shared s t) : Shared s u := a.trans b

/-- A change of one line that keeps the bounds of its queue and stack. -/
theorem modLine {s : State} {l : LineNo} {f : Line → Line} (hd : (s.line l).dist.Lawful → (f (s.line l)).dist.Lawful) :
    Shared s (s.modLine l f) :=
  { Shared.refl s with
    port := fun p => ⟨(s.port p).notices, (s.port p).overflow, by simp⟩
    notices := fun p h => by simpa using h
    dist := fun m h => by
      by_cases e : m = l
      · subst e; simpa using hd h
      · simpa [e] using h }

/-- The laws over the whole part go along when the ranges of the clock do. -/
theorem lawful {s t : State} (a : Shared s t) (h : s.Lawful) : t.Lawful where
  store := a.store h.store
  room := ⟨a.clock ▸ h.room.clock, a.bell h.room.counts h.room.bell, a.options ▸ h.room.counts⟩
  dist := fun l => a.dist l (h.dist l)
  notices := fun p => a.notices p (h.notices p)

end Shared

namespace Kept

theorem refl (s : State) : Kept s s := ⟨.refl s, fun _ => rfl, fun _ => rfl, fun _ => rfl⟩

theorem trans {s t u : State} (a : Kept s t) (b : Kept t u) : Kept s u where
  toShared := a.toShared.trans b.toShared
  record := fun l => (b.record l).trans (a.record l)
  rxCurrent := fun l => (b.rxCurrent l).trans (a.rxCurrent l)
  txCurrent := fun l => (b.txCurrent l).trans (a.txCurrent l)

/-- The last operation of a chain first. -/
theorem after {s t u : State} (b : Kept t u) (a : Kept s t) : Kept s u := a.trans b

/-- A change of one line that keeps its record, its currents and the bounds of its queue and stack. -/
theorem modLine {s : State} {l : LineNo} {f : Line → Line} (hr : (f (s.line l)).record = (s.line l).record)
    (h1 : (f (s.line l)).rxCurrent = (s.line l).rxCurrent) (h2 : (f (s.line l)).txCurrent = (s.line l).txCurrent)
    (hd : (s.line l).dist.Lawful → (f (s.line l)).dist.Lawful) : Kept s (s.modLine l f) where
  toShared := .modLine hd
  record := fun m => by by_cases e : m = l <;> simp [e, hr]
  rxCurrent := fun m => by by_cases e : m = l <;> simp [e, h1]
  txCurrent := fun m => by by_cases e : m = l <;> simp [e, h2]

theorem modRx (s : State) (l : LineNo) (f : Receiver → Receiver) : Kept s (s.modRx l f) := modLine rfl rfl rfl id

/-- A change of the converter. -/
theorem setConverter (s : State) (c : Converter) : Kept s { s with converter := c } :=
  { Kept.refl s with
    port := fun p => ⟨(s.port p).notices, (s.port p).overflow, by cases p <;> rfl⟩
    notices := fun p h => by cases p <;> exact h }

end Kept

namespace Works

theorem refl (s : State) : Works s s := ⟨.refl s, rfl, fun _ => rfl, fun _ => rfl, fun _ => rfl, fun _ => rfl⟩

theorem trans {s t u : State} (a : Works s t) (b : Works t u) : Works s u where
  kept := a.kept.trans b.kept
  converter := b.converter.trans a.converter
  rxLoop := fun l => (b.rxLoop l).trans (a.rxLoop l)
  txLoop := fun l => (b.txLoop l).trans (a.txLoop l)
  filter := fun l => (b.filter l).trans (a.filter l)
  rx := fun l => (b.rx l).trans (a.rx l)

/-- The last operation of a chain first: its lemma fixes the state it starts from. -/
theorem after {s t u : State} (b : Works t u) (a : Works s t) : Works s u := a.trans b

/-- A change of one line's assembler, encoder, send side and distribution unit. -/
theorem modLine {s : State} {l : LineNo} {f : Line → Line}
    (hf : ∃ a d e x, f (s.line l) = { s.line l with asm := a, dist := d, enc := e, send := x } ∧
      ((s.line l).dist.Lawful → d.Lawful)) : Works s (s.modLine l f) := by
  obtain ⟨a, d, e, x, hf, hd⟩ := hf
  refine ⟨.modLine (by rw [hf]) (by rw [hf]) (by rw [hf]) (by rw [hf]; exact hd), rfl, ?_, ?_, ?_, ?_⟩ <;>
    intro m <;> by_cases e : m = l <;> simp [e, hf]

theorem modAsm (s : State) (l : LineNo) (f : Assembler → Assembler) : Works s (s.modAsm l f) :=
  modLine ⟨_, _, _, _, rfl, id⟩

theorem modEnc (s : State) (l : LineNo) (f : Encoder → Encoder) : Works s (s.modEnc l f) :=
  modLine ⟨_, _, _, _, rfl, id⟩

theorem modSend (s : State) (l : LineNo) (f : SendSide → SendSide) : Works s (s.modSend l f) :=
  modLine ⟨_, _, _, _, rfl, id⟩

theorem modDist {s : State} {l : LineNo} {f : Distribution → Distribution}
    (h : (s.line l).dist.Lawful → (f (s.line l).dist).Lawful) : Works s (s.modDist l f) :=
  modLine ⟨_, _, _, _, rfl, h⟩

/-- A change of the store that keeps its limits and its law. -/
theorem modStore {s : State} {f : Store → Store} (h1 : (f s.store).deskReserve = s.store.deskReserve)
    (h2 : (f s.store).reclaimMark = s.store.reclaimMark) (h : s.store.Lawful → (f s.store).Lawful) :
    Works s (s.modStore f) where
  kept :=
    { Kept.refl s with
      store := h, deskReserve := h1, reclaimMark := h2
      port := fun p => ⟨(s.port p).notices, (s.port p).overflow, by simp⟩
      notices := fun p h => by simpa using h }
  converter := rfl
  rxLoop := fun _ => rfl
  txLoop := fun _ => rfl
  filter := fun _ => rfl
  rx := fun _ => rfl

/-- A change of the bell unit. -/
theorem modBell {s : State} {f : Room → Room} (b : Bell) (hf : f s.room = { s.room with bell := b })
    (h : s.room.options.countsFit → s.room.bell.Lawful → b.Lawful) : Works s (s.modRoom f) where
  kept :=
    { Kept.refl s with
      clock := by simp [hf], options := by simp [hf], unattended := by simp [hf]
      bell := fun c k => by simpa [hf] using h c k
      port := fun p => ⟨(s.port p).notices, (s.port p).overflow, by simp⟩
      notices := fun p h => by simpa using h }
  converter := rfl
  rxLoop := fun _ => rfl
  txLoop := fun _ => rfl
  filter := fun _ => rfl
  rx := fun _ => rfl

end Works

/-! ## Notices (R177) -/

/-- All that posting a notice does to a port: nothing when masked; else the notice joins the tail, or is dropped with the
flag set. -/
theorem DeskPort.post_cases (q : DeskPort) (n : Notice) :
    (q.noticeMask.getLsbD (n.kind - 1) = false ∧ q.post n = q) ∨
    (q.noticeMask.getLsbD (n.kind - 1) = true ∧ q.notices.length < Config.noticeRoom ∧
      q.post n = { q with notices := q.notices ++ [n] }) ∨
    (q.noticeMask.getLsbD (n.kind - 1) = true ∧ Config.noticeRoom ≤ q.notices.length ∧
      q.post n = { q with overflow := true }) := by
  unfold DeskPort.post
  split
  · exact .inl ⟨by assumption, rfl⟩
  · split
    · exact .inr (.inl ⟨by simpa using ‹¬_ = false›, by assumption, rfl⟩)
    · exact .inr (.inr ⟨by simpa using ‹¬_ = false›, by omega, rfl⟩)

/-- Posting changes notices and overflow flag alone. -/
theorem DeskPort.post_same (q : DeskPort) (n : Notice) : ∃ ns o, q.post n = { q with notices := ns, overflow := o } := by
  obtain ⟨-, e⟩ | ⟨-, -, e⟩ | ⟨-, -, e⟩ := q.post_cases n
  · exact ⟨q.notices, q.overflow, e⟩
  · exact ⟨_, q.overflow, e⟩
  · exact ⟨q.notices, _, e⟩

/-- Posting keeps the bound of the notice queue. -/
theorem DeskPort.post_fits {q : DeskPort} (n : Notice) (h : q.noticesFit) : (q.post n).noticesFit := by
  obtain ⟨-, e⟩ | ⟨-, hlt, e⟩ | ⟨-, -, e⟩ := q.post_cases n
  · rwa [e]
  · simp only [e, DeskPort.noticesFit, List.length_append, List.length_singleton]; omega
  · rwa [e]

namespace Works

theorem post (s : State) (p : Port) (n : Notice) : Works s (s.post p n) where
  kept :=
    { tick := modPort_tick .., pending := modPort_pending .., tables := modPort_tables ..
      clock := by simp [State.post], options := by simp [State.post], unattended := by simp [State.post]
      bell := fun _ h => by simpa [State.post] using h
      port := fun q => by
        by_cases e : q = p
        · subst e; simpa [State.post] using (s.port q).post_same n
        · exact ⟨(s.port q).notices, (s.port q).overflow, by simp [State.post, port_modPort, e]⟩
      notices := fun q h => by
        by_cases e : q = p
        · subst e; simpa [State.post] using DeskPort.post_fits n h
        · simpa [State.post, port_modPort, e] using h
      store := fun h => by simpa [State.post] using h
      deskReserve := by simp [State.post], reclaimMark := by simp [State.post]
      record := fun l => by simp [State.post], rxCurrent := fun l => by simp [State.post]
      txCurrent := fun l => by simp [State.post]
      dist := fun l h => by simpa [State.post] using h }
  converter := by simp [State.post]
  rxLoop := fun l => by simp [State.post]
  txLoop := fun l => by simp [State.post]
  filter := fun l => by simp [State.post]
  rx := fun l => by simp [State.post]

theorem postBoth (s : State) (n : Notice) : Works s (s.postBoth n) := (post s .a n).trans (post _ .b n)

theorem postSet (s : State) (ps : PortSet) (n : Notice) : Works s (s.postSet ps n) := by
  unfold State.postSet
  by_cases ha : ps.a = true <;> by_cases hb : ps.b = true <;> simp only [ha, hb, if_true]
  · exact (post s .a n).trans (post _ .b n)
  · exact post s .a n
  · exact post s .b n
  · exact refl s

theorem postSubmitter (s : State) (w : Submitter) (n : Notice) : Works s (s.postSubmitter w n) := by
  cases w with
  | port p => exact post s p n
  | room => exact postBoth s n

theorem postLine (s : State) (l : LineNo) (side : Side) (r : LineReport) : Works s (s.postLine l side r) := postBoth ..

/-! ## The store -/

theorem judgePool (s : State) : Works s s.judgePool := by
  unfold State.judgePool
  split
  · exact (modStore rfl rfl fun h => h.congr h.text rfl rfl rfl).trans (postBoth ..)
  · split
    · exact (modStore rfl rfl fun h => h.congr h.text rfl rfl rfl).trans (postBoth ..)
    · exact refl s

theorem judgeExhausted (s : State) : Works s s.judgeExhausted := by
  unfold State.judgeExhausted
  split
  · exact modStore rfl rfl fun h => h.congr h.text rfl rfl rfl
  · exact refl s

theorem raiseExhausted (s : State) : Works s s.raiseExhausted := modStore rfl rfl fun h => h.congr h.text rfl rfl rfl

/-- A freeing whose notices keep everything keeps everything. -/
theorem freeStory (s : State) (i : Fin 256) {tell : State → State} (h : ∀ t, Works t (tell t)) :
    Works s (s.freeStory i tell) := by
  unfold State.freeStory
  split
  · exact refl s
  · exact (((modStore rfl rfl fun h => h.release (by assumption)).trans (h _)).trans (judgePool _)).trans (judgeExhausted _)

theorem freeingTest (s : State) (i : Fin 256) : Works s (s.freeingTest i) := by
  unfold State.freeingTest
  split
  · exact refl s
  · split
    · exact freeStory s i fun t => refl t
    · exact refl s

theorem freeVictim (s : State) (i : Fin 256) (st : Story) : Works s (s.freeVictim i st) :=
  freeStory s i fun t => postSet t _ _

theorem reclaim (s : State) (done : Store → Bool) (rounds : Nat) : Works s (s.reclaim done rounds) := by
  induction rounds generalizing s with
  | zero => exact refl s
  | succ n ih =>
    unfold State.reclaim
    split
    · exact refl s
    · split
      · exact refl s
      · exact (freeVictim ..).trans (ih _)

theorem afterAllocation (s : State) : Works s s.afterAllocation :=
  ((judgePool s).trans (judgeExhausted _)).trans (reclaim ..)

theorem allocateCells (s : State) (i : Fin 256) (n : Nat) : Works s (s.modStore fun x => x.allocate i n) := by
  refine modStore ?_ ?_ fun h => h.allocate i n <;> unfold Store.allocate <;> split <;> rfl

theorem requestCell (s : State) (i : Fin 256) : Works s (s.requestCell i).2 := by
  unfold State.requestCell
  split
  · dsimp only
    split
    · exact ((reclaim ..).trans (allocateCells ..)).trans (afterAllocation _)
    · exact reclaim ..
  · exact (allocateCells ..).trans (afterAllocation _)

theorem requestRecord (s : State) : Works s s.requestRecord.2 := by
  unfold State.requestRecord
  split
  · exact refl s
  · dsimp only
    split
    · exact reclaim ..
    · exact reclaim ..

/-- A record replaced by one with the same chain. -/
theorem setRecord {s : State} {i : Fin 256} {r : StoryRecord} (h : r.cells = (s.record i).cells) :
    Works s (s.setRecord i r) :=
  modStore rfl rfl fun x => x.setRecord h

/-- A change of a story that keeps its chain. -/
theorem modStory (s : State) (h : Handle) {f : Story → Story} (hf : ∀ st, (f st).chain = st.chain) :
    Works s (s.modStory h f) := by
  obtain e | ⟨st, e, e'⟩ := modStory_cases s h f
  · rw [e]; exact refl s
  · rw [e']
    exact setRecord (by simp [StoryRecord.cells, (storyOf_eq_some e).2, hf])

/-- A story with an empty chain made in a FREE record. -/
theorem makeStory {s : State} {i : Fin 256} {st : Story} (hi : (s.record i).story = none) (hc : st.chain = []) :
    Works s (s.makeStory i st) :=
  (setRecord (by simp [StoryRecord.cells, hi, hc])).trans (judgeExhausted _)

theorem joinPending (s : State) (h : Handle) (l : LineNo) : Works s (s.joinPending h l) := modStory s h fun _ => rfl

theorem leavePending (s : State) (h : Handle) (l : LineNo) : Works s (s.leavePending h l) := modStory s h fun _ => rfl

theorem ringFor (s : State) (p : Priority) : Works s (s.ringFor p) := by
  unfold State.ringFor
  dsimp only
  split
  · exact refl s
  · rename_i hc
    refine modBell _ rfl fun c b => ⟨?_, ?_⟩
    · have := c p.index
      have := b.bound
      show max _ _ ≤ 9
      omega
    · have : 0 < max s.room.bell.remaining (s.room.options.bellCounts.get p.index) := by omega
      constructor
      · intro h; revert h; cases s.room.bell.phase <;> simp
      · intro h; simp only at h; omega

end Works

/-- The record a line's request is given is FREE. -/
theorem lowestFree_free {x : Store} {i : Fin 256} (h : x.lowestFree = some i) : (x.records.get i).story = none := by
  unfold Store.lowestFree at h
  obtain ⟨k, hk, e⟩ := Option.map_eq_some_iff.mp h
  obtain ⟨hlt, hp⟩ := List.findIdx?_eq_some_iff_getElem.mp hk |>.imp fun _ h => h.1
  have hk' : k < 256 := by simpa using hlt
  subst e
  simpa [Vector.get_eq_getElem, Nat.mod_eq_of_lt hk'] using hp

/-- The record a line's request is given is FREE in the state after the request. -/
theorem requestRecord_free {s t : State} {i : Fin 256} (h : s.requestRecord = (some i, t)) : (t.record i).story = none := by
  unfold State.requestRecord at h
  split at h
  · cases h; exact lowestFree_free (by assumption)
  · dsimp only at h
    split at h
    · simp only [Prod.mk.injEq] at h
      obtain ⟨h1, h2⟩ := h
      subst h2
      exact lowestFree_free h1
    · cases h

end Sys2Proof.Machine
end

