-- ==== Sys2Proof/Laws/Sending.lean ====
section
/-! SUPPORT. What the operations of the send side and the distribution unit keep, one lemma each. -/

namespace Sys2Proof.Machine

/-! ## The bounds of queue and stack (R114) -/

theorem freshDistribution_lawful : freshDistribution.Lawful := ⟨by decide, by decide⟩

/-- The next-story choice takes an entry away from queue or stack. -/
theorem Distribution.Lawful.choose {d e : Distribution} {r : Bool} (h : d.Lawful) (hc : d.choose = some (e, r)) :
    e.Lawful := by
  have hq := h.queue
  have hs := h.stack
  unfold Distribution.choose at hc
  split at hc
  · cases hc
  · rename_i h1 h2; cases hc; constructor <;> simp_all; omega
  · rename_i h1 h2; cases hc; constructor <;> simp_all; omega
  · rename_i h1 h2
    split at hc <;> cases hc <;> constructor <;> simp_all <;> omega

/-- A change of the current transmission alone. -/
theorem Distribution.Lawful.current {d : Distribution} (h : d.Lawful) (u : Option Transmission) :
    Distribution.Lawful { d with current := u } := ⟨h.queue, h.stack⟩

/-- Joining a queue adds one entry. -/
theorem enqueue_length (e : DistEntry) (qs : List DistEntry) : (enqueue e qs).length = qs.length + 1 := by
  induction qs with
  | nil => rfl
  | cons q qs ih =>
    unfold enqueue
    split
    · simp [ih]
    · simp

/-- An entry taken out of a list leaves one fewer. -/
theorem takeEntry_length {h : Handle} {es rest : List DistEntry} {d : DistEntry} (e : takeEntry h es = some (d, rest)) :
    rest.length + 1 = es.length := by
  induction es generalizing d rest with
  | nil => cases e
  | cons x es ih =>
    unfold takeEntry at e
    split at e
    · cases e; rfl
    · split at e
      · cases e
      · rename_i d' rest' e'
        cases e
        simp [ih e']

namespace Works

theorem loadStopDelay (s : State) (l : LineNo) : Works s (s.loadStopDelay l) := by
  unfold State.loadStopDelay
  split
  · exact modSend ..
  · exact refl s

theorem enterIdle (s : State) (l : LineNo) : Works s (s.enterIdle l) := (modSend ..).trans (loadStopDelay ..)

theorem workRunsOut (s : State) (l : LineNo) : Works s (s.workRunsOut l) := by
  unfold State.workRunsOut
  split
  · exact enterIdle s l
  all_goals exact refl s

theorem chooseNext (s : State) (l : LineNo) : Works s (s.chooseNext l) := by
  unfold State.chooseNext
  split
  · exact refl s
  · split
    · exact refl s
    · exact modLine ⟨_, _, _, _, rfl, fun h => h.choose (by assumption)⟩

theorem takeHold (s : State) (l : LineNo) : Works s (s.takeHold l) := by
  unfold State.takeHold
  split
  · exact modSend ..
  · exact refl s

theorem breakLine (s : State) (l : LineNo) : Works s (s.modLine l Line.broken) := by
  refine modLine ?_
  unfold Line.broken
  split
  · exact ⟨_, _, _, _, rfl, id⟩
  · exact ⟨_, _, _, _, rfl, fun h => h.current _⟩

theorem takeBreakIn (s : State) (l : LineNo) : Works s (s.takeBreakIn l) := by
  unfold State.takeBreakIn
  split
  · exact modSend ..
  · exact ((breakLine s l).trans (modSend ..)).trans (postLine ..)

theorem beginFrame (s : State) (l : LineNo) (k : Code) (c : SendCopy) : Works s (s.beginFrame l k c) :=
  (modSend ..).trans (loadStopDelay ..)

/-- A suspension is made only below a full stack. -/
theorem suspend {s : State} {l : LineNo} {u : Transmission} (h : (s.line l).preempts u = true) :
    Works s (s.modLine l fun x => x.suspend u) := by
  refine modLine ⟨_, _, _, _, rfl, fun d => ⟨d.queue, ?_⟩⟩
  unfold Line.preempts at h
  split at h
  · cases h
  · simp only [Bool.and_eq_true, decide_eq_true_eq] at h
    simpa using h.2

theorem printLineEnd (s : State) (l : LineNo) : Works s (s.printLineEnd l) := by
  unfold State.printLineEnd
  split
  · exact refl s
  · dsimp only
    split
    · exact after (takeHold ..) (modLine ⟨_, _, _, _, rfl, fun h => h.current _⟩)
    · split
      · rename_i hp
        split
        · exact after (takeHold ..) (suspend hp)
        · exact after (chooseNext ..) (after (takeHold ..) (suspend hp))
      · exact after (takeHold ..) (modDist fun h => h.current _)

theorem dropCurrent (s : State) (l : LineNo) : Works s (s.modLine l Line.dropCurrent) :=
  modLine ⟨_, _, _, _, rfl, fun h => h.current _⟩

theorem departs (s : State) (l : LineNo) (d : DistEntry) (o : DistOutcome) : Works s (s.departs l d o) :=
  ((leavePending ..).trans (postSubmitter ..)).trans (freeingTest ..)

theorem endTransmission (s : State) (l : LineNo) : Works s (s.endTransmission l) := by
  unfold State.endTransmission
  split
  · exact refl s
  · rename_i u _
    dsimp only
    generalize (if u.withdrawn = true then DistOutcome.withdrawn else DistOutcome.completed) = o
    split
    · exact after (takeHold ..) (after (departs ..) (dropCurrent ..))
    · split
      · exact after (chooseNext ..) (after (departs ..) (dropCurrent ..))
      · exact after (workRunsOut ..) (after (departs ..) (dropCurrent ..))

theorem handCode (s : State) (l : LineNo) (c : SendCopy) : Works s (s.handCode l c) := by
  unfold State.handCode
  split
  · exact refl s
  · dsimp only
    split
    · split
      · exact after (modEnc ..) (after (beginFrame ..) (modEnc ..))
      · exact after (printLineEnd ..) (after (modEnc ..) (after (beginFrame ..) (modEnc ..)))
      · exact after (endTransmission ..) (after (modEnc ..) (after (beginFrame ..) (modEnc ..)))
    · exact after (beginFrame ..) (modEnc ..)

/-- The formed group and the changed transmission put on the line. -/
theorem putForming (s : State) (l : LineNo) (u : Transmission) (e : Encoder) :
    Works s (s.modLine l fun x => { x with enc := e, dist := { x.dist with current := some u } }) :=
  modLine ⟨_, _, _, _, rfl, fun h => h.current _⟩

theorem request (s : State) (l : LineNo) (rounds : Nat) : Works s (s.request l rounds) := by
  induction rounds generalizing s with
  | zero => exact refl s
  | succ n ih =>
    unfold State.request
    split
    · split
      · split
        · exact after (handCode ..) (putForming ..)
        · dsimp only
          split
          · exact after (ih _) (after (endTransmission ..) (putForming ..))
          · exact after (endTransmission ..) (putForming ..)
      · exact handCode ..
    · exact refl s

theorem enterSending (s : State) (l : LineNo) : Works s (s.enterSending l) := by
  unfold State.enterSending
  dsimp only
  split
  · exact after (chooseNext ..) (modSend ..)
  · exact after (request ..) (after (chooseNext ..) (modSend ..))

theorem startDelayOver (s : State) (l : LineNo) : Works s (s.startDelayOver l) := by
  unfold State.startDelayOver
  dsimp only
  split
  · split
    · exact after (enterSending ..) (modSend ..)
    · exact after (enterIdle ..) (modSend ..)
  all_goals exact modSend ..

theorem enterStarting (s : State) (l : LineNo) : Works s (s.enterStarting l) := by
  unfold State.enterStarting
  dsimp only
  split <;> split
  · exact after (startDelayOver ..) (after (takeBreakIn ..) (modSend ..))
  · exact after (startDelayOver ..) (modSend ..)
  · exact after (takeBreakIn ..) (modSend ..)
  · exact modSend ..

theorem workArrives (s : State) (l : LineNo) : Works s (s.workArrives l) := by
  unfold State.workArrives
  split
  · exact enterStarting ..
  · exact after (enterSending ..) (modSend ..)
  all_goals exact refl s

theorem leaveHalted (s : State) (l : LineNo) : Works s (s.leaveHalted l) := by
  unfold State.leaveHalted
  dsimp only
  repeat' split
  all_goals first
    | exact enterSending ..
    | exact enterIdle ..
    | exact enterStarting ..
    | exact after (takeBreakIn ..) (modSend ..)
    | exact modSend ..

theorem leaveIfFree (s : State) (l : LineNo) : Works s (s.leaveIfFree l) := by
  unfold State.leaveIfFree
  split
  · exact leaveHalted ..
  · exact refl s

theorem dropBreakIn (s : State) (l : LineNo) : Works s (s.dropBreakIn l) := after (postLine ..) (modSend ..)

theorem holdLine (s : State) (l : LineNo) : Works s (s.holdLine l) := by
  unfold State.holdLine
  split
  all_goals first
    | exact modSend ..
    | exact refl s

theorem resumeLine (s : State) (l : LineNo) : Works s (s.resumeLine l) := by
  unfold State.resumeLine
  dsimp only
  split
  · exact after (leaveIfFree ..) (after (dropBreakIn ..) (modSend ..))
  · exact after (leaveIfFree ..) (modSend ..)

theorem motorTurnedOn (s : State) (l : LineNo) : Works s (s.motorTurnedOn l) := by
  unfold State.motorTurnedOn
  split
  all_goals first
    | exact modSend ..
    | exact after (loadStopDelay ..) (modSend ..)
    | exact refl s

theorem motorTurnedOff (s : State) (l : LineNo) : Works s (s.motorTurnedOff l) := by
  unfold State.motorTurnedOff
  dsimp only
  split
  · exact after (modSend ..) (modSend ..)
  · split
    · exact after (enterSending ..) (modSend ..)
    · exact after (modSend ..) (modSend ..)
  all_goals first
    | exact modSend ..
    | exact refl s

/-! ## Submission, withdrawal, abandonment -/

/-- A QUEUED story is put into a queue that has room. -/
theorem joinQueue {s : State} {l : LineNo} {h : Handle} (ht : (s.line l).trial h = .queued) (e : DistEntry) :
    Works s (s.modDist l fun d => { d with queue := enqueue e d.queue }) := by
  refine modDist fun d => ⟨?_, d.stack⟩
  have : ¬ Config.queueRoom ≤ (s.line l).dist.queue.length := by
    intro hc
    unfold Line.trial at ht
    split at ht
    · cases ht
    · split at ht
      · cases ht
      · simp at ht
  simp only [enqueue_length]
  omega

theorem tryLine (s : State) (l : LineNo) (h : Handle) (p : Priority) (w : Submitter) : Works s (s.tryLine l h p w).2 := by
  unfold State.tryLine
  split
  · rename_i ht
    dsimp only
    split
    · exact after (workArrives ..) (after (joinPending ..) (joinQueue ht _))
    · exact after (joinPending ..) (joinQueue ht _)
  · exact refl s

theorem tryLines (s : State) (h : Handle) (p : Priority) (w : Submitter) (ls : List LineNo) :
    Works s (s.tryLines h p w ls).2 := by
  induction ls generalizing s with
  | nil => exact refl s
  | cons l ls ih => exact after (ih _) (tryLine s l h p w)

theorem roomSubmit (s : State) (h : Handle) (p : Priority) (ls : List LineNo) : Works s (s.roomSubmit h p ls) := by
  induction ls generalizing s with
  | nil => exact refl s
  | cons l ls ih =>
    unfold State.roomSubmit
    dsimp only
    split
    · exact after (ih _) (tryLine ..)
    · exact after (ih _) (after (postBoth ..) (tryLine ..))

theorem offerStory (s : State) (l : LineNo) (h : Handle) (p : Priority) : Works s (s.offerStory l h p) := by
  unfold State.offerStory
  split
  · exact after (modStory _ _ fun _ => rfl) (after (roomSubmit ..) (modStory _ _ fun _ => rfl))
  · exact refl s

theorem withdrawn (s : State) (l : LineNo) (d : DistEntry) : Works s (s.withdrawn l d) := by
  unfold State.withdrawn
  dsimp only
  split
  · exact after (postSubmitter ..) (leavePending ..)
  · exact after (workRunsOut ..) (after (postSubmitter ..) (leavePending ..))

theorem withdrawLine (s : State) (l : LineNo) (h : Handle) : Works s (s.withdrawLine l h).2 := by
  unfold State.withdrawLine
  dsimp only
  split
  · rename_i e
    refine after (withdrawn ..) (modDist fun d => ⟨?_, d.stack⟩)
    have := takeEntry_length e
    have := d.queue
    simp only; omega
  · split
    · rename_i e
      refine after (withdrawn ..) (modDist fun d => ⟨d.queue, ?_⟩)
      have := takeEntry_length e
      have := d.stack
      simp only; omega
    · split
      · exact refl s
      · split
        · dsimp only
          exact modLine ⟨_, _, _, _, rfl, fun h => h.current _⟩
        · exact refl s

theorem withdrawLines (s : State) (h : Handle) (ls : List LineNo) : Works s (s.withdrawLines h ls).2 := by
  induction ls generalizing s with
  | nil => exact refl s
  | cons l ls ih => exact after (ih _) (withdrawLine s l h)

theorem abandonEntries (s : State) (l : LineNo) (es : List DistEntry) : Works s (s.abandonEntries l es) := by
  induction es generalizing s with
  | nil => exact refl s
  | cons e es ih => exact (departs ..).trans (ih _)

theorem abandonLine (s : State) (l : LineNo) : Works s (s.abandonLine l) :=
  Works.trans (modLine ⟨_, _, _, _, rfl, fun _ => freshDistribution_lawful⟩) (abandonEntries ..)

end Works

end Sys2Proof.Machine
end

