-- ==== Sys2Proof/Laws/Assembling.lean ====
section
/-! SUPPORT. What the operations of the assembler keep, one lemma each. -/

namespace Sys2Proof.Machine

namespace Works

theorem loadIdleGap (s : State) (l : LineNo) : Works s (s.loadIdleGap l) := modAsm ..

theorem setHeld (s : State) (l : LineNo) (held : List Held) : Works s (s.setHeld l held) := modAsm ..

theorem enterSkipping (s : State) (l : LineNo) : Works s (s.enterSkipping l) := after (loadIdleGap ..) (modAsm ..)

theorem decidePriority (s : State) (l : LineNo) (h : Handle) (p : Priority) : Works s (s.decidePriority l h p) :=
  after (ringFor ..) (after (modStory _ _ fun _ => rfl) (modAsm ..))

theorem putChar (s : State) (h : Handle) (c : Held) : Works s (s.putChar h c) := by
  unfold State.putChar
  split
  · exact refl s
  · exact after (modStory _ _ fun _ => rfl)
      (modStore rfl rfl fun x => x.congr (Memory.wf_write _ _ x.text) rfl rfl rfl)

theorem storeChar (s : State) (h : Handle) (c : Held) : Works s (s.storeChar h c).2 := by
  unfold State.storeChar
  split
  · exact refl s
  · split
    · have hr := requestCell s h.index
      split
      · rename_i e; rw [e] at hr; exact after (putChar ..) hr
      · rename_i e; rw [e] at hr; exact hr
    · exact putChar ..

theorem considerPriority (s : State) (l : LineNo) (h : Handle) (d : Bool) (x : Byte) :
    Works s (s.considerPriority l h d x) := by
  unfold State.considerPriority
  split
  · exact refl s
  · split
    · exact refl s
    · exact decidePriority ..

theorem commit (s : State) (l : LineNo) (c : Held) : Works s (s.commit l c).2 := by
  unfold State.commit
  split
  · rename_i h d _
    have hr := storeChar s h c
    split
    · rename_i e; rw [e] at hr; exact after (considerPriority ..) hr
    · rename_i e; rw [e] at hr; exact hr
    · rename_i e; rw [e] at hr; exact hr
  · exact refl s
  · exact refl s

theorem commitAll (s : State) (l : LineNo) (cs : List Held) : Works s (s.commitAll l cs).2 := by
  induction cs generalizing s with
  | nil => exact refl s
  | cons c cs ih =>
    unfold State.commitAll
    have hr := commit s l c
    split
    · rename_i e; rw [e] at hr; exact after (ih _) hr
    · rename_i e; rw [e] at hr; exact hr
    · rename_i e; rw [e] at hr; exact hr

theorem openInbound (s : State) (l : LineNo) : Works s (s.openInbound l) := by
  unfold State.openInbound
  have hr := requestRecord s
  split
  · rename_i e; rw [e] at hr
    exact after (enterSkipping ..) (after (raiseExhausted ..) (after (postSet ..) hr))
  · rename_i i t e
    have hi := requestRecord_free e
    rw [e] at hr
    dsimp only
    split
    · exact after (postSet ..) (after (loadIdleGap ..) (after (decidePriority ..)
        (after (modAsm ..) (after (makeStory hi rfl) hr))))
    · exact after (postSet ..) (after (loadIdleGap ..) (after (modAsm ..) (after (makeStory hi rfl) hr)))

/-- Step 2 of a close: an undecided priority is decided. -/
theorem settlePriority (s : State) (l : LineNo) (h : Handle) (d : Bool) :
    Works s (if d then s else match s.storyOf h with
      | none => s
      | some st => s.decidePriority l h st.priority) := by
  split
  · exact refl s
  · split
    · exact refl s
    · exact decidePriority ..

theorem finishClose (s : State) (l : LineNo) (t u : Bool) (a : AfterClose) : Works s (s.finishClose l t u a) := by
  unfold State.finishClose
  split
  · rename_i h d _
    dsimp only
    have h1 := settlePriority s l h d
    generalize (if d then s else match s.storyOf h with
      | none => s
      | some st => s.decidePriority l h st.priority) = s1 at h1 ⊢
    have h2 : Works s ((s1.modStory h fun st =>
        { st with
          state := .complete
          truncated := t
          unterminated := u
          closedStamp := some s1.stamp }).modAsm l fun a => { a with state := .between, idleGap := none }) :=
      after (modAsm ..) (after (modStory _ _ fun _ => rfl) h1)
    generalize ((s1.modStory h fun st =>
        { st with
          state := .complete
          truncated := t
          unterminated := u
          closedStamp := some s1.stamp }).modAsm l fun a => { a with state := .between, idleGap := none }) = s2 at h2 ⊢
    have last : ∀ s3, Works s s3 → Works s (match a with
        | .between => s3
        | .skipping => s3.enterSkipping l
        | .reopen => s3.openInbound l) := by
      intro s3 h3
      cases a
      · exact h3
      · exact after (enterSkipping ..) h3
      · exact after (openInbound ..) h3
    cases s2.storyOf h with
    | none => exact last _ h2
    | some st => exact last _ (after (freeingTest ..) (after (offerStory ..) (after (postSet ..) h2)))
  · exact refl s
  · exact refl s

theorem cutShort (s : State) (l : LineNo) (why : Stored) : Works s (s.cutShort l why) := by
  unfold State.cutShort
  dsimp only
  split
  · exact after (finishClose ..) (after (setHeld ..) (raiseExhausted s))
  · exact after (finishClose ..) (setHeld ..)

theorem closeCommitting (s : State) (l : LineNo) (t u : Bool) : Works s (s.closeCommitting l t u) := by
  unfold State.closeCommitting
  dsimp only
  split
  · exact after (finishClose ..) (after (raiseExhausted _) (after (commitAll ..) (setHeld ..)))
  · exact after (finishClose ..) (after (commitAll ..) (setHeld ..))

theorem sequenceFound (s : State) (l : LineNo) (f : Found) : Works s (s.sequenceFound l f) := by
  unfold State.sequenceFound
  split
  · exact openInbound ..
  · exact refl s
  · exact finishClose ..
  · exact finishClose ..
  · exact openInbound ..
  · exact modAsm ..

theorem arrive (s : State) (l : LineNo) (cs : List Held) : Works s (s.arrive l cs) := by
  induction cs generalizing s with
  | nil => exact refl s
  | cons c cs ih =>
    unfold State.arrive
    dsimp only
    split
    · exact sequenceFound ..
    · split
      · exact setHeld ..
      · have hr := commit s l c
        split
        · rename_i e; rw [e] at hr; exact after (ih _) hr
        · rename_i e; rw [e] at hr; exact after (cutShort ..) hr
        · rename_i e; rw [e] at hr; exact after (cutShort ..) hr

theorem framedChar (s : State) (l : LineNo) (c : Held) : Works s (s.framedChar l c) := after (arrive ..) (setHeld ..)

theorem storeContinuous (s : State) (l : LineNo) (c : Held) : Works s (s.storeContinuous l c) := by
  unfold State.storeContinuous
  have hr := commit s l c
  split
  · rename_i e; rw [e] at hr; exact hr
  · rename_i e; rw [e] at hr; exact after (cutShort ..) hr
  · rename_i e; rw [e] at hr; exact after (cutShort ..) hr

theorem continuousChar (s : State) (l : LineNo) (c : Held) : Works s (s.continuousChar l c) := by
  unfold State.continuousChar
  split
  · exact after (storeContinuous ..) (openInbound ..)
  · exact storeContinuous ..
  · exact refl s

theorem restartIdleGap (s : State) (l : LineNo) : Works s (s.restartIdleGap l) := by
  unfold State.restartIdleGap
  split
  · exact refl s
  · exact loadIdleGap ..
  · exact loadIdleGap ..

theorem decodeCode (s : State) (l : LineNo) (k : Code) (doubtful : Bool) : Works s (s.decodeCode l k doubtful) := by
  unfold State.decodeCode
  dsimp only
  split
  · exact modAsm ..
  · split
    · exact after (framedChar ..) (after (restartIdleGap ..) (modAsm ..))
    · exact after (continuousChar ..) (after (restartIdleGap ..) (modAsm ..))

theorem idleGapOver (s : State) (l : LineNo) : Works s (s.idleGapOver l) := by
  unfold State.idleGapOver
  dsimp only
  split
  · split
    · exact after (closeCommitting ..) (modAsm ..)
    · exact after (closeCommitting ..) (modAsm ..)
  · exact after (modAsm ..) (modAsm ..)
  · exact modAsm ..

theorem assemblerOpen (s : State) (l : LineNo) : Works s (s.assemblerOpen l) := by
  unfold State.assemblerOpen
  dsimp only
  split
  · exact after (modAsm ..) (closeCommitting ..)
  · exact after (modAsm ..) (setHeld ..)
  · exact after (modAsm ..) (setHeld ..)

theorem resetAssembler (s : State) (l : LineNo) : Works s (s.resetAssembler l) := by
  unfold State.resetAssembler
  dsimp only
  split
  · exact after (modAsm ..) (closeCommitting ..)
  · exact modAsm ..
  · exact modAsm ..

theorem commitHeld (s : State) (l : LineNo) : Works s (s.commitHeld l) := by
  unfold State.commitHeld
  dsimp only
  have hr := after (commitAll _ l (s.line l).asm.held) (setHeld s l [])
  split
  · rename_i e; rw [e] at hr; exact hr
  · rename_i e; rw [e] at hr; exact after (cutShort ..) hr
  · rename_i e; rw [e] at hr; exact after (cutShort ..) hr

end Works

end Sys2Proof.Machine
end

