-- ==== Sys2Proof/Laws/Sensing.lean ====
section
/-! SUPPORT. What the operations of the receive side, the loop sensing unit and the line configuration keep, one lemma each. -/

namespace Sys2Proof.Machine

namespace Kept

/-! ## Reception -/

theorem postLine (s : State) (l : LineNo) (side : Side) (r : LineReport) : Kept s (s.postLine l side r) :=
  (Works.postLine ..).kept

theorem report (s : State) (l : LineNo) (v : Level) (t : Nat) : Kept s (s.report l v t) := by
  unfold State.report
  dsimp only
  split
  · exact after (postLine ..) (modLine rfl rfl rfl id)
  · exact modLine rfl rfl rfl id

theorem completeChange (s : State) (l : LineNo) : Kept s (s.completeChange l) := by
  unfold State.completeChange
  split
  · exact refl s
  · split
    · exact refl s
    · exact after (report ..) (modLine rfl rfl rfl id)

theorem rawChanged (s : State) (l : LineNo) : Kept s (s.rawChanged l) := by
  unfold State.rawChanged
  split
  · exact refl s
  · dsimp only
    split
    · split
      · exact modLine rfl rfl rfl id
      · exact refl s
    · split
      · exact refl s
      · split
        · exact after (completeChange ..) (modLine rfl rfl rfl id)
        · exact modLine rfl rfl rfl id

theorem feedFilter (s : State) (l : LineNo) (before : Level) : Kept s (s.feedFilter l before) := by
  unfold State.feedFilter
  split
  · exact refl s
  · exact rawChanged ..

theorem checkStart (s : State) (l : LineNo) : Kept s (s.checkStart l) := modRx ..

theorem sampleElement (s : State) (l : LineNo) : Kept s (s.sampleElement l) := modRx ..

theorem deliver (s : State) (l : LineNo) (c : Character) (good : Bool) : Kept s (s.deliver l c good) := by
  unfold State.deliver
  dsimp only
  split
  · exact after (Works.decodeCode ..).kept (modRx ..)
  · exact after (Works.decodeCode ..).kept (after (postLine ..) (modRx ..))

theorem sampleStop (s : State) (l : LineNo) : Kept s (s.sampleStop l) := by
  unfold State.sampleStop
  split
  · split
    · exact after (deliver ..) (modRx ..)
    · exact after (deliver ..) (modRx ..)
  all_goals exact refl s

theorem openLine (s : State) (l : LineNo) : Kept s (s.openLine l) :=
  after (Works.assemblerOpen ..).kept (after (postLine ..) (modRx ..))

theorem postReceiverReset (s : State) (l : LineNo) (was : Receiver) (now : RxReport) :
    Kept s (s.postReceiverReset l was now) := by
  unfold State.postReceiverReset
  dsimp only
  split <;> split
  · exact after (postLine ..) (postLine ..)
  · exact postLine ..
  · exact postLine ..
  · exact refl s

theorem resetReceiver (s : State) (l : LineNo) : Kept s (s.resetReceiver l) :=
  after (postReceiverReset ..) (modLine rfl rfl rfl id)

theorem disableReceiver (s : State) (l : LineNo) : Kept s (s.disableReceiver l) :=
  after (postReceiverReset ..) (modLine rfl rfl rfl id)

/-! ## Loop sensing -/

theorem searchConverter (s : State) : Kept s s.searchConverter := by
  unfold State.searchConverter
  split
  · exact setConverter ..
  · exact setConverter ..

theorem wakeConverter (s : State) : Kept s s.wakeConverter := by
  unfold State.wakeConverter
  split
  · exact refl s
  · exact searchConverter s

theorem voidConversion (s : State) (l : LineNo) (hit : Side → Bool) : Kept s (s.voidConversion l hit) := by
  unfold State.voidConversion
  split
  · exact refl s
  · split
    · exact setConverter ..
    · exact refl s

theorem setChannel (s : State) (l : LineNo) (side : Side) (c : LoopChannel) :
    Kept s (s.modLine l fun x => x.setChannel side c) := by
  cases side <;> exact modLine rfl rfl rfl id

theorem sendLoopChanged (s : State) (l : LineNo) (was now : LoopState) : Kept s (s.sendLoopChanged l was now) := by
  unfold State.sendLoopChanged
  split
  · split
    all_goals first
      | exact refl s
      | exact (Works.takeBreakIn ..).kept
  · split
    · exact (Works.modSend ..).kept
    · exact refl s

theorem classify (s : State) (l : LineNo) (side : Side) (value : Nat) : Kept s (s.classify l side value) := by
  unfold State.classify
  dsimp only
  split
  · exact setChannel ..
  · cases side
    · exact after (postLine ..) (setChannel ..)
    · exact after (sendLoopChanged ..) (after (postLine ..) (setChannel ..))

theorem unmeasure (s : State) (l : LineNo) (side : Side) : Kept s (s.unmeasure l side) := by
  unfold State.unmeasure
  dsimp only
  split
  · exact setChannel ..
  · exact after (postLine ..) (setChannel ..)

theorem endConversion (s : State) : Kept s s.endConversion := by
  unfold State.endConversion
  split
  · exact refl s
  · dsimp only
    split
    · exact after (searchConverter _) (setConverter ..)
    · exact after (searchConverter _) (after (classify ..) (setConverter ..))

/-! ## Line reset and mode changes -/

theorem stopSendSide (s : State) (l : LineNo) (state : SendState) : Kept s (s.stopSendSide l state) := by
  unfold State.stopSendSide
  dsimp only
  split
  · exact after (postLine ..) (Works.modSend ..).kept
  · exact (Works.modSend ..).kept

theorem clearSending (s : State) (l : LineNo) (state : SendState) : Kept s (s.clearSending l state) :=
  after (Works.modEnc ..).kept (after (Works.abandonLine ..).kept (stopSendSide ..))

theorem resetChannel (s : State) (l : LineNo) (side : Side) : Kept s (s.resetChannel l side) :=
  after (unmeasure ..) (voidConversion ..)

/-- An operation made under a condition. -/
theorem when {s t u : State} (a : Kept s t) (h : Kept t u) (c : Prop) [Decidable c] : Kept s (if c then u else t) := by
  split
  · exact a.trans h
  · exact a

theorem resetLine (s : State) (l : LineNo) : Kept s (s.resetLine l) := by
  unfold State.resetLine
  dsimp only
  exact after (wakeConverter _) <| when (when (when (when (refl s) (clearSending ..) _)
    (after (Works.resetAssembler ..).kept (resetReceiver ..)) _) (resetChannel ..) _) (resetChannel ..) _

theorem removeSend (s : State) (l : LineNo) : Kept s (s.removeSend l) := after (resetChannel ..) (clearSending ..)

theorem removeReceive (s : State) (l : LineNo) : Kept s (s.removeReceive l) :=
  after (resetChannel ..) (after (Works.resetAssembler ..).kept (disableReceiver ..))

theorem addSend (s : State) (l : LineNo) : Kept s (s.addSend l) := modLine rfl rfl rfl fun _ => freshDistribution_lawful

theorem addReceive (s : State) (l : LineNo) : Kept s (s.addReceive l) := modLine rfl rfl rfl id

theorem changeMotorControl (s : State) (l : LineNo) (was now : Bool) : Kept s (s.changeMotorControl l was now) := by
  unfold State.changeMotorControl
  split
  · exact refl s
  · split
    · exact (Works.motorTurnedOn ..).kept
    · exact (Works.motorTurnedOff ..).kept

end Kept

namespace Shared

theorem setLineRecord (s : State) (l : LineNo) (r : LineRecord) : Shared s (s.setLineRecord l r) := modLine id

/-- An operation made under a condition. -/
theorem when {s t u : State} (a : Shared s t) (h : Kept t u) (c : Prop) [Decidable c] :
    Shared s (if c then u else t) := by
  split
  · exact a.trans h.toShared
  · exact a

theorem takeRecord (s : State) (l : LineNo) (r : LineRecord) : Shared s (s.takeRecord l r) := by
  unfold State.takeRecord
  dsimp only
  exact after (Kept.wakeConverter _).toShared <| when (when (when (when (when (after (setLineRecord ..) <|
    when (when (setLineRecord ..) (Kept.removeSend ..) _) (Kept.removeReceive ..) _) (Kept.addReceive ..) _)
    (Kept.addSend ..) _) (Kept.changeMotorControl ..) _) (Works.commitHeld ..).kept _) (Kept.feedFilter ..) _

theorem setCurrent (s : State) (c : ChannelNo) (current : Int) : Shared s (s.setCurrent c current) := by
  unfold State.setCurrent
  dsimp only
  split
  · exact after (Kept.wakeConverter _).toShared (after (Kept.feedFilter ..).toShared (modLine id))
  · exact modLine id

end Shared

namespace Works

/-! ## The remaining line events -/

theorem guardOver (s : State) (l : LineNo) : Works s (s.guardOver l) := by
  unfold State.guardOver
  dsimp only
  split
  · split
    · exact after (leaveIfFree ..) (after (dropBreakIn ..) (modSend ..))
    · exact modSend ..
  · exact modSend ..

end Works

theorem Kept.endFrame (s : State) (l : LineNo) : Kept s (s.endFrame l) := by
  unfold State.endFrame
  dsimp only
  split
  · exact .after (.wakeConverter _) (Works.after (.request ..) (.modSend ..)).kept
  · exact .after (.wakeConverter _) (Works.modSend ..).kept

end Sys2Proof.Machine
end

