-- ==== Sys2Proof/Laws/Desk.lean ====
section
/-! SUPPORT. What taking a command at a port keeps: the laws of the whole part, one lemma for each desk command and link
operation. -/

namespace Sys2Proof.Machine

/-! ## The samples of a link byte -/

/-- The value of element levels has the bit of each mark element (R2). -/
theorem elementsValue_testBit : ∀ (es : List Level) (n : Nat), (elementsValue es).testBit n = decide (es[n]? = some .mark)
  | [], n => by simp [elementsValue]
  | .mark :: es, 0 => by simp [elementsValue, Nat.testBit_zero]
  | .space :: es, 0 => by simp [elementsValue, Nat.testBit_zero]
  | .mark :: es, n + 1 => by
    rw [elementsValue, Nat.testBit_succ, show (1 + 2 * elementsValue es) / 2 = elementsValue es by omega, elementsValue_testBit es n]
    simp
  | .space :: es, n + 1 => by
    rw [elementsValue, Nat.testBit_succ, show (2 * elementsValue es) / 2 = elementsValue es by omega, elementsValue_testBit es n]
    simp

/-- Bit n of a sampled byte is mark at bit position n + 1 (R170). -/
theorem sampledByte_getLsbD (edge rate : Nat) (level : Level) (changes : List Nat) (n : Nat) (h : n < 8) :
    (sampledByte edge rate level changes).getLsbD n = decide (bitSample edge rate level changes (n + 1) = .mark) := by
  unfold sampledByte
  rw [BitVec.getLsbD_ofNat, elementsValue_testBit]
  simp [h, Nat.add_comm 1 n]

/-- A receive data line is at mark at a tick exactly when it ends at mark after an even number of later changes, or at space
after an odd one (R169, R170). -/
theorem dataLevel_mark (level : Level) (changes : List Nat) (t : Nat) :
    dataLevel level changes t = .mark ↔ (level = .mark ↔ (changes.filter fun c => decide (t < c)).length % 2 = 0) := by
  unfold dataLevel
  rw [List.countP_eq_length_filter]
  split <;> rename_i h <;> cases level <;> simp [h, Level.other]

/-! ## Changes of a port and of the room -/

/-- A change of one port that keeps the bound of its notice queue keeps the laws. -/
theorem lawful_modPort {s : State} (h : s.Lawful) {p : Port} {f : DeskPort → DeskPort}
    (hf : (f (s.port p)).noticesFit) : (s.modPort p f).Lawful where
  store := by simpa using h.store
  room := by simpa using h.room
  dist := fun l => by simpa using h.dist l
  notices := fun q => by
    by_cases e : q = p
    · subst e; simpa using hf
    · simpa [port_modPort, e] using h.notices q

/-- A change of the room controller that keeps its law keeps the laws. -/
theorem lawful_modRoom {s : State} (h : s.Lawful) {f : Room → Room} (hf : (f s.room).Lawful) : (s.modRoom f).Lawful where
  store := h.store
  room := hf
  dist := h.dist
  notices := fun q => by simpa using h.notices q

/-- The day clock stays in its ranges however long it runs (R188). -/
theorem DayClock.Lawful.run {c : DayClock} (edges : Nat) : (c.run edges).Lawful where
  day := Nat.mod_lt _ (by decide)
  second := Nat.mod_lt _ (by decide)
  millis := Nat.mod_lt _ (by decide)

/-- Time runs on under the laws. -/
theorem lawful_advanceTo {s : State} (h : s.Lawful) (t : Nat) : (s.advanceTo t).Lawful := by
  unfold State.advanceTo
  split
  · exact h
  · exact ⟨h.store, ⟨DayClock.Lawful.run _, h.room.bell, h.room.counts⟩, h.dist, fun q => by
      have := h.notices q
      cases q <;> exact this⟩

/-- A timed event whose action keeps the laws keeps them. -/
theorem lawful_whenDue {s : State} (h : s.Lawful) (due : Option Nat) {act : State → State}
    (hact : ∀ t, t.Lawful → (act t).Lawful) : (s.whenDue due act).Lawful := by
  cases due with
  | none => exact h
  | some d => exact hact _ (lawful_advanceTo h d)

/-- The room's judgement keeps the laws. -/
theorem lawful_judgeRoom {s : State} (h : s.Lawful) : s.judgeRoom.Lawful := by
  unfold State.judgeRoom
  split
  · exact (Works.postBoth ..).kept.toShared.lawful (lawful_modRoom h ⟨h.room.clock, h.room.bell, h.room.counts⟩)
  · exact h

/-! ## The desk commands -/

/-- A reply leaves the part under the laws. -/
def Reply.Safe (r : Reply) : Prop := r.state.Lawful

theorem statusCommand_safe {s : State} (h : s.Lawful) (xs : List Byte) : (statusCommand xs s).Safe := by
  unfold statusCommand; split <;> exact h

theorem setClockCommand_safe {s : State} (h : s.Lawful) (xs : List Byte) : (setClockCommand xs s).Safe := by
  unfold setClockCommand
  split
  · exact h
  · split
    · exact h
    · rename_i hx hn
      unfold Reply.Safe State.done; dsimp only
      refine lawful_modRoom h ⟨⟨?_, ?_, show 0 < Config.msPerSecond by decide⟩, h.room.bell, h.room.counts⟩
      · have leNat_lt : ∀ ys : List Byte, ys.length = 2 → leNat ys < 65536 := by
          rintro (_ | ⟨a, _ | ⟨b, _ | ⟨c, ys⟩⟩⟩) e
          · cases e
          · cases e
          · have := a.isLt
            have := b.isLt
            simp only [leNat]
            omega
          · cases e
        exact leNat_lt _ (by simp at hx ⊢; omega)
      · show numAt xs 2 4 < _
        omega

theorem setPortCommand_safe {s : State} (h : s.Lawful) (p : Port) (xs : List Byte) : (setPortCommand p xs s).Safe := by
  unfold setPortCommand
  split
  · exact h
  · unfold Reply.Safe State.done
    dsimp only
    generalize (if byteAt xs 4 = 0 then Silence.untimed else Silence.active) = silence
    split
    · refine lawful_modPort h ?_
      exact h.notices p
    · refine lawful_judgeRoom (lawful_modPort h ?_)
      exact h.notices p

theorem setStoreLimitsCommand_safe {s : State} (h : s.Lawful) (xs : List Byte) : (setStoreLimitsCommand xs s).Safe := by
  unfold setStoreLimitsCommand
  split
  · exact h
  · refine (Works.judgeExhausted _).kept.toShared.lawful ((Works.judgePool _).kept.toShared.lawful ?_)
    exact ⟨h.store.congr h.store.text rfl rfl rfl, h.room, h.dist, fun q => by simpa using h.notices q⟩

theorem setRoomOptionsCommand_safe {s : State} (h : s.Lawful) (xs : List Byte) : (setRoomOptionsCommand xs s).Safe := by
  unfold setRoomOptionsCommand
  split
  · exact h
  · split
    · exact h
    · rename_i o ho
      unfold Reply.Safe State.done; dsimp only
      refine lawful_modRoom h ⟨h.room.clock, h.room.bell, ?_⟩
      unfold readRoomOptions at ho
      simp only [Option.bind_eq_bind, Option.bind_eq_some_iff] at ho
      obtain ⟨b, -, t, -, e⟩ := ho
      cases e
      intro i
      fin_cases i <;> exact Nat.min_le_right _ _

theorem resumeCommand_safe {s : State} (h : s.Lawful) (xs : List Byte) : (resumeCommand xs s).Safe := by
  unfold resumeCommand
  split
  · exact h
  · split
    · exact (Works.postBoth ..).kept.toShared.lawful (lawful_modRoom h ⟨h.room.clock, h.room.bell, h.room.counts⟩)
    · exact h

theorem fetchNoticesCommand_safe {s : State} (h : s.Lawful) (p : Port) (xs : List Byte) :
    (fetchNoticesCommand p xs s).Safe := by
  unfold fetchNoticesCommand
  split
  · exact h
  · unfold Reply.Safe State.done; dsimp only
    refine lawful_modPort h ?_
    have := h.notices p
    simp only [DeskPort.noticesFit, List.length_drop] at this ⊢
    omega

theorem configureLineCommand_safe {s : State} (h : s.Lawful) (xs : List Byte) : (configureLineCommand xs s).Safe := by
  unfold configureLineCommand
  split
  · exact h
  · split
    · exact h
    · split
      · exact h
      · exact (Shared.takeRecord ..).lawful h

theorem readLineCommand_safe {s : State} (h : s.Lawful) (xs : List Byte) : (readLineCommand xs s).Safe := by
  unfold readLineCommand
  split
  · exact h
  · split <;> exact h

theorem lineControlCommand_safe {s : State} (h : s.Lawful) (xs : List Byte) : (lineControlCommand xs s).Safe := by
  unfold lineControlCommand
  split
  · exact h
  · split
    · exact h
    · dsimp only
      split
      · exact h
      · split
        · split
          · exact h
          · exact (Kept.resetLine ..).toShared.lawful h
        · split
          · exact h
          · split
            · exact (Works.holdLine ..).kept.toShared.lawful h
            · exact (Works.resumeLine ..).kept.toShared.lawful h

theorem loadTableCommand_safe {s : State} (h : s.Lawful) (xs : List Byte) : (loadTableCommand xs s).Safe := by
  unfold loadTableCommand
  repeat' split
  all_goals first
    | exact h
    | exact ⟨h.store, h.room, h.dist, fun q => by have := h.notices q; cases q <;> exact this⟩

theorem readTableCommand_safe {s : State} (h : s.Lawful) (xs : List Byte) : (readTableCommand xs s).Safe := by
  unfold readTableCommand
  split
  · exact h
  · split <;> exact h

theorem listStoriesCommand_safe {s : State} (h : s.Lawful) (xs : List Byte) : (listStoriesCommand xs s).Safe := by
  unfold listStoriesCommand
  dsimp only
  split
  · exact h
  · split <;> exact h

theorem readStoryCommand_safe {s : State} (h : s.Lawful) (xs : List Byte) : (readStoryCommand xs s).Safe := by
  unfold readStoryCommand
  split
  · exact h
  · split
    · exact h
    · dsimp only
      split <;> exact h

theorem openStoryCommand_safe {s : State} (h : s.Lawful) (p : Port) (xs : List Byte) : (openStoryCommand p xs s).Safe := by
  unfold openStoryCommand
  split
  · exact h
  · split
    · exact h
    · split
      · exact h
      · rename_i hi
        exact (Works.makeStory (lowestFree_free hi) rfl).kept.toShared.lawful h

/-- A story's handle at the head of a payload is current. -/
theorem namedStory_some {s : State} {xs : List Byte} {h : Handle} {st : Story} (e : s.namedStory xs = some (h, st)) :
    s.storyOf h = some st := by
  unfold State.namedStory at e
  split at e
  · cases e
  · split at e
    · cases e
    · cases e; assumption

theorem Works.appendChars (s : State) (h : Handle) (n : Nat) (cs : List Byte) : Works s (s.appendChars h n cs) := by
  unfold State.appendChars
  dsimp only
  split
  · exact .allocateCells ..
  · exact .after (.modStory _ _ fun _ => rfl)
      (.after (.modStore rfl rfl fun x => x.congr (Memory.wf_putChars _ _ _ x.text) rfl rfl rfl) (.allocateCells ..))

theorem appendTextCommand_safe {s : State} (h : s.Lawful) (p : Port) (xs : List Byte) :
    (appendTextCommand p xs s).Safe := by
  unfold appendTextCommand
  split
  · exact h
  · split
    · exact h
    · dsimp only
      repeat' split
      all_goals first
        | exact h
        | exact (Works.appendChars ..).kept.toShared.lawful h
        | exact (Works.afterAllocation _).kept.toShared.lawful ((Works.appendChars ..).kept.toShared.lawful h)

theorem submitStoryCommand_safe {s : State} (h : s.Lawful) (p : Port) (xs : List Byte) :
    (submitStoryCommand p xs s).Safe := by
  unfold submitStoryCommand
  split
  · exact h
  · split
    · exact h
    · split
      · exact h
      · split
        · exact h
        · refine Shared.lawful (Works.kept ?_).toShared h
          refine .after (.freeingTest ..) (.after (.tryLines ..) (.modStory _ _ fun st => ?_))
          unfold Story.completed; split <;> rfl

theorem withdrawStoryCommand_safe {s : State} (h : s.Lawful) (xs : List Byte) : (withdrawStoryCommand xs s).Safe := by
  unfold withdrawStoryCommand
  split
  · exact h
  · split
    · exact h
    · exact (Works.after (.freeingTest ..) (.withdrawLines ..)).kept.toShared.lawful h

theorem retainStoryCommand_safe {s : State} (h : s.Lawful) (p : Port) (xs : List Byte) :
    (retainStoryCommand p xs s).Safe := by
  unfold retainStoryCommand
  split
  · exact h
  · split
    · exact h
    · unfold Reply.Safe State.done; dsimp only
      refine (Works.modStory _ _ ?_).kept.toShared.lawful h
      exact fun _ => rfl

theorem releaseStoryCommand_safe {s : State} (h : s.Lawful) (p : Port) (xs : List Byte) :
    (releaseStoryCommand p xs s).Safe := by
  unfold releaseStoryCommand
  split
  · exact h
  · split
    · exact h
    · split
      · exact h
      · split
        · exact h
        · unfold Reply.Safe State.done; dsimp only
          refine (Works.after (.freeingTest ..) (.modStory _ _ ?_)).kept.toShared.lawful h
          exact fun _ => rfl

theorem discardStoryCommand_safe {s : State} (h : s.Lawful) (p : Port) (xs : List Byte) :
    (discardStoryCommand p xs s).Safe := by
  unfold discardStoryCommand
  split
  · exact h
  · split
    · exact h
    · split
      · exact h
      · split
        · exact h
        · unfold Reply.Safe State.done; dsimp only
          refine (Works.freeStory _ _ fun t => ?_).kept.toShared.lawful h
          split
          · exact .post ..
          · exact .refl _

/-- Whatever command a frame names, its reply leaves the part under the laws. -/
theorem runCommand_safe {s : State} (h : s.Lawful) (p : Port) (g : GoodFrame) : (runCommand p g s).Safe := by
  unfold runCommand
  dsimp only
  split
  · exact statusCommand_safe h _
  · exact setClockCommand_safe h _
  · exact setPortCommand_safe h _ _
  · exact setStoreLimitsCommand_safe h _
  · exact setRoomOptionsCommand_safe h _
  · exact resumeCommand_safe h _
  · exact fetchNoticesCommand_safe h _ _
  · exact configureLineCommand_safe h _
  · exact readLineCommand_safe h _
  · exact lineControlCommand_safe h _
  · exact loadTableCommand_safe h _
  · exact readTableCommand_safe h _
  · exact listStoriesCommand_safe h _
  · exact readStoryCommand_safe h _
  · exact openStoryCommand_safe h _ _
  · exact appendTextCommand_safe h _ _
  · exact submitStoryCommand_safe h _ _
  · exact withdrawStoryCommand_safe h _
  · exact retainStoryCommand_safe h _ _
  · exact releaseStoryCommand_safe h _ _
  · exact discardStoryCommand_safe h _ _
  · exact h

/-! ## Frames -/

/-- A frame taken leaves the laws when its command's reply does. -/
theorem lawful_takeFrame {s : State} (p : Port) (g : GoodFrame) {run : State → Reply} (hr : (run s).Safe) :
    (s.takeFrame p g run).Lawful := by
  unfold State.takeFrame
  dsimp only
  exact lawful_modPort hr (hr.notices p)

/-- A good frame, taken, held or discarded. -/
theorem lawful_offerFrame {s : State} (h : s.Lawful) (p : Port) (g : GoodFrame) {run : State → Reply}
    (hr : (run s).Safe) : (s.offerFrame p g run).Lawful := by
  unfold State.offerFrame
  split
  · exact h
  · split
    · exact lawful_modPort h (h.notices p)
    · exact lawful_takeFrame p g hr

theorem lawful_endResponse {s : State} (h : s.Lawful) (p : Port) : (s.endResponse p).Lawful := by
  unfold State.endResponse
  dsimp only
  have hm : (s.modPort p fun q => { q with response := none, held := none }).Lawful := lawful_modPort h (h.notices p)
  split
  · exact hm
  · exact lawful_takeFrame p _ (runCommand_safe hm p _)

theorem lawful_hearFrame {s : State} (h : s.Lawful) (p : Port) : (s.hearFrame p).Lawful := by
  unfold State.hearFrame
  split
  · exact h
  · exact lawful_modPort h (h.notices p)
  · exact lawful_judgeRoom (lawful_modPort h (h.notices p))

theorem lawful_completeFrame {s : State} (h : s.Lawful) (p : Port) (check : Byte) (stop : Level) (sample : Nat) :
    (s.completeFrame p check stop sample).Lawful := by
  unfold State.completeFrame
  dsimp only
  have hm : (s.modPort p fun q => q.abandonFrame sample).Lawful := lawful_modPort h (h.notices p)
  split
  · exact hm
  · split
    · exact lawful_offerFrame (lawful_hearFrame hm p) p _ (runCommand_safe (lawful_hearFrame hm p) p _)
    · exact hm

theorem lawful_silenceOver {s : State} (h : s.Lawful) (p : Port) : (s.silenceOver p).Lawful :=
  lawful_judgeRoom ((Works.post ..).kept.toShared.lawful (lawful_modPort h (h.notices p)))

end Sys2Proof.Machine
end

