-- ==== Sys2Proof/Laws/Operands.lean ====
section
/-! SUPPORT. What reading the fields of a payload can give: an enumerated field is looked up in the list of its values, a
sequence is its first count places (R19, R182). -/

namespace Sys2Proof.Machine

theorem Mode.ofNumber_eq (n : Nat) : Mode.ofNumber n = [Mode.off, .inbound, .outbound, .both][n]? := by
  rcases n with _ | _ | _ | _ | n <;> simp [Mode.ofNumber]

theorem Keying.ofNumber_eq (n : Nat) : Keying.ofNumber n = [Keying.neutral, .polar][n]? := by
  rcases n with _ | _ | n <;> simp [Keying.ofNumber]

theorem FilterTime.ofNumber_eq (n : Nat) : FilterTime.ofNumber n = [FilterTime.none, .quarter, .half, .one][n]? := by
  rcases n with _ | _ | _ | _ | n <;> simp [FilterTime.ofNumber]

theorem Framing.ofNumber_eq (n : Nat) : Framing.ofNumber n = [Framing.framed, .continuous][n]? := by
  rcases n with _ | _ | n <;> simp [Framing.ofNumber]

theorem Priority.ofNumber_eq (n : Nat) :
    Priority.ofNumber n = [Priority.flash, .bulletin, .urgent, .routine, .deferred][n]? := by
  rcases n with _ | _ | _ | _ | _ | n <;> simp [Priority.ofNumber]

theorem UnrepPolicy.ofNumber_eq (n : Nat) : UnrepPolicy.ofNumber n = [UnrepPolicy.substitute, .drop][n]? := by
  rcases n with _ | _ | n <;> simp [UnrepPolicy.ofNumber]

theorem PreemptThreshold.ofNumber_eq (n : Nat) :
    PreemptThreshold.ofNumber n = [PreemptThreshold.off, .flash, .bulletin][n]? := by
  rcases n with _ | _ | _ | n <;> simp [PreemptThreshold.ofNumber]

theorem BreakPolicy.ofNumber_eq (n : Nat) : BreakPolicy.ofNumber n = [BreakPolicy.auto, .hold][n]? := by
  rcases n with _ | _ | n <;> simp [BreakPolicy.ofNumber]

theorem boolOf_eq (n : Nat) : boolOf n = [false, true][n]? := by
  rcases n with _ | _ | n <;> simp [boolOf]

/-- A sequence is undefined exactly when its count is 0 or above 6 (R19). -/
theorem sequenceAt_none (xs : List Byte) (i : Nat) : sequenceAt xs i = none ↔ byteAt xs i = 0 ∨ 6 < byteAt xs i := by
  unfold sequenceAt
  dsimp only
  split <;> simp_all

/-- A sequence that is defined is its first count places (R19). -/
theorem sequenceAt_some {xs seq : List Byte} {i : Nat} (h : sequenceAt xs i = some seq) :
    seq = (xs.drop (i + 1)).take (byteAt xs i) := by
  unfold sequenceAt at h
  dsimp only at h
  split at h <;> cases h
  rfl

/-- A number of two bytes, least significant byte first (R180). -/
theorem numAt_two {xs : List Byte} {i : Nat} (h : i + 1 < xs.length) :
    numAt xs i 2 = (xs.getD i 0).toNat + 256 * (xs.getD (i + 1) 0).toNat := by
  unfold numAt
  rw [List.drop_eq_getElem_cons (by omega), List.drop_eq_getElem_cons h]
  simp only [List.take_succ_cons, List.take_zero, leNat]
  simp [List.getD_eq_getElem?_getD, List.getElem?_eq_getElem (show i < xs.length by omega), List.getElem?_eq_getElem h]

end Sys2Proof.Machine
end

