-- ==== Sys2Proof/Laws/SendLaw.lean ====
section
/-! SUPPORT. What the operations of the part keep of the send side's law (R153, R156, R159): one lemma each. The law is kept
in two strengths, line by line: while a record with another motor control is being taken, a line's motor clauses wait. -/

namespace Sys2Proof.Machine

/-- The clauses of a line's send law that say how motor and motor control go together (R156, R158). -/
structure Line.MotorOk (x : Line) : Prop where
  running : x.record.motorControl = true → x.send.state = .idle ∨ x.send.state = .sending → x.send.motor = true
  unmotored : x.record.motorControl = false →
    x.send.state ≠ .stopped ∧ x.send.state ≠ .starting ∧ x.send.motor = false ∧ x.send.startDelay = none ∧
      x.send.stopDelay = none

/-- A line's send law, with the motor clauses or without. -/
structure Line.SendOk (strict : Bool) (x : Line) : Prop where
  halted : x.send.state = .halted ↔ x.send.caused
  off : x.send.state = .off ↔ x.record.mode.hasSend = false
  removed : x.send.state = .off → x.send = offSendSide
  stopped : x.send.state = .stopped → x.send.motor = false
  starting : x.send.state = .starting → x.send.motor = true
  motor : strict = true → x.MotorOk

theorem Line.sendLawful_iff (x : Line) : x.SendLawful ↔ x.SendOk true :=
  ⟨fun h => ⟨h.halted, h.off, h.removed, h.stopped, h.starting, fun _ => ⟨h.running, h.unmotored⟩⟩,
    fun h => ⟨h.halted, h.off, h.removed, h.stopped, h.starting, (h.motor rfl).running, (h.motor rfl).unmotored⟩⟩

theorem Line.SendOk.weak {b : Bool} {x : Line} (h : x.SendOk b) : x.SendOk false :=
  ⟨h.halted, h.off, h.removed, h.stopped, h.starting, fun e => by cases e⟩

/-- The law looks at the send side, the mode and motor control alone. -/
theorem Line.SendOk.congr {b : Bool} {x y : Line} (h : x.SendOk b) (e : y.send = x.send)
    (m : y.record.mode.hasSend = x.record.mode.hasSend) (c : y.record.motorControl = x.record.motorControl) : y.SendOk b := by
  refine ⟨by rw [e]; exact h.halted, by rw [e, m]; exact h.off, by rw [e]; exact h.removed, by rw [e]; exact h.stopped,
    by rw [e]; exact h.starting, fun k => ⟨?_, ?_⟩⟩
  · rw [e, c]; exact (h.motor k).running
  · rw [e, c]; exact (h.motor k).unmotored

/-- A line with a send side and no halt cause that may go to any state with a send side: what a transition needs. -/
structure Line.SendFree (strict : Bool) (x : Line) : Prop where
  cause : ¬x.send.caused
  side : x.record.mode.hasSend = true
  unmotored : strict = true → x.record.motorControl = false →
    x.send.motor = false ∧ x.send.startDelay = none ∧ x.send.stopDelay = none

/-- Every line keeps the law, each in its own strength. -/
structure State.SendAll (strict : LineNo → Bool) (s : State) : Prop where
  line : ∀ l, (s.line l).SendOk (strict l)

/-- Every other line keeps the law, and the line is free to go to another state. -/
structure State.SendNear (strict : LineNo → Bool) (l : LineNo) (s : State) : Prop where
  others : ∀ m, m ≠ l → (s.line m).SendOk (strict m)
  free : (s.line l).SendFree (strict l)

variable {strict : LineNo → Bool}

/-- Operations that leave every line alone keep the law. -/
theorem State.SendAll.lines {s t : State} (h : s.SendAll strict) (e : t.lines = s.lines) : t.SendAll strict := by
  exact ⟨fun l => by have := h.line l; simpa [State.line, e] using this⟩

/-- Operations that leave every line's send side and record alone keep the law. -/
theorem State.SendAll.sends {s t : State} (h : s.SendAll strict) (e : ∀ l, (t.line l).send = (s.line l).send)
    (r : ∀ l, (t.line l).record = (s.line l).record) : t.SendAll strict :=
  ⟨fun l => (h.line l).congr (e l) (by rw [r l]) (by rw [r l])⟩

theorem State.SendAll.modLine {s : State} (h : s.SendAll strict) {l : LineNo} {f : Line → Line}
    (hf : (s.line l).SendOk (strict l) → (f (s.line l)).SendOk (strict l)) : (s.modLine l f).SendAll strict := by
  refine ⟨fun m => ?_⟩
  by_cases e : m = l
  · subst e; simpa using hf (h.line m)
  · simpa [e] using h.line m

/-- A change of one line other than its send side and record. -/
theorem State.SendAll.modLine_same {s : State} (h : s.SendAll strict) {l : LineNo} {f : Line → Line}
    (e : (f (s.line l)).send = (s.line l).send) (r : (f (s.line l)).record = (s.line l).record) :
    (s.modLine l f).SendAll strict := h.modLine fun k => k.congr e (by rw [r]) (by rw [r])

/-- From near the law, a change of the line that restores it. -/
theorem State.SendNear.modLine {s : State} {l : LineNo} (h : s.SendNear strict l) {f : Line → Line}
    (hf : (s.line l).SendFree (strict l) → (f (s.line l)).SendOk (strict l)) : (s.modLine l f).SendAll strict := by
  refine ⟨fun m => ?_⟩
  by_cases e : m = l
  · subst e; simpa using hf h.free
  · simpa [e] using h.others m e

/-- A line neither OFF nor HALTED is free. -/
theorem State.SendAll.near {s : State} (h : s.SendAll strict) {l : LineNo} (h1 : (s.line l).send.state ≠ .off)
    (h2 : (s.line l).send.state ≠ .halted) : s.SendNear strict l := by
  refine ⟨fun m _ => h.line m, fun c => h2 ((h.line l).halted.mpr c), ?_, fun b c => ?_⟩
  · have := mt (h.line l).off.mpr h1
    simpa using this
  · have := ((h.line l).motor b).unmotored c
    exact this.2.2

/-! ## Notices, store and room -/

@[simp] theorem post_lines (s : State) (p : Port) (n : Notice) : (s.post p n).lines = s.lines := by cases p <;> rfl

@[simp] theorem postBoth_lines (s : State) (n : Notice) : (s.postBoth n).lines = s.lines := by simp [State.postBoth]

@[simp] theorem postSet_lines (s : State) (ps : PortSet) (n : Notice) : (s.postSet ps n).lines = s.lines := by
  unfold State.postSet; dsimp only; split <;> split <;> simp

@[simp] theorem postSubmitter_lines (s : State) (w : Submitter) (n : Notice) : (s.postSubmitter w n).lines = s.lines := by
  cases w <;> simp [State.postSubmitter]

@[simp] theorem postLine_lines (s : State) (l : LineNo) (side : Side) (r : LineReport) :
    (s.postLine l side r).lines = s.lines := by simp [State.postLine]

@[simp] theorem modStore_lines' (s : State) (f : Store → Store) : (s.modStore f).lines = s.lines := rfl

@[simp] theorem setRecord_lines' (s : State) (i : Fin 256) (r : StoryRecord) : (s.setRecord i r).lines = s.lines := rfl

@[simp] theorem modRoom_lines' (s : State) (f : Room → Room) : (s.modRoom f).lines = s.lines := rfl

@[simp] theorem modStory_lines' (s : State) (h : Handle) (f : Story → Story) : (s.modStory h f).lines = s.lines := by
  unfold State.modStory; split <;> rfl

@[simp] theorem judgePool_lines (s : State) : s.judgePool.lines = s.lines := by
  unfold State.judgePool; split <;> (try split) <;> simp

@[simp] theorem judgeExhausted_lines (s : State) : s.judgeExhausted.lines = s.lines := by
  unfold State.judgeExhausted; split <;> simp

theorem freeStory_lines (s : State) (i : Fin 256) {tell : State → State} (h : ∀ t, (tell t).lines = t.lines) :
    (s.freeStory i tell).lines = s.lines := by
  unfold State.freeStory; split <;> simp [h]

@[simp] theorem freeingTest_lines (s : State) (i : Fin 256) : (s.freeingTest i).lines = s.lines := by
  unfold State.freeingTest
  split
  · rfl
  · split
    · exact freeStory_lines _ _ fun _ => rfl
    · rfl

@[simp] theorem reclaim_lines (s : State) (done : Store → Bool) (n : Nat) : (s.reclaim done n).lines = s.lines := by
  induction n generalizing s with
  | zero => rfl
  | succ n ih =>
    unfold State.reclaim
    split
    · rfl
    · split
      · rfl
      · rw [ih]; exact freeStory_lines _ _ fun _ => postSet_lines ..

@[simp] theorem afterAllocation_lines (s : State) : s.afterAllocation.lines = s.lines := by simp [State.afterAllocation]

@[simp] theorem requestCell_lines (s : State) (i : Fin 256) : (s.requestCell i).2.lines = s.lines := by
  unfold State.requestCell; dsimp only; split <;> (try split) <;> simp

@[simp] theorem requestRecord_lines (s : State) : s.requestRecord.2.lines = s.lines := by
  unfold State.requestRecord; split
  · rfl
  · dsimp only; split <;> simp

@[simp] theorem makeStory_lines (s : State) (i : Fin 256) (st : Story) : (s.makeStory i st).lines = s.lines := by
  simp [State.makeStory]

@[simp] theorem joinPending_lines (s : State) (h : Handle) (l : LineNo) : (s.joinPending h l).lines = s.lines := by
  simp [State.joinPending]

@[simp] theorem leavePending_lines (s : State) (h : Handle) (l : LineNo) : (s.leavePending h l).lines = s.lines := by
  simp [State.leavePending]

@[simp] theorem ringFor_lines (s : State) (p : Priority) : (s.ringFor p).lines = s.lines := by
  unfold State.ringFor; dsimp only; split <;> simp

@[simp] theorem departs_lines (s : State) (l : LineNo) (d : DistEntry) (o : DistOutcome) :
    (s.departs l d o).lines = s.lines := by simp [State.departs]

@[simp] theorem raiseExhausted_lines (s : State) : s.raiseExhausted.lines = s.lines := rfl

/-- A line is read from the lines alone. -/
theorem line_of_lines {s t : State} (e : t.lines = s.lines) (l : LineNo) : t.line l = s.line l := by simp [State.line, e]

/-! ## The send side -/

namespace State.SendAll

/-- A change of the send side of a line that is neither OFF nor made another in state, causes, motor or motor timers. -/
theorem modSend_same {s : State} (h : s.SendAll strict) {l : LineNo} {f : SendSide → SendSide}
    (ho : (s.line l).send.state ≠ .off) (e1 : (f (s.line l).send).state = (s.line l).send.state)
    (e2 : (f (s.line l).send).deskHold = (s.line l).send.deskHold)
    (e3 : (f (s.line l).send).breakIn = (s.line l).send.breakIn) (e4 : (f (s.line l).send).motor = (s.line l).send.motor)
    (e5 : (s.line l).send.startDelay = none → (f (s.line l).send).startDelay = none)
    (e6 : (s.line l).record.motorControl = false → (s.line l).send.stopDelay = none → (f (s.line l).send).stopDelay = none) :
    (s.modSend l f).SendAll strict := by
  refine h.modLine fun k => ⟨?_, ?_, ?_, ?_, ?_, fun b => ⟨?_, ?_⟩⟩
  · simp only [SendSide.caused, e1, e2, e3]; exact k.halted
  · simp only [e1]; exact k.off
  · simp only [e1]; intro x; exact absurd x ho
  · simp only [e1, e4]; exact k.stopped
  · simp only [e1, e4]; exact k.starting
  · simp only [e1, e4]; exact (k.motor b).running
  · intro c
    obtain ⟨a1, a2, a3, a4, a5⟩ := (k.motor b).unmotored c
    simp only [e1, e4]
    exact ⟨a1, a2, a3, e5 a4, e6 c a5⟩

/-- The side is halted with a cause: the state HALTED, the stop delay stopped, the motor and the start delay as they were. -/
theorem modSend_halt {s : State} (h : s.SendAll strict) {l : LineNo} {f : SendSide → SendSide}
    (ho : (s.line l).send.state ≠ .off) (e1 : (f (s.line l).send).state = .halted) (e2 : (f (s.line l).send).caused)
    (e3 : (f (s.line l).send).motor = (s.line l).send.motor)
    (e4 : (f (s.line l).send).startDelay = (s.line l).send.startDelay)
    (e5 : (s.line l).send.stopDelay = none → (f (s.line l).send).stopDelay = none) : (s.modSend l f).SendAll strict := by
  have hm : (s.line l).record.mode.hasSend = true := by
    have := mt (h.line l).off.mpr ho
    simpa using this
  refine h.modLine fun k => ⟨?_, ?_, ?_, ?_, ?_, fun b => ⟨?_, ?_⟩⟩
  · simp only [e1]; exact ⟨fun _ => e2, fun _ => trivial⟩
  · simp only [e1, hm]; decide
  · simp only [e1]; intro x; cases x
  · simp only [e1]; intro x; cases x
  · simp only [e1]; intro x; cases x
  · simp only [e1]; rintro - (x | x) <;> cases x
  · intro c
    obtain ⟨a1, a2, a3, a4, a5⟩ := (k.motor b).unmotored c
    simp only [e1, e3, e4]
    exact ⟨by decide, by decide, a3, a4, e5 a5⟩

end State.SendAll

/-- From near the law the side enters IDLE or SENDING, with its motor as R156 has it, or STARTING or STOPPED under motor
control. -/
theorem State.SendNear.enter {s : State} {l : LineNo} (h : s.SendNear strict l) {f : SendSide → SendSide}
    (e1 : (f (s.line l).send).state ≠ .off) (e0 : (f (s.line l).send).state ≠ .halted)
    (e2 : (f (s.line l).send).deskHold = (s.line l).send.deskHold)
    (e3 : (f (s.line l).send).breakIn = (s.line l).send.breakIn)
    (e4 : (f (s.line l).send).state = .stopped → (f (s.line l).send).motor = false)
    (e7 : (f (s.line l).send).state = .starting → (f (s.line l).send).motor = true)
    (e5 : strict l = true → (s.line l).record.motorControl = true → (f (s.line l).send).state ≠ .stopped →
      (f (s.line l).send).motor = true)
    (e6 : strict l = true → (s.line l).record.motorControl = false → (s.line l).send.motor = false →
      (s.line l).send.startDelay = none → (s.line l).send.stopDelay = none →
      (f (s.line l).send).state ≠ .stopped ∧ (f (s.line l).send).state ≠ .starting ∧ (f (s.line l).send).motor = false ∧
        (f (s.line l).send).startDelay = none ∧ (f (s.line l).send).stopDelay = none) :
    (s.modSend l f).SendAll strict := by
  refine h.modLine fun k => ⟨?_, ?_, ?_, e4, e7, fun b => ⟨?_, ?_⟩⟩
  · refine ⟨fun x => absurd x e0, fun x => absurd ?_ k.cause⟩
    simpa only [SendSide.caused, e2, e3] using x
  · simp only [k.side]; exact ⟨fun x => absurd x e1, fun x => by cases x⟩
  · exact fun x => absurd x e1
  · intro c x
    refine e5 b c ?_
    rcases x with x | x <;> rw [x] <;> decide
  · intro c
    obtain ⟨a1, a2, a3⟩ := k.unmotored b c
    exact e6 b c a1 a2 a3

/-! ## Operations of the send side (chapters 7 and 9) -/

/-- Without motor control nothing is loaded; with it the stop delay. -/
theorem State.SendAll.loadStopDelay {s : State} {l : LineNo} (h : s.SendAll strict)
    (ho : (s.line l).send.state ≠ .off) : (s.loadStopDelay l).SendAll strict := by
  unfold State.loadStopDelay
  split
  · rename_i c
    exact h.modSend_same ho rfl rfl rfl rfl id fun k => by rw [c] at k; cases k
  · exact h

theorem State.SendNear.enterIdle {s : State} {l : LineNo} (h : s.SendNear strict l)
    (hm : strict l = true → (s.line l).record.motorControl = true → (s.line l).send.motor = true) :
    (s.enterIdle l).SendAll strict := by
  unfold State.enterIdle
  refine State.SendAll.loadStopDelay (h.enter (by simp) (by simp) rfl rfl (by simp) (by simp) (fun b c _ => hm b c) ?_) ?_
  · exact fun _ _ a _ c => ⟨by simp, by simp, a, rfl, c⟩
  · simp [State.modSend]

/-- The motor of a running side, by the law. -/
theorem State.SendAll.motorOn {s : State} (h : s.SendAll strict) {l : LineNo}
    (hs : (s.line l).send.state = .idle ∨ (s.line l).send.state = .sending) :
    strict l = true → (s.line l).record.motorControl = true → (s.line l).send.motor = true :=
  fun b c => ((h.line l).motor b).running c hs

theorem State.SendAll.workRunsOut {s : State} (h : s.SendAll strict) (l : LineNo) :
    (s.workRunsOut l).SendAll strict := by
  unfold State.workRunsOut
  split
  · rename_i e
    exact (h.near (by rw [e]; decide) (by rw [e]; decide)).enterIdle (h.motorOn (.inr e))
  all_goals exact h

/-- The next-story choice leaves send sides and records alone. -/
theorem chooseNext_send (s : State) (l m : LineNo) :
    ((s.chooseNext l).line m).send = (s.line m).send ∧ ((s.chooseNext l).line m).record = (s.line m).record := by
  unfold State.chooseNext
  split
  · exact ⟨rfl, rfl⟩
  · split
    · exact ⟨rfl, rfl⟩
    · by_cases e : m = l
      · subst e; simp
      · simp [e]

theorem State.SendAll.chooseNext {s : State} (h : s.SendAll strict) (l : LineNo) : (s.chooseNext l).SendAll strict :=
  h.sends (fun m => (chooseNext_send s l m).1) fun m => (chooseNext_send s l m).2

theorem State.SendAll.takeHold {s : State} {l : LineNo} (h : s.SendAll strict) (ho : (s.line l).send.state ≠ .off) :
    (s.takeHold l).SendAll strict := by
  unfold State.takeHold
  split
  · rename_i e
    exact h.modSend_halt ho rfl (.inl (by simp [SendSide.halt, e])) rfl rfl fun _ => rfl
  · exact h

theorem broken_send (x : Line) : x.broken.send = x.send ∧ x.broken.record = x.record := by
  unfold Line.broken; split <;> exact ⟨rfl, rfl⟩

theorem State.SendAll.takeBreakIn {s : State} {l : LineNo} (h : s.SendAll strict) (ho : (s.line l).send.state ≠ .off) :
    (s.takeBreakIn l).SendAll strict := by
  unfold State.takeBreakIn
  split
  · exact h.modSend_same ho rfl rfl rfl rfl id fun _ => id
  · have hb := broken_send (s.line l)
    refine State.SendAll.lines (State.SendAll.modSend_halt (h.modLine_same (l := l) (f := Line.broken) hb.1 hb.2) ?_ ?_ ?_ ?_ ?_ ?_)
      (postLine_lines ..)
    · simpa [hb.1] using ho
    · simp only [line_modLine_same, hb.1]; split <;> first | assumption | rfl
    · simp only [line_modLine_same, hb.1]; split <;> exact .inr rfl
    · simp only [line_modLine_same, hb.1]; split <;> rfl
    · simp only [line_modLine_same, hb.1]; split <;> rfl
    · simp only [line_modLine_same, hb.1]; split
      · exact id
      · exact fun _ => rfl

/-- Beginning a frame leaves the send state. -/
theorem beginFrame_state (s : State) (l : LineNo) (k : Code) (c : SendCopy) :
    ((s.beginFrame l k c).line l).send.state = (s.line l).send.state := by
  unfold State.beginFrame State.loadStopDelay
  split <;> simp [State.modSend]

theorem State.SendAll.beginFrame {s : State} {l : LineNo} (h : s.SendAll strict) (ho : (s.line l).send.state ≠ .off)
    (k : Code) (c : SendCopy) : (s.beginFrame l k c).SendAll strict := by
  unfold State.beginFrame
  exact State.SendAll.loadStopDelay (h.modSend_same ho rfl rfl rfl rfl id fun _ => id) (by simpa [State.modSend] using ho)

/-- A suspension, and then a waiting hold. -/
theorem State.SendAll.suspendHold {s : State} {l : LineNo} (h : s.SendAll strict) (ho : (s.line l).send.state ≠ .off)
    (u : Transmission) : ((s.modLine l fun x => x.suspend u).takeHold l).SendAll strict :=
  State.SendAll.takeHold (h.modLine_same rfl rfl) (by simpa [Line.suspend] using ho)

theorem State.SendAll.printLineEnd {s : State} {l : LineNo} (h : s.SendAll strict) (ho : (s.line l).send.state ≠ .off) :
    (s.printLineEnd l).SendAll strict := by
  unfold State.printLineEnd
  split
  · exact h
  · dsimp only
    split
    · exact State.SendAll.takeHold (h.modLine_same rfl rfl) (by simpa using ho)
    · split
      · have hk := h.suspendHold ho { ‹Transmission› with
          entry := { (‹Transmission›).entry with lineStart := (‹Transmission›).entry.resumeOffset } }
        split
        · exact hk
        · exact hk.chooseNext l
      · exact State.SendAll.takeHold (h.modLine_same rfl rfl) (by simpa [State.modDist] using ho)

theorem State.SendAll.endTransmission {s : State} {l : LineNo} (h : s.SendAll strict)
    (ho : (s.line l).send.state ≠ .off) : (s.endTransmission l).SendAll strict := by
  unfold State.endTransmission
  split
  · exact h
  · rename_i u _
    dsimp only
    generalize (if u.withdrawn = true then DistOutcome.withdrawn else DistOutcome.completed) = o
    have hd := fun d o => (h.modLine_same (l := l) (f := Line.dropCurrent) rfl rfl).lines (departs_lines _ l d o)
    split
    · refine State.SendAll.takeHold (hd ..) ?_
      rw [line_of_lines (departs_lines ..)]
      simpa [Line.dropCurrent] using ho
    · split
      · exact (hd ..).chooseNext l
      · exact (hd ..).workRunsOut l

theorem State.SendAll.modEnc {s : State} (h : s.SendAll strict) (l : LineNo) (f : Encoder → Encoder) :
    (s.modEnc l f).SendAll strict := h.modLine_same rfl rfl

theorem State.SendAll.handCode {s : State} {l : LineNo} (h : s.SendAll strict) (ho : (s.line l).send.state ≠ .off)
    (c : SendCopy) : (s.handCode l c).SendAll strict := by
  unfold State.handCode
  split
  · exact h
  · rename_i k rest _
    dsimp only
    have hb := State.SendAll.beginFrame (l := l) (h.modEnc l fun e => { e with group := rest })
      (by simpa [State.modEnc] using ho) k c
    have hs : ((((s.modEnc l fun e => { e with group := rest }).beginFrame l k c)).line l).send.state ≠ .off := by
      rw [beginFrame_state]; simpa [State.modEnc] using ho
    split
    · split
      · exact hb.modEnc l _
      · exact State.SendAll.printLineEnd (hb.modEnc l _) (by simpa [State.modEnc] using hs)
      · exact State.SendAll.endTransmission (hb.modEnc l _) (by simpa [State.modEnc] using hs)
    · exact hb

theorem State.SendAll.request {s : State} {l : LineNo} (h : s.SendAll strict) (ho : (s.line l).send.state ≠ .off)
    (rounds : Nat) : (s.request l rounds).SendAll strict := by
  induction rounds generalizing s with
  | zero => exact h
  | succ n ih =>
    unfold State.request
    split
    · split
      · split
        · exact State.SendAll.handCode (h.modLine_same rfl rfl) (by simpa using ho) _
        · dsimp only
          split
          · rename_i e
            exact ih (State.SendAll.endTransmission (h.modLine_same rfl rfl) (by simpa using ho)) (by rw [e]; decide)
          · exact State.SendAll.endTransmission (h.modLine_same rfl rfl) (by simpa using ho)
      · exact h.handCode ho _
    · exact h

theorem State.SendNear.enterSending {s : State} {l : LineNo} (h : s.SendNear strict l)
    (hm : strict l = true → (s.line l).record.motorControl = true → (s.line l).send.motor = true) :
    (s.enterSending l).SendAll strict := by
  unfold State.enterSending
  dsimp only
  have hc := State.SendAll.chooseNext (h.enter (f := fun x => { x with state := .sending }) (by simp) (by simp) rfl rfl
    (by simp) (by simp) (fun b c _ => hm b c) fun _ _ a b c => ⟨by simp, by simp, a, b, c⟩) l
  split
  · exact hc
  · refine hc.request ?_ _
    rw [(chooseNext_send _ l l).1]
    simp [State.modSend]

theorem State.SendAll.startDelayOver {s : State} (h : s.SendAll strict) (l : LineNo) :
    (s.startDelayOver l).SendAll strict := by
  have hs : (s.modSend l fun x => { x with startDelay := none }).SendAll strict := by
    refine h.modLine fun k => ⟨k.halted, k.off, fun e => ?_, k.stopped, k.starting, fun b => ⟨(k.motor b).running, fun c => ?_⟩⟩
    · have := k.removed e
      simp only [this]; rfl
    · obtain ⟨a1, a2, a3, -, a5⟩ := (k.motor b).unmotored c
      exact ⟨a1, a2, a3, rfl, a5⟩
  unfold State.startDelayOver
  dsimp only
  split
  · rename_i e
    have hn := hs.near (l := l) (by rw [e]; decide) (by rw [e]; decide)
    split
    · exact hn.enterSending (fun _ _ => (hs.line l).starting e)
    · exact hn.enterIdle (fun _ _ => (hs.line l).starting e)
  all_goals exact hs

theorem State.SendNear.enterStarting {s : State} {l : LineNo} (h : s.SendNear strict l)
    (hm : strict l = true → (s.line l).record.motorControl = true) : (s.enterStarting l).SendAll strict := by
  unfold State.enterStarting
  dsimp only
  have hs := h.enter (f := fun x =>
      { x with state := .starting, motor := true, startDelay := some (s.timerMs (s.line l).record.startDelay) })
    (by simp) (by simp) rfl rfl (by simp) (fun _ => rfl) (fun _ _ _ => rfl) fun b c => by rw [hm b] at c; cases c
  have hb := hs.takeBreakIn (l := l) (by simp [State.modSend])
  split <;> split
  · exact hb.startDelayOver l
  · exact hs.startDelayOver l
  · exact hb
  · exact hs

theorem State.SendAll.workArrives {s : State} (h : s.SendAll strict) (l : LineNo) :
    (s.workArrives l).SendAll strict := by
  unfold State.workArrives
  split
  · rename_i e
    refine (h.near (by rw [e]; decide) (by rw [e]; decide)).enterStarting fun b => ?_
    cases c : (s.line l).record.motorControl with
    | true => rfl
    | false => exact absurd e (((h.line l).motor b).unmotored c).1
  · rename_i e
    have hs : (s.modSend l fun x => { x with stopDelay := none }).SendAll strict :=
      h.modSend_same (by rw [e]; decide) rfl rfl rfl rfl id fun _ _ => rfl
    have e' : ((s.modSend l fun x => { x with stopDelay := none }).line l).send.state = .idle := by
      simpa [State.modSend] using e
    exact (hs.near (by rw [e']; decide) (by rw [e']; decide)).enterSending (hs.motorOn (.inl e'))
  all_goals exact h

theorem State.SendNear.leaveHalted {s : State} {l : LineNo} (h : s.SendNear strict l) :
    (s.leaveHalted l).SendAll strict := by
  unfold State.leaveHalted
  dsimp only
  split
  · rename_i c
    split
    · rename_i m
      split
      · split
        · have hs := h.enter (f := fun y => { y with state := .starting }) (by simp) (by simp) rfl rfl (by simp)
            (fun _ => m) (fun _ _ _ => m) fun _ c' => by rw [c] at c'; cases c'
          split
          · exact hs.takeBreakIn (by simp [State.modSend])
          · exact hs
        · exact h.enterIdle fun _ _ => m
      · split
        · exact h.enterSending fun _ _ => m
        · exact h.enterIdle fun _ _ => m
    · rename_i m
      split
      · exact h.enterStarting fun _ => c
      · exact h.enter (by simp) (by simp) rfl rfl (fun _ => by simpa using m) (by simp)
          (fun _ _ x => absurd rfl x)
          fun _ c' => by rw [c] at c'; cases c'
  · rename_i c
    split
    · exact h.enterSending fun _ c' => absurd c' c
    · exact h.enter (by simp) (by simp) rfl rfl (by simp) (by simp) (fun _ c' => absurd c' c)
        fun _ _ a1 a2 a3 => ⟨by simp, by simp, a1, a2, a3⟩

/-- A line under the law, but for a HALTED side whose last cause has just gone. -/
structure State.SendFreed (strict : LineNo → Bool) (l : LineNo) (s : State) : Prop where
  others : ∀ m, m ≠ l → (s.line m).SendOk (strict m)
  law : (s.line l).SendOk (strict l) ∨
    (s.line l).send.state = .halted ∧ (s.line l).SendFree (strict l)

theorem noCause_iff (x : SendSide) : x.noCause = true ↔ ¬x.caused := by
  unfold SendSide.noCause SendSide.caused
  cases x.deskHold <;> cases x.breakIn <;> decide

theorem State.SendFreed.leaveIfFree {s : State} {l : LineNo} (h : s.SendFreed strict l) :
    (s.leaveIfFree l).SendAll strict := by
  unfold State.leaveIfFree
  split
  · rename_i e
    refine State.SendNear.leaveHalted ⟨h.others, ?_⟩
    rcases h.law with k | k
    · exact absurd (k.halted.mp e.1) ((noCause_iff _).mp e.2)
    · exact k.2
  · rename_i e
    refine ⟨fun m => ?_⟩
    by_cases hm : m = l
    · subst hm
      rcases h.law with k | k
      · exact k
      · exact absurd ⟨k.1, (noCause_iff _).mpr k.2.cause⟩ e
    · exact h.others m hm

/-- Causes taken away from a side under the law. -/
theorem State.SendAll.dropCauses {s : State} (h : s.SendAll strict) {l : LineNo} {f : SendSide → SendSide}
    (ho : (s.line l).send.state ≠ .off) (e1 : (f (s.line l).send).state = (s.line l).send.state)
    (e2 : (f (s.line l).send).caused → (s.line l).send.caused) (e3 : (f (s.line l).send).motor = (s.line l).send.motor)
    (e4 : (f (s.line l).send).startDelay = (s.line l).send.startDelay)
    (e5 : (f (s.line l).send).stopDelay = (s.line l).send.stopDelay) : (s.modSend l f).SendFreed strict l := by
  refine ⟨fun m hm => by simpa [State.modSend, hm] using h.line m, ?_⟩
  have hside : (s.line l).record.mode.hasSend = true := by
    have := mt (h.line l).off.mpr ho
    simpa using this
  by_cases hc : (f (s.line l).send).caused ∨ (s.line l).send.state ≠ .halted
  · left
    have hk := h.line l
    simp only [State.modSend, line_modLine_same]
    refine ⟨?_, ?_, ?_, ?_, ?_, fun b => ⟨?_, ?_⟩⟩
    · simp only [e1]
      rcases hc with c | c
      · exact ⟨fun _ => c, fun _ => hk.halted.mpr (e2 c)⟩
      · exact ⟨fun x => absurd x c, fun x => absurd (hk.halted.mpr (e2 x)) c⟩
    · simp only [e1]; exact hk.off
    · simp only [e1]; exact fun x => absurd x ho
    · simp only [e1, e3]; exact hk.stopped
    · simp only [e1, e3]; exact hk.starting
    · simp only [e1, e3]; exact (hk.motor b).running
    · simp only [e1, e3, e4, e5]; exact (hk.motor b).unmotored
  · right
    have hh : (s.line l).send.state = .halted := by
      by_contra x; exact hc (.inr x)
    simp only [State.modSend, line_modLine_same]
    refine ⟨by rw [e1, hh], fun x => hc (.inl x), hside, fun b c => ?_⟩
    simp only [e3, e4, e5]
    exact (((h.line l).motor b).unmotored c).2.2

theorem State.SendFreed.lines {s t : State} {l : LineNo} (h : s.SendFreed strict l) (e : t.lines = s.lines) :
    t.SendFreed strict l :=
  ⟨fun m hm => by rw [line_of_lines e]; exact h.others m hm, by rw [line_of_lines e]; exact h.law⟩

theorem State.SendAll.freed {s : State} (h : s.SendAll strict) (l : LineNo) : s.SendFreed strict l :=
  ⟨fun m _ => h.line m, .inl (h.line l)⟩

theorem State.SendAll.holdLine {s : State} (h : s.SendAll strict) (l : LineNo) : (s.holdLine l).SendAll strict := by
  unfold State.holdLine
  split
  all_goals rename_i e
  · exact h.modSend_same (by rw [e]; decide) rfl rfl rfl rfl id fun _ => id
  · exact h.modSend_halt (by rw [e]; decide) rfl (.inl rfl) rfl rfl fun _ => rfl
  · exact h.modSend_halt (by rw [e]; decide) rfl (.inl rfl) rfl rfl fun _ => rfl
  · exact h.modSend_halt (by rw [e]; decide) rfl (.inl rfl) rfl rfl fun _ => rfl
  · exact h.modSend_halt (by rw [e]; decide) e (.inl rfl) rfl rfl id
  · exact h

theorem State.SendAll.resumeLine {s : State} (h : s.SendAll strict) {l : LineNo} (ho : (s.line l).send.state ≠ .off) :
    (s.resumeLine l).SendAll strict := by
  unfold State.resumeLine
  dsimp only
  split
  · have e : (s.modSend l fun x => { x with holdWaiting := false, deskHold := false }).dropBreakIn l
        = (s.modSend l fun x => { x with holdWaiting := false, deskHold := false, breakIn := false, guard := none }).postLine l
          .send (.breakIn false) := by
      simp only [State.dropBreakIn, State.modSend, modLine_modLine]
    rw [e]
    refine State.SendFreed.leaveIfFree (State.SendFreed.lines (h.dropCauses ho rfl ?_ rfl rfl rfl) (postLine_lines ..))
    rintro (x | x) <;> cases x
  · refine State.SendFreed.leaveIfFree (h.dropCauses ho rfl ?_ rfl rfl rfl)
    rintro (x | x)
    · cases x
    · exact .inr x

theorem State.SendAll.guardOver {s : State} (h : s.SendAll strict) (l : LineNo) : (s.guardOver l).SendAll strict := by
  have hs : (s.modSend l fun x => { x with guard := none }).SendAll strict := by
    refine h.modLine fun k => ⟨k.halted, k.off, fun e => ?_, k.stopped, k.starting, fun b => ⟨(k.motor b).running, (k.motor b).unmotored⟩⟩
    have := k.removed e
    simp only [this]; rfl
  unfold State.guardOver
  dsimp only
  split
  · split
    · rename_i b
      have ho : ((s.modSend l fun x => { x with guard := none }).line l).send.state ≠ .off := by
        rw [(hs.line l).halted.mpr (.inr b)]; decide
      refine State.SendFreed.leaveIfFree (State.SendFreed.lines (hs.dropCauses ho rfl ?_ rfl rfl rfl) (postLine_lines ..))
      rintro (x | x)
      · exact .inl x
      · cases x
    · exact hs
  · exact hs

theorem State.SendAll.stopDelayOver {s : State} (h : s.SendAll strict) {l : LineNo}
    (hi : (s.line l).send.state = .idle) (hd : (s.line l).send.stopDelay ≠ none) :
    (s.modSend l fun x => { x with state := .stopped, motor := false, stopDelay := none }).SendAll strict :=
  (h.near (by rw [hi]; decide) (by rw [hi]; decide)).enter (by simp) (by simp) rfl rfl (fun _ => rfl)
    (by simp) (fun _ _ x => absurd rfl x) fun b c _ _ x => absurd x hd

/-! ## Submission, withdrawal, abandonment -/

/-- A line with a stopped send side (R153, R166): in OFF without a send side, in the state of rest with one. -/
theorem restLine {b : Bool} {x : Line} {state : SendState} (e : x.send = stoppedSendSide state)
    (hs : state = .off ∧ x.record.mode.hasSend = false ∨
      state = x.record.restState ∧ x.record.mode.hasSend = true) : x.SendOk b := by
  have hr : x.record.restState ≠ .off ∧ x.record.restState ≠ .halted := by
    unfold LineRecord.restState; split <;> decide
  have hn : ¬x.send.caused := by rw [e]; rintro (c | c) <;> cases c
  have hst : x.send.state = state := by rw [e]; rfl
  refine ⟨⟨fun c => ?_, fun c => absurd c hn⟩, ?_, fun c => ?_, fun _ => by rw [e]; rfl, fun k => ?_,
    fun _ => ⟨fun c k => ?_, fun c => ?_⟩⟩
  · rcases hs with ⟨k, -⟩ | ⟨k, -⟩
    · rw [hst, k] at c; cases c
    · rw [hst, k] at c; exact absurd c hr.2
  · rw [hst]
    rcases hs with ⟨k, m⟩ | ⟨k, m⟩
    · simp [k, m]
    · simp [k, m, hr.1]
  · rw [e]; rw [hst] at c; rw [c]; rfl
  · rw [hst] at k
    rcases hs with ⟨a, -⟩ | ⟨a, -⟩
    · rw [a] at k; cases k
    · rw [a] at k; unfold LineRecord.restState at k; split at k <;> cases k
  · rw [hst] at k
    rcases hs with ⟨a, -⟩ | ⟨a, -⟩
    · rw [a] at k; rcases k with k | k <;> cases k
    · rw [a] at k; unfold LineRecord.restState at k; rw [if_pos c] at k; rcases k with k | k <;> cases k
  · have hne : state ≠ .stopped ∧ state ≠ .starting := by
      rcases hs with ⟨a, -⟩ | ⟨a, -⟩
      · rw [a]; decide
      · rw [a]; unfold LineRecord.restState; rw [if_neg (by simp [c])]; decide
    rw [hst]
    exact ⟨hne.1, hne.2, by rw [e]; rfl, by rw [e]; rfl, by rw [e]; rfl⟩

namespace State.SendAll

theorem modDist {s : State} (h : s.SendAll strict) (l : LineNo) (f : Distribution → Distribution) :
    (s.modDist l f).SendAll strict := h.modLine_same rfl rfl

theorem tryLine {s : State} (h : s.SendAll strict) (l : LineNo) (hd : Handle) (p : Priority) (w : Submitter) :
    (s.tryLine l hd p w).2.SendAll strict := by
  unfold State.tryLine
  split
  · dsimp only
    split
    · exact workArrives ((h.modDist l _).lines (joinPending_lines ..)) l
    · exact (h.modDist l _).lines (joinPending_lines ..)
  · exact h

theorem tryLines {s : State} (h : s.SendAll strict) (hd : Handle) (p : Priority) (w : Submitter) (ls : List LineNo) :
    (s.tryLines hd p w ls).2.SendAll strict := by
  induction ls generalizing s with
  | nil => exact h
  | cons l ls ih => exact ih (h.tryLine l hd p w)

theorem roomSubmit {s : State} (h : s.SendAll strict) (hd : Handle) (p : Priority) (ls : List LineNo) :
    (s.roomSubmit hd p ls).SendAll strict := by
  induction ls generalizing s with
  | nil => exact h
  | cons l ls ih =>
    unfold State.roomSubmit
    dsimp only
    split
    · exact ih (h.tryLine ..)
    · exact ih ((h.tryLine ..).lines (postBoth_lines ..))

theorem offerStory {s : State} (h : s.SendAll strict) (l : LineNo) (hd : Handle) (p : Priority) :
    (s.offerStory l hd p).SendAll strict := by
  unfold State.offerStory
  split
  · exact ((h.lines (modStory_lines' s hd _)).roomSubmit ..).lines (modStory_lines' _ hd _)
  · exact h

theorem withdrawn {s : State} (h : s.SendAll strict) (l : LineNo) (d : DistEntry) : (s.withdrawn l d).SendAll strict := by
  unfold State.withdrawn
  dsimp only
  have hl := h.lines (t := (s.leavePending d.handle l).postSubmitter d.submitter
    (.distributionEnd l d.handle .withdrawn d.substitutions)) (by simp)
  split
  · exact hl
  · exact hl.workRunsOut l

theorem withdrawLine {s : State} (h : s.SendAll strict) (l : LineNo) (hd : Handle) :
    (s.withdrawLine l hd).2.SendAll strict := by
  unfold State.withdrawLine
  dsimp only
  split
  · exact (h.modDist l _).withdrawn l _
  · split
    · exact (h.modDist l _).withdrawn l _
    · split
      · exact h
      · split
        · dsimp only
          exact h.modLine_same rfl rfl
        · exact h

theorem withdrawLines {s : State} (h : s.SendAll strict) (hd : Handle) (ls : List LineNo) :
    (s.withdrawLines hd ls).2.SendAll strict := by
  induction ls generalizing s with
  | nil => exact h
  | cons l ls ih => exact ih (h.withdrawLine l hd)

theorem abandonEntries {s : State} (h : s.SendAll strict) (l : LineNo) (es : List DistEntry) :
    (s.abandonEntries l es).SendAll strict := by
  induction es generalizing s with
  | nil => exact h
  | cons e es ih => exact ih (h.lines (departs_lines ..))

theorem abandonLine {s : State} (h : s.SendAll strict) (l : LineNo) : (s.abandonLine l).SendAll strict :=
  abandonEntries (h.modLine_same rfl rfl) l _

/-! ## The assembler -/

theorem modAsm {s : State} (h : s.SendAll strict) (l : LineNo) (f : Assembler → Assembler) :
    (s.modAsm l f).SendAll strict := h.modLine_same rfl rfl

theorem loadIdleGap {s : State} (h : s.SendAll strict) (l : LineNo) : (s.loadIdleGap l).SendAll strict := h.modAsm l _

theorem enterSkipping {s : State} (h : s.SendAll strict) (l : LineNo) : (s.enterSkipping l).SendAll strict :=
  (h.modAsm l _).loadIdleGap l

theorem decidePriority {s : State} (h : s.SendAll strict) (l : LineNo) (hd : Handle) (p : Priority) :
    (s.decidePriority l hd p).SendAll strict :=
  (h.modAsm l fun a => { a with state := .inStory hd true }).lines (by simp [State.decidePriority])

theorem putChar {s : State} (h : s.SendAll strict) (hd : Handle) (c : Held) : (s.putChar hd c).SendAll strict := by
  unfold State.putChar
  split
  · exact h
  · exact h.lines (by simp)

theorem storeChar {s : State} (h : s.SendAll strict) (hd : Handle) (c : Held) : (s.storeChar hd c).2.SendAll strict := by
  unfold State.storeChar
  split
  · exact h
  · split
    · have hr := requestCell_lines s hd.index
      split
      · rename_i e; rw [e] at hr; exact (h.lines hr).putChar hd c
      · rename_i e; rw [e] at hr; exact h.lines hr
    · exact h.putChar hd c

theorem considerPriority {s : State} (h : s.SendAll strict) (l : LineNo) (hd : Handle) (d : Bool) (x : Byte) :
    (s.considerPriority l hd d x).SendAll strict := by
  unfold State.considerPriority
  split
  · exact h
  · split
    · exact h
    · exact h.decidePriority ..

theorem commit {s : State} (h : s.SendAll strict) (l : LineNo) (c : Held) : (s.commit l c).2.SendAll strict := by
  unfold State.commit
  split
  · rename_i hd d _
    have hr := h.storeChar hd c
    split
    · rename_i e; rw [e] at hr; exact considerPriority hr ..
    · rename_i e; rw [e] at hr; exact hr
    · rename_i e; rw [e] at hr; exact hr
  · exact h
  · exact h

theorem commitAll {s : State} (h : s.SendAll strict) (l : LineNo) (cs : List Held) :
    (s.commitAll l cs).2.SendAll strict := by
  induction cs generalizing s with
  | nil => exact h
  | cons c cs ih =>
    unfold State.commitAll
    have hr := h.commit l c
    split
    · rename_i e; rw [e] at hr; exact ih hr
    · rename_i e; rw [e] at hr; exact hr
    · rename_i e; rw [e] at hr; exact hr

theorem openInbound {s : State} (h : s.SendAll strict) (l : LineNo) : (s.openInbound l).SendAll strict := by
  unfold State.openInbound
  have hr := requestRecord_lines s
  split
  · rename_i e; rw [e] at hr
    exact enterSkipping (h.lines (by simpa using hr)) l
  · rename_i i t e
    rw [e] at hr
    have hm := fun st => (h.lines (t := t.makeStory i st) (by simpa using hr)).modAsm l
      fun a => { a with state := .inStory (t.handleAt i) false }
    dsimp only
    split
    · exact (loadIdleGap (decidePriority (hm _) ..) l).lines (postSet_lines ..)
    · exact (loadIdleGap (hm _) l).lines (postSet_lines ..)

theorem finishClose {s : State} (h : s.SendAll strict) (l : LineNo) (tr un : Bool) (a : AfterClose) :
    (s.finishClose l tr un a).SendAll strict := by
  unfold State.finishClose
  split
  · rename_i hd d _
    dsimp only
    have h1 : State.SendAll strict (if d then s else match s.storyOf hd with
        | none => s
        | some st => s.decidePriority l hd st.priority) := by
      split
      · exact h
      · split
        · exact h
        · exact h.decidePriority ..
    generalize (if d then s else match s.storyOf hd with
        | none => s
        | some st => s.decidePriority l hd st.priority) = t at h1
    have h2 := fun f => (h1.lines (modStory_lines' t hd f)).modAsm l fun a => { a with state := .between, idleGap := none }
    have h3 := h2 fun st =>
      { st with state := .complete, truncated := tr, unterminated := un, closedStamp := some t.stamp }
    generalize State.modAsm _ _ _ = u at h3
    have h4 : State.SendAll strict (match u.storyOf hd with
        | none => u
        | some st =>
          ((u.postSet st.interest (.storyClosed l hd st.priority tr un st.length)).offerStory l hd st.priority).freeingTest
            hd.index) := by
      split
      · exact h3
      · exact (offerStory (h3.lines (postSet_lines ..)) ..).lines (freeingTest_lines ..)
    cases a
    · exact h4
    · exact h4.enterSkipping l
    · exact h4.openInbound l
  · exact h
  · exact h

theorem setHeld {s : State} (h : s.SendAll strict) (l : LineNo) (held : List Held) : (s.setHeld l held).SendAll strict :=
  h.modAsm l _

theorem cutShort {s : State} (h : s.SendAll strict) (l : LineNo) (why : Stored) : (s.cutShort l why).SendAll strict := by
  unfold State.cutShort
  dsimp only
  split
  · exact finishClose (setHeld (h.lines (raiseExhausted_lines s)) ..) ..
  · exact finishClose (h.setHeld ..) ..

theorem closeCommitting {s : State} (h : s.SendAll strict) (l : LineNo) (tr un : Bool) :
    (s.closeCommitting l tr un).SendAll strict := by
  unfold State.closeCommitting
  dsimp only
  have hc := (h.setHeld l []).commitAll l (s.line l).asm.held
  split
  · exact finishClose (hc.lines (raiseExhausted_lines _)) ..
  · exact finishClose hc ..

theorem sequenceFound {s : State} (h : s.SendAll strict) (l : LineNo) (f : Found) :
    (s.sequenceFound l f).SendAll strict := by
  unfold State.sequenceFound
  split
  · exact h.openInbound l
  · exact h
  · exact h.finishClose ..
  · exact h.finishClose ..
  · exact h.openInbound l
  · exact h.modAsm l _

theorem arrive {s : State} (h : s.SendAll strict) (l : LineNo) (cs : List Held) : (s.arrive l cs).SendAll strict := by
  induction cs generalizing s with
  | nil => exact h
  | cons c cs ih =>
    unfold State.arrive
    dsimp only
    split
    · exact h.sequenceFound l _
    · split
      · exact h.setHeld l _
      · have hr := h.commit l c
        split
        · rename_i e; rw [e] at hr; exact ih hr
        · rename_i e; rw [e] at hr; exact hr.cutShort ..
        · rename_i e; rw [e] at hr; exact hr.cutShort ..

theorem storeContinuous {s : State} (h : s.SendAll strict) (l : LineNo) (c : Held) :
    (s.storeContinuous l c).SendAll strict := by
  unfold State.storeContinuous
  have hr := h.commit l c
  split
  · rename_i e; rw [e] at hr; exact hr
  · rename_i e; rw [e] at hr; exact hr.cutShort ..
  · rename_i e; rw [e] at hr; exact hr.cutShort ..

theorem restartIdleGap {s : State} (h : s.SendAll strict) (l : LineNo) : (s.restartIdleGap l).SendAll strict := by
  unfold State.restartIdleGap
  split
  · exact h
  · exact h.loadIdleGap l
  · exact h.loadIdleGap l

theorem decodeCode {s : State} (h : s.SendAll strict) (l : LineNo) (k : Code) (doubtful : Bool) :
    (s.decodeCode l k doubtful).SendAll strict := by
  unfold State.decodeCode
  dsimp only
  have hm := fun f => (h.modAsm l f)
  split
  · exact hm _
  · have hg := fun f => (h.modAsm l f).restartIdleGap l
    split
    · unfold State.framedChar
      exact arrive (setHeld (hg _) ..) ..
    · unfold State.continuousChar
      split
      · exact storeContinuous (openInbound (hg _) l) ..
      · exact storeContinuous (hg _) ..
      · exact hg _

theorem idleGapOver {s : State} (h : s.SendAll strict) (l : LineNo) : (s.idleGapOver l).SendAll strict := by
  unfold State.idleGapOver
  dsimp only
  have hm := h.modAsm l fun a => { a with idleGap := none }
  split
  · split
    · exact hm.closeCommitting ..
    · exact hm.closeCommitting ..
  · exact hm.modAsm ..
  · exact hm

theorem assemblerOpen {s : State} (h : s.SendAll strict) (l : LineNo) : (s.assemblerOpen l).SendAll strict := by
  unfold State.assemblerOpen
  dsimp only
  split
  · exact (h.closeCommitting ..).modAsm ..
  · exact (h.setHeld ..).modAsm ..
  · exact (h.setHeld ..).modAsm ..

theorem resetAssembler {s : State} (h : s.SendAll strict) (l : LineNo) : (s.resetAssembler l).SendAll strict := by
  unfold State.resetAssembler
  dsimp only
  split
  · exact (h.closeCommitting ..).modAsm ..
  · exact h.modAsm ..
  · exact h.modAsm ..

theorem commitHeld {s : State} (h : s.SendAll strict) (l : LineNo) : (s.commitHeld l).SendAll strict := by
  unfold State.commitHeld
  dsimp only
  have hr := (h.setHeld l []).commitAll l (s.line l).asm.held
  split
  · rename_i e; rw [e] at hr; exact hr
  · rename_i e; rw [e] at hr; exact hr.cutShort ..
  · rename_i e; rw [e] at hr; exact hr.cutShort ..

/-! ## Reception and sensing -/

theorem modRx {s : State} (h : s.SendAll strict) (l : LineNo) (f : Receiver → Receiver) : (s.modRx l f).SendAll strict :=
  h.modLine_same rfl rfl

theorem report {s : State} (h : s.SendAll strict) (l : LineNo) (v : Level) (t : Nat) : (s.report l v t).SendAll strict := by
  unfold State.report
  dsimp only
  split
  · exact (h.modLine_same rfl rfl).lines (postLine_lines ..)
  · exact h.modLine_same rfl rfl

theorem completeChange {s : State} (h : s.SendAll strict) (l : LineNo) : (s.completeChange l).SendAll strict := by
  unfold State.completeChange
  split
  · exact h
  · split
    · exact h
    · exact report (h.modLine_same rfl rfl) ..

theorem rawChanged {s : State} (h : s.SendAll strict) (l : LineNo) : (s.rawChanged l).SendAll strict := by
  unfold State.rawChanged
  split
  · exact h
  · dsimp only
    split
    · split
      · exact h.modLine_same rfl rfl
      · exact h
    · split
      · exact h
      · split
        · exact completeChange (h.modLine_same rfl rfl) l
        · exact h.modLine_same rfl rfl

theorem feedFilter {s : State} (h : s.SendAll strict) (l : LineNo) (before : Level) :
    (s.feedFilter l before).SendAll strict := by
  unfold State.feedFilter
  split
  · exact h
  · exact h.rawChanged l

theorem deliver {s : State} (h : s.SendAll strict) (l : LineNo) (c : Character) (good : Bool) :
    (s.deliver l c good).SendAll strict := by
  unfold State.deliver
  dsimp only
  split
  · exact decodeCode (h.modRx ..) ..
  · exact decodeCode ((h.modRx ..).lines (postLine_lines ..)) ..

theorem sampleStop {s : State} (h : s.SendAll strict) (l : LineNo) : (s.sampleStop l).SendAll strict := by
  unfold State.sampleStop
  split
  · split
    · exact (h.modRx ..).deliver ..
    · exact (h.modRx ..).deliver ..
  all_goals exact h

theorem openLine {s : State} (h : s.SendAll strict) (l : LineNo) : (s.openLine l).SendAll strict :=
  assemblerOpen ((h.modRx ..).lines (postLine_lines ..)) l

theorem postReceiverReset {s : State} (h : s.SendAll strict) (l : LineNo) (was : Receiver) (now : RxReport) :
    (s.postReceiverReset l was now).SendAll strict := by
  unfold State.postReceiverReset
  dsimp only
  refine h.lines ?_
  split <;> split <;> simp

theorem resetReceiver {s : State} (h : s.SendAll strict) (l : LineNo) : (s.resetReceiver l).SendAll strict :=
  postReceiverReset (h.modLine_same rfl rfl) ..

theorem disableReceiver {s : State} (h : s.SendAll strict) (l : LineNo) : (s.disableReceiver l).SendAll strict :=
  postReceiverReset (h.modLine_same rfl rfl) ..

theorem searchConverter {s : State} (h : s.SendAll strict) : s.searchConverter.SendAll strict := by
  unfold State.searchConverter
  split <;> exact h.lines rfl

theorem wakeConverter {s : State} (h : s.SendAll strict) : s.wakeConverter.SendAll strict := by
  unfold State.wakeConverter
  split
  · exact h
  · exact h.searchConverter

theorem voidConversion {s : State} (h : s.SendAll strict) (l : LineNo) (hit : Side → Bool) :
    (s.voidConversion l hit).SendAll strict := by
  unfold State.voidConversion
  split
  · exact h
  · split
    · exact h.lines rfl
    · exact h

theorem setChannel {s : State} (h : s.SendAll strict) (l : LineNo) (side : Side) (c : LoopChannel) :
    (s.modLine l fun x => x.setChannel side c).SendAll strict := by
  cases side <;> exact h.modLine_same rfl rfl

theorem sendLoopChanged {s : State} (h : s.SendAll strict) (l : LineNo) (was now : LoopState) :
    (s.sendLoopChanged l was now).SendAll strict := by
  unfold State.sendLoopChanged
  split
  · split
    all_goals rename_i e
    · exact h
    · exact h
    all_goals exact h.takeBreakIn (by rw [e]; decide)
  · split
    · rename_i e
      exact h.modSend_same (by rw [(h.line l).halted.mpr (.inr e.2.2)]; decide) rfl rfl rfl rfl id fun _ => id
    · exact h

theorem classify {s : State} (h : s.SendAll strict) (l : LineNo) (side : Side) (value : Nat) :
    (s.classify l side value).SendAll strict := by
  unfold State.classify
  dsimp only
  have hs := fun c => h.setChannel l side c
  split
  · exact hs _
  · cases side
    · exact State.SendAll.lines (hs _) (postLine_lines ..)
    · exact sendLoopChanged (State.SendAll.lines (hs _) (postLine_lines ..)) ..

theorem unmeasure {s : State} (h : s.SendAll strict) (l : LineNo) (side : Side) : (s.unmeasure l side).SendAll strict := by
  unfold State.unmeasure
  dsimp only
  split
  · exact h.setChannel ..
  · exact (h.setChannel ..).lines (postLine_lines ..)

theorem resetChannel {s : State} (h : s.SendAll strict) (l : LineNo) (side : Side) :
    (s.resetChannel l side).SendAll strict := (h.voidConversion ..).unmeasure ..

theorem endConversion {s : State} (h : s.SendAll strict) : s.endConversion.SendAll strict := by
  unfold State.endConversion
  split
  · exact h
  · rename_i c _
    have hs : State.SendAll strict { s with converter := { s.converter with conversion := none } } := h.lines rfl
    dsimp only
    split
    · exact hs.searchConverter
    · exact (hs.classify ..).searchConverter

theorem endFrame {s : State} (h : s.SendAll strict) (l : LineNo) : (s.endFrame l).SendAll strict := by
  have hs : (s.modSend l fun x => { x with frame := none, key := .mark }).SendAll strict := by
    refine h.modLine fun k => ⟨k.halted, k.off, fun e => ?_, k.stopped, k.starting, fun b => ⟨(k.motor b).running, (k.motor b).unmotored⟩⟩
    have := k.removed e
    simp only [this]; rfl
  unfold State.endFrame
  dsimp only
  split
  · rename_i e
    exact (hs.request (by rw [e]; decide) _).wakeConverter
  · exact hs.wakeConverter

/-! ## Line reset and mode changes (chapter 2) -/

/-- A send side stopped into OFF, on a line that has none, or into the state of rest, on a line that has one: then the line
is under the law whatever it was. -/
theorem stopSendSide {s : State} {l : LineNo} (h : ∀ m, m ≠ l → (s.line m).SendOk (strict m)) {state : SendState}
    (hs : state = .off ∧ (s.line l).record.mode.hasSend = false ∨
      state = (s.line l).record.restState ∧ (s.line l).record.mode.hasSend = true) :
    (s.stopSendSide l state).SendAll strict := by
  have hm : (s.modSend l fun _ => stoppedSendSide state).SendAll strict := by
    refine ⟨fun m => ?_⟩
    by_cases e : m = l
    · subst e; simp only [State.modSend, line_modLine_same]; exact restLine rfl hs
    · simpa [State.modSend, e] using h m e
  unfold State.stopSendSide
  dsimp only
  split
  · exact hm.lines (postLine_lines ..)
  · exact hm

theorem clearSending {s : State} {l : LineNo} (h : ∀ m, m ≠ l → (s.line m).SendOk (strict m)) {state : SendState}
    (hs : state = .off ∧ (s.line l).record.mode.hasSend = false ∨
      state = (s.line l).record.restState ∧ (s.line l).record.mode.hasSend = true) :
    (s.clearSending l state).SendAll strict := ((stopSendSide h hs).abandonLine l).modEnc l _

/-- An operation made under a condition. -/
theorem when {s t : State} (h : s.SendAll strict) {c : Prop} [Decidable c] (ht : c → t.SendAll strict) :
    (if c then t else s).SendAll strict := by
  split
  · exact ht (by assumption)
  · exact h

theorem resetLine {s : State} (h : s.SendAll strict) (l : LineNo) : (s.resetLine l).SendAll strict := by
  unfold State.resetLine
  dsimp only
  have h1 := h.when fun c : (s.line l).record.mode.hasSend = true =>
    clearSending (state := (s.line l).record.restState) (fun m _ => h.line m) (.inr ⟨rfl, c⟩)
  have h2 := h1.when (c := (s.line l).record.mode.hasReceive = true) fun _ => (h1.resetReceiver l).resetAssembler l
  have h3 := h2.when (c := (s.line l).record.mode.hasReceive = true) fun _ => h2.resetChannel l .receive
  have h4 := h3.when (c := (s.line l).record.mode.hasSend = true) fun _ => h3.resetChannel l .send
  exact h4.wakeConverter

theorem removeReceive {s : State} (h : s.SendAll strict) (l : LineNo) : (s.removeReceive l).SendAll strict :=
  ((h.disableReceiver l).resetAssembler l).resetChannel l .receive

theorem motorTurnedOn {s : State} {l : LineNo} (h : s.SendAll fun m => strict m && decide (m ≠ l))
    (hc : (s.line l).record.motorControl = true) : (s.motorTurnedOn l).SendAll strict := by
  have key : ∀ t : State, t.SendAll (fun m => strict m && decide (m ≠ l)) →
      (t.line l).record.motorControl = true →
      ((t.line l).send.state = .idle ∨ (t.line l).send.state = .sending → (t.line l).send.motor = true) →
      t.SendAll strict := by
    intro t ht c hm
    refine ⟨fun m => ?_⟩
    by_cases e : m = l
    · subst e
      exact ⟨(ht.line m).halted, (ht.line m).off, (ht.line m).removed, (ht.line m).stopped, (ht.line m).starting,
        fun _ => ⟨fun _ => hm, fun c' => by rw [c] at c'; cases c'⟩⟩
    · simpa [e] using ht.line m
  have hon : (s.line l).send.state = .idle ∨ (s.line l).send.state = .sending ∨ (s.line l).send.state = .halted →
      (s.modSend l fun x => { x with motor := true }).SendAll fun m => strict m && decide (m ≠ l) := by
    intro hs
    refine h.modLine fun k => ⟨k.halted, k.off, ?_, ?_, fun _ => rfl, fun b => by simp at b⟩
    · intro e; rcases hs with x | x | x <;> · rw [x] at e; cases e
    · intro e; rcases hs with x | x | x <;> · rw [x] at e; cases e
  have hline : ((s.modSend l fun x => { x with motor := true }).line l).record.motorControl = true := by
    simpa [State.modSend] using hc
  unfold State.motorTurnedOn
  split
  all_goals rename_i e
  · exact State.SendAll.loadStopDelay (key _ (hon (.inl e)) hline fun _ => by simp [State.modSend]) (by simp [State.modSend, e])
  · exact key _ (hon (.inr (.inl e))) hline fun _ => by simp [State.modSend]
  · exact key _ (hon (.inr (.inr e))) hline fun _ => by simp [State.modSend]
  · exact key _ h hc fun x => by rw [e] at x; rcases x with x | x <;> cases x
  · exact key _ h hc fun x => by rw [e] at x; rcases x with x | x <;> cases x
  · exact key _ h hc fun x => by rw [e] at x; rcases x with x | x <;> cases x

theorem motorTurnedOff {s : State} {l : LineNo} (h : s.SendAll fun m => strict m && decide (m ≠ l))
    (hc : (s.line l).record.motorControl = false) : (s.motorTurnedOff l).SendAll strict := by
  have hoff : ∀ m, m ≠ l → (s.line m).SendOk (strict m) := fun m e => by simpa [e] using h.line m
  have k := h.line l
  have free : (s.line l).send.state ≠ .off → (s.line l).send.state ≠ .halted →
      (s.modSend l fun x => { x with motor := false, startDelay := none, stopDelay := none }).SendNear strict l := by
    intro h1 h2
    have hn := h.near h1 h2
    refine ⟨fun m e => by simpa [State.modSend, e] using hoff m e, ?_⟩
    simp only [State.modSend, line_modLine_same]
    exact ⟨hn.free.cause, hn.free.side, fun _ _ => ⟨rfl, rfl, rfl⟩⟩
  have hidle : ∀ {f : SendSide → SendSide}, (s.line l).send.state ≠ .off → (s.line l).send.state ≠ .halted →
      (∀ x, f x = { x with state := .idle }) →
      ((s.modSend l fun x => { x with motor := false, startDelay := none, stopDelay := none }).modSend l f).SendAll strict := by
    intro f h1 h2 hf
    refine (free h1 h2).enter ?_ ?_ ?_ ?_ ?_ ?_ ?_ ?_ <;> simp [hf, State.modSend, hc]
  have hsame : (s.line l).send.state = .idle ∨ (s.line l).send.state = .sending ∨ (s.line l).send.state = .halted →
      (s.modSend l fun x => { x with motor := false, startDelay := none, stopDelay := none }).SendAll strict := by
    intro hs
    refine ⟨fun m => ?_⟩
    by_cases e : m = l
    · subst e
      simp only [State.modSend, line_modLine_same]
      refine ⟨k.halted, k.off, ?_, fun _ => rfl, ?_, fun _ => ⟨fun c => by simp [hc] at c, fun _ => ⟨?_, ?_, rfl, rfl, rfl⟩⟩⟩
      all_goals first
        | (intro e; rcases hs with x | x | x <;> · rw [x] at e; cases e)
    · simpa [State.modSend, e] using hoff m e
  unfold State.motorTurnedOff
  dsimp only
  split
  all_goals rename_i e
  · exact hidle (by rw [e]; decide) (by rw [e]; decide) fun _ => rfl
  · split
    · exact (free (by rw [e]; decide) (by rw [e]; decide)).enterSending fun _ c => by simp [State.modSend, hc] at c
    · exact hidle (by rw [e]; decide) (by rw [e]; decide) fun _ => rfl
  · exact hsame (.inl e)
  · exact hsame (.inr (.inl e))
  · exact hsame (.inr (.inr e))
  · refine ⟨fun m => ?_⟩
    by_cases em : m = l
    · subst em
      have := k.removed e
      exact ⟨k.halted, k.off, k.removed, k.stopped, k.starting, fun _ =>
        ⟨fun c => absurd (hc.symm.trans c) (by decide), fun _ => by rw [this]; exact ⟨by decide, by decide, rfl, rfl, rfl⟩⟩⟩
    · exact hoff m em

/-- The record of a line replaced by one with as many send sides: the motor clauses go on when motor control is the same, and
wait when it is not. -/
theorem setLineRecord {s : State} (h : s.SendAll strict) {l : LineNo} {r : LineRecord}
    (hm : r.mode.hasSend = (s.line l).record.mode.hasSend) :
    (s.setLineRecord l r).SendAll (fun m => strict m && decide (m ≠ l)) ∧
      (r.motorControl = (s.line l).record.motorControl → (s.setLineRecord l r).SendAll strict) := by
  have k := h.line l
  have hoff : (s.line l).send.state = .off ↔ r.mode.hasSend = false := by rw [hm]; exact k.off
  refine ⟨⟨fun m => ?_⟩, fun hc => ⟨fun m => ?_⟩⟩
  · by_cases e : m = l
    · subst e
      simp only [State.setLineRecord, line_modLine_same]
      exact ⟨k.halted, hoff, k.removed, k.stopped, k.starting, fun c => by simp at c⟩
    · simpa [State.setLineRecord, e] using h.line m
  · by_cases e : m = l
    · subst e
      simp only [State.setLineRecord, line_modLine_same]
      exact ⟨k.halted, hoff, k.removed, k.stopped, k.starting, fun c =>
        ⟨fun x => (k.motor c).running (hc ▸ x), fun x => (k.motor c).unmotored (hc ▸ x)⟩⟩
    · simpa [State.setLineRecord, e] using h.line m

theorem changeMotorControl {s : State} {l : LineNo} {was now : Bool}
    (h : s.SendAll fun m => strict m && decide (m ≠ l)) (hs : was = now → s.SendAll strict)
    (hc : (s.line l).record.motorControl = now) : (s.changeMotorControl l was now).SendAll strict := by
  unfold State.changeMotorControl
  split
  · exact hs (by assumption)
  · split
    · rename_i e; exact h.motorTurnedOn (hc.trans e)
    · rename_i e; exact h.motorTurnedOff (hc.trans (by simpa using e))

/-- A line without a send side keeps the motor clauses too. -/
theorem ofOff {s : State} {l : LineNo} (h : s.SendAll fun m => strict m && decide (m ≠ l))
    (ho : (s.line l).record.mode.hasSend = false) : s.SendAll strict := by
  refine ⟨fun m => ?_⟩
  by_cases e : m = l
  · subst e
    have k := h.line m
    have hs := k.off.mpr ho
    have hr := k.removed hs
    refine ⟨k.halted, k.off, k.removed, k.stopped, k.starting, fun _ => ⟨fun _ x => ?_, fun _ => ?_⟩⟩
    · rw [hs] at x; rcases x with x | x <;> cases x
    · rw [hr]; exact ⟨by decide, by decide, rfl, rfl, rfl⟩
  · simpa [e] using h.line m

theorem addSend {s : State} {l : LineNo} (h : ∀ m, m ≠ l → (s.line m).SendOk (strict m))
    (hm : (s.line l).record.mode.hasSend = true) : (s.addSend l).SendAll strict := by
  refine ⟨fun m => ?_⟩
  by_cases e : m = l
  · subst e
    simp only [State.addSend, line_modLine_same]
    exact restLine rfl (.inr ⟨rfl, hm⟩)
  · simpa [State.addSend, e] using h m e

theorem addReceive {s : State} (h : s.SendAll strict) (l : LineNo) : (s.addReceive l).SendAll strict :=
  h.modLine_same rfl rfl

/-- The mode two modes share has a send side when both have one. -/
theorem meet_sides (m n : Mode) : (m.meet n).hasSend = (m.hasSend && n.hasSend) ∧
    (m.meet n).hasReceive = (m.hasReceive && n.hasReceive) := by
  cases m <;> cases n <;> decide

/-- Taking a record keeps the law: a removed side is stopped, an added one begun, a kept one follows motor control. -/
theorem takeRecord {s : State} (h : s.SendAll strict) (l : LineNo) (r : LineRecord) :
    (s.takeRecord l r).SendAll strict := by
  have others : ∀ {t : State}, t.SendAll (fun m => strict m && decide (m ≠ l)) →
      ∀ m, m ≠ l → (t.line m).SendOk (strict m) := fun ht m e => by simpa [e] using ht.line m
  have weak : ∀ {t : State}, t.SendAll strict → t.SendAll fun m => strict m && decide (m ≠ l) := fun {t} ht =>
    ⟨fun m => by
      by_cases e : m = l
      · subst e; simpa using (ht.line m).weak
      · simpa [e] using ht.line m⟩
  unfold State.takeRecord
  dsimp only
  generalize ho : (s.line l).record.mode.hasSend = o
  generalize hn : r.mode.hasSend = n
  have hmeet := (meet_sides (s.line l).record.mode r.mode).1
  rw [ho, hn] at hmeet
  -- the sides that both modes share
  generalize hs0 : s.setLineRecord l { r with mode := (s.line l).record.mode.meet r.mode } = s0
  have hrec0 : (s0.line l).record = { r with mode := (s.line l).record.mode.meet r.mode } := by
    rw [← hs0]; simp [State.setLineRecord]
  have h0others : ∀ m, m ≠ l → (s0.line m).SendOk (strict m) := by
    intro m e; rw [← hs0]; simpa [State.setLineRecord, e] using h.line m
  generalize ht1 : (if o && !n then s0.removeSend l else s0) = t1
  have h1 : t1.SendAll (fun m => strict m && decide (m ≠ l)) ∧
      (o = true ∧ n = true ∧ (s.line l).record.motorControl = r.motorControl → t1.SendAll strict) := by
    rw [← ht1]
    split
    · rename_i c
      have hc : o = true ∧ n = false := by simpa using c
      have : (s0.removeSend l).SendAll strict :=
        (clearSending h0others (.inl ⟨rfl, by rw [hrec0]; simpa [hc.2] using hmeet⟩)).resetChannel l .send
      exact ⟨weak this, fun _ => this⟩
    · rename_i c
      have hk := h.setLineRecord (l := l) (r := { r with mode := (s.line l).record.mode.meet r.mode })
        (by rw [ho]; simp only [hmeet]; cases o <;> cases n <;> simp_all)
      rw [hs0] at hk
      exact ⟨hk.1, fun e => hk.2 e.2.2.symm⟩
  have hrec1 : (t1.line l).record = (s0.line l).record := by
    rw [← ht1]; split
    · exact (Kept.removeSend s0 l).record l
    · rfl
  generalize ht2 : (if (s.line l).record.mode.hasReceive && !r.mode.hasReceive then t1.removeReceive l else t1) = t2
  have h2 : t2.SendAll (fun m => strict m && decide (m ≠ l)) ∧
      (o = true ∧ n = true ∧ (s.line l).record.motorControl = r.motorControl → t2.SendAll strict) := by
    rw [← ht2]
    exact ⟨h1.1.when fun _ => h1.1.removeReceive l, fun e => (h1.2 e).when fun _ => (h1.2 e).removeReceive l⟩
  have hrec2 : (t2.line l).record = (s0.line l).record := by
    rw [← hrec1, ← ht2]; split
    · exact (Kept.removeReceive t1 l).record l
    · rfl
  -- the new record
  have hrec3 : ((t2.setLineRecord l r).line l).record = r := by simp [State.setLineRecord]
  have h3others : ∀ m, m ≠ l → ((t2.setLineRecord l r).line m).SendOk (strict m) := by
    intro m e; simpa [State.setLineRecord, e] using others h2.1 m e
  have h3 : ¬(o = false ∧ n = true) →
      (t2.setLineRecord l r).SendAll (fun m => strict m && decide (m ≠ l)) ∧
      (o = true ∧ n = true ∧ (s.line l).record.motorControl = r.motorControl → (t2.setLineRecord l r).SendAll strict) := by
    intro c
    have hm : r.mode.hasSend = (t2.line l).record.mode.hasSend := by
      rw [hrec2, hrec0, hn]; simp only [hmeet]; cases o <;> cases n <;> simp_all
    refine ⟨?_, fun e => ((h2.2 e).setLineRecord hm).2 (by rw [hrec2, hrec0])⟩
    have := (h2.1.setLineRecord hm).1
    refine ⟨fun m => ?_⟩
    have := this.line m
    by_cases e : m = l
    · subst e; simpa using this
    · simpa [e] using this
  generalize t2.setLineRecord l r = t3 at hrec3 h3others h3
  generalize ht4 : (if !(s.line l).record.mode.hasReceive && r.mode.hasReceive then t3.addReceive l else t3) = t4
  have hrec4 : (t4.line l).record = r := by
    rw [← ht4]; split
    · exact ((Kept.addReceive t3 l).record l).trans hrec3
    · exact hrec3
  have h4others : ∀ m, m ≠ l → (t4.line m).SendOk (strict m) := by
    intro m e; rw [← ht4]; split
    · simpa [State.addReceive, e] using h3others m e
    · exact h3others m e
  have h4 : ¬(o = false ∧ n = true) → t4.SendAll (fun m => strict m && decide (m ≠ l)) ∧
      (o = true ∧ n = true ∧ (s.line l).record.motorControl = r.motorControl → t4.SendAll strict) := by
    intro c
    rw [← ht4]
    exact ⟨(h3 c).1.when fun _ => (h3 c).1.addReceive l, fun e => ((h3 c).2 e).when fun _ => ((h3 c).2 e).addReceive l⟩
  -- the send side added, or following motor control
  have h6 : State.SendAll strict
      (if o && n then (if !o && n then t4.addSend l else t4).changeMotorControl l (s.line l).record.motorControl r.motorControl
        else if !o && n then t4.addSend l else t4) := by
    cases o <;> cases n
    · exact (h4 (by simp)).1.ofOff (by rw [hrec4, hn])
    · exact addSend h4others (by rw [hrec4, hn])
    · exact (h4 (by simp)).1.ofOff (by rw [hrec4, hn])
    · exact changeMotorControl (h4 (by simp)).1 (fun e => (h4 (by simp)).2 ⟨rfl, rfl, e⟩) (by simp [hrec4])
  exact wakeConverter <| State.SendAll.when (State.SendAll.when h6 fun _ => commitHeld h6 l) fun _ =>
    feedFilter (State.SendAll.when h6 fun _ => commitHeld h6 l) ..

end State.SendAll

end Sys2Proof.Machine
end

