-- ==== Sys2Proof/Laws/ReceiveLaw.lean ====
section
/-! SUPPORT. What the operations of the part keep of the receive side's law (R33, R47, R56, R58, R60): one lemma each. -/

namespace Sys2Proof.Machine

/-- The receive law of a line that has, or has not, a receive side, whatever record it holds. -/
structure Line.ReceiveOk (side : Bool) (x : Line) : Prop where
  disabled : x.rx.state = .disabled ↔ side = false
  space : x.rx.state = .disabled ∨ x.rx.state = .opened → x.rx.space = none
  filter : x.filter = none ↔ side = false
  receiver : x.rx.Lawful

theorem Line.receiveLawful_iff (x : Line) : x.ReceiveLawful ↔ x.ReceiveOk x.record.mode.hasReceive :=
  ⟨fun h => ⟨h.disabled, h.space, h.filter, h.receiver⟩, fun h => ⟨h.disabled, h.space, h.filter, h.receiver⟩⟩

/-- Every line keeps the receive side's law, with the sides given. -/
structure State.ReceiveAll (sides : LineNo → Bool) (s : State) : Prop where
  line : ∀ l, (s.line l).ReceiveOk (sides l)

/-- The law looks at receiver and filter alone. -/
theorem Line.ReceiveOk.congr {b : Bool} {x y : Line} (h : x.ReceiveOk b) (e : y.rx = x.rx) (f : y.filter = x.filter) :
    y.ReceiveOk b :=
  ⟨by rw [e]; exact h.disabled, by rw [e]; exact h.space, by rw [f]; exact h.filter, by rw [e]; exact h.receiver⟩

variable {sides : LineNo → Bool}

namespace State.ReceiveAll

theorem lines {s t : State} (h : s.ReceiveAll sides) (e : t.lines = s.lines) : t.ReceiveAll sides :=
  ⟨fun l => by rw [line_of_lines e]; exact h.line l⟩

/-- Operations of store, assembler, distribution and sending. -/
theorem works {s t : State} (h : s.ReceiveAll sides) (w : Works s t) : t.ReceiveAll sides :=
  ⟨fun l => (h.line l).congr (w.rx l) (w.filter l)⟩

theorem modLine {s : State} (h : s.ReceiveAll sides) {l : LineNo} {f : Line → Line}
    (hf : (s.line l).ReceiveOk (sides l) → (f (s.line l)).ReceiveOk (sides l)) : (s.modLine l f).ReceiveAll sides := by
  refine ⟨fun m => ?_⟩
  by_cases e : m = l
  · subst e; simpa using hf (h.line m)
  · simpa [e] using h.line m

/-- A change of one line other than its receiver and filter. -/
theorem modLine_same {s : State} (h : s.ReceiveAll sides) {l : LineNo} {f : Line → Line} (e : (f (s.line l)).rx = (s.line l).rx)
    (k : (f (s.line l)).filter = (s.line l).filter) :
    (s.modLine l f).ReceiveAll sides := h.modLine fun x => x.congr e k

/-- An operation made under a condition. -/
theorem when {s t : State} (h : s.ReceiveAll sides) {c : Prop} [Decidable c] (ht : c → t.ReceiveAll sides) :
    (if c then t else s).ReceiveAll sides := by
  split
  · exact ht (by assumption)
  · exact h

/-! ## Sensing and sending -/

theorem searchConverter {s : State} (h : s.ReceiveAll sides) : s.searchConverter.ReceiveAll sides := by
  unfold State.searchConverter
  split <;> exact h.lines rfl

theorem wakeConverter {s : State} (h : s.ReceiveAll sides) : s.wakeConverter.ReceiveAll sides := by
  unfold State.wakeConverter
  split
  · exact h
  · exact h.searchConverter

theorem voidConversion {s : State} (h : s.ReceiveAll sides) (l : LineNo) (hit : Side → Bool) :
    (s.voidConversion l hit).ReceiveAll sides := by
  unfold State.voidConversion
  split
  · exact h
  · split
    · exact h.lines rfl
    · exact h

theorem setChannel {s : State} (h : s.ReceiveAll sides) (l : LineNo) (side : Side) (c : LoopChannel) :
    (s.modLine l fun x => x.setChannel side c).ReceiveAll sides := by
  cases side <;> exact h.modLine_same rfl rfl

theorem sendLoopChanged {s : State} (h : s.ReceiveAll sides) (l : LineNo) (was now : LoopState) :
    (s.sendLoopChanged l was now).ReceiveAll sides := by
  unfold State.sendLoopChanged
  split
  · split
    · exact h
    · exact h
    all_goals exact h.works (.takeBreakIn ..)
  · split
    · exact h.works (.modSend ..)
    · exact h

theorem classify {s : State} (h : s.ReceiveAll sides) (l : LineNo) (side : Side) (value : Nat) :
    (s.classify l side value).ReceiveAll sides := by
  unfold State.classify
  dsimp only
  have hs := fun c => h.setChannel l side c
  split
  · exact hs _
  · cases side
    · exact ReceiveAll.works (hs _) (.postLine ..)
    · exact sendLoopChanged (ReceiveAll.works (hs _) (.postLine ..)) ..

theorem unmeasure {s : State} (h : s.ReceiveAll sides) (l : LineNo) (side : Side) : (s.unmeasure l side).ReceiveAll sides := by
  unfold State.unmeasure
  dsimp only
  split
  · exact h.setChannel ..
  · exact (h.setChannel ..).works (.postLine ..)

theorem resetChannel {s : State} (h : s.ReceiveAll sides) (l : LineNo) (side : Side) : (s.resetChannel l side).ReceiveAll sides :=
  (h.voidConversion ..).unmeasure ..

theorem endConversion {s : State} (h : s.ReceiveAll sides) : s.endConversion.ReceiveAll sides := by
  unfold State.endConversion
  split
  · exact h
  · have hs : State.ReceiveAll sides { s with converter := { s.converter with conversion := none } } := h.lines rfl
    dsimp only
    split
    · exact hs.searchConverter
    · exact (hs.classify ..).searchConverter

theorem endFrame {s : State} (h : s.ReceiveAll sides) (l : LineNo) : (s.endFrame l).ReceiveAll sides := by
  unfold State.endFrame
  dsimp only
  split
  · exact (h.works (Works.after (.request ..) (.modSend ..))).wakeConverter
  · exact (h.works (.modSend ..)).wakeConverter

theorem clearSending {s : State} (h : s.ReceiveAll sides) (l : LineNo) (state : SendState) :
    (s.clearSending l state).ReceiveAll sides := by
  have : (s.stopSendSide l state).ReceiveAll sides := by
    unfold State.stopSendSide
    dsimp only
    split
    · exact h.works (Works.after (.postLine ..) (.modSend ..))
    · exact h.works (.modSend ..)
  exact this.works (Works.after (.modEnc ..) (.abandonLine ..))

end State.ReceiveAll

/-! ## Reception -/

/-- The deviation of a transition is at most half a unit (R56). -/
theorem deviationOf_le (x u : Nat) : 2 * deviationOf x u ≤ u := by
  unfold deviationOf
  have := Nat.min_le_left (x % u) (u - x % u)
  have := Nat.min_le_right (x % u) (u - x % u)
  by_cases h : u = 0
  · subst h; simp
  · have := Nat.mod_lt x (Nat.pos_of_ne_zero h); omega

theorem Character.Lawful.transition {c : Character} (h : c.Lawful) (t : Nat) : (c.transition t).Lawful := by
  unfold Character.transition
  split
  · refine ⟨h.elements, ?_⟩
    have := h.deviation
    have := deviationOf_le (t - c.start) c.settings.unit
    simp only
    omega
  · exact h

/-- Distortion is at most 50 (R56). -/
theorem Character.Lawful.distortion {c : Character} (h : c.Lawful) : c.distortion ≤ 50 := by
  unfold Character.distortion
  have := h.deviation
  by_cases hu : c.settings.unit = 0
  · simp [hu]
  · have : 100 * c.deviation ≤ 50 * c.settings.unit := by omega
    exact Nat.div_le_of_le_mul (by omega)

/-- A running receiver replaced by another running one. -/
theorem Line.ReceiveOk.setRx {b : Bool} {x : Line} (h : x.ReceiveOk b) {y : Receiver} (hx : x.rx.state ≠ .disabled)
    (hy : y.state ≠ .disabled) (ho : y.state = .opened → y.space = none) (hr : y.Lawful) :
    Line.ReceiveOk b { x with rx := y } where
  disabled := ⟨fun k => absurd k hy, fun k => absurd (h.disabled.mpr k) hx⟩
  space := fun k => k.elim (fun e => absurd e hy) ho
  filter := h.filter
  receiver := hr

/-- A receiver with the last distortion, the quality figure, and a lawful character if any. -/
theorem Receiver.Lawful.of {x y : Receiver} (h : x.Lawful) (hd : y.distortion = x.distortion)
    (hq : y.quality = x.quality) (hc : ∀ c, y.state = .inCharacter c → c.Lawful) : y.Lawful :=
  ⟨hc, by rw [hd]; exact h.distortion, by rw [hq]; exact h.quality⟩

/-- The receiver after a report keeps the law. -/
theorem Line.ReceiveOk.reported {b : Bool} {x : Line} (h : x.ReceiveOk b) (v : Level) (t : Nat) :
    Line.ReceiveOk b { x with rx := x.reported v t } := by
  have hr := h.receiver
  by_cases hd : x.rx.state = .disabled
  · have : x.reported v t = x.rx := by unfold Line.reported; rw [hd]
    rw [this]; exact h
  · refine h.setRx hd ?_ ?_ (hr.of ?_ ?_ ?_)
    all_goals
      unfold Line.reported
      cases e : x.rx.state <;> cases v <;> simp only
    all_goals first
      | exact absurd e hd
      | (rw [e]; decide)
      | (intro k; cases k; done)
      | (rw [e]; intro k; cases k; done)
      | exact fun _ => h.space (.inr e)
      | simp
      | skip
    all_goals first
      | (exact ⟨by simp [Line.newCharacter], by simp [Line.newCharacter]⟩)
      | exact (hr.character _ e).transition t
      | skip
    all_goals intro c k
    all_goals rw [e] at k; cases k

namespace State.ReceiveAll

theorem report {s : State} (h : s.ReceiveAll sides) (l : LineNo) (v : Level) (t : Nat) : (s.report l v t).ReceiveAll sides := by
  unfold State.report
  dsimp only
  have hm := h.modLine (l := l) (f := fun x => { x with rx := x.reported v t }) fun k => k.reported v t
  split
  · exact hm.works (.postLine ..)
  · exact hm

/-- A filter that stays present. -/
theorem setFilter {s : State} (h : s.ReceiveAll sides) {l : LineNo} (f : InputFilter) (hf : (s.line l).filter ≠ none) :
    (s.modLine l fun x => { x with filter := some f }).ReceiveAll sides :=
  h.modLine fun k => ⟨k.disabled, k.space, ⟨fun e => by (cases e), fun e => absurd (k.filter.mpr e) hf⟩, k.receiver⟩

theorem completeChange {s : State} (h : s.ReceiveAll sides) (l : LineNo) : (s.completeChange l).ReceiveAll sides := by
  unfold State.completeChange
  split
  · exact h
  · rename_i e
    split
    · exact h
    · exact (h.setFilter _ (by rw [e]; simp)).report ..

theorem rawChanged {s : State} (h : s.ReceiveAll sides) (l : LineNo) : (s.rawChanged l).ReceiveAll sides := by
  unfold State.rawChanged
  split
  · exact h
  · rename_i e
    have hf := fun f => h.setFilter (l := l) f (by rw [e]; simp)
    dsimp only
    split
    · split
      · exact hf _
      · exact h
    · split
      · exact h
      · split
        · exact (hf _).completeChange l
        · exact hf _

theorem feedFilter {s : State} (h : s.ReceiveAll sides) (l : LineNo) (before : Level) : (s.feedFilter l before).ReceiveAll sides := by
  unfold State.feedFilter
  split
  · exact h
  · exact h.rawChanged l

/-- A change of the receiver in a running state. -/
theorem modRx {s : State} (h : s.ReceiveAll sides) {l : LineNo} {f : Receiver → Receiver} (hx : (s.line l).rx.state ≠ .disabled)
    (hy : (f (s.line l).rx).state ≠ .disabled)
    (ho : (f (s.line l).rx).state = .opened → (f (s.line l).rx).space = none) (hr : (f (s.line l).rx).Lawful) :
    (s.modRx l f).ReceiveAll sides := h.modLine fun k => k.setRx hx hy ho hr

theorem checkStart {s : State} (h : s.ReceiveAll sides) (l : LineNo) : (s.checkStart l).ReceiveAll sides := by
  unfold State.checkStart
  have hl := (h.line l).receiver
  refine h.modLine fun k => ?_
  dsimp only
  split
  · rename_i c e
    split
    · exact k.setRx (by rw [e]; simp) (by simp) (by simp) (hl.of rfl rfl (by simp))
    · refine k.setRx (by rw [e]; simp) (by simp) (by simp) (hl.of rfl rfl ?_)
      intro d x
      injection x with x; subst x
      exact ⟨(hl.character c e).elements, (hl.character c e).deviation⟩
  all_goals exact k

theorem sampleElement {s : State} (h : s.ReceiveAll sides) {l : LineNo}
    (hn : ∀ c, (s.line l).rx.state = .inCharacter c → c.elements.length < 5) : (s.sampleElement l).ReceiveAll sides := by
  unfold State.sampleElement
  have hl := (h.line l).receiver
  refine h.modLine fun k => ?_
  dsimp only
  split
  · rename_i c e
    refine k.setRx (by rw [e]; simp) (by simp) (by simp) (hl.of rfl rfl ?_)
    intro d x
    injection x with x; subst x
    refine ⟨?_, (hl.character c e).deviation⟩
    have := hn c e
    simp only [List.length_append, List.length_singleton]; omega
  all_goals exact k

theorem deliver {s : State} (h : s.ReceiveAll sides) {l : LineNo} {c : Character} (hc : c.Lawful) (good : Bool)
    (hs : (s.line l).rx.state = .idleMark ∨ (s.line l).rx.state = .spaceHold) : (s.deliver l c good).ReceiveAll sides := by
  have hm : ∀ (q : Nat) (w : Quality), q ≤ 255 →
      (s.modRx l fun x => { x with distortion := c.distortion, quality := q, qualityState := w }).ReceiveAll sides := by
    intro q w hq
    refine h.modRx ?_ ?_ ?_ ⟨?_, hc.distortion, hq⟩
    · rcases hs with x | x <;> rw [x] <;> decide
    · rcases hs with x | x <;> simp [x]
    · rcases hs with x | x <;> simp [x]
    · intro d x; rcases hs with y | y <;> (simp only [y] at x; cases x)
  have hq : ∀ q d, qualityAfter q d ≤ 255 := fun q d => Nat.min_le_right _ _
  unfold State.deliver
  dsimp only
  split
  · exact (hm _ _ (hq ..)).works (.decodeCode ..)
  · exact (hm _ _ (hq ..)).works (Works.after (.decodeCode ..) (.postLine ..))

theorem sampleStop {s : State} (h : s.ReceiveAll sides) (l : LineNo) : (s.sampleStop l).ReceiveAll sides := by
  unfold State.sampleStop
  have hl := (h.line l).receiver
  split
  · rename_i c e
    split
    · refine deliver (h.modRx (by rw [e]; simp) (by simp) (by simp) (hl.of rfl rfl (by simp))) (hl.character c e) true ?_
      simp
    · refine deliver (h.modRx (by rw [e]; simp) (by simp) (by simp) (hl.of rfl rfl (by simp))) (hl.character c e) false ?_
      simp
  all_goals exact h

theorem openLine {s : State} (h : s.ReceiveAll sides) {l : LineNo} (hd : (s.line l).rx.state ≠ .disabled) :
    (s.openLine l).ReceiveAll sides :=
  (h.modRx hd (by simp) (by simp) ((h.line l).receiver.of rfl rfl (by simp))).works
    (Works.after (.assemblerOpen ..) (.postLine ..))

/-! ## Line reset and mode changes -/

/-- A line whose receive side has begun afresh. -/
theorem startedLine {x y : Line} (t : Nat) (f : InputFilter) (e1 : y.rx = x.startedReceiver t) (e2 : y.filter = some f) :
    y.ReceiveOk true := by
  refine ⟨?_, ?_, ?_, ?_⟩
  · rw [e1]; exact ⟨fun k => by (cases k), fun k => by (cases k)⟩
  · rw [e1]; rintro (k | k) <;> cases k
  · rw [e2]; exact ⟨fun k => by (cases k), fun k => by (cases k)⟩
  · rw [e1]; exact ⟨fun c k => by (cases k), by show 0 ≤ 50; decide, by show 0 ≤ 255; decide⟩

theorem postReceiverReset {s : State} (h : s.ReceiveAll sides) (l : LineNo) (was : Receiver) (now : RxReport) :
    (s.postReceiverReset l was now).ReceiveAll sides := by
  unfold State.postReceiverReset
  dsimp only
  refine h.lines ?_
  split <;> split <;> simp

theorem resetReceiver {s : State} (h : s.ReceiveAll sides) {l : LineNo} (hm : sides l = true) :
    (s.resetReceiver l).ReceiveAll sides :=
  postReceiverReset (h.modLine fun _ => hm ▸ startedLine (x := s.line l) s.tick (s.line l).freshFilter rfl rfl) ..

/-- A removed receive side. -/
theorem disableReceiver {s : State} (h : s.ReceiveAll sides) (l : LineNo) :
    (s.disableReceiver l).ReceiveAll fun m => sides m && decide (m ≠ l) := by
  refine postReceiverReset ⟨fun m => ?_⟩ ..
  by_cases e : m = l
  · subst e
    simp only [line_modLine_same, ne_eq, not_true_eq_false, decide_false, Bool.and_false]
    exact ⟨⟨fun _ => rfl, fun _ => rfl⟩, fun _ => rfl, ⟨fun _ => rfl, fun _ => rfl⟩,
      ⟨fun c k => by (cases k), by show 0 ≤ 50; decide, by show 0 ≤ 255; decide⟩⟩
  · simpa [e] using h.line m

/-- An added receive side. -/
theorem addReceive {s : State} (h : s.ReceiveAll sides) (l : LineNo) :
    (s.addReceive l).ReceiveAll fun m => sides m || decide (m = l) := by
  refine ⟨fun m => ?_⟩
  by_cases e : m = l
  · subst e
    simp only [State.addReceive, line_modLine_same, decide_true, Bool.or_true]
    exact startedLine (x := s.line m) s.tick (s.line m).freshFilter rfl rfl
  · simpa [State.addReceive, e] using h.line m

theorem resetLine {s : State} (h : s.ReceiveAll sides) {l : LineNo}
    (hm : (s.line l).record.mode.hasReceive = true → sides l = true) : (s.resetLine l).ReceiveAll sides := by
  unfold State.resetLine
  dsimp only
  have h1 := h.when (c := (s.line l).record.mode.hasSend = true) fun _ => h.clearSending l (s.line l).record.restState
  have h2 := h1.when fun c : (s.line l).record.mode.hasReceive = true =>
    (h1.resetReceiver (hm c)).works (.resetAssembler _ l)
  have h3 := h2.when (c := (s.line l).record.mode.hasReceive = true) fun _ => h2.resetChannel l .receive
  have h4 := h3.when (c := (s.line l).record.mode.hasSend = true) fun _ => h3.resetChannel l .send
  exact h4.wakeConverter

/-- Taking a record keeps the law: a removed receive side is disabled, an added one begun; the line has then the receive side
of the new mode. -/
theorem takeRecord {s : State} (h : s.ReceiveAll sides) {l : LineNo} (r : LineRecord)
    (hl : sides l = (s.line l).record.mode.hasReceive) :
    (s.takeRecord l r).ReceiveAll fun m => if m = l then r.mode.hasReceive else sides m := by
  unfold State.takeRecord
  dsimp only
  rw [← hl]
  generalize hn : r.mode.hasReceive = n
  have h0 : (s.setLineRecord l { r with mode := (s.line l).record.mode.meet r.mode }).ReceiveAll sides :=
    h.modLine_same rfl rfl
  have h1 := h0.when (c := ((s.line l).record.mode.hasSend && !r.mode.hasSend) = true) fun _ =>
    (h0.clearSending l .off).resetChannel l .send
  have h2 : ∀ {t : State}, t.ReceiveAll sides →
      State.ReceiveAll (fun m => if m = l then sides m && n else sides m)
        (if (sides l && !n) = true then t.removeReceive l else t) := by
    intro t ht
    split
    · rename_i c
      have : (t.removeReceive l).ReceiveAll fun m => sides m && decide (m ≠ l) :=
        ((ht.disableReceiver l).works (.resetAssembler _ l)).resetChannel l .receive
      refine ⟨fun m => ?_⟩
      have := this.line m
      by_cases e : m = l
      · subst e
        have hc : n = false := by
          simp at c; exact c.2
        simpa [hc] using this
      · simpa [e] using this
    · rename_i c
      refine ⟨fun m => ?_⟩
      have := ht.line m
      by_cases e : m = l
      · subst e
        have hc : (sides m && n) = sides m := by
          cases hs : sides m <;> cases n <;> simp_all
        simp only [if_true, hc]; exact this
      · simpa [e] using this
  have h4 : ∀ {t : State}, State.ReceiveAll (fun m => if m = l then sides m && n else sides m) t →
      State.ReceiveAll (fun m => if m = l then n else sides m)
        (if (!sides l && n) = true then t.addReceive l else t) := by
    intro t ht
    split
    · rename_i c
      refine ⟨fun m => ?_⟩
      have := (ht.addReceive l).line m
      by_cases e : m = l
      · subst e
        have hc : n = true := by
          simp at c; exact c.2
        simpa [hc] using this
      · simpa [e] using this
    · rename_i c
      refine ⟨fun m => ?_⟩
      have := ht.line m
      by_cases e : m = l
      · subst e
        have hc : (sides m && n) = n := by
          cases hs : sides m <;> cases n <;> simp_all
        simp only [if_true, hc] at this ⊢; exact this
      · simpa [e] using this
  have h3 := h4 ((h2 h1).modLine_same (l := l) (f := fun x => { x with record := r }) rfl rfl)
  have h5 := h3.when (c := (!(s.line l).record.mode.hasSend && r.mode.hasSend) = true) fun _ =>
    h3.modLine_same (l := l) (f := fun x => { x with
      txLoop := unmeasuredChannel, dist := freshDistribution, enc := freshEncoder
      send := stoppedSendSide x.record.restState }) rfl rfl
  have hm : ∀ t : State, Works t (t.changeMotorControl l (s.line l).record.motorControl r.motorControl) := by
    intro t
    unfold State.changeMotorControl
    split
    · exact .refl t
    · split
      · exact .motorTurnedOn ..
      · exact .motorTurnedOff ..
  have h6 := h5.when (c := ((s.line l).record.mode.hasSend && r.mode.hasSend) = true) fun _ => h5.works (hm _)
  have h7 := h6.when (c := (sides l && n && (s.line l).record.framingDiffers r) = true) fun _ => h6.works (.commitHeld _ l)
  have h8 := h7.when (c := (sides l && n) = true) fun _ => h7.feedFilter l (s.line l).rawLevel
  exact h8.wakeConverter

end State.ReceiveAll

end Sys2Proof.Machine
end

