-- ==== Sys2Proof/Laws/Scheduling.lean ====
section
/-! SUPPORT. What the queue of the part's own events and the order of a line's decisions can do. -/

namespace Sys2Proof.Machine

/-- A decision is due at its tick, once the level there is settled and its turn has come (R49). -/
theorem Line.onceSettled_eq_some (x : Line) (t d : Nat) :
    x.onceSettled t = some d ↔ d = t ∧ x.settled d = true ∧ x.firstAt d = true := by
  unfold Line.onceSettled
  split
  · rename_i h
    simp only [Bool.and_eq_true] at h
    exact ⟨fun e => by cases e; exact ⟨rfl, h⟩, fun ⟨e, _⟩ => by rw [e]⟩
  · rename_i h
    simp only [Bool.and_eq_true] at h
    exact ⟨nofun, fun ⟨e, k⟩ => absurd (e ▸ k) h⟩

/-- The character of a receiver is the one it is in (R47). -/
theorem RxState.char_eq_some (r : RxState) (c : Character) : r.char = some c ↔ r = .inCharacter c := by
  cases r <;> simp [RxState.char]

/-- An event has come due exactly when its moment exists and time has reached it. -/
theorem isDue_iff (s : State) (c : Instr) : s.isDue c = true ↔ ∃ d, s.dueTick c = some d ∧ d ≤ s.tick := by
  unfold State.isDue
  cases s.dueTick c <;> simp

/-- The earliest of a list of events comes from the list, and no other is due before it. -/
theorem soonest_spec (s : State) : ∀ (es : List Instr) (c : Instr), s.soonest es = some c →
    c ∈ es ∧ ∀ e ∈ es, (s.dueTick c).getD 0 ≤ (s.dueTick e).getD 0
  | [], _, h => by simp [State.soonest] at h
  | e :: es, c, h => by
    unfold State.soonest at h
    cases k : s.soonest es with
    | none =>
      have : es = [] := by
        cases es with
        | nil => rfl
        | cons x xs =>
          unfold State.soonest at k
          split at k
          · cases k
          · split at k <;> cases k
      rw [k] at h
      subst this
      cases h
      simp
    | some d =>
      obtain ⟨mem, least⟩ := soonest_spec s es d k
      rw [k] at h
      dsimp only at h
      split at h <;> cases h
      · exact ⟨.head _, fun x hx => by
          rcases List.mem_cons.1 hx with rfl | hx
          · exact le_refl _
          · exact le_trans ‹_› (least x hx)⟩
      · exact ⟨.tail _ mem, fun x hx => by
          rcases List.mem_cons.1 hx with rfl | hx
          · exact le_of_not_ge ‹_›
          · exact least x hx⟩

/-- Only an empty list has no earliest event. -/
theorem soonest_none (s : State) (es : List Instr) : s.soonest es = none ↔ es = [] := by
  cases es with
  | nil => simp [State.soonest]
  | cons e es =>
    unfold State.soonest
    cases s.soonest es with
    | none => simp
    | some d => dsimp only; split <;> simp

/-- Among events due at one tick the first of the list is the earliest: an event is found when all before it are due later and
none after it is due sooner. -/
theorem soonest_eq (s : State) (c : Instr) (after : List Instr)
    (later : ∀ e ∈ after, (s.dueTick c).getD 0 ≤ (s.dueTick e).getD 0) : ∀ before : List Instr,
    (∀ e ∈ before, (s.dueTick c).getD 0 < (s.dueTick e).getD 0) → s.soonest (before ++ c :: after) = some c
  | [], _ => by
    rw [List.nil_append, State.soonest]
    cases k : s.soonest after with
    | none => rfl
    | some d => exact if_pos (later d (soonest_spec s after d k).1)
  | e :: before, h => by
    rw [List.cons_append, State.soonest, soonest_eq s c after later before fun x hx => h x (.tail _ hx)]
    exact if_neg (Nat.not_le.2 (h e (.head _)))

/-- A tick's turn has come on a line when neither its next sample nor the end of its space count lies before it (R49). -/
theorem firstAt_iff (x : Line) (t : Nat) :
    x.firstAt t = true ↔ (∀ c, x.rx.state = .inCharacter c → t ≤ c.nextTick) ∧ ∀ k, x.rx.space = some k → t ≤ k.begun + k.openTime := by
  unfold Line.firstAt Line.decisionTicks
  cases hs : x.rx.state <;> cases hk : x.rx.space <;> simp [RxState.char]

/-- A tick is settled when no change first seen at or before it is pending (R49). -/
theorem settled_iff (x : Line) (t : Nat) :
    x.settled t = true ↔ ∀ f p, x.filter = some f → f.pending = some p → t < p.since := by
  unfold Line.settled
  constructor
  · intro h f p hf hp
    simpa [hf, hp] using h
  · intro h
    split
    · rfl
    · split
      · rfl
      · exact decide_eq_true (h _ _ ‹_› ‹_›)

end Sys2Proof.Machine
end

