-- ==== Sys2Proof/Laws/Stories.lean ====
section
/-! SUPPORT. What the shared operations (notices, freeing, reclamation, allocation) keep of the laws of stories and lines (R91,
R96, R114): one lemma each. While an operation is under way some clauses wait: `Slack` says which. -/

namespace Sys2Proof.Machine

/-! ## The laws with slack -/

/-- What waits in the middle of an operation: the retention of records whose freeing test is still to come, the cell count of
records with a cell taken for a character still to be placed, the handles that have left a line's lists while the line is still
in their pending sets, the lines whose send side is still to be removed. -/
structure Slack where
  retained : Fin 256 → Prop
  cells : Fin 256 → Prop
  held : LineNo → List Handle
  mode : LineNo → Prop

/-- Nothing waits. -/
def Slack.nothing : Slack where
  retained := fun _ => False
  cells := fun _ => False
  held := fun _ => []
  mode := fun _ => False

/-- A record's retention waits too. -/
def Slack.retain (x : Slack) (i : Fin 256) : Slack := { x with retained := fun j => x.retained j ∨ j = i }

/-- A record's cell count waits too. -/
def Slack.grow (x : Slack) (i : Fin 256) : Slack := { x with cells := fun j => x.cells j ∨ j = i }

/-- Handles of a line wait. -/
def Slack.hold (x : Slack) (l : LineNo) (hs : List Handle) : Slack :=
  { x with held := fun m => if m = l then hs else x.held m }

/-- A line's send side waits to be removed. -/
def Slack.remove (x : Slack) (l : LineNo) : Slack := { x with mode := fun m => x.mode m ∨ m = l }

@[simp] theorem Slack.hold_held (x : Slack) (l : LineNo) (hs : List Handle) : (x.hold l hs).held l = hs := by simp [Slack.hold]

theorem Slack.hold_held_ne (x : Slack) {l m : LineNo} (hs : List Handle) (h : m ≠ l) : (x.hold l hs).held m = x.held m := by
  simp [Slack.hold, h]

theorem Slack.hold_hold (x : Slack) (l : LineNo) (hs ks : List Handle) : (x.hold l hs).hold l ks = x.hold l ks := by
  unfold Slack.hold
  congr 1
  funext m
  by_cases e : m = l <;> simp [e]

theorem Slack.hold_self (x : Slack) (l : LineNo) : x.hold l (x.held l) = x := by
  cases x
  unfold Slack.hold
  congr 1
  funext m
  by_cases e : m = l <;> simp [e]

/-- A story's law, its retention and its cell count waiting or not. -/
structure Story.Ok (waits grows : Prop) (st : Story) : Prop where
  holder : st.holder = none ↔ st.state ≠ .composing
  interest : ∀ p, st.holder = some p → st.interest.has p = true
  closed : st.closedStamp = none ↔ st.state ≠ .complete
  length : st.length ≤ Config.storyCap
  doubtful : st.doubtful ≤ st.length
  cells : ¬grows → st.chain.length = cellsFor st.length
  pending : st.pending ≠ 0 → st.state = .complete
  retained : ¬waits → st.state = .complete → st.interest.a = true ∨ st.interest.b = true ∨ st.pending ≠ 0

theorem Story.Ok.weaken {w w' g g' : Prop} {st : Story} (h : st.Ok w g) (hw : w → w') (hg : g → g') : st.Ok w' g' :=
  ⟨h.holder, h.interest, h.closed, h.length, h.doubtful, fun k => h.cells fun c => k (hg c), h.pending,
    fun k => h.retained fun c => k (hw c)⟩

theorem Story.lawful_iff (st : Story) : st.Lawful ↔ st.Ok False False :=
  ⟨fun h => ⟨h.holder, h.interest, h.closed, h.length, h.doubtful, fun _ => h.cells, h.pending, fun _ => h.retained⟩,
    fun h => ⟨h.holder, h.interest, h.closed, h.length, h.doubtful, h.cells id, h.pending, h.retained id⟩⟩

/-- The laws of stories and lines, with slack. -/
structure State.StoriesOk (x : Slack) (s : State) : Prop where
  story : ∀ i st, (s.record i).story = some st → st.Ok (x.retained i) (x.cells i)
  once : ∀ l, ((s.line l).dist.handles ++ x.held l).Nodup
  pending : ∀ l h, h ∈ (s.line l).dist.handles ++ x.held l ↔ ∃ st, s.storyOf h = some st ∧ lineIn st.pending l = true
  sendless : ∀ l, ¬x.mode l → (s.line l).record.mode.hasSend = false → (s.line l).dist.handles = []
  assembling : ∀ l h, (s.line l).asm.state.story = some h → ∃ st, s.storyOf h = some st ∧ st.state = .assembling
  alone : ∀ l m h, (s.line l).asm.state.story = some h → (s.line m).asm.state.story = some h → l = m

theorem State.storiesLawful_iff (s : State) : s.StoriesLawful ↔ s.StoriesOk .nothing := by
  refine ⟨fun h => ⟨fun i st e => (Story.lawful_iff st).mp (h.story i st e), fun l => ?_, fun l k => ?_, fun l _ => h.sendless l,
    h.assembling, h.alone⟩, fun h => ⟨fun i st e => (Story.lawful_iff st).mpr (h.story i st e), fun l => ?_, fun l k => ?_,
    fun l => h.sendless l id, h.assembling, h.alone⟩⟩
  · simpa [Slack.nothing] using h.once l
  · simpa [Slack.nothing] using h.pending l k
  · simpa [Slack.nothing] using h.once l
  · simpa [Slack.nothing] using h.pending l k

namespace State.StoriesOk

variable {x y : Slack} {s t : State}

/-- More may wait. -/
theorem weaken (h : s.StoriesOk x) (hr : ∀ i, x.retained i → y.retained i) (hc : ∀ i, x.cells i → y.cells i)
    (hh : y.held = x.held) (hm : ∀ l, x.mode l → y.mode l) : s.StoriesOk y :=
  ⟨fun i st e => (h.story i st e).weaken (hr i) (hc i), fun l => hh ▸ h.once l, fun l k => hh ▸ h.pending l k,
    fun l k => h.sendless l fun c => k (hm l c), h.assembling, h.alone⟩

theorem retain (h : s.StoriesOk x) (i : Fin 256) : s.StoriesOk (x.retain i) :=
  h.weaken (fun _ => .inl) (fun _ => id) rfl fun _ => id

end State.StoriesOk

/-! ## Changes that leave the records and what the lines hold as they are -/

theorem record_of_records {s t : State} (e : t.store.records = s.store.records) (i : Fin 256) : t.record i = s.record i := by
  simp [State.record, e]

theorem storyOf_of_records {s t : State} (e : t.store.records = s.store.records) (h : Handle) : t.storyOf h = s.storyOf h := by
  simp [State.storyOf, record_of_records e]

namespace State.StoriesOk

variable {x y : Slack} {s t : State}

/-- The laws look at the records, and at what lines hold, their modes and their open stories alone. -/
theorem same (h : s.StoriesOk x) (hr : t.store.records = s.store.records)
    (hd : ∀ l, (t.line l).dist.handles.Perm (s.line l).dist.handles)
    (hm : ∀ l, (t.line l).record.mode.hasSend = (s.line l).record.mode.hasSend)
    (ha : ∀ l, (t.line l).asm.state.story = (s.line l).asm.state.story) : t.StoriesOk x where
  story := fun i st e => h.story i st (by rwa [record_of_records hr] at e)
  once := fun l => ((hd l).append_right _).nodup_iff.mpr (h.once l)
  pending := fun l k => by
    rw [((hd l).append_right _).mem_iff, h.pending l k]
    simp [storyOf_of_records hr]
  sendless := fun l k e => by
    have := h.sendless l k (by rwa [hm] at e)
    have p := hd l
    rw [this] at p
    exact p.eq_nil
  assembling := fun l k e => by
    rw [ha] at e
    simpa [storyOf_of_records hr] using h.assembling l k e
  alone := fun l m k e f => h.alone l m k (by rwa [ha] at e) (by rwa [ha] at f)

/-- Changes that leave lines and records alone. -/
theorem apart (h : s.StoriesOk x) (hl : t.lines = s.lines) (hr : t.store.records = s.store.records) : t.StoriesOk x :=
  h.same hr (fun l => by rw [line_of_lines hl]) (fun l => by rw [line_of_lines hl]) fun l => by rw [line_of_lines hl]

/-- A change of one line that leaves what it holds, its mode and its open story as they are. -/
theorem modLine (h : s.StoriesOk x) {l : LineNo} {f : Line → Line}
    (hd : (f (s.line l)).dist.handles.Perm (s.line l).dist.handles)
    (hm : (f (s.line l)).record.mode.hasSend = (s.line l).record.mode.hasSend)
    (ha : (f (s.line l)).asm.state.story = (s.line l).asm.state.story) : (s.modLine l f).StoriesOk x := by
  refine h.same rfl (fun m => ?_) (fun m => ?_) fun m => ?_ <;> by_cases e : m = l
  · subst e; simpa using hd
  · simp [e]
  · subst e; simpa using hm
  · simp [e]
  · subst e; simpa using ha
  · simp [e]

theorem modSend (h : s.StoriesOk x) (l : LineNo) (f : SendSide → SendSide) : (s.modSend l f).StoriesOk x :=
  h.modLine (.refl _) rfl rfl

theorem modEnc (h : s.StoriesOk x) (l : LineNo) (f : Encoder → Encoder) : (s.modEnc l f).StoriesOk x :=
  h.modLine (.refl _) rfl rfl

theorem modAsm (h : s.StoriesOk x) {l : LineNo} {f : Assembler → Assembler}
    (ha : (f (s.line l).asm).state.story = (s.line l).asm.state.story) : (s.modAsm l f).StoriesOk x :=
  h.modLine (.refl _) rfl ha

end State.StoriesOk

/-! ## Notices and marks -/

@[simp] theorem post_store (s : State) (p : Port) (n : Notice) : (s.post p n).store = s.store := by cases p <;> rfl

@[simp] theorem postBoth_store (s : State) (n : Notice) : (s.postBoth n).store = s.store := by simp [State.postBoth]

@[simp] theorem postSet_store (s : State) (ps : PortSet) (n : Notice) : (s.postSet ps n).store = s.store := by
  unfold State.postSet; dsimp only; split <;> split <;> simp

@[simp] theorem postSubmitter_store (s : State) (w : Submitter) (n : Notice) : (s.postSubmitter w n).store = s.store := by
  cases w <;> simp [State.postSubmitter]

@[simp] theorem postLine_store (s : State) (l : LineNo) (side : Side) (r : LineReport) :
    (s.postLine l side r).store = s.store := by simp [State.postLine]

@[simp] theorem judgePool_records (s : State) : s.judgePool.store.records = s.store.records := by
  unfold State.judgePool; split <;> (try split) <;> simp

@[simp] theorem judgeExhausted_records (s : State) : s.judgeExhausted.store.records = s.store.records := by
  unfold State.judgeExhausted; split <;> simp

@[simp] theorem ringFor_lines_records (s : State) (p : Priority) :
    (s.ringFor p).lines = s.lines ∧ (s.ringFor p).store = s.store := by
  unfold State.ringFor; dsimp only; split <;> exact ⟨rfl, rfl⟩

namespace State.StoriesOk

variable {x y : Slack} {s : State}

theorem post (h : s.StoriesOk x) (p : Port) (n : Notice) : (s.post p n).StoriesOk x := h.apart (by simp) (by simp)

theorem postBoth (h : s.StoriesOk x) (n : Notice) : (s.postBoth n).StoriesOk x := h.apart (by simp) (by simp)

theorem postSet (h : s.StoriesOk x) (ps : PortSet) (n : Notice) : (s.postSet ps n).StoriesOk x := h.apart (by simp) (by simp)

theorem postSubmitter (h : s.StoriesOk x) (w : Submitter) (n : Notice) : (s.postSubmitter w n).StoriesOk x :=
  h.apart (by simp) (by simp)

theorem postLine (h : s.StoriesOk x) (l : LineNo) (side : Side) (r : LineReport) : (s.postLine l side r).StoriesOk x :=
  h.apart (by simp) (by simp)

theorem judgePool (h : s.StoriesOk x) : s.judgePool.StoriesOk x := h.apart (by simp) (by simp)

theorem judgeExhausted (h : s.StoriesOk x) : s.judgeExhausted.StoriesOk x := h.apart (by simp) (by simp)

theorem raiseExhausted (h : s.StoriesOk x) : s.raiseExhausted.StoriesOk x := h.apart rfl rfl

theorem ringFor (h : s.StoriesOk x) (p : Priority) : (s.ringFor p).StoriesOk x :=
  h.apart (ringFor_lines_records s p).1 (by rw [(ringFor_lines_records s p).2])

/-! ## Changes of one record -/

/-- A story replaced in its record: its pending set stays, and so does ASSEMBLING. -/
theorem setStory (h : s.StoriesOk x) {i : Fin 256} {st st' : Story} (e : (s.record i).story = some st)
    (hp : st'.pending = st.pending) (ha : st.state = .assembling → st'.state = .assembling)
    (hok : st.Ok (x.retained i) (x.cells i) → st'.Ok (y.retained i) (y.cells i))
    (hr : ∀ j, j ≠ i → x.retained j → y.retained j) (hc : ∀ j, j ≠ i → x.cells j → y.cells j)
    (hh : y.held = x.held) (hm : ∀ l, x.mode l → y.mode l) :
    (s.setRecord i { generation := (s.record i).generation, story := some st' }).StoriesOk y := by
  have key : ∀ k : Handle, ∀ P : Story → Prop, (P st ↔ P st') →
      ((∃ z, (s.setRecord i { generation := (s.record i).generation, story := some st' }).storyOf k = some z ∧ P z) ↔
        ∃ z, s.storyOf k = some z ∧ P z) := by
    intro k P hP
    unfold State.storyOf
    by_cases hk : k.index = i
    · subst hk
      rw [record_setRecord_same, e]
      dsimp only
      by_cases g : (s.record k.index).generation = k.generation
      · simp [g, hP]
      · simp [g]
    · rw [record_setRecord_ne _ _ _ _ hk]
  refine ⟨fun j z ez => ?_, fun l => ?_, fun l k => ?_, fun l k em => ?_, fun l k ek => ?_, fun l m k e1 e2 => ?_⟩
  · by_cases hj : j = i
    · subst hj
      rw [record_setRecord_same] at ez
      cases ez
      exact hok (h.story j st e)
    · rw [record_setRecord_ne _ _ _ _ hj] at ez
      exact (h.story j z ez).weaken (hr j hj) (hc j hj)
  · rw [hh]; exact h.once l
  · rw [hh]
    exact (h.pending l k).trans (key k (fun z => lineIn z.pending l = true) (by rw [hp])).symm
  · exact h.sendless l (fun c => k (hm l c)) em
  · obtain ⟨z, e1, e2⟩ := h.assembling l k ek
    by_cases hk : k.index = i
    · subst hk
      obtain ⟨g1, g2⟩ := storyOf_eq_some e1
      rw [e] at g2
      cases g2
      refine ⟨st', ?_, ha e2⟩
      simp [State.storyOf, g1]
    · exact ⟨z, by simpa [State.storyOf, record_setRecord_ne _ _ _ _ hk] using e1, e2⟩
  · exact h.alone l m k e1 e2

/-- A story of a handle changed, its pending set and its law kept. -/
theorem modStory (h : s.StoriesOk x) (k : Handle) {f : Story → Story}
    (hf : ∀ st, s.storyOf k = some st → (f st).pending = st.pending ∧ (st.state = .assembling → (f st).state = .assembling) ∧
      (st.Ok (x.retained k.index) (x.cells k.index) → (f st).Ok (x.retained k.index) (x.cells k.index))) :
    (s.modStory k f).StoriesOk x := by
  cases e : s.storyOf k with
  | none => simpa [State.modStory, e] using h
  | some st =>
    obtain ⟨g1, g2⟩ := storyOf_eq_some e
    obtain ⟨h1, h2, h3⟩ := hf st e
    rw [modStory_some e, ← g1]
    exact h.setStory g2 h1 h2 h3 (fun _ _ => id) (fun _ _ => id) rfl fun _ => id

end State.StoriesOk

/-! ## Freeing -/

theorem freeStory_records (s : State) {i : Fin 256} {st : Story} (e : (s.record i).story = some st) {tell : State → State}
    (ht : ∀ t, (tell t).store.records = t.store.records) :
    (s.freeStory i tell).store.records =
      s.store.records.set i.val { generation := (s.record i).generation + 1, story := none } := by
  unfold State.freeStory
  rw [e]
  simp [ht, Store.release, State.record]

theorem record_set {s t : State} {i : Fin 256} {r : StoryRecord} (e : t.store.records = s.store.records.set i.val r)
    (j : Fin 256) : t.record j = if j = i then r else s.record j := by
  have := record_of_records (s := s.setRecord i r) (t := t) e j
  rw [this]
  split
  · rename_i h; subst h; simp
  · rename_i h; simp [h]

/-- After a freeing no handle names the freed record, and every other handle names what it named. -/
theorem storyOf_freed {s t : State} {i : Fin 256} {g : Fin 16}
    (e : t.store.records = s.store.records.set i.val { generation := g, story := none }) (k : Handle) :
    t.storyOf k = if k.index = i then none else s.storyOf k := by
  unfold State.storyOf
  rw [record_set e]
  split <;> simp

namespace State.StoriesOk

variable {x y : Slack} {s : State}

/-- A freeing of a story that waits on no line and is not ASSEMBLING; what waited for its record waits no more. -/
theorem freeStory (h : s.StoriesOk x) {i : Fin 256} {st : Story} (e : (s.record i).story = some st) (hp : st.pending = 0)
    (ha : st.state ≠ .assembling) {tell : State → State} (ht : ∀ t, (tell t).store.records = t.store.records)
    (hl : ∀ t, (tell t).lines = t.lines)
    (hr : ∀ j, j ≠ i → x.retained j → y.retained j) (hc : ∀ j, j ≠ i → x.cells j → y.cells j)
    (hh : y.held = x.held) (hm : ∀ l, x.mode l → y.mode l) : (s.freeStory i tell).StoriesOk y := by
  have er := freeStory_records s e ht
  have el : ∀ l, (s.freeStory i tell).line l = s.line l := fun l => line_of_lines (freeStory_lines s i hl) l
  have old : ∀ k st', k.index = i → s.storyOf k = some st' → st' = st := by
    intro k st' hk e'
    have := (storyOf_eq_some e').2
    rw [hk, e] at this
    cases this
    rfl
  refine ⟨fun j z ez => ?_, fun l => ?_, fun l k => ?_, fun l k em => ?_, fun l k ek => ?_, fun l m k e1 e2 => ?_⟩
  · rw [record_set er] at ez
    split at ez
    · cases ez
    · rename_i hj
      exact (h.story j z ez).weaken (hr j hj) (hc j hj)
  · rw [el, hh]; exact h.once l
  · rw [el, hh, h.pending l k, storyOf_freed er]
    split
    · rename_i hk
      refine ⟨?_, fun ⟨_, c, _⟩ => by cases c⟩
      rintro ⟨z, e1, e2⟩
      rw [old k z hk e1, hp] at e2
      simp [lineIn] at e2
    · rfl
  · rw [el] at em ⊢; exact h.sendless l (fun c => k (hm l c)) em
  · rw [el] at ek
    obtain ⟨z, e1, e2⟩ := h.assembling l k ek
    rw [storyOf_freed er]
    split
    · rename_i hk
      rw [old k z hk e1] at e2
      exact absurd e2 ha
    · exact ⟨z, e1, e2⟩
  · rw [el] at e1 e2; exact h.alone l m k e1 e2

/-- The freeing test of a record settles its retention (R96). -/
theorem freeingTest {i : Fin 256} (h : s.StoriesOk (x.retain i)) : (s.freeingTest i).StoriesOk x := by
  have settle : (∀ st, (s.record i).story = some st → st.Ok (x.retained i) (x.cells i)) → s.StoriesOk x := by
    intro hs
    refine ⟨fun j z ez => ?_, h.once, h.pending, h.sendless, h.assembling, h.alone⟩
    by_cases hj : j = i
    · subst hj; exact hs z ez
    · exact (h.story j z ez).weaken (fun c => c.resolve_right hj) id
  unfold State.freeingTest
  split
  · rename_i e
    exact settle fun st c => by rw [e] at c; cases c
  · rename_i st e
    split
    · rename_i hu
      simp only [Story.unretained, Bool.and_eq_true, decide_eq_true_eq] at hu
      exact h.freeStory e hu.2 (by rw [hu.1.1.1]; simp) (fun _ => rfl) (fun _ => rfl) (fun j hj c => c.resolve_right hj)
        (fun _ _ => id) rfl fun _ => id
    · rename_i hu
      refine settle fun z ez => ?_
      rw [e] at ez
      cases ez
      have k := h.story i st e
      refine ⟨k.holder, k.interest, k.closed, k.length, k.doubtful, k.cells, k.pending, fun _ hc => ?_⟩
      by_contra hn
      simp only [not_or, Bool.not_eq_true, ne_eq, not_not] at hn
      exact hu (by simp [Story.unretained, hc, hn.1, hn.2.1, hn.2.2])

end State.StoriesOk

/-! ## Reclamation -/

theorem pickVictim_candidate (rs : List StoryRecord) (i : Nat) (best : Option (Nat × Story)) {j : Nat} {st : Story}
    (h : pickVictim rs i best = some (j, st)) :
    best = some (j, st) ∨ ∃ k r, rs[k]? = some r ∧ j = i + k ∧ r.story = some st ∧ st.candidate = true := by
  induction rs generalizing i best with
  | nil => exact .inl h
  | cons r rs ih =>
    unfold pickVictim at h
    rcases ih _ _ h with e | ⟨k, q, e1, e2, e3⟩
    · split at e
      · exact .inl e
      · split at e
        · cases e; exact .inr ⟨0, r, rfl, rfl, by assumption, by assumption⟩
        · cases e
      · split at e
        · rename_i hc
          cases e
          exact .inr ⟨0, r, rfl, rfl, by assumption, by simpa using (Bool.and_eq_true _ _ ▸ hc).1⟩
        · exact .inl e
    · exact .inr ⟨k + 1, q, by simpa using e1, by omega, e3⟩

/-- The next victim is a COMPLETE story that waits on no line (R101). -/
theorem victim_candidate {x : Store} {i : Fin 256} {st : Story} (h : x.victim = some (i, st)) :
    (x.records.get i).story = some st ∧ st.state = .complete ∧ st.pending = 0 := by
  unfold Store.victim at h
  obtain ⟨⟨j, z⟩, e, k⟩ := Option.map_eq_some_iff.mp h
  cases k
  rcases pickVictim_candidate _ _ _ e with c | ⟨k, r, e1, e2, e3, e4⟩
  · cases c
  · obtain ⟨hk, e5⟩ := List.getElem?_eq_some_iff.mp e1
    have hk' : k < 256 := by simpa using hk
    subst e2
    have : x.records.get (Fin.ofNat 256 (0 + k)) = r := by
      simp only [Vector.get_eq_getElem, ← e5, Vector.getElem_toList, Fin.val_ofNat, Nat.zero_add]
      congr 1
      exact Nat.mod_eq_of_lt hk'
    simp only [Story.candidate, Bool.and_eq_true, decide_eq_true_eq] at e4
    exact ⟨by rw [this]; exact e3, e4.1, e4.2⟩

/-- A reclamation leaves every record that is not of a COMPLETE story as it is. -/
theorem reclaim_record {s : State} (done : Store → Bool) (n : Nat) {i : Fin 256} {st : Story}
    (e : (s.record i).story = some st) (hc : st.state ≠ .complete) : (s.reclaim done n).record i = s.record i := by
  induction n generalizing s with
  | zero => rfl
  | succ n ih =>
    unfold State.reclaim
    split
    · rfl
    · split
      · rfl
      · rename_i j z hv
        obtain ⟨e1, e2, e3⟩ := victim_candidate hv
        have hj : i ≠ j := by
          rintro rfl
          have : (s.record i).story = some z := e1
          rw [e] at this
          cases this
          exact hc e2
        have er := freeStory_records s (i := j) (st := z) e1
          (tell := fun t => t.postSet z.interest (discardNotice (s.handleAt j) z .reclaim)) fun _ => by simp
        have : (s.freeVictim j z).record i = s.record i := by
          unfold State.freeVictim
          rw [record_set er, if_neg hj]
        rw [ih (by rw [this]; exact e), this]

namespace State.StoriesOk

variable {x y : Slack} {s : State}

theorem reclaim (h : s.StoriesOk x) (done : Store → Bool) (n : Nat) : (s.reclaim done n).StoriesOk x := by
  induction n generalizing s with
  | zero => exact h
  | succ n ih =>
    unfold State.reclaim
    split
    · exact h
    · split
      · exact h
      · rename_i i st hv
        obtain ⟨e1, e2, e3⟩ := victim_candidate hv
        exact ih (h.freeStory e1 e3 (by rw [e2]; simp) (fun _ => by simp) (fun _ => by simp) (fun _ _ => id) (fun _ _ => id)
          rfl fun _ => id)

theorem afterAllocation (h : s.StoriesOk x) : s.afterAllocation.StoriesOk x := h.judgePool.judgeExhausted.reclaim _ _

end State.StoriesOk

/-! ## Storing -/

/-- Cells taken for a story: its record has them at its tail, and nothing else of the records changes. -/
theorem allocate_records {s : State} {i : Fin 256} {st : Story} (e : (s.record i).story = some st) (n : Nat) :
    (s.modStore fun z => z.allocate i n).store.records =
      s.store.records.set i.val
        { generation := (s.record i).generation, story := some { st with chain := st.chain ++ s.store.freeList.take n } } := by
  have e' : (s.store.records.get i).story = some st := e
  simp [Store.allocate, e', State.record]

theorem afterAllocation_record {s : State} {i : Fin 256} {st : Story} (e : (s.record i).story = some st)
    (hc : st.state ≠ .complete) : s.afterAllocation.record i = s.record i := by
  unfold State.afterAllocation
  have h1 : s.judgePool.judgeExhausted.record i = s.record i := record_of_records (by simp) i
  rw [reclaim_record _ _ (by rw [h1]; exact e) hc, h1]

namespace State.StoriesOk

variable {x y : Slack} {s : State}

theorem allocate (h : s.StoriesOk x) {i : Fin 256} {st : Story} (e : (s.record i).story = some st) (n : Nat) :
    (s.modStore fun z => z.allocate i n).StoriesOk (x.grow i) := by
  refine State.StoriesOk.apart (s := s.setRecord i _) (h.setStory (y := x.grow i) (st' := { st with chain := st.chain ++ s.store.freeList.take n })
    e rfl id (fun k => ?_) (fun _ _ => id) (fun _ _ => .inl) rfl fun _ => id) rfl (allocate_records e n)
  exact ⟨k.holder, k.interest, k.closed, k.length, k.doubtful, fun c => absurd (.inr rfl) c, k.pending, k.retained⟩

/-- A line's cell request for a story that is not COMPLETE (R79, R100): a cell given is at the tail of the story's chain. -/
theorem requestCell (h : s.StoriesOk x) {i : Fin 256} {st : Story} (e : (s.record i).story = some st)
    (hc : st.state ≠ .complete) :
    ((s.requestCell i).1 = false → (s.requestCell i).2.StoriesOk x ∧ (s.requestCell i).2.record i = s.record i) ∧
      ((s.requestCell i).1 = true → (s.requestCell i).2.StoriesOk (x.grow i) ∧
        ∃ c, (s.requestCell i).2.record i =
          { generation := (s.record i).generation, story := some { st with chain := st.chain ++ [c] } }) := by
  have give : ∀ t : State, t.StoriesOk x → t.record i = s.record i → t.store.freeList ≠ [] →
      (t.modStore fun z => z.allocate i 1).afterAllocation.StoriesOk (x.grow i) ∧
        ∃ c, (t.modStore fun z => z.allocate i 1).afterAllocation.record i =
          { generation := (s.record i).generation, story := some { st with chain := st.chain ++ [c] } } := by
    intro t ht er hf
    have et : (t.record i).story = some st := by rw [er]; exact e
    refine ⟨(ht.allocate et 1).afterAllocation, ?_⟩
    obtain ⟨c, rest, ef⟩ := List.exists_cons_of_ne_nil hf
    have e1 : (t.modStore fun z => z.allocate i 1).record i =
        { generation := (t.record i).generation, story := some { st with chain := st.chain ++ [c] } } := by
      rw [record_set (allocate_records et 1), if_pos rfl, ef]
      rfl
    exact ⟨c, by rw [afterAllocation_record (congrArg StoryRecord.story e1) hc, e1, er]⟩
  unfold State.requestCell
  split
  · dsimp only
    have hr := reclaim_record Store.cellReady victimRounds e hc
    split
    · rename_i hd
      refine ⟨nofun, fun _ => give _ (h.reclaim ..) hr ?_⟩
      simp only [Store.cellReady, Bool.and_eq_true, Bool.not_eq_true'] at hd
      intro k
      simp [k] at hd
    · exact ⟨fun _ => ⟨h.reclaim .., hr⟩, nofun⟩
  · rename_i hd
    exact ⟨nofun, fun _ => give s h rfl fun k => hd (by simp [k])⟩

/-- A line's record request (R94, R100). -/
theorem requestRecord (h : s.StoriesOk x) : s.requestRecord.2.StoriesOk x := by
  unfold State.requestRecord
  split
  · exact h
  · dsimp only
    split <;> exact h.reclaim _ _

end State.StoriesOk

end Sys2Proof.Machine
end

