-- ==== Sys2Proof/Tests/Slice0.lean ====
section
/-! SUPPORT. The model's own tests: ill-formed commands, single steps against the spec's worked examples and rules, and for
every statement with hypotheses a state and operands that meet them, clause by clause. -/

-- One test after the other: side by side they take more threads than the check's memory limit holds.
set_option Elab.async false

namespace Sys2Proof.Tests

open Sys2Proof.Machine

/-! ## Well-formedness -/

theorem test_wellFormed_rate_at_limits :
    Instr.wellFormed (.status .a ⟨64, []⟩) = true ∧ Instr.wellFormed (.status .a ⟨3840, []⟩) = true := by decide

theorem test_illFormed_rate_below : Instr.wellFormed (.status .a ⟨63, []⟩) = false := by decide

theorem test_illFormed_rate_above : Instr.wellFormed (.readLine .b ⟨3841, [0]⟩) = false := by decide

theorem test_illFormed_payload_too_long :
    Instr.wellFormed (.appendText .a ⟨64, List.replicate 250 0⟩) = true ∧
      Instr.wellFormed (.appendText .a ⟨64, List.replicate 251 0⟩) = false := by decide +kernel

theorem test_illFormed_line_control_too_long :
    Instr.wellFormed (.lineControlHold .a ⟨64, List.replicate 249 0⟩) = true ∧
      Instr.wellFormed (.lineControlHold .a ⟨64, List.replicate 250 0⟩) = false := by decide +kernel

theorem test_illFormed_known_code_as_unknown :
    Instr.wellFormed (.unknownCommand .a 0x00 ⟨64, []⟩) = true ∧ Instr.wellFormed (.unknownCommand .a 0x28 ⟨64, []⟩) = false := by
  decide

theorem test_illFormed_changes_out_of_order :
    Instr.wellFormed (.frameStart .a 5 64 .space [90]) = true ∧ Instr.wellFormed (.frameStart .a 5 64 .mark [90]) = false ∧
      Instr.wellFormed (.frameStart .a 5 64 .space [69]) = false ∧ Instr.wellFormed (.frameStart .a 5 0 .mark []) = false ∧
      Instr.wellFormed (.byteStopSample .a .mark [9, 8]) = false ∧ Instr.wellFormed (.frameComplete .a .mark [9, 9]) = false := by
  decide

/-! ## The spec's worked examples -/

/-- 1.8, the reverse lookups in slot 0. -/
theorem test_reverse_lookups :
    fixedTable.reverse .letters 0x41 = some 3 ∧ fixedTable.reverse .letters 0x61 = some 3 ∧
      fixedTable.reverse .figures 0x35 = some 16 ∧ fixedTable.reverse .letters 0x35 = none ∧
      fixedTable.commonSpace = some 4 ∧ fixedTable.reverse .figures 0x07 = some 11 ∧ fixedTable.represents 0x0D = false ∧
      fixedTable.represents 0x24 = false ∧ fixedTable.reverse .letters 0x65 = some 1 := by decide +kernel

/-- 2.8, a record with values out of range. -/
theorem test_clamped_record :
    let r : LineRecord :=
      { defaultRecord with
        unit := 16000, openThreshold := 70, lowThreshold := 40, poorThreshold := 20, goodThreshold := 30
        refreshInterval := 5, startDelay := 2750, width := 72 }
    let c := r.clamped
    c.unit = 20480 ∧ c.openThreshold = 64 ∧ c.lowThreshold = 65 ∧ c.poorThreshold = 20 ∧ c.goodThreshold = 19 ∧
      c.refreshInterval = 8 ∧ c.startDelay = 2700 ∧ c.width = 72 ∧ c.effectiveOpen = 6144000 ∧ clampSlot 6 = 3 := by decide

/-- 3.8, the readings of 20 mA and 60 mA. -/
theorem test_readings : reading 20000 = 51 ∧ reading 60000 = 153 ∧ reading (-60000) = 153 ∧ reading 100000 = 255 := by decide

/-- 3.8, a break under the printer: readings 2 to 4, and 5 to 9. -/
theorem test_break_under_printer :
    let c : LoopChannel := { loop := .normal, candidate := none, run := 0 }
    let read := fun (c : LoopChannel) (v : Nat) => c.classified (defaultRecord.classOf .send v)
    (read (read c 0) 0).loop = .normal ∧ (read (read (read c 0) 0) 0).loop = .opened ∧
      (read (read (read (read (read (read (read (read c 0) 0) 0) 51) 30) 51) 51) 52).loop = .normal ∧
      (read (read (read (read (read (read (read c 0) 0) 0) 51) 30) 51) 51).loop = .opened := by decide

/-- 4.9, one character measured: its three transitions and its elements. -/
theorem test_one_character :
    let c : Character :=
      { start := 0, settings := { unit := 90112, limit := 35, poor := 48, good := 24 }, confirmed := true
        elements := [.mark, .mark, .mark, .mark, .space], deviation := 0 }
    let d := ((c.transition 96000).transition 455000).transition 543000
    d.deviation = 5888 ∧ d.distortion = 6 ∧ elementsCode c.elements = 15 ∧ c.startCheckTick = 45056 ∧
      c.elementTick 1 = 135168 ∧ c.elementTick 5 = 495616 ∧ c.stopTick = 585728 := by decide

/-- 4.9, a quality run. -/
theorem test_quality_run :
    qualityAfter 0 true = 16 ∧ qualityAfter 16 true = 31 ∧ qualityAfter 46 true = 60 ∧ qualityAfter 60 false = 57 ∧
      Quality.judged .good 60 48 24 = .poor ∧ Quality.judged .poor 24 48 24 = .poor ∧ Quality.judged .poor 23 48 24 = .good := by
  decide

/-- 8.8, a line wrap: the '1' at column 69, and the frame of 150 ms. -/
theorem test_line_wrap :
    let copy := defaultRecord.copy
    let e : Encoder := { freshEncoder with encCase := .letters, column := 69 }
    (e.treat fixedTable copy 0x31).codes = [8, 8, 2, 31] ∧
      ({ freshEncoder with encCase := .letters, column := 0 }.treat fixedTable copy 0x31).codes = [27, 23] ∧
      CodeFrame.endTick { code := 0, start := 0, unit := 81920, stopLength := 24, keying := .neutral, element := 0 } = 614400 := by
  decide +kernel

/-- 8.8, the first item of a framed story from reset. -/
theorem test_first_item : (freshEncoder.treat fixedTable defaultRecord.copy 0x5A).codes = [31, 17] := by decide +kernel

/-- 10.6, the STATUS response of 51 bytes at 9,600 baud. -/
theorem test_status_response :
    (responseBytes 0x01 .done State.reset.statusBytes).length = 51 ∧ byteTicks 3413 = 4266 := by decide +kernel

/-- 11.3, a BULLETIN and then a FLASH request in its second burst. -/
theorem test_bell_counts :
    let s := State.reset.ringFor .bulletin
    s.room.bell.remaining = 3 ∧
      ((s.modRoom fun r => { r with bell := { r.bell with remaining := 2 } }).ringFor .flash).room.bell.remaining = 5 := by
  decide +kernel

/-! ## Small states -/

/-- Line 3 as BOTH, idle on both sides. -/
def bothLine : Line :=
  { powerOnLine with
    record := { defaultRecord with mode := .both }
    filter := some { level := .mark, pending := none }
    rx := { disabledReceiver with state := .idleMark, level := some { level := .mark, since := 0 } }
    send := { offSendSide with state := .idle } }

/-- The part with line 3 made of that line. -/
def withLine (f : Line → Line) : State := State.reset.modLine 3 fun _ => f bothLine

/-- A handle. -/
def h0 : Handle := { index := 0, generation := 0 }

/-- A COMPOSING story of port A with 33 characters. -/
def story0 : Story :=
  { state := .composing, origin := .desk .a, priority := .routine, truncated := false, unterminated := false, length := 33
    chain := [0, 1], doubtful := 0, openedStamp := { day := 0, second := 0 }, closedStamp := none, holder := some .a
    interest := { a := true, b := false }, pending := 0 }

/-- A state with that story, changed, in record 0. -/
def putStory (s : State) (f : Story → Story) : State := s.setRecord 0 { generation := 0, story := some (f story0) }

/-- A distribution entry of that story. -/
def entry0 : DistEntry :=
  { handle := h0, priority := .routine, submitter := .port .a, resumeOffset := 7, lineStart := 5, substitutions := 1 }

/-- A transmission of it. -/
def sending0 : Transmission := { entry := entry0, phase := .text, withdrawn := false }

/-- A timer loaded at power-on with 250 ms. -/
def timer0 : Timer := { loadedAt := 0, ms := 250 }

/-- A character of which `n` elements have been sampled. -/
def char0 (confirmed : Bool) (n : Nat) : Character :=
  { start := 10, settings := { unit := 90112, limit := 35, poor := 48, good := 24 }, confirmed := confirmed
    elements := List.replicate n .mark, deviation := 0 }

/-- Both ports are ready after power-on, whatever a line or a record is. -/
theorem ready_of_ports {s : State} (p : Port) (h : s.port p = State.reset.port p) : (s.port p).ready := by
  rw [h]; cases p <;> exact ⟨rfl, rfl⟩

/-- The input filter of line 3 at a level, with or without a pending change. -/
def filtered (v : Level) (p : Option PendingChange) (t : FilterTime) (x : Line) : Line :=
  { x with filter := some { level := v, pending := p }, record := { x.record with inputFilter := t } }

/-- Line 3 in a character, its level held from a tick. -/
def receiving (c : Character) (v : LevelSince) : State :=
  withLine fun x => { x with rx := { x.rx with state := .inCharacter c, level := some v } }

/-- A frame of line 3 whose element `n` is on the loop. -/
def frame0 (n : Nat) : CodeFrame := { code := 21, start := 0, unit := 90112, stopLength := 24, keying := .neutral, element := n }

/-- Line 3 with motor control and a send side. -/
def motored (y : SendSide → SendSide) (q : List DistEntry) : State :=
  withLine fun x =>
    { x with
      record := { x.record with motorControl := true, startDelay := 100, breakPolicy := .auto }
      send := y { x.send with motor := true }
      dist := { x.dist with queue := q } }

/-- Port A within a frame whose bytes so far are given, its fourth byte in progress, begun at tick 100. -/
def inFrame (received : List Byte) (q : DeskPort → DeskPort) : State :=
  State.reset.modPort .a fun x =>
    q { x with link := .inFrame, rate := some 64, received := received, byteStart := some 100 }

/-! ## Single steps -/

/-- The state that an outcome leads to. -/
def after : Host.Outcome State Fault Refusal → State
  | .next s => s
  | .fault f => nomatch f
  | .refused _ => State.reset

/-- The bytes of a port's response. -/
def said (s : State) (p : Port) : List Byte := ((s.port p).response.map Response.bytes).getD []

theorem test_power_on_keeps_the_queue :
    (after (step { State.reset with tick := 9, pending := [.powerOn, .clockSecond] })).pending = [.clockSecond] := by decide

theorem test_idle_step_ticks : (after (step State.reset)).tick = 1 := by decide +kernel

/-- R188: day 1, second 86,399; the response has no payload and its bytes sum to 0 (R171, R173). -/
theorem test_set_clock :
    let s := after (exec (.setClock .a ⟨64, [1, 0, 0x7F, 0x51, 0x01, 0]⟩) State.reset)
    s.room.clock = { day := 1, second := 86399, millis := 0, isSet := true } ∧ said s .a = [0x80, 0x02, 0, 0, 0xFE] ∧
      (after (exec .clockSecond s)).room.clock = { day := 2, second := 0, millis := 0, isSet := true } := by decide +kernel

/-- R173: 0x29 names no command. -/
theorem test_unknown_command : said (after (exec (.unknownCommand .b 0x29 ⟨64, []⟩) State.reset)) .b = [0x80, 0x29, 1, 0, 0xD6] := by
  decide +kernel

/-- R104: the first story after power-on has the handle 0/0. -/
theorem test_open_story :
    let s := after (exec (.openStory .a ⟨64, [3]⟩) State.reset)
    said s .a = [0x80, 0x22, 0, 2, 0, 0, 0xDC] ∧ (s.storyOf h0).map Story.priority = some .routine ∧
      (s.storyOf h0).map Story.holder = some (some .a) := by decide +kernel

/-- R105: the first two characters take cell 0, the head of the free list (R89). -/
theorem test_append_text :
    let s := putStory State.reset fun st => { st with length := 0, chain := [] }
    let t := after (exec (.appendText .a ⟨64, [0, 0, 0x48, 0x49]⟩) s)
    (t.storyOf h0).map Story.chain = some [0] ∧ t.store.text.charAt [0] 1 = 0x49 ∧ t.store.freeCount = 4095 ∧
      t.store.freeList.head? = some 1 := by decide +kernel

/-- R34, R36: 20 mA on a marking threshold of 10.2 mA is mark; with a filter of 0.25 ms the change waits 1,024 ticks. -/
theorem test_raw_level_change :
    ((after (exec (.rawLevelChange 3 20000 50) (withLine (filtered .space none .quarter)))).line 3).filter =
      some { level := .space, pending := some { level := .mark, since := 50, filter := 1024 } } := by decide +kernel

/-- R51: mark at the start check is a glitch. -/
theorem test_start_check_glitch :
    ((after (exec (.startCheck 3) (receiving (char0 false 0) { level := .mark, since := 45066 }))).line 3).rx.state = .idleMark := by
  decide +kernel

/-- R53, R57: a space at the stop sample is a framing error; Q becomes 16. -/
theorem test_stop_sample_space :
    let x := (after (exec (.stopSample 3) (receiving (char0 true 5) { level := .space, since := 500000 }))).line 3
    x.rx.state = .spaceHold ∧ x.rx.quality = 16 ∧ x.rx.qualityState = .good := by decide +kernel

/-- R61: the open line is told to both ports. -/
theorem test_space_count_expiry :
    let s := withLine fun x => { x with rx := { x.rx with state := .spaceHold, space := some { begun := 0, openTime := 6144000 } } }
    let t := after (exec (.spaceCountExpiry 3) s)
    (t.line 3).rx.state = .opened ∧ t.tick = 6144000 ∧ t.portB.notices = [.lineState 3 .receive (.receiver .opened)] := by
  decide +kernel

/-- R116, R117, R155: submitted to an idle line without motor control, a story is current and its first code is on the loop:
code 31, for the first letter of the opening sequence. -/
theorem test_submit_starts_frame :
    let t := after (exec (.submitStory .a ⟨64, [0, 0, 8, 0]⟩) (putStory (withLine id) id))
    said t .a = [0x80, 0x24, 0, 2, 3, 0, 0xD7] ∧ (t.line 3).send.state = .sending ∧
      (t.line 3).send.frame.map CodeFrame.code = some 31 := by decide +kernel

/-- R154: 150 ms frames of the worked example of 9.9, and the stop element from 6 U on. -/
theorem test_key_level :
    let s := withLine fun x => { x with send := { x.send with state := .sending, frame := some (frame0 0), key := .space } }
    ((after (exec (.keyLevelChange 3) s)).line 3).send.key = .mark ∧ (after (exec (.keyLevelChange 3) s)).tick = 90112 := by
  decide +kernel

/-- R176, R192: the only timed port falls silent, and the room is UNATTENDED. -/
theorem test_silence_makes_unattended :
    let s := State.reset.modPort .a fun q => { q with silence := .active, interval := 1, silenceTimer := some { loadedAt := 0, ms := 1000 } }
    let t := after (exec (.silenceTimerExpiry .a) s)
    t.tick = 4096000 ∧ t.room.unattended = true ∧ t.alarm = true ∧ t.portB.notices = [.portSilent .a, .unattendedBegin] := by
  decide +kernel

/-- R170, R171: the last byte of a STATUS frame, its CHECK 0xFF mark from bit 0 on; at 64 ticks a run its stop sample lies 76
ticks after its start edge. -/
theorem test_frame_complete :
    let s := after (exec (.frameComplete .a .mark [108]) (inFrame [0x80, 0x01, 0] id))
    s.tick = 176 ∧ s.portA.link = .hunting ∧ (said s .a).length = 51 := by decide +kernel

/-- R169: a SYNC of 64 ticks from tick 0 on; its stop sample lies at floor(19 * 64 / 16) = 76. The same run with position 8 at
space begins nothing. -/
theorem test_frame_start :
    let s := after (exec (.frameStart .a 0 64 .mark []) State.reset)
    s.tick = 76 ∧ s.portA.link = .inFrame ∧ s.portA.rate = some 64 ∧ s.portA.gapFrom = some 76 ∧
      (after (exec (.frameStart .a 0 64 .mark [66, 70]) State.reset)).portA = State.reset.portA := by decide +kernel

/-- R170: 0x05 at 64 ticks from tick 100 on: bits 0 and 2 mark, bits of 8 ticks, least significant first. -/
theorem test_sampled_byte :
    sampledByte 100 64 .mark [108, 116, 124, 132, 172] = 0x05 ∧ bitSample 100 64 .mark [108, 116, 124, 132, 172] 9 = .mark ∧
      ((after (exec (.byteStopSample .a .mark [108, 116, 124, 132, 172]) (inFrame [0x80] id))).portA.received = [0x80, 0x05]) := by
  decide +kernel

/-- R49: settled at one moment, a stop sample and an earlier end of the space count are taken in the order of their ticks. -/
theorem test_earlier_space_count_first :
    let s := { receiving (char0 true 5) { level := .space, since := 0 } with tick := 600000 }
    let t := s.modRx 3 fun x => { x with space := some { begun := 0, openTime := 409600 } }
    (after (step t)).pending = [.spaceCountExpiry 3] ∧ (after (step s)).pending = [.stopSample 3] := by decide +kernel

/-- R87, row 1: a storing character ('E', code 1) delivered at the tick at which the idle gap ends comes first and restarts it;
no expiry follows. -/
theorem test_character_before_idle_gap :
    let c : Character := { char0 true 5 with start := 0, elements := [.mark, .space, .space, .space, .space] }
    let s := putStory ((receiving c { level := .mark, since := 550000 }).modAsm 3 fun a =>
      { a with state := .inStory h0 true, idleGap := some { loadedAt := 0, ms := 143 } }) fun st =>
        { st with state := .assembling, holder := none }
    let t := after (step { s with tick := 585728 })
    let u := after (step t)
    s.dueTick (.idleGapExpiry 3) = some 585728 ∧ t.pending = [.stopSample 3] ∧ (u.line 3).asm.state = .inStory h0 true ∧
      (u.line 3).asm.idleGap = some { loadedAt := 585728, ms := 120000 } ∧ u.dueEvents = [] := by decide +kernel

/-- R118, R193: the first monitor line sends a story without a code ('$' under DROP) whole; the second, OFF, is tried as well. -/
theorem test_each_monitor_line_is_tried :
    let s := (putStory (withLine fun x =>
        { x with record := { x.record with framing := .continuous, unrepPolicy := .drop, separation := 0 } })
      fun st => { st with state := .complete, holder := none, length := 1, chain := [0] }).modRoom fun r =>
        { r with unattended := true, options := { r.options with monitors := 0x28, bound := .deferred } }
    let t := (s.modStore fun x => { x with text := x.text.write 0 0x24 }).offerStory 2 h0 .routine
    t.portA.notices = [.distributionEnd 3 h0 .completed 1, .distributionEnd 5 h0 .notQueued 0] ∧
      (t.storyOf h0).map Story.state = some .complete := by decide +kernel

/-- R125: when the last character ('E', the only one) is taken the postamble begins, and the print-line start is the length. -/
theorem test_postamble_begins_with_the_last_character :
    let e : Encoder := { freshEncoder with encCase := .letters }
    let u : Transmission := { sending0 with entry := { entry0 with resumeOffset := 0, lineStart := 0 } }
    ((match e.formRound fixedTable defaultRecord.copy (fun _ => 0x45) 1 u with
      | .formed v f => some (v.phase, v.entry.lineStart, f.group)
      | .spent _ _ => none) = some (.postamble, 1, [1])) := by decide +kernel

/-- R165: under AUTO the guard's expiry clears BREAK_IN; a side with its motor on and no work goes to IDLE. -/
theorem test_guard_expiry_auto :
    let x := (after (exec (.guardTimerExpiry 3) (motored (fun y =>
      { y with state := .halted, breakIn := true, guard := some timer0 }) []))).line 3
    x.send.breakIn = false ∧ x.send.state = .idle := by decide +kernel

/-! ## Witnesses: queue, time, room -/

theorem witness_step : ({ State.reset with pending := [.clockSecond, .bellToneEnd] } : State).pending = .clockSecond :: [.bellToneEnd] :=
  rfl

theorem witness_empty_queue :
    let s := State.reset.modRoom fun r => { r with bell := { remaining := 1, phase := .tone { loadedAt := 0, ms := 0 }, tone := none } }
    (State.reset.pending = [] ∧ ∀ c ∈ ownEvents, State.reset.dueTick c = none) ∧
      (s.pending = [] ∧ s.dueTick .bellToneEnd = some 0 ∧ (0 : Nat) ≤ s.tick ∧
        ownEvents = (ownEvents.take 177) ++ .bellToneEnd :: ownEvents.drop 178 ∧
        (∀ e ∈ ownEvents.take 177, s.dueTick e = none) ∧ ∀ e ∈ ownEvents.drop 178, s.dueTick e = none) := by decide +kernel

/-- Of two events due at one tick the one that stands first in the list. -/
theorem witness_empty_queue_tie :
    let s := (State.reset.modRoom fun r => { r with bell := { remaining := 1, phase := .tone timer0, tone := none } }).modPort .a
      fun q => { q with silence := .active, interval := 1, silenceTimer := some timer0 }
    let u := { s with tick := 1024000 }
    u.dueTick .bellToneEnd = some 1024000 ∧ u.dueTick (.silenceTimerExpiry .a) = some 1024000 ∧
      (∀ e ∈ ownEvents.take 177, u.dueTick e = none) ∧
      ∀ e ∈ ownEvents.drop 178, (u.dueTick e).getD 1024000 = 1024000 := by decide +kernel

theorem witness_clock :
    let c : DayClock := { day := 65535, second := 86399, millis := 999, isSet := true }
    (c.day < 65536 ∧ c.second < 86400 ∧ c.millis < 1000) ∧ (0 ≤ State.reset.tick ∧ State.reset.tick < 1) ∧
      (c.run 1).day = 0 ∧ (c.run 1).second = 0 ∧ (c.run 1).millis = 0 := by decide

theorem witness_clock_lawful : (State.reset.modRoom fun r =>
    { r with clock := { day := 65535, second := 86399, millis := 999, isSet := true } }).room.clock.Lawful :=
  ⟨by decide, by decide, by decide⟩

theorem witness_timer : (1 : Nat) ≠ 0 ∧ ({ loadedAt := 4096, ms := 1 } : Timer).due = 8192 ∧
    ({ loadedAt := 4095, ms := 1 } : Timer).due = 4096 := by decide

theorem witness_event_not_taken : Instr.startCheck 0 ∈ ownEvents ∧ State.reset.dueTick (.startCheck 0) = none := by decide

/-- The moments of an idle gap, of a code frame's first element and end, and of a conversion. -/
theorem test_due_ticks :
    let s := withLine fun x => { x with asm := { x.asm with idleGap := some { loadedAt := 4095, ms := 2 } } }
    let f := withLine fun x => { x with send := { x.send with frame := some (frame0 0) } }
    let c := { State.reset with converter := { position := 0, conversion := some { channel := 0, start := 7, current := 0, void := false } } }
    s.dueTick (.idleGapExpiry 3) = some 8192 ∧
      f.dueTick (.keyLevelChange 3) = some ((frame0 0).start + (frame0 0).unit) ∧ c.dueTick .conversionEnd = some 519 := by decide

theorem witness_bell :
    let at_ := fun (n : Nat) (ph : BellPhase) => (State.reset.modRoom fun r =>
      { r with bell := { remaining := n, phase := ph, tone := some .hz500 } }).room
    (State.reset.room.options.bellCounts.get Priority.urgent.index = 0) ∧
      (State.reset.room.options.bellCounts.get Priority.flash.index ≠ 0 ∧ State.reset.room.bell.phase = .quiet) ∧
      ((at_ 1 (.tone timer0)).bell.phase ≠ .quiet ∧ (at_ 1 (.tone timer0)).options.bellCounts.get Priority.flash.index ≠ 0) ∧
      (at_ 2 (.tone timer0)).bell.phase = .tone timer0 ∧
      ((at_ 2 (.gap timer0)).bell.phase = .gap timer0 ∧ 1 < (at_ 2 (.gap timer0)).bell.remaining) ∧
      ((at_ 1 (.gap timer0)).bell.phase = .gap timer0 ∧ (at_ 1 (.gap timer0)).bell.remaining ≤ 1) := by decide

/-! ## Witnesses: loop sensing -/

theorem witness_raw_level :
    let raw := fun (s : State) (i : Int) => ({ s.line 3 with rxCurrent := i } : Line).rawLevel
    let s := fun v p t => withLine (filtered v p t)
    let p : PendingChange := { level := .space, since := 0, filter := 1024 }
    let changes := fun s i => raw s i = .mark ∧ (s.line 3).rawLevel = .space
    (16 ≤ (16 : ChannelNo).val ∧ (15 : ChannelNo).val < 16) ∧ (State.reset.line 3).filter = none ∧
      raw (s .mark none .quarter) 10156 = ((s .mark none .quarter).line 3).rawLevel ∧
      (changes (s .space none .quarter) 10157 ∧ ((s .space none .quarter).line 3).record.inputFilter ≠ .none) ∧
      (changes (s .space none .none) 10157 ∧ ((s .space none .none).line 3).record.inputFilter = .none) ∧
      (changes (s .mark (some p) .quarter) 10157 ∧
        ((s .mark (some p) .quarter).line 3).filter = some { level := .mark, pending := some p }) ∧
      (changes (s .mark none .quarter) 10157 ∧ (none = (none : Option PendingChange) ↔ raw (s .mark none .quarter) 10157 = .mark)) ∧
      (defaultRecord.keying = .neutral ∧ defaultRecord.rawLevel 10157 = .mark ∧ defaultRecord.rawLevel 10156 = .space) ∧
      (let polar := { defaultRecord with keying := .polar }
       polar.keying = .polar ∧ polar.rawLevel 1 = .mark ∧ polar.rawLevel 0 = .space ∧ polar.rawLevel (-20000) = .space) := by
  decide

theorem witness_pending_change :
    let s := withLine (filtered .mark (some { level := .space, since := 5, filter := 1024 }) .quarter)
    ((s.line 3).filter = some { level := .mark, pending := some { level := .space, since := 5, filter := 1024 } } ∧
      (s.line 3).firstAt 5 = true) ∧
      (State.reset.line 3).rx.state = .disabled ∧ (s.line 3).rx.state = .idleMark ∧
      ((withLine fun x => { x with rx := { x.rx with state := .inCharacter (char0 true 2) } }).line 3).rx.state =
        .inCharacter (char0 true 2) ∧
      ((withLine fun x => { x with rx := { x.rx with state := .spaceHold } }).line 3).rx.state = .spaceHold ∧
      ((withLine fun x => { x with rx := { x.rx with state := .opened } }).line 3).rx.state = .opened := by decide

/-- The part with a conversion of a channel in progress, and one candidate run of line 3's two loop channels. -/
def converting (c : ChannelNo) (void : Bool) (run : Nat) : State :=
  { withLine fun x =>
      { x with
        rxLoop := { loop := .unmeasured, candidate := some .normal, run := run }
        txLoop := { loop := .unmeasured, candidate := some .normal, run := run } } with
    converter := { position := c, conversion := some { channel := c, start := 0, current := 20000, void := void } } }

theorem witness_conversion_end :
    let now := fun (s : State) (side : Side) =>
      ((s.line 3).channel side).classified ((s.line 3).record.classOf side (min ((20000 : Int).natAbs * 256 / 100000) 255))
    (converting 3 true 2).converter.conversion = some { channel := 3, start := 0, current := 20000, void := true } ∧
      (converting 3 false 1).converter.conversion = some { channel := 3, start := 0, current := 20000, void := false } ∧
      (now (converting 3 false 1) .receive).loop = .unmeasured ∧
      ((now (converting 3 false 2) .receive).loop = .normal ∧ channelSide 3 = .receive) ∧
      ((now (converting 19 false 2) .send).loop = .normal ∧ channelSide 19 = .send ∧ channelLine 19 = 3) := by decide

/-- The send states that take OPEN and those that do not, and the guard's load (R164, R165). -/
theorem witness_send_loop_changed :
    let s := fun v b => withLine fun x => { x with send := { x.send with state := v, breakIn := b } }
    ((s .off false).line 3).send.state = .off ∧ ((s .stopped false).line 3).send.state = .stopped ∧
      (((s .idle false).line 3).send.state ≠ .off ∧ ((s .idle false).line 3).send.state ≠ .stopped) ∧
      ((s .halted true).line 3).send.breakIn = true ∧ ((s .halted false).line 3).send.breakIn = false ∧
      (LoopState.unmeasured ≠ .opened ∧ LoopState.low ≠ .opened) := by decide

theorem witness_converter_search :
    (∀ c, State.reset.eligible c = false) ∧
      (let s := { withLine id with converter := { position := 19, conversion := none } }
       (Fin.ofNat 32 (s.converter.position.val + 32) : ChannelNo) = 19 ∧ s.eligible 19 = true ∧
         ∀ j : Fin 31, s.eligible (Fin.ofNat 32 (s.converter.position.val + (j.val + 1))) = false) ∧
      (let s := { withLine id with converter := { position := 18, conversion := none } }
       (Fin.ofNat 32 (s.converter.position.val + 1) : ChannelNo) = 19 ∧ s.eligible 19 = true) := by decide +kernel

/-- The channels of line 3, and the three sources of its keying. -/
theorem witness_eligible :
    let f := frame0 0
    let c := { defaultRecord.copy with keying := .polar }
    let s := fun (f : Option CodeFrame) (c : Option SendCopy) => withLine fun x =>
      { x with send := { x.send with frame := f }, enc := { x.enc with copy := c } }
    ((3 : ChannelNo).val = (3 : LineNo).val ∧ (19 : ChannelNo).val = 16 + (3 : LineNo).val) ∧
      (((s (some f) (some c)).line 3).send.frame = some f ∧ f.keying = .neutral) ∧
      (((s none (some c)).line 3).send.frame = none ∧ ((s none (some c)).line 3).enc.copy = some c ∧ c.keying = .polar) ∧
      (((s none none).line 3).send.frame = none ∧ ((s none none).line 3).enc.copy = none) := by decide

theorem witness_loop_state :
    let c : LoopChannel := { loop := .normal, candidate := some .low, run := 1 }
    LoopClass.normal.state = c.loop ∧ (LoopClass.opened.state ≠ c.loop ∧ c.candidate ≠ some .opened) ∧
      (LoopClass.low.state ≠ c.loop ∧ c.candidate = some .low ∧ c.run ≠ 2) ∧
      ({ c with run := 2 } : LoopChannel).run = 2 ∧ c.run ≤ 2 := by decide

/-- The classes at the two thresholds, 8 and 36, on a send channel and on a neutral receive channel (R41). -/
theorem witness_classes :
    (7 < defaultRecord.openThreshold ∧ defaultRecord.keying = .neutral) ∧
      (defaultRecord.openThreshold ≤ 8 ∧ 35 < defaultRecord.lowThreshold ∧ defaultRecord.lowThreshold ≤ 36) ∧
      defaultRecord.classOf .send 7 = .opened ∧ defaultRecord.classOf .receive 7 = .low ∧ defaultRecord.classOf .send 8 = .low ∧
      defaultRecord.classOf .send 35 = .low ∧ defaultRecord.classOf .send 36 = .normal := by decide

/-! ## Witnesses: reception and assembly -/

theorem witness_start_check :
    let s := receiving (char0 false 0) { level := .space, since := 10 }
    let t := 10 + 90112 / 2
    ((s.line 3).rx.state = .inCharacter (char0 false 0) ∧ (char0 false 0).confirmed = false ∧ (s.line 3).settled t = true ∧
        (s.line 3).firstAt t = true) ∧
      (s.line 3).rx.levelAt t = .space ∧
      ((receiving (char0 false 0) { level := .mark, since := 45066 }).line 3).rx.levelAt t = .mark := by decide

/-- Settled and in turn at the boundary ticks, and the level at and before its own tick. -/
theorem witness_decision_order :
    let held := fun (v : Level) (t : Nat) => (receiving (char0 true 5) { level := v, since := t }).line 3
    let x := filtered .mark (some { level := .space, since := 5, filter := 1024 }) .quarter bothLine
    let counting := { held .space 10 with rx := { (held .space 10).rx with space := some { begun := 0, openTime := 585738 } } }
    (x.settled 4 = true ∧ x.settled 5 = false) ∧
      ((char0 true 5).nextTick = 585738 ∧ counting.firstAt 585738 = true ∧ counting.firstAt 585739 = false) ∧
      ((held .mark 10).rx.levelAt 10 = .mark ∧ (held .mark 10).rx.levelAt 9 = .space ∧ (held .space 10).rx.levelAt 9 = .mark) ∧
      ((char0 false 0).confirmed = false ∧ (char0 true 4).elements.length < 5 ∧ 5 ≤ (char0 true 5).elements.length) := by decide

theorem witness_element_sample :
    let s := fun n => receiving (char0 true n) { level := .mark, since := 10 }
    (((s 0).line 3).rx.state = .inCharacter (char0 true 0) ∧ (char0 true 0).confirmed = true ∧
      (char0 true 0).elements.length + 1 = 1 ∧ ((s 0).line 3).settled (10 + 3 * 90112 / 2) = true ∧
        ((s 0).line 3).firstAt (10 + 3 * 90112 / 2) = true) ∧
      ((char0 true 4).elements.length + 1 = 5 ∧ ((s 4).line 3).settled (10 + 11 * 90112 / 2) = true ∧
        ((s 4).line 3).firstAt (10 + 11 * 90112 / 2) = true) ∧
      [Level.mark, .space, .mark, .space, .mark].length = 5 := by decide

theorem witness_stop_sample :
    let s := receiving (char0 true 5) { level := .mark, since := 10 }
    ((s.line 3).rx.state = .inCharacter (char0 true 5) ∧ (char0 true 5).confirmed = true ∧ (char0 true 5).elements.length = 5 ∧
      (s.line 3).settled (10 + 13 * 90112 / 2) = true ∧ (s.line 3).firstAt (10 + 13 * 90112 / 2) = true) ∧
      (254 : Nat) ≤ 254 ∧ (0 : Nat) < 90112 := by decide

theorem witness_character_lawful : (char0 true 5).Lawful := ⟨by decide, by decide⟩

theorem witness_space_count :
    let k : SpaceCount := { begun := 0, openTime := 6144000 }
    let s := fun a => withLine fun x => { x with rx := { x.rx with space := some k }, asm := { x.asm with state := a } }
    (((s .between).line 3).rx.space = some k ∧ ((s .between).line 3).settled (0 + 6144000) = true ∧
        ((s .between).line 3).firstAt (0 + 6144000) = true) ∧
      ((s .between).line 3).asm.state = .between ∧ ((s .skipping).line 3).asm.state = .skipping ∧
      ((s (.inStory h0 true)).line 3).asm.state = .inStory h0 true := by decide

theorem witness_close_and_idle_gap :
    let s := fun a f => putStory (withLine fun x =>
      { x with asm := { x.asm with state := a, idleGap := some timer0 }, record := { x.record with framing := f } })
      fun st => { st with state := .assembling, holder := none }
    (((s (.inStory h0 true) .framed).line 3).asm.state = .inStory h0 true ∧ (s (.inStory h0 true) .framed).storyOf h0 ≠ none ∧
      (s (.inStory h0 true) .framed).room.unattended = false ∧ story0.interest.a = true) ∧
      ((s (.inStory h0 true) .framed).line 3).asm.idleGap = some timer0 ∧
      ((s (.inStory h0 true) .framed).line 3).record.framing = .framed ∧
      ((s (.inStory h0 false) .continuous).line 3).record.framing = .continuous ∧
      ((s .skipping .framed).line 3).asm.state = .skipping ∧ ((s .between .framed).line 3).asm.state = .between := by decide

/-- A close with the priority undecided, offered in UNATTENDED or not, freed or kept, and the three outcomes of a commit. -/
theorem witness_close_in_general :
    let s := fun d n chain => putStory (withLine fun x => { x with asm := { x.asm with state := .inStory h0 d } })
      fun st => { st with state := .assembling, holder := none, length := n, chain := chain }
    let away := State.reset.modRoom fun r => { r with unattended := true }
    let done := fun a => { story0 with state := .complete, interest := { a := a, b := false } }
    let c : Held := { char := 0x41, doubtful := false }
    let empty := (s true 0 []).modStore fun x => { x with freeList := [], freeCount := 0 }
    (((s false 33 [0, 1]).line 3).asm.state = .inStory h0 false ∧ (s false 33 [0, 1]).storyOf h0 ≠ none) ∧
      (away.room.unattended = true ∧ away.room.options.sources.getLsbD 15 = true ∧
        Priority.bulletin.number ≤ away.room.options.bound.number ∧ ¬(Priority.urgent.number ≤ away.room.options.bound.number)) ∧
      State.reset.room.unattended = false ∧ (State.reset.record 0).story = none ∧
      ((done false).unretained = true ∧ (done true).unretained = false) ∧
      ((s true 33 [0, 1]).commit 3 c).1 = .stored ∧ ((s true 16384 []).commit 3 c).1 = .capped ∧
      (empty.commit 3 c).1 = .noCell := by decide +kernel

theorem witness_decoded_and_stored :
    let kind := fun (c : Case) (k : Code) => (fixedTable.entry c k).kind
    (kind .letters 31 = .ltrs ∧ kind .letters 27 = .figs ∧ kind .letters 8 = .cr ∧ kind .letters 0 = .blank ∧
      kind .figures 9 = .ignore) ∧
      (kind .letters 1 = .print ∧ kind .letters 4 = .space ∧ kind .letters 2 = .lf ∧ kind .figures 11 = .bell) ∧
      (let s := putStory State.reset id
       s.store.text.wf = true ∧ s.storyOf h0 = some story0 ∧ story0.length < 16384 ∧ story0.length % 32 ≠ 0) := by decide +kernel

/-- Arrivals under the sequences ZCZC and NNNN: matched, held and committed candidates in the three assembly states. -/
theorem witness_arrival :
    let z := defaultRecord.opening
    let n := defaultRecord.closing
    let s := fun a => putStory (withLine fun x => { x with asm := { x.asm with state := a } }) fun st =>
      { st with state := .assembling, holder := none }
    let c : Held := { char := 0x41, doubtful := false }
    (z = [0x5A, 0x43, 0x5A, 0x43] ∧ n = [0x4E, 0x4E, 0x4E, 0x4E] ∧ n ≠ z) ∧
      (z = [0x5A, 0x43, 0x5A] ++ [0x43] ∧ n = [0x4E] ++ [0x4E, 0x4E, 0x4E] ∧ ([0x5A] : List Byte) ≠ z) ∧
      (((s .between).line 3).asm.state = .between ∧ ((s .skipping).line 3).asm.state = .skipping ∧
        ((s (.inStory h0 true)).line 3).asm.state = .inStory h0 true) ∧
      (z.head? ≠ some 0x41 ∧ n.head? ≠ some 0x41) ∧ ((s (.inStory h0 true)).commit 3 c).1 = .stored ∧
      (((s (.inStory h0 true)).modStory h0 fun st => { st with length := 16384 }).commit 3 c).1 = .capped := by decide +kernel

/-- Storing at the boundaries of a cell and of the cap, a deciding character, and a record request granted and refused. -/
theorem witness_storing_and_opening :
    let s := fun n chain => putStory State.reset fun st => { st with state := .assembling, holder := none, length := n, chain := chain }
    let empty := (s 32 [0]).modStore fun x => { x with freeList := [], freeCount := 0 }
    let full := State.reset.modStore fun x =>
      { x with records := Vector.replicate 256 { generation := 15, story := some { story0 with state := .assembling } } }
    (16384 ≤ 16384 ∧ 16383 < 16384 ∧ 16383 % 32 ≠ 0 ∧ 32 % 32 = 0) ∧ (empty.requestCell h0.index).1 = false ∧
      ((s 32 [0]).requestCell h0.index).1 = true ∧ (((s 32 [0]).requestCell h0.index).2.storyOf h0) ≠ none ∧
      ((0x41 : Byte) ≠ 0x20 ∧ (0x41 : Byte) ≠ 0x0A ∧ defaultRecord.priorityLetters[0] = 0x46) ∧
      (State.reset.requestRecord).1 = some 0 ∧ (full.requestRecord).1 = none ∧
      ((withLine id).line 3).record.framing = .framed := by decide +kernel

/-! ## Witnesses: the story store -/

theorem witness_freeing_and_victims :
    let s := putStory State.reset fun st => { st with state := .complete, closedStamp := some { day := 0, second := 0 } }
    (s.record 0).story ≠ none ∧ State.reset.store.victim = none ∧ (s.store.victim.map fun v => v.1) = some 0 := by decide +kernel

/-- Reclamation begun and over, and the two requests granted at once, granted after it, and refused. -/
theorem witness_reclamation :
    let old := fun st : Story => { st with state := .complete, holder := none, closedStamp := some { day := 0, second := 0 } }
    let s := fun (f : Story → Story) (free : List Nat) => (putStory State.reset f).modStore fun x =>
      { x with freeList := free, freeCount := free.length, reclaimMark := 1 }
    let full := fun f => State.reset.modStore fun x =>
      { x with records := Vector.replicate 256 { generation := 15, story := some (f story0) } }
    (State.reset.store.markReached = true ∧ (s old []).store.markReached = false ∧ (s old []).store.victim.isSome = true ∧
        (s id []).store.victim = none) ∧
      ((s old []).reclaim Store.cellReady 256).store.cellReady = true ∧
      ((s id []).reclaim Store.cellReady 256).store.cellReady = false ∧
      ((s old []).record 0).story ≠ none ∧ (s id [9]).store.freeList = 9 :: [] ∧
      State.reset.store.lowestFree = some 0 ∧ (full old).store.lowestFree = none ∧
      ((full id).reclaim Store.recordReady 256).store.recordReady = false := by decide +kernel

/-- A full directory of which one story can go. -/
theorem witness_record_after_reclamation :
    let s := State.reset.modStore fun x =>
      { x with
        records :=
          (Vector.replicate 256 { generation := 15, story := some story0 }).set 7
            { generation := 3, story := some { story0 with state := .complete, holder := none } } }
    s.store.lowestFree = none ∧ (s.reclaim Store.recordReady 256).store.recordReady = true ∧
      (s.reclaim Store.recordReady 256).store.lowestFree = some 7 := by decide +kernel

theorem witness_store_limits :
    let s := fun free low spent => State.reset.modStore fun x => { x with freeCount := free, poolLow := low, exhausted := spent }
    ((s 256 false false).store.poolLow = false ∧ (s 256 false false).store.freeCount ≤ (s 256 false false).store.deskReserve) ∧
      ((s 257 true false).store.poolLow = true ∧ (s 257 true false).store.deskReserve < (s 257 true false).store.freeCount) ∧
      (s 257 false false).store.deskReserve < (s 257 false false).store.freeCount ∧
      ((s 129 false true).store.exhausted = true ∧ (s 129 false true).store.reclaimMark < 129 ∧
        ((s 129 false true).record 0).story = none) ∧
      (s 128 false true).store.reclaimMark = 128 ∧ State.reset.portA.response = none := by decide

/-- The store after power-on is under its law. -/
theorem powerOnStore_lawful : powerOnStore.Lawful where
  text := rfl
  count := (List.length_range' (s := 0) (n := 4096) (step := 1)).symm
  cells := by
    have h : ∀ n, List.flatMap StoryRecord.cells (List.replicate n { generation := 0, story := none }) = [] := by
      intro n
      induction n with
      | zero => rfl
      | succ n ih => rw [List.replicate_succ, List.flatMap_cons, ih]; rfl
    show (List.range' 0 4096 ++ List.flatMap StoryRecord.cells powerOnStore.records.toList).Perm _
    rw [show powerOnStore.records.toList = _ from Vector.toList_replicate, h, List.append_nil]
    exact List.Perm.refl _

theorem witness_appended_text :
    let s := putStory State.reset fun st => { st with length := 0, chain := [] }
    s.store.Lawful ∧ s.storyOf h0 = some { story0 with length := 0, chain := [] } ∧
      ([] : List Nat).length = (0 + 31) / 32 ∧ (0 + 240 + 31) / 32 - (0 + 31) / 32 ≤ s.store.freeCount :=
  ⟨powerOnStore_lawful.setRecord (by decide), by decide, by decide, by decide⟩

/-- Two places of one lawful chain, the last of its first cell and the first of its second. -/
theorem witness_two_places :
    let s := after (exec (.appendText .a ⟨64, [0, 0] ++ List.replicate 33 0x41⟩)
      (putStory State.reset fun st => { st with length := 0, chain := [] }))
    (s.storyOf h0).map Story.chain = some [0, 1] ∧ 31 < 32 * [0, 1].length ∧ 63 < 32 * [0, 1].length ∧
      textAddress [0, 1] 31 ≠ textAddress [0, 1] 32 := by decide +kernel

/-! ## Witnesses: distribution -/

theorem witness_next_story_choice :
    let flash : DistEntry := { entry0 with priority := .flash }
    let d := fun q st => ({ queue := q, stack := st, current := none } : Distribution)
    ((d [] []).queue = [] ∧ (d [] []).stack = []) ∧
      ((d [flash] [entry0]).queue = flash :: [] ∧ ∀ top, (d [flash] [entry0]).stack.head? = some top →
        flash.priority.number < top.priority.number) ∧
      ((d [entry0] [entry0]).stack = entry0 :: [] ∧ ∀ e, (d [entry0] [entry0]).queue.head? = some e →
        entry0.priority.number ≤ e.priority.number) := by
  refine ⟨by decide, ⟨rfl, ?_⟩, rfl, ?_⟩ <;> (intro e he; cases he; decide)

theorem witness_submit :
    let full := withLine fun x => { x with dist := { x.dist with queue := List.replicate 32 { entry0 with handle := ⟨1, 0⟩ } } }
    let held := withLine fun x => { x with dist := { x.dist with stack := [entry0] } }
    let inState := fun v w => putStory State.reset fun st => { st with state := v, holder := w }
    (State.reset.line 3).record.mode.hasSend = false ∧
      ((held.line 3).record.mode.hasSend = true ∧ ∃ e ∈ (held.line 3).dist.stack, e.handle = h0) ∧
      (32 ≤ (full.line 3).dist.queue.length ∧ (full.line 3).dist.holds h0 = false) ∧
      ((withLine id).line 3).dist.queue.length < 32 ∧
      ((0 : Byte).toNat = h0.index.val ∧ (0 : Byte).toNat = h0.generation.val) ∧
      ((inState .assembling none).storyOf h0).map Story.state = some .assembling ∧
      ((inState .composing (some .b)).storyOf h0).map Story.holder = some (some .b) ∧
      ((inState .composing (some .a)).storyOf h0).map Story.holder = some (some .a) ∧
      ((inState .complete none).storyOf h0).map Story.state = some .complete := by decide

theorem witness_work_arrives :
    let s := fun v d lp q => motored (fun y => { y with state := v }) q |>.modLine 3 fun x =>
      { x with record := { x.record with startDelay := d }, txLoop := { x.txLoop with loop := lp } }
    let broken := motored (fun y => { y with state := .stopped, breakIn := true }) [entry0] |>.modLine 3 fun x =>
      { x with record := { x.record with startDelay := 0 }, txLoop := { x.txLoop with loop := .opened } }
    (((s .stopped 100 .opened []).line 3).send.state = .stopped ∧ ((s .stopped 100 .opened []).line 3).record.startDelay ≠ 0 ∧
        ((s .stopped 100 .opened []).line 3).txLoop.loop = .opened) ∧
      (((s .stopped 0 .normal [entry0]).line 3).record.startDelay = 0 ∧ ((s .stopped 0 .normal [entry0]).line 3).txLoop.loop ≠ .opened ∧
        (s .stopped 0 .normal [entry0]).hasWork 3 = true ∧ (s .stopped 0 .normal []).hasWork 3 = false) ∧
      ((broken.line 3).send.state = .stopped ∧ (broken.line 3).send.breakIn = true ∧ (broken.line 3).txLoop.loop = .opened) ∧
      ((s .stopped 0 .opened []).line 3).send.breakIn = false ∧ ((s .idle 0 .normal []).line 3).send.state = .idle ∧
      (((s .sending 0 .normal []).line 3).send.state ≠ .stopped ∧ ((s .sending 0 .normal []).line 3).send.state ≠ .idle) ∧
      ((s .idle 0 .normal []).line 3).send.frame = none ∧
      ((withLine fun x => { x with send := { x.send with frame := some (frame0 2) } }).line 3).send.frame ≠ none := by decide

theorem witness_transmission_end :
    let s := withLine fun x =>
      { x with dist := { x.dist with current := some sending0 }, send := { x.send with state := .sending } }
    (s.line 3).dist.current = some sending0 ∧ (s.line 3).dist.queue = [] ∧ (s.line 3).dist.stack = [] ∧
      (s.line 3).send.holdWaiting = false ∧ (s.line 3).send.state = .sending := by decide

/-- A next-story choice to make and none; a print-line end of a withdrawn story, of one that is preempted and of one that is
not, with and without a waiting hold. -/
theorem witness_print_line_end :
    let q := fun p => { entry0 with handle := ⟨1, 0⟩, priority := p }
    let s := fun (u : Option Transmission) p (stack : List DistEntry) hold v => putStory (withLine fun x =>
      { x with
        record := { x.record with preempt := .bulletin }
        dist := { queue := [q p], stack := stack, current := u }
        send := { x.send with state := v, holdWaiting := hold } }) id
    let gone : Transmission := { sending0 with withdrawn := true }
    let x := (s (some sending0) .bulletin [q .deferred] true .sending).line 3
    ((((s none .flash [] false .idle).line 3).dist.current = none ∧ ((s none .flash [] false .idle).line 3).dist.choose ≠ none) ∧
      (State.reset.line 3).dist.choose = none) ∧
      ((x.dist.current = some sending0 ∧ (s (some sending0) .bulletin [q .deferred] true .sending).storyOf sending0.entry.handle =
          some story0) ∧ sending0.withdrawn = false ∧ x.dist.queue = q .bulletin :: [] ∧
        Priority.bulletin.number < sending0.entry.priority.number ∧ x.dist.stack.length < 2 ∧ x.record.preempt = .bulletin ∧
        x.send.holdWaiting = true) ∧
      (((s (some sending0) .flash [] false .sending).line 3).send.holdWaiting = false ∧
        ((s (some sending0) .flash [] false .sending).line 3).send.state ≠ .halted ∧
        ((s (some sending0) .flash [] false .halted).line 3).send.state = .halted) ∧
      (¬(Priority.routine.number < sending0.entry.priority.number) ∧
        ¬(((s (some sending0) .flash [q .deferred, q .routine] false .sending).line 3).dist.stack.length < 2)) ∧
      (((s (some gone) .flash [] false .sending).line 3).dist.current = some gone ∧ gone.withdrawn = true) := by decide

theorem witness_withdraw :
    let other : DistEntry := { entry0 with handle := ⟨1, 0⟩ }
    let s := withLine fun x =>
      { x with dist := { queue := [other, entry0], stack := [other, entry0], current := some sending0 } }
    let t := withLine fun x => { x with dist := { queue := [other], stack := [other, entry0], current := some sending0 } }
    let u := withLine fun x => { x with dist := { queue := [other], stack := [other], current := some sending0 } }
    ((s.line 3).dist.queue = [other] ++ entry0 :: [] ∧ entry0.handle = h0 ∧ ∀ x ∈ [other], x.handle ≠ h0) ∧
      ((∀ x ∈ (t.line 3).dist.queue, x.handle ≠ h0) ∧ (t.line 3).dist.stack = [other] ++ entry0 :: []) ∧
      ((∀ x ∈ (u.line 3).dist.stack, x.handle ≠ h0) ∧ (u.line 3).dist.current = some sending0 ∧ sending0.entry.handle = h0) ∧
      (State.reset.line 3).dist.current = none ∧ (putStory State.reset id).storyOf h0 ≠ none := by decide

/-! ## Witnesses: codes and encoding -/

theorem witness_reverse_map :
    (fixedTable.fold = true ∧ 0x61 ≤ (0x61 : Byte).toNat ∧ (0x7A : Byte).toNat ≤ 0x7A ∧
      ∀ d ∈ [Case.letters, .figures], ∀ k, (fixedTable.entry d k).produces ≠ some 0x61) ∧
      ¬(0x61 ≤ (0x60 : Byte).toNat) ∧ ¬((0x7B : Byte).toNat ≤ 0x7A) := by decide +kernel

theorem witness_chosen_codes :
    fixedTable.valid = true ∧ fixedTable.represents 0x33 = true ∧ freshEncoder.encCase = .unknown ∧
      ({ freshEncoder with encCase := .letters } : Encoder).encCase.known = some .letters ∧
      (({ freshEncoder with encCase := .letters } : Encoder).chooseCode fixedTable 0x33).1.length = 2 := by decide +kernel

/-- The lowest codes of CR and LF in slot 0, one to each case and to both. -/
theorem witness_newline :
    let kind := fun (c : Case) (k : Code) => (fixedTable.entry c k).kind
    (kind .letters 8 = .cr ∧ kind .figures 8 = .cr ∧ ∀ i : Code, i.val < 8 → kind .letters i ≠ .cr ∧ kind .figures i ≠ .cr) ∧
      fixedTable.ltrsCode = some 31 ∧ defaultRecord.copy.ltrsFill ≠ 0 ∧ ({ defaultRecord.copy with ltrsFill := 0 }).ltrsFill = 0 ∧
      freshEncoder.encCase = .unknown ∧
      (let apart : Table := { fixedTable with figures := (fixedTable.figures.set 8 ⟨.ignore, 0⟩).set 9 ⟨.cr, 0⟩ }
       (∀ i : Code, ¬((apart.entry .letters i).kind = .cr ∧ (apart.entry .figures i).kind = .cr)) ∧
         (apart.entry .letters 8).kind = .cr ∧ apart.ltrsCode = some 31) := by decide +kernel

/-- Treatments: with, without and with a doubtful code for the bell; characters with and without codes, the substitute usable
and not; the full column; the refresh shift due and not. -/
theorem witness_treatment :
    let c := defaultRecord.copy
    let coded := fun (t : Table) (x : Byte) => (t.reverse .letters x).isSome || (t.reverse .figures x).isSome
    let mute : Table := { fixedTable with figures := fixedTable.figures.set 11 ⟨.ignore, 0⟩ }
    let loud : Table := { fixedTable with letters := fixedTable.letters.set 11 ⟨.bell, 7⟩ }
    (coded fixedTable 0x07 = true ∧ coded mute 0x07 = false ∧ loud.reverse .letters 0x07 = some 11 ∧
        loud.reverse .figures 0x07 = some 11 ∧ fixedTable.reverse .letters 0x07 = none) ∧
      (coded fixedTable 0x41 = true ∧ coded fixedTable 0x24 = false) ∧
      (c.unrepPolicy = .substitute ∧ c.unrepSubstitute = 0x3F ∧ coded fixedTable 0x3F = true) ∧
      ({ freshEncoder with column := 69 } : Encoder).column = c.width ∧ freshEncoder.column ≠ c.width ∧
      (c.refreshInterval = 0 ∧ (8 : Nat) ≤ 8 ∧ ¬((8 : Nat) ≤ 7)) ∧ fixedTable.figsCode = some 27 := by decide +kernel

/-- Rounds of a group's forming in each phase, a request answered at once, by a group and by the end of a story, and the last
code of a group. -/
theorem witness_group_forming :
    let c := { defaultRecord.copy with framing := .continuous, separation := 0 }
    let e : Encoder := { freshEncoder with encCase := .letters, copy := some c }
    let u := fun ph n => ({ sending0 with phase := ph, entry := { entry0 with resumeOffset := n, lineStart := 0 } } : Transmission)
    let spent : Forming → Bool := fun r => match r with | .spent _ _ => true | .formed _ _ => false
    let s := fun ph n (e : Encoder) => putStory (withLine fun x =>
      { x with dist := { x.dist with current := some (u ph n) }, enc := e, send := { x.send with state := .sending } }) id
    let bare : Encoder := { e with progress := some [] }
    (e.owed = false ∧ e.progress = none ∧ ({ e with owed := true } : Encoder).owed = true ∧
        ({ e with progress := some [.newline] } : Encoder).progress = some (.newline :: [])) ∧
      (33 ≤ (u .text 33).entry.resumeOffset ∧ (u .text 32).entry.resumeOffset < 33) ∧
      (postambleItems c 0 = [] ∧ postambleItems c 1 ≠ []) ∧
      spent (bare.form fixedTable c (fun _ => 0) 33 (u .postamble 33) 17000) = true ∧
      spent (e.form fixedTable c (fun _ => 0x45) 33 (u .text 32) 17000) = false ∧
      (((s .postamble 33 bare).line 3).enc.copy = some c ∧ ((s .postamble 33 bare).line 3).enc.group = []) ∧
      ((((s .postamble 33 bare).endTransmission 3).line 3).send.state ≠ .sending) ∧
      ((s .text 7 { e with group := [1] }).line 3).enc.group = 1 :: [] ∧ (State.reset.line 3).dist.current = none := by
  decide +kernel

/-! ## Witnesses: sending -/

theorem witness_frame_end :
    let s := fun v g => withLine fun x =>
      { x with
        send := { x.send with state := v, frame := some (frame0 6) }
        enc := { x.enc with group := g, copy := some defaultRecord.copy }
        dist := { x.dist with current := some sending0 } }
    ((s .halted []).line 3).send.frame = some (frame0 6) ∧ ((s .halted []).line 3).send.state ≠ .sending ∧
      ((s .sending [1, 2]).line 3).send.state = .sending ∧ ((s .sending [1, 2]).line 3).enc.group = 1 :: 2 :: [] ∧
      ((s .sending [1, 2]).line 3).dist.current = some sending0 ∧
      ((s .sending [1, 2]).line 3).enc.copy = some defaultRecord.copy ∧
      ((frame0 0).element + 1 = 1 ∧ (frame0 5).element + 1 = 6) := by decide

theorem witness_motor_delays :
    let s := fun v q => motored (fun y => { y with state := v, startDelay := some timer0 }) q
    (((s .starting [entry0]).line 3).send.startDelay = some timer0 ∧ ((s .starting [entry0]).line 3).send.state = .starting ∧
      ((s .starting [entry0]).line 3).dist.hasWork = true) ∧
      ((s .starting []).line 3).dist.hasWork = false ∧ ((s .halted []).line 3).send.state ≠ .starting ∧
      ((motored (fun y => { y with stopDelay := some timer0 }) []).line 3).send.stopDelay = some timer0 ∧
      ((motored (fun y => { y with stopDelay := some timer0 }) []).line 3).send.state = .idle := by decide

theorem witness_guard_and_leaving :
    let s := fun m (d : Option Timer) q => motored (fun y =>
      { y with state := .halted, motor := m, startDelay := d, breakIn := true, guard := some timer0 }) q
    let zero := withLine fun x => { x with record := { x.record with motorControl := true, startDelay := 0 } }
    (((s true (some timer0) [entry0]).line 3).record.motorControl = true ∧
      ((s true (some timer0) [entry0]).line 3).send.motor = true ∧
      ((s true (some timer0) [entry0]).line 3).send.startDelay ≠ none ∧
      ((s true (some timer0) [entry0]).line 3).dist.hasWork = true) ∧
      ((s true none []).line 3).dist.hasWork = false ∧ ((s true none [entry0]).line 3).send.startDelay = none ∧
      (((s false none [entry0]).line 3).send.motor = false ∧ ((s false none [entry0]).line 3).record.startDelay ≠ 0) ∧
      ((zero.line 3).record.startDelay = 0 ∧ (zero.line 3).txLoop.loop ≠ .opened ∧ (zero.line 3).send.motor = false) ∧
      ((withLine id).line 3).record.motorControl = false ∧
      (((s true none []).line 3).send.guard = some timer0 ∧ ((s true none []).line 3).send.breakIn = true ∧
        ((s true none []).line 3).send.state = .halted ∧ ((s true none []).line 3).send.deskHold = false ∧
        ((s true none []).line 3).record.breakPolicy = .auto) ∧
      ((withLine id).line 3).record.breakPolicy = .hold := by decide

/-- Leaving HALTED with work, a start delay of 0 and an OPEN loop, BREAK_IN out of the set and in it. -/
theorem witness_leaving_on_an_open_loop :
    let s := fun b => withLine fun x =>
      { x with
        record := { x.record with motorControl := true, startDelay := 0 }
        txLoop := { x.txLoop with loop := .opened }
        dist := { x.dist with queue := [entry0] }
        send := { x.send with state := .halted, breakIn := b } }
    ((s false).line 3).record.motorControl = true ∧ ((s false).line 3).send.motor = false ∧
      ((s false).line 3).dist.hasWork = true ∧ ((s false).line 3).record.startDelay = 0 ∧
      ((s false).line 3).txLoop.loop = .opened ∧ ((s false).line 3).send.breakIn = false ∧
      ((s true).line 3).send.breakIn = true := by decide

theorem witness_break_in :
    ((motored (fun y => { y with breakIn := true }) []).line 3).send.breakIn = true ∧
      (((withLine id).line 3).send.breakIn = false ∧ ((withLine id).line 3).dist.current = none) ∧
      ((withLine fun x => { x with dist := { x.dist with current := some sending0 } }).line 3).dist.current = some sending0 := by
  decide

/-! ## Witnesses: the desk links -/

theorem witness_frame_reception :
    let gap := inFrame [0x80, 0x07] fun q => { q with byteStart := none, gapFrom := some 100 }
    (State.reset.portA.link = .hunting ∧ 64 ≤ (64 : Nat) ∧ (3840 : Nat) ≤ 3840) ∧ ¬(64 ≤ (63 : Nat)) ∧ ¬((3841 : Nat) ≤ 3840) ∧
      (gap.portA.link = .inFrame ∧ gap.portA.gapFrom = some 100 ∧ 41060 ≤ 100 + 40960 ∧ 100 + 40960 < 41061 ∧ (100 : Nat) < 101 ∧
        (100 : Nat) ≤ 100) ∧
      (inFrame [0x80, 0x07] id).portA.gapFrom = none ∧
      ((inFrame [0x80, 0x07] id).portA.byteStart = some 100 ∧ (inFrame [0x80, 0x07] id).portA.rate = some 64 ∧
        (inFrame [0x80, 0x07] id).portA.checkNext = false) ∧
      ((inFrame [0x80, 0x07] id).portA.received.length = 2 ∧ 250 < (251 : Byte).toNat ∧ ¬(250 < (250 : Byte).toNat)) := by decide

/-- Samples of a SYNC, and of a byte (0xFB, bit 2 at space) with a mark and with a space stop bit. -/
theorem witness_link_samples :
    let mark := fun (level : Level) (changes : List Nat) (t : Nat) =>
      decide (level = .mark ↔ (changes.filter fun c => decide (t < c)).length % 2 = 0)
    let bits := [108, 124, 132]
    (State.reset.portA.huntFrom ≤ 0 ∧ mark .mark [] (0 + 17 * 64 / 16) = true ∧ mark .mark [] (0 + 19 * 64 / 16) = true ∧
        mark .space [66] (0 + 17 * 64 / 16) = false) ∧
      (∀ n : Fin 8, (0xFB : Byte).getLsbD n.val = mark .mark bits (100 + (2 * (n.val + 1) + 1) * 64 / 16)) ∧
      (∀ n : Fin 8, (0xFB : Byte).getLsbD n.val = mark .space (bits ++ [172]) (100 + (2 * (n.val + 1) + 1) * 64 / 16)) ∧
      mark .mark bits (100 + 19 * 64 / 16) = true ∧ mark .space (bits ++ [172]) (100 + 19 * 64 / 16) = false := by decide

theorem witness_frame_complete :
    let s := inFrame [0x80, 0x07, 1, 20]
    let busy : DeskPort → DeskPort := fun q => { q with response := some { bytes := [0x80], rate := 64, start := 0 } }
    let full : DeskPort → DeskPort := fun q => { q with held := some { code := 1, frame := ⟨64, []⟩ } }
    let sum := fun check : Byte => ((s id).portA.received.drop 1).foldl (· + ·) check
    let mark := fun (level : Level) (changes : List Nat) (t : Nat) =>
      decide (level = .mark ↔ (changes.filter fun c => decide (t < c)).length % 2 = 0)
    ((s id).portA.link = .inFrame ∧ (s id).portA.byteStart = some 100 ∧ (s id).portA.rate = some 64 ∧
      (s id).portA.checkNext = true) ∧ sum 0 ≠ 0 ∧ sum 228 = 0 ∧ (s id).portA.response = none ∧ (s id).portA.held = none ∧
      ((s busy).portA.response ≠ none ∧ (s busy).portA.held = none) ∧ (s full).portA.held ≠ none ∧
      (∀ n : Fin 8, (228 : Byte).getLsbD n.val =
        mark .mark [124, 132, 148] (100 + (2 * (n.val + 1) + 1) * 64 / 16)) ∧ mark .mark [124, 132, 148] (100 + 19 * 64 / 16) = true := by decide

theorem witness_response_end :
    let r : Response := { bytes := [0x80], rate := 64, start := 0 }
    let g : GoodFrame := { code := 1, frame := ⟨64, []⟩ }
    let s := fun g => State.reset.modPort .a fun q => { q with response := some r, held := g }
    ((s none).port .a).response = some r ∧ ((s none).port .a).held = none ∧ ((s (some g)).port .a).held = some g := by decide

theorem witness_silence :
    let s := State.reset.modPort .a fun q => { q with silence := .active, interval := 1, silenceTimer := some timer0 }
    let t := State.reset.modPort .a fun q => { q with silence := .silent, interval := 1 }
    ((s.port .a).silence = .active ∧ (s.port .a).silenceTimer = some timer0) ∧
      (t.room.unattended = false ∧ (t.port .a).silence ≠ .untimed ∧ (t.port .b).silence = .untimed ∧
        (t.port .a).silence = .silent) ∧ (s.port .a).silence ≠ .silent := by decide

theorem witness_posted_notice :
    let q := fun n => { State.reset.portA with notices := List.replicate n Notice.unattendedEnd }
    ({ State.reset.portA with noticeMask := 0 } : DeskPort).noticeMask.getLsbD (Notice.unattendedEnd.kind - 1) = false ∧
      State.reset.portA.noticeMask.getLsbD (Notice.unattendedEnd.kind - 1) = true ∧
      (q 47).notices.length < 48 ∧ 48 ≤ (q 48).notices.length := by decide

/-! ## Witnesses: desk commands, at ports that are ready -/

theorem witness_good_frame :
    goodFrameOf (.lineControlHold .a ⟨64, [3]⟩) = some (.a, { code := 0x12, frame := ⟨64, [3, 1]⟩ }) ∧
      (State.reset.port .a).ready ∧
      ((State.reset.modPort .a fun q => { q with held := some { code := 1, frame := ⟨64, []⟩ } }).port .a).held ≠ none ∧
      ((State.reset.modPort .a fun q => { q with response := some { bytes := [], rate := 64, start := 0 } }).port .a).response ≠
        none := ⟨by decide, ready_of_ports .a rfl, by decide, by decide⟩

theorem witness_command_tests :
    ((0x00 : Byte) ∉ commandCodes ∧ (0x29 : Byte) ∉ commandCodes) ∧ ([] : List Byte).length < 6 ∧
      (242 < (List.replicate 243 (0 : Byte)).length) ∧
      (∀ h : Handle, byteAt [0, 16, 0x41] 0 = h.index.val → byteAt [0, 16, 0x41] 1 = h.generation.val →
        State.reset.storyOf h = none) :=
  ⟨by decide, by decide, by decide +kernel, fun h _ e => absurd e.symm (by simp [byteAt]; omega)⟩

/-- R172: SYNC, ECHO, STATUS, LENGTH, payload, CHECK; 0x24 + 0x04 + 0x00 + 0xD8 = 0x100. -/
theorem test_response_order :
    responseBytes 0x24 .stale [] = [0x80, 0x24, 0x04, 0x00, 0xD8] ∧
      responseBytes 0x22 .done [5, 1] = [0x80, 0x22, 0x00, 0x02, 5, 1, 0xD6] := by decide

theorem witness_reading :
    (State.reset.port .a).ready ∧ ((15 : Byte).toNat = (15 : LineNo).val ∧ (3 : Byte).toNat = (3 : Fin 4).val) ∧
      ((7 : Byte).toNat % 8 ≠ 0 ∧ (4 : Byte).toNat ≤ 4 ∧ (17 : Byte).toNat ≤ 17 ∧ (255 : Byte).toNat = 255) ∧
      ((putStory State.reset id).storyOf h0 = some story0 ∧ (0 : Byte).toNat = h0.index.val ∧ (240 : Byte) ≠ 0) :=
  ⟨ready_of_ports .a rfl, by decide, by decide, by decide⟩

/-- Refused values next to the taken ones, and lists of 14, 15 and 16 summaries before and at index 255. -/
theorem witness_reading_refused :
    (State.reset.port .a).ready ∧ (15 < (16 : Byte).toNat ∧ 3 < (4 : Byte).toNat) ∧
      ((8 : Byte).toNat % 8 = 0 ∧ 4 < (5 : Byte).toNat ∧ 17 < (18 : Byte).toNat ∧ (254 : Byte).toNat ≠ 255) ∧
      ((List.replicate 14 (h0, story0)).length = 14 ∧ (List.replicate 15 (h0, story0)).length ≠ 14) ∧
      ((254 : Fin 256).val < 255 ∧ (255 : Fin 256).val = 255) ∧
      (∀ h : Handle, (0 : Byte).toNat = h.index.val → (16 : Byte).toNat = h.generation.val → State.reset.storyOf h = none) :=
  ⟨ready_of_ports .a rfl, by decide, by decide, by decide, by decide, fun h _ e => absurd e (by simp; omega)⟩

/-- Payloads of a wrong length, one byte short or long, at a port that is ready. -/
theorem witness_wrong_lengths :
    (State.reset.port .b).ready ∧ ([0] : List Byte).length ≠ 0 ∧ ([] : List Byte).length ≠ 1 ∧ ([0] : List Byte).length ≠ 2 ∧
      ([0, 0, 0] : List Byte).length ≠ 4 ∧ (List.replicate 4 (0 : Byte)).length ≠ 5 ∧ (List.replicate 7 (0 : Byte)).length ≠ 6 ∧
      (List.replicate 10 (0 : Byte)).length ≠ 11 ∧ (List.replicate 61 (0 : Byte)).length ≠ 62 ∧
      (List.replicate 131 (0 : Byte)).length ≠ 130 ∧ ([0, 0] : List Byte).length < 3 ∧ 242 < (List.replicate 243 (0 : Byte)).length :=
  ⟨ready_of_ports .b rfl, by decide⟩

theorem witness_clock_port_room_notices :
    (State.reset.port .a).ready ∧
      (let second := fun c0 c1 c2 c3 : Byte => c0.toNat + 256 * c1.toNat + 65536 * c2.toNat + 16777216 * c3.toNat
       second 0x7F 0x51 0x01 0 = 86399 ∧ second 0x80 0x51 0x01 0 = 86400) ∧
      ((State.reset.port .a).silence = .untimed ∧ (1 : Byte) ≠ 0) ∧
      ((4 : Byte).toNat = Priority.deferred.number ∧ (3 : Byte).toNat = BellTone.hz4000.number ∧ 4 < (5 : Byte).toNat) ∧
      (State.reset.modRoom fun r => { r with unattended := true }).room.unattended = true :=
  ⟨ready_of_ports .a rfl, by decide, by decide, by decide, by decide⟩

theorem witness_configure_line :
    (State.reset.port .a).ready ∧ ((defaultRecord.bytes).length = 61 ∧ readRecord defaultRecord.bytes = some defaultRecord) ∧
      (15 < (16 : Byte).toNat ∧ (15 : Byte).toNat = (15 : LineNo).val) ∧
      readRecord (4 :: defaultRecord.bytes.drop 1) = none ∧ (State.reset.line 15).record.mode = .off :=
  ⟨ready_of_ports .a rfl, by decide +kernel, by decide, by decide +kernel, by decide⟩

/-- R19, R20: a sequence count and an enumerated field at the limit and beyond it, in a record of 61 bytes. -/
theorem test_record_fields_at_limits :
    let given := fun i x => defaultRecord.bytes.set i x
    (given 13 0).length = 61 ∧ readRecord (given 13 0) = none ∧ readRecord (given 20 7) = none ∧ readRecord (given 60 2) = none ∧
      (readRecord (given 13 6)).map LineRecord.opening = some [0x5A, 0x43, 0x5A, 0x43, 0, 0] ∧
      (readRecord (given 60 1)).map LineRecord.alarmOnOpen = some true ∧
      (readRecord (given 10 9)).map LineRecord.slot = some 3 ∧
      (readRecord (given 4 2)).map LineRecord.unit = some 155648 := by decide +kernel

/-- A BOTH line reconfigured: to OFF, to one side, to the other, with its framing, its motor control and its threshold changed. -/
theorem witness_reconfigured :
    let r := (withLine id).line 3 |>.record
    (r.mode = .both ∧ Mode.inbound ≠ .both ∧ Mode.off ≠ .both) ∧ r.motorControl ≠ true ∧
      (r.framing ≠ .continuous ∧ r.opening ≠ [0x41]) ∧
      (r.rawLevel 20000 = .mark ∧ { r with markThreshold := 128 }.rawLevel 20000 = .space) ∧
      ((motored (fun y => { y with state := .starting }) []).line 3).record.motorControl = true := by decide

theorem witness_layouts :
    readRecord defaultRecord.bytes = some defaultRecord ∧ readTable (1 :: fixedTable.bytes) = some fixedTable := by decide +kernel

theorem witness_line_control :
    let s := fun m (y : SendSide → SendSide) => withLine fun x => { x with record := { x.record with mode := m }, send := y x.send }
    let st := fun v => s .both fun y => { y with state := v }
    ((withLine id).port .a).ready ∧ ((3 : Byte).toNat = (3 : LineNo).val ∧ 15 < (16 : Byte).toNat ∧ 2 < (3 : Byte).toNat) ∧
      (((s .off id).line 3).record.mode = .off ∧ ((s .inbound id).line 3).record.mode = .inbound ∧
        ((s .outbound id).line 3).record.mode = .outbound ∧ ((s .both id).line 3).record.mode = .both ∧
        ((s .both id).line 3).asm.state = .between) ∧
      (((st .sending).line 3).send.state = .sending ∧ ((st .stopped).line 3).send.state = .stopped ∧
        ((st .halted).line 3).send.state = .halted ∧ ((st .idle).line 3).send.breakIn = false) ∧
      (((s .both fun y => { y with breakIn := true }).line 3).send.breakIn = true ∧
        ((s .both fun y => { y with breakIn := true }).line 3).txLoop.loop ≠ .opened ∧
        ((s .both fun y => { y with breakIn := true }).line 3).record.breakPolicy = .hold) ∧
      ((withLine fun x => { x with txLoop := { x.txLoop with loop := .opened } }).line 3).txLoop.loop = .opened :=
  ⟨ready_of_ports .a rfl, by decide, by decide, by decide, by decide, by decide⟩

/-- The states of the assembler that a reset finds. -/
theorem witness_reset_assembler :
    let s := fun a => withLine fun x => { x with asm := { x.asm with state := a } }
    ((s (.inStory h0 true)).line 3).asm.state = .inStory h0 true ∧ ((s .between).line 3).asm.state = .between ∧
      ((s .skipping).line 3).asm.state = .skipping := by decide

theorem witness_load_table :
    let used := withLine fun x => { x with record := { x.record with slot := 1 } }
    (State.reset.port .a).ready ∧ (fixedTable.bytes.length = 129 ∧ readTable (3 :: fixedTable.bytes) = some fixedTable) ∧
      ((3 : Byte).toNat = (3 : Fin 4).val ∧ (3 : Fin 4) ≠ 0 ∧ 3 < (4 : Byte).toNat) ∧ fixedTable.valid = true ∧
      ((used.line 3).record.mode ≠ .off ∧ (used.line 3).record.slot = 1) ∧ State.reset.slotInUse 3 = false ∧
      ((readTable (3 :: 1 :: List.replicate 128 8)).map Table.valid = some false) ∧
      (readTable (3 :: 2 :: List.replicate 128 8) = none ∧ readTable (3 :: 1 :: 9 :: List.replicate 127 8) = none) :=
  ⟨ready_of_ports .a rfl, by decide +kernel, by decide, by decide +kernel, by decide, by decide +kernel, by decide +kernel,
    by decide +kernel⟩

theorem witness_open_story :
    let full := State.reset.modStore fun x => { x with records := Vector.replicate 256 { generation := 15, story := some story0 } }
    (State.reset.port .a).ready ∧ (4 < (5 : Byte).toNat ∧ (4 : Byte).toNat = Priority.deferred.number) ∧
      (∀ i, (full.record i).story ≠ none) ∧ ((putStory State.reset id).record 1).story = none ∧
      (∀ j : Fin 256, j.val < 1 → ((putStory State.reset id).record j).story ≠ none) :=
  ⟨ready_of_ports .a rfl, by decide, by decide +kernel, by decide, by decide +kernel⟩

theorem witness_append_and_keep :
    let s := fun (f : Story → Story) (free : Nat) => (putStory State.reset f).modStore fun x => { x with freeCount := free }
    let n := fun len more : Nat => (len + more + 31) / 32 - (len + 31) / 32
    ((putStory State.reset id).port .a).ready ∧
      ((s id 4094).storyOf h0 = some story0 ∧ story0.state = .composing ∧ story0.holder = some .a ∧ story0.holder ≠ some .b) ∧
      (33 + 31 ≤ 16384 ∧ n 33 31 = 0 ∧ n 33 32 = 1 ∧ 16384 < 16384 + 1) ∧
      ((s id 256).store.freeCount < (s id 256).store.deskReserve + n 33 32 ∧
        (s id 257).store.deskReserve + n 33 32 ≤ (s id 257).store.freeCount) ∧
      ((s (fun st => { st with state := .complete, holder := none }) 4094).storyOf h0).map Story.state = some .complete :=
  ⟨ready_of_ports .a rfl, by decide, by decide, by decide, by decide⟩

/-! ## Witnesses: laws -/

/-- The part with line 3 BOTH keeps every law. -/
theorem witness_laws :
    let s := withLine id
    s.Lawful ∧ (∀ l, (s.line l).SendLawful ∧ (s.line l).ReceiveLawful) ∧ s.TablesLawful ∧
      ∀ p, (s.port p).LinkLawful ∧ (s.port p).SilenceLawful := by
  have hl : ∀ l, (withLine id).line l = if l = 3 then bothLine else powerOnLine := by
    intro l
    rw [withLine, line_modLine]
    simp [State.line, State.reset]
  refine ⟨⟨powerOnStore_lawful, ?_, fun l => ?_, fun p => by cases p <;> exact Nat.zero_le _⟩, fun l => ?_, ⟨rfl, ?_⟩, fun p => ?_⟩
  · exact ⟨⟨by decide, by decide, by decide⟩, ⟨by decide, by decide⟩, fun i => by fin_cases i <;> decide⟩
  · rw [hl]; split <;> exact freshDistribution_lawful
  · rw [hl]
    split
    · exact ⟨⟨by simp [bothLine, SendSide.caused, offSendSide], by decide, by decide, by decide, by decide, by decide, by decide⟩,
        ⟨by decide, by decide, by decide, ⟨fun c k => (nomatch k), by decide, by decide⟩⟩⟩
    · exact ⟨⟨by simp [powerOnLine, offSendSide, SendSide.caused], by decide, fun _ => rfl, fun _ => rfl, by decide, by decide,
        by decide⟩, ⟨by decide, by decide, by decide, ⟨fun c k => (nomatch k), by decide, by decide⟩⟩⟩
  · intro k; fin_cases k <;> decide +kernel
  · cases p <;> exact ⟨⟨by decide, by decide, fun r h => (nomatch h)⟩, ⟨by decide, by decide⟩⟩

/-- Line 3 holds the story of record 0 in its queue, and the story waits on line 3: the laws of stories and lines hold. -/
theorem witness_story_laws :
    let s := putStory (withLine fun x => { x with dist := { x.dist with queue := [entry0] } }) fun st =>
      { st with
        state := .complete
        holder := none
        closedStamp := some { day := 0, second := 0 }
        interest := PortSet.empty
        pending := lineBit 3 }
    s.StoriesLawful := by
  intro s
  have hr : ∀ i, s.record i = if i = 0 then s.record 0 else { generation := 0, story := none } := by
    intro i
    split
    · rename_i e; rw [e]
    · rename_i e
      have : i.val ≠ 0 := fun h => e (Fin.ext h)
      simp [s, putStory, withLine, State.record, State.setRecord, State.modStore, State.modLine, State.reset, powerOnStore,
        Vector.get_eq_getElem, Ne.symm this]
  have hl : ∀ l, s.line l = if l = 3 then { bothLine with dist := { bothLine.dist with queue := [entry0] } } else powerOnLine := by
    intro l
    show ((withLine fun x => { x with dist := { x.dist with queue := [entry0] } }).line l) = _
    rw [withLine, line_modLine]
    simp [State.line, State.reset]
  refine ⟨?_, ?_, ?_, ?_, ?_, ?_⟩
  · intro i st h
    rw [hr] at h
    split at h
    · cases h; exact ⟨by decide, by decide, by decide, by decide, by decide, by decide, by decide, by decide⟩
    · cases h
  · intro l; rw [hl]; split <;> decide
  · intro l h
    constructor
    · intro m
      rw [hl] at m
      split at m
      · rename_i e
        have k : h ∈ [h0] := m
        rw [List.mem_singleton.mp k, e]
        exact ⟨_, rfl, by decide⟩
      · have k : h ∈ ([] : List Handle) := m
        cases k
    · rintro ⟨st, e, hp⟩
      unfold State.storyOf at e
      rw [hr] at e
      by_cases i0 : h.index = 0
      · rw [if_pos i0] at e
        by_cases g0 : (s.record 0).generation = h.generation
        · rw [if_pos g0] at e
          have k : lineIn (lineBit 3) l = true := by cases e; exact hp
          have hl3 : ∀ l, lineIn (lineBit 3) l = true → l = 3 := by decide
          have hh : h = h0 := by
            cases h
            cases i0
            cases g0
            rfl
          rw [hl3 l k, hh]
          decide
        · rw [if_neg g0] at e; cases e
      · rw [if_neg i0, ite_self] at e; cases e
  · intro l; rw [hl]; split <;> decide
  · intro l h; rw [hl]; split <;> (intro e; cases e)
  · intro l m h; rw [hl]; split <;> (intro e; cases e)

end Sys2Proof.Tests
end

section
/-! SUPPORT. The 1 ms base (R1): its edges counted, the expiry of a timer, and the statement about timers. -/

namespace Sys2Proof.Machine

/-! ## The edges of the 1 ms base -/

/-- `edgesBetween` counts what its name says: the multiples of 4,096 after `t0` up to `t1`. -/
theorem length_filter_edges_eq_edgesBetween (t0 t1 : Nat) :
    ((List.range (t1 + 1)).filter fun e => t0 < e ∧ e % 4096 = 0).length = edgesBetween t0 t1 := by
  unfold edgesBetween Config.ticksPerMs
  induction t1 with
  | zero => simp
  | succ t1 ih =>
    rw [List.range_succ, List.filter_append, List.length_append, ih]
    by_cases hEdge : t0 < t1 + 1 ∧ (t1 + 1) % 4096 = 0
    · simp only [List.filter_singleton, hEdge, and_self, decide_true, cond_true, List.length_singleton]
      omega
    · simp only [List.filter_singleton, hEdge, decide_false, cond_false, List.length_nil]
      omega

/-! ## Timers -/

/-- A timer loaded with 0 expires at its load. -/
@[simp] theorem timerMs_zero_due (s : State) : (s.timerMs 0).due = s.tick := rfl

theorem timerMs_due (s : State) {n : Nat} (hn : n ≠ 0) : (s.timerMs n).due = (s.tick / 4096 + n) * 4096 :=
  if_neg hn

theorem timerS_eq_timerMs (s : State) (n : Nat) : s.timerS n = s.timerMs (1000 * n) :=
  congrArg s.timerMs (Nat.mul_comm n 1000)

theorem timerMs_due_isEdge (s : State) {n : Nat} (hn : n ≠ 0) : (s.timerMs n).due % 4096 = 0 := by
  rw [timerMs_due s hn, Nat.mul_mod_left]

theorem tick_lt_timerMs_due (s : State) {n : Nat} (hn : n ≠ 0) : s.tick < (s.timerMs n).due := by
  rw [timerMs_due s hn]
  omega

/-- From the load to the expiry the base has as many edges as the timer was loaded with. -/
theorem edgesBetween_timerMs_due (s : State) {n : Nat} (hn : n ≠ 0) :
    edgesBetween s.tick (s.timerMs n).due = n := by
  rw [timerMs_due s hn, edgesBetween, Config.ticksPerMs]
  omega

/-- Settles O4: the expiry is an edge after the load, and the edges up to it, counted by `edgesBetween`, are `n`. -/
theorem timerExpiry : Obligations.TimerExpiry := by
  intro s n
  refine ⟨timerMs_zero_due s, timerS_eq_timerMs s n, fun hn => ?_⟩
  refine ⟨timerMs_due_isEdge s hn, tick_lt_timerMs_due s hn, ?_⟩
  calc _ = edgesBetween s.tick (s.timerMs n).due := length_filter_edges_eq_edgesBetween _ _
    _ = n := edgesBetween_timerMs_due s hn

end Sys2Proof.Machine
end

section
/-! SUPPORT. A desk row at a port that is ready: its command runs, and its response begins (R171, R172, R173); and the fields of
a payload that name a line, a slot or a story (R92, R180). A vector by its places. -/

namespace Sys2Proof.Machine

/-! ## Vectors -/

/-- The elements of a vector, by their places. -/
theorem toList_eq_map_get {α : Type} {n : Nat} (v : Vector α n) : v.toList = (List.finRange n).map v.get := by
  apply List.ext_getElem (by simp)
  intro i _ _
  simp [Vector.get_eq_getElem]

/-! ## Desk rows -/

/-- A desk row offers its frame to its port. -/
theorem exec_of_goodFrameOf {c : Instr} {p : Port} {g : GoodFrame} (hc : goodFrameOf c = some (p, g)) (s : State) :
    exec c s = .next (s.offerFrame p g (runCommand p g)) := by
  cases c <;> cases hc <;> rfl

theorem offerFrame_of_ready {s : State} {p : Port} (hp : (s.port p).ready) (g : GoodFrame) (run : State → Reply) :
    s.offerFrame p g run = (run s).state.answer p g.code g.frame (run s).status (run s).payload := by
  obtain ⟨hIdle, hNoneHeld⟩ := hp
  simp [State.offerFrame, hIdle, hNoneHeld, State.takeFrame, State.answer]

/-- At a port that is ready the command of a desk row is answered at once. -/
theorem exec_of_ready {c : Instr} {p : Port} {code : Byte} {f : CommandFrame} {s t : State} {st : Status} {payload : List Byte}
    (hc : goodFrameOf c = some (p, { code := code, frame := f })) (hp : (s.port p).ready)
    (hReply : runCommand p { code := code, frame := f } s = { status := st, payload := payload, state := t }) :
    exec c s = .next (t.answer p code f st payload) := by
  rw [exec_of_goodFrameOf hc, offerFrame_of_ready hp, hReply]

/-! ## Lines, slots and handles of a payload -/

theorem lineOf_eq_some_iff (n : Nat) (l : LineNo) : lineOf n = some l ↔ n = l.val := by
  simp only [lineOf, Option.ite_none_right_eq_some, Option.some.injEq, Fin.ext_iff, Fin.val_ofNat]
  omega

theorem lineOf_eq_none {n : Nat} (h : 15 < n) : lineOf n = none := if_neg (by omega)

theorem slotOf_eq_some_iff (n : Nat) (k : Fin 4) : slotOf n = some k ↔ n = k.val := by
  simp only [slotOf, Option.ite_none_right_eq_some, Option.some.injEq, Fin.ext_iff, Fin.val_ofNat]
  omega

theorem slotOf_eq_none {n : Nat} (h : 3 < n) : slotOf n = none := if_neg (by omega)

theorem byte1_of_toNat {x : Byte} {n : Nat} (h : x.toNat = n) : byte1 n = x := by
  subst h
  exact BitVec.ofNat_toNat 8 x

theorem handleAtByte_eq_some_iff (i g : Byte) (xs : List Byte) (h : Handle) :
    handleAtByte (i :: g :: xs) 0 = some h ↔ i.toNat = h.index.val ∧ g.toNat = h.generation.val := by
  obtain ⟨index, generation⟩ := h
  have hi := i.isLt
  simp only [handleAtByte, byteAt, List.getD_cons_zero, List.getD_cons_succ, Option.ite_none_right_eq_some,
    Option.some.injEq, Handle.mk.injEq, Fin.ext_iff, Fin.val_ofNat]
  omega

/-- A payload whose first two bytes are no current handle names no story. -/
theorem namedStory_eq_none {s : State} {i g : Byte} {xs : List Byte}
    (hs : ∀ h : Handle, i.toNat = h.index.val → g.toNat = h.generation.val → s.storyOf h = none) :
    s.namedStory (i :: g :: xs) = none := by
  unfold State.namedStory
  cases hh : handleAtByte (i :: g :: xs) 0 with
  | none => rfl
  | some h =>
    obtain ⟨hi, hg⟩ := (handleAtByte_eq_some_iff i g xs h).mp hh
    simp [hs h hi hg]

theorem namedStory_eq_some {s : State} {i g : Byte} {xs : List Byte} {h : Handle} {st : Story}
    (hi : i.toNat = h.index.val) (hg : g.toNat = h.generation.val) (hs : s.storyOf h = some st) :
    s.namedStory (i :: g :: xs) = some (h, st) := by
  simp [State.namedStory, (handleAtByte_eq_some_iff i g xs h).mpr ⟨hi, hg⟩, hs]

end Sys2Proof.Machine
end

section
/-! SUPPORT. The value of a code and its elements (R2). -/

namespace Sys2Proof.Machine

/-- The bits of the value are the mark elements. -/
theorem testBit_elementsValue (es : List Level) (k : Nat) :
    (elementsValue es).testBit k = decide (es[k]? = some .mark) := by
  induction es generalizing k with
  | nil => simp [elementsValue]
  | cons e es ih =>
    cases k with
    | zero => cases e <;> simp [elementsValue, Nat.testBit_zero]
    | succ k =>
      have hHalf : elementsValue (e :: es) / 2 = elementsValue es := by cases e <;> simp only [elementsValue] <;> omega
      rw [Nat.testBit_succ, hHalf, ih, List.getElem?_cons_succ]

theorem elementsValue_lt (es : List Level) : elementsValue es < 2 ^ es.length := by
  induction es with
  | nil => simp [elementsValue]
  | cons e es ih => cases e <;> simp only [elementsValue, List.length_cons, Nat.pow_succ] <;> omega

/-- The value is the sum of the weights of the mark elements. -/
theorem elementsValue_eq_sum (es : List Level) :
    elementsValue es = ((List.range es.length).map fun k => if es[k]? = some .mark then 2 ^ k else 0).sum := by
  induction es with
  | nil => rfl
  | cons e es ih =>
    have hTail : 2 * elementsValue es =
        ((List.range es.length).map fun k => if es[k]? = some .mark then 2 ^ (k + 1) else 0).sum := by
      rw [ih, ← List.sum_map_mul_left]
      simp only [mul_ite, Nat.pow_succ', Nat.mul_zero]
    cases e <;> simp [elementsValue, List.range_succ_eq_map, Function.comp_def, hTail]

theorem elementsCode_val {es : List Level} (h : es.length = 5) : (elementsCode es).val = elementsValue es := by
  have hLt := elementsValue_lt es
  rw [h] at hLt
  exact Nat.mod_eq_of_lt hLt

/-- A code element is keyed as mark exactly where the value has its weight. -/
theorem elementLevel_succ (c : Code) {k : Nat} (h : k < 5) :
    elementLevel c (k + 1) = if c.val.testBit k then .mark else .space := by
  simp only [elementLevel, codeMarks, Nat.add_sub_cancel, if_neg (Nat.succ_ne_zero k), if_pos (Nat.succ_le_of_lt h)]

/-- The code elements of a code, as they are keyed. -/
def codeLevels (c : Code) : List Level := (List.range' 1 5).map (elementLevel c)

@[simp] theorem length_codeLevels (c : Code) : (codeLevels c).length = 5 := by simp [codeLevels]

theorem codeLevels_getElem (c : Code) (k : Nat) (h : k < (codeLevels c).length) :
    (codeLevels c)[k] = elementLevel c (k + 1) := by
  simp [codeLevels, Nat.add_comm]

/-- Keyed and received, a code is the same. -/
theorem elementsCode_codeLevels (c : Code) : elementsCode (codeLevels c) = c := by
  apply Fin.ext
  rw [elementsCode_val (length_codeLevels c)]
  apply Nat.eq_of_testBit_eq
  intro k
  rw [testBit_elementsValue]
  by_cases hk : k < (codeLevels c).length
  · have hKeyed := elementLevel_succ c (show k < 5 by simpa using hk)
    rw [List.getElem?_eq_getElem hk, codeLevels_getElem, hKeyed]
    cases c.val.testBit k <;> rfl
  · have hBig : c.val < 2 ^ k :=
      lt_of_lt_of_le c.isLt (Nat.pow_le_pow_right (show 0 < 2 by decide) (show 5 ≤ k by simpa using hk))
    simp [List.getElem?_eq_none (Nat.le_of_not_lt hk), Nat.testBit_lt_two_pow hBig]

/-- Received and keyed again, the elements are the same. -/
theorem codeLevels_elementsCode {es : List Level} (h : es.length = 5) : codeLevels (elementsCode es) = es := by
  apply List.ext_getElem (by simp [h])
  intro k _ hk
  rw [codeLevels_getElem, elementLevel_succ _ (h ▸ hk), elementsCode_val h, testBit_elementsValue,
    List.getElem?_eq_getElem hk]
  cases es[k] <;> rfl

/-- Settles O26: the value is the sum of the weights, its bits are the mark elements, and a number below 32 is its five bits. -/
theorem codeElements : Obligations.CodeElements := by
  refine ⟨fun es h => ?_, fun c k h1 h5 => ?_, fun c => ⟨rfl, rfl, elementsCode_codeLevels c⟩,
    fun es h => codeLevels_elementsCode h⟩
  · rw [elementsCode_val h, elementsValue_eq_sum, h]
  · obtain ⟨k, rfl⟩ := Nat.exists_eq_add_of_le' h1
    rw [elementLevel_succ c h5, Nat.add_sub_cancel, Nat.testBit_eq_decide_div_mod_eq]
    rcases Nat.mod_two_eq_zero_or_one (c.val / 2 ^ k) with hBit | hBit <;> simp [hBit]

end Sys2Proof.Machine
end

section
/-! SUPPORT. The lowest code of a case, and the reverse map (R9, R10). -/

namespace Sys2Proof.Machine

/-- The entries of a case, by their codes. -/
theorem toList_entries (t : Table) (c : Case) : (t.entries c).toList = (List.finRange 32).map (t.entry c) :=
  toList_eq_map_get (t.entries c)

theorem lowest_eq_some_iff (t : Table) (c : Case) (test : Entry → Bool) (k : Code) :
    t.lowest c test = some k ↔
      test (t.entry c k) = true ∧ ∀ j : Code, j.val < k.val → test (t.entry c j) = false := by
  simp only [Table.lowest, toList_entries, List.findIdx?_map, Option.map_eq_some_iff, List.findIdx?_eq_some_iff_getElem,
    Function.comp_apply, List.getElem_finRange, List.length_finRange, Bool.not_eq_true]
  constructor
  · rintro ⟨i, ⟨hi, hTest, hBelow⟩, rfl⟩
    have hCode : Fin.ofNat 32 i = ⟨i, hi⟩ := Fin.ext (Nat.mod_eq_of_lt hi)
    rw [hCode]
    exact ⟨hTest, fun j hj => hBelow j.val hj⟩
  · rintro ⟨hTest, hBelow⟩
    exact ⟨k.val, ⟨k.isLt, hTest, fun j hj => hBelow ⟨j, hj.trans k.isLt⟩ hj⟩, Fin.ofNat_val_eq_self k⟩

theorem lowest_eq_none_iff (t : Table) (c : Case) (test : Entry → Bool) :
    t.lowest c test = none ↔ ∀ k, test (t.entry c k) = false := by
  simp [Table.lowest, toList_entries, List.findIdx?_eq_none_iff]

theorem ownCode_eq_some_iff (t : Table) (c : Case) (x : Byte) (k : Code) :
    t.ownCode c x = some k ↔
      (t.entry c k).produces = some x ∧ ∀ j : Code, j.val < k.val → (t.entry c j).produces ≠ some x := by
  simp only [Table.ownCode, lowest_eq_some_iff, beq_iff_eq, beq_eq_false_iff_ne]

theorem ownCode_eq_none_iff (t : Table) (c : Case) (x : Byte) :
    t.ownCode c x = none ↔ ∀ k, (t.entry c k).produces ≠ some x := by
  simp only [Table.ownCode, lowest_eq_none_iff, beq_eq_false_iff_ne]

/-- No entry of either case produces a character exactly when neither case has a code of its own for it. -/
theorem forall_produces_ne_iff (t : Table) (x : Byte) :
    (∀ d k, (t.entry d k).produces ≠ some x) ↔ t.ownCode .letters x = none ∧ t.ownCode .figures x = none := by
  rw [ownCode_eq_none_iff, ownCode_eq_none_iff]
  exact ⟨fun h => ⟨h .letters, h .figures⟩, fun ⟨hLetters, hFigures⟩ d => by cases d <;> assumption⟩

/-- The test of `Table.folded` says which characters fold (R10). -/
theorem folds_iff (t : Table) (x : Byte) :
    (t.fold && isLowerCase x && (t.ownCode .letters x).isNone && (t.ownCode .figures x).isNone) = true ↔
      t.fold = true ∧ 0x61 ≤ x.toNat ∧ x.toNat ≤ 0x7A ∧ ∀ d k, (t.entry d k).produces ≠ some x := by
  simp only [isLowerCase, forall_produces_ne_iff, Bool.and_eq_true, decide_eq_true_eq, Option.isNone_iff_eq_none, and_assoc]

theorem folded_of_folds {t : Table} {x : Byte}
    (h : t.fold = true ∧ 0x61 ≤ x.toNat ∧ x.toNat ≤ 0x7A ∧ ∀ d k, (t.entry d k).produces ≠ some x) :
    t.folded x = x - 0x20 :=
  if_pos ((folds_iff t x).mpr h)

theorem folded_of_not_folds {t : Table} {x : Byte}
    (h : ¬(t.fold = true ∧ 0x61 ≤ x.toNat ∧ x.toNat ≤ 0x7A ∧ ∀ d k, (t.entry d k).produces ≠ some x)) :
    t.folded x = x :=
  if_neg fun hFolds => h ((folds_iff t x).mp hFolds)

/-- Settles O27: the lowest code is found by its test, and folding asks for both cases. -/
theorem reverseMap : Obligations.ReverseMap := by
  intro t c x
  refine ⟨ownCode_eq_some_iff t c x, ownCode_eq_none_iff t c x, fun hFolds => ?_, fun hStays => ?_⟩
  · rw [Table.reverse, folded_of_folds hFolds]
  · rw [Table.reverse, folded_of_not_folds hStays]

end Sys2Proof.Machine
end

section
/-! SUPPORT. The validity of a table, the table of a payload, and LOAD_TABLE (R12, R13, R14). -/

namespace Sys2Proof.Machine

/-! ## Validity (R12) -/

/-- One entry of a vector passes a test exactly when some place is the only one that passes it. -/
theorem countP_toList_eq_one_iff {α : Type} {n : Nat} (v : Vector α n) (test : α → Bool) :
    v.toList.countP test = 1 ↔ ∃ c, ∀ j, test (v.get j) = true ↔ j = c := by
  rw [toList_eq_map_get, List.countP_map, List.countP_eq_length_filter, List.length_eq_one_iff]
  refine exists_congr fun c => ?_
  rw [← List.perm_singleton, List.perm_ext_iff_of_nodup ((List.nodup_finRange n).filter _) (List.nodup_singleton c)]
  simp

theorem one_le_countP_toList_iff {α : Type} {n : Nat} (v : Vector α n) (test : α → Bool) :
    1 ≤ v.toList.countP test ↔ ∃ j, test (v.get j) = true := by
  rw [toList_eq_map_get, List.countP_map, List.one_le_countP_iff]
  simp

theorem commonOfKind_isSome_iff (t : Table) (k : Kind) :
    (t.commonOfKind k).isSome = true ↔ ∃ j : Code, (t.letters.get j).kind = k ∧ (t.figures.get j).kind = k := by
  rw [Table.commonOfKind, Option.isSome_map, List.findIdx?_isSome, toList_eq_map_get, toList_eq_map_get, List.zip_map']
  simp

/-- Conditions 1 and 2: the one code of the kind is the same in both cases. -/
theorem oneShift_iff (t : Table) (k : Kind) :
    t.oneShift k = true ↔
      ∃ c : Code, ∀ j : Code, ((t.letters.get j).kind = k ↔ j = c) ∧ ((t.figures.get j).kind = k ↔ j = c) := by
  simp only [Table.oneShift, Table.count, Table.entries, Bool.and_eq_true, decide_eq_true_eq, countP_toList_eq_one_iff,
    commonOfKind_isSome_iff, beq_iff_eq]
  constructor
  · rintro ⟨⟨⟨c, hLetters⟩, ⟨d, hFigures⟩⟩, ⟨j, hj, hj'⟩⟩
    obtain rfl : j = c := (hLetters j).mp hj
    obtain rfl : j = d := (hFigures j).mp hj'
    exact ⟨j, fun i => ⟨hLetters i, hFigures i⟩⟩
  · rintro ⟨c, h⟩
    exact ⟨⟨⟨c, fun j => (h j).1⟩, ⟨c, fun j => (h j).2⟩⟩, ⟨c, (h c).1.mpr rfl, (h c).2.mpr rfl⟩⟩

/-- Conditions 3 to 5. -/
theorem inBoth_iff (t : Table) (k : Kind) :
    t.inBoth k = true ↔ (∃ j : Code, (t.letters.get j).kind = k) ∧ ∃ j : Code, (t.figures.get j).kind = k := by
  simp only [Table.inBoth, Table.count, Table.entries, Bool.and_eq_true, decide_eq_true_eq, one_le_countP_toList_iff,
    beq_iff_eq]

theorem badPrint_eq_false_iff (e : Entry) :
    e.badPrint = false ↔ (e.kind = .print → e.char ≠ 0x0A ∧ e.char ≠ 0x0D ∧ e.char ≠ 0x07) := by
  simp [Entry.badPrint, and_assoc]

/-- Condition 6. -/
theorem not_any_badPrint_iff (v : Vector Entry 32) :
    (!v.toList.any Entry.badPrint) = true ↔
      ∀ j : Code, (v.get j).kind = .print → (v.get j).char ≠ 0x0A ∧ (v.get j).char ≠ 0x0D ∧ (v.get j).char ≠ 0x07 := by
  rw [toList_eq_map_get, Bool.not_eq_true', List.any_eq_false]
  simp [badPrint_eq_false_iff]

/-- A table is valid by the six conditions of R12. -/
theorem valid_iff (t : Table) :
    t.valid = true ↔
      t.oneShift .ltrs = true ∧ t.oneShift .figs = true ∧ t.inBoth .space = true ∧ t.inBoth .cr = true ∧
        t.inBoth .lf = true ∧ (!t.letters.toList.any Entry.badPrint) = true ∧
        (!t.figures.toList.any Entry.badPrint) = true := by
  simp only [Table.valid, Bool.and_eq_true, and_assoc]

/-! ## The table of a payload (R13) -/

theorem Kind.ofNumber_eq (n : Nat) :
    Kind.ofNumber n = [Kind.print, .space, .cr, .lf, .ltrs, .figs, .bell, .blank, .ignore][n]? := by
  rcases n with _ | _ | _ | _ | _ | _ | _ | _ | _ | n <;> simp [Kind.ofNumber]

theorem Kind.ofNumber_eq_none_iff (n : Nat) : Kind.ofNumber n = none ↔ 8 < n := by
  rw [Kind.ofNumber_eq, List.getElem?_eq_none_iff]
  exact Nat.succ_le_iff

theorem boolOf_eq_none_iff (n : Nat) : boolOf n = none ↔ 1 < n := by
  rw [boolOf_eq, List.getElem?_eq_none_iff]
  exact Nat.succ_le_iff

theorem boolOf_eq_some_iff (n : Nat) (b : Bool) : boolOf n = some b ↔ n = boolNum b := by
  rcases n with _ | _ | n <;> cases b <;> simp [boolOf, boolNum]

theorem readEntries_cons (n : Nat) (k x : Byte) (xs : List Byte) :
    readEntries (n + 1) (k :: x :: xs) =
      (Kind.ofNumber k.toNat).bind fun kind => (readEntries n xs).map ({ kind := kind, char := x } :: ·) := by
  rw [readEntries]
  cases Kind.ofNumber k.toNat <;> cases readEntries n xs <;> rfl

theorem readEntries_cons_eq_none_iff (n : Nat) (k x : Byte) (xs : List Byte) :
    readEntries (n + 1) (k :: x :: xs) = none ↔ Kind.ofNumber k.toNat = none ∨ readEntries n xs = none := by
  rw [readEntries_cons]
  cases Kind.ofNumber k.toNat <;> simp

/-- The entries cannot be read exactly when some kind number is undefined. -/
theorem readEntries_eq_none_iff {n : Nat} {xs : List Byte} (h : 2 * n ≤ xs.length) :
    readEntries n xs = none ↔ ∃ i, i < n ∧ 8 < (xs.getD (2 * i) 0).toNat := by
  induction n generalizing xs with
  | zero => simp [readEntries]
  | succ n ih =>
    obtain _ | ⟨k, _ | ⟨x, xs⟩⟩ := xs
    · simp at h
    · simp at h; omega
    · rw [readEntries_cons_eq_none_iff, Kind.ofNumber_eq_none_iff, ih (by simpa [Nat.mul_add] using h),
        Nat.exists_lt_succ_left]
      simp [Nat.mul_add]

theorem readEntries_eq_some {n : Nat} {xs : List Byte} {es : List Entry} (h : readEntries n xs = some es) :
    es.length = n ∧ ∀ i (hi : i < es.length),
      Kind.ofNumber (xs.getD (2 * i) 0).toNat = some es[i].kind ∧ es[i].char = xs.getD (2 * i + 1) 0 := by
  induction n generalizing xs es with
  | zero => cases h; simp
  | succ n ih =>
    obtain _ | ⟨k, _ | ⟨x, xs⟩⟩ := xs
    · cases h
    · cases h
    · rw [readEntries_cons, Option.bind_eq_some_iff] at h
      obtain ⟨kind, hKind, h⟩ := h
      obtain ⟨rest, hRest, rfl⟩ := Option.map_eq_some_iff.mp h
      obtain ⟨hLength, hEntries⟩ := ih hRest
      refine ⟨by simp [hLength], fun i hi => ?_⟩
      cases i with
      | zero => simp [hKind]
      | succ i => simpa [Nat.mul_add] using hEntries i (by simpa using hi)

theorem get_entryVector (es : List Entry) (j : Code) :
    (entryVector es).get j = (es.getD j.val { kind := .ignore, char := 0 }).taken := by
  simp [entryVector, Vector.get_eq_getElem]

/-- An entry as a slot takes it from its kind number and its character (R13). -/
def Entry.TakenFrom (k x : Byte) (e : Entry) : Prop :=
  Kind.ofNumber k.toNat = some e.kind ∧
    e.char =
      match e.kind with
      | .print => x
      | .space => 0x20
      | .lf => 0x0A
      | .bell => 0x07
      | _ => 0x00

theorem takenFrom_taken {k x : Byte} {e : Entry} (hKind : Kind.ofNumber k.toNat = some e.kind) (hChar : e.char = x) :
    e.taken.TakenFrom k x := by
  obtain ⟨kind, char⟩ := e
  subst hChar
  cases kind <;> exact ⟨hKind, rfl⟩

/-- The table cannot be read exactly when its fold flag or some kind number is undefined. -/
theorem readTable_eq_none_iff {n : Byte} {bytes : List Byte} (h : bytes.length = 129) :
    readTable (n :: bytes) = none ↔
      1 < (bytes.getD 0 0).toNat ∨ ∃ i, i < 64 ∧ 8 < (bytes.getD (1 + 2 * i) 0).toNat := by
  have hParts : readTable (n :: bytes) = none ↔
      boolOf (bytes.getD 0 0).toNat = none ∨ readEntries 64 (bytes.drop 1) = none := by
    simp only [readTable, byteAt, List.getD_cons_succ, List.drop_succ_cons]
    cases boolOf (bytes.getD 0 0).toNat <;> cases readEntries 64 (bytes.drop 1) <;> simp
  rw [hParts, boolOf_eq_none_iff, readEntries_eq_none_iff (by simp [h])]
  simp only [List.getD_eq_getElem?_getD, List.getElem?_drop]

theorem readTable_eq_some {n : Byte} {bytes : List Byte} {t : Table} (h : readTable (n :: bytes) = some t) :
    (bytes.getD 0 0).toNat = boolNum t.fold ∧
      ∀ j : Code,
        (t.letters.get j).TakenFrom (bytes.getD (1 + 2 * j.val) 0) (bytes.getD (1 + 2 * j.val + 1) 0) ∧
        (t.figures.get j).TakenFrom (bytes.getD (65 + 2 * j.val) 0) (bytes.getD (65 + 2 * j.val + 1) 0) := by
  simp only [readTable, byteAt, List.getD_cons_succ, List.drop_succ_cons, Option.bind_eq_bind,
    Option.bind_eq_some_iff, Option.some.injEq] at h
  obtain ⟨fold, hFold, es, hRead, rfl⟩ := h
  obtain ⟨hLength, hEntries⟩ := readEntries_eq_some hRead
  have hTaken : ∀ i, i < 64 → (es.getD i { kind := .ignore, char := 0 }).taken.TakenFrom
      (bytes.getD (1 + 2 * i) 0) (bytes.getD (1 + 2 * i + 1) 0) := by
    intro i hi
    have hi' : i < es.length := by omega
    obtain ⟨hKind, hChar⟩ := hEntries i hi'
    simp only [List.getD_eq_getElem?_getD, List.getElem?_drop] at hKind hChar ⊢
    rw [List.getElem?_eq_getElem hi', Option.getD_some]
    exact takenFrom_taken hKind (by rw [hChar, Nat.add_assoc])
  refine ⟨(boolOf_eq_some_iff _ _).mp hFold, fun j => ?_⟩
  have hLetters := hTaken j.val (by omega)
  have hFigures := hTaken (32 + j.val) (by omega)
  rw [show 1 + 2 * (32 + j.val) = 65 + 2 * j.val by omega] at hFigures
  simp only [get_entryVector, List.getD_eq_getElem?_getD, List.getElem?_take, List.getElem?_drop, if_pos j.isLt]
    at hLetters hFigures ⊢
  exact ⟨hLetters, hFigures⟩

/-! ## LOAD_TABLE (R13, R14) -/

theorem usesSlot_iff (x : Line) (k : Fin 4) :
    x.usesSlot k = true ↔
      (x.record.mode ≠ .off ∧ x.record.slot = k) ∨ (x.dist.current ≠ none ∧ ∃ c, x.enc.copy = some c ∧ c.slot = k) := by
  simp [Line.usesSlot, Option.isSome_iff_ne_none]

theorem slotInUse_iff (s : State) (k : Fin 4) : s.slotInUse k = true ↔ ∃ l, (s.line l).usesSlot k = true := by
  rw [State.slotInUse, toList_eq_map_get]
  simp [State.line]

section
variable {s : State} {xs : List Byte} {k : Fin 4} {t : Table}

theorem loadTableCommand_badLength (h : xs.length ≠ 130) : loadTableCommand xs s = s.refuse .badLength := if_pos h

/-- Of a slot other than 0 and a table that can be read, LOAD_TABLE asks for the use of the one and the validity of the
other. -/
theorem loadTableCommand_readable (hLength : xs.length = 130) (hSlot : byteAt xs 0 = k.val) (hk : k ≠ 0)
    (ht : readTable xs = some t) :
    loadTableCommand xs s =
      if s.slotInUse k then s.refuse .tableInUse
      else if t.valid = false then s.refuse .tableInvalid
      else { s with tables := s.tables.set k.val t }.done [] := by
  simp only [loadTableCommand, hLength, ne_eq, not_true_eq_false, if_false, (slotOf_eq_some_iff _ _).mpr hSlot, if_neg hk, ht]

theorem loadTableCommand_badValue (hLength : xs.length = 130)
    (h : byteAt xs 0 = 0 ∨ 3 < byteAt xs 0 ∨ readTable xs = none) : loadTableCommand xs s = s.refuse .badValue := by
  simp only [loadTableCommand, hLength, ne_eq, not_true_eq_false, if_false]
  cases hSlot : slotOf (byteAt xs 0) with
  | none => rfl
  | some k =>
    rw [slotOf_eq_some_iff] at hSlot
    by_cases hk : k = 0
    · exact if_pos hk
    · have hUnread : readTable xs = none := by
        rcases h with h | h | h
        · exact absurd (Fin.ext (hSlot.symm.trans h)) hk
        · omega
        · exact h
      simp only [if_neg hk, hUnread]

end

/-- Settles O52, by the six conditions one by one, by the entries of the payload, and by the tests of the command in order. -/
theorem loadTableResult : Obligations.LoadTableResult := by
  refine ⟨fun t => ?_, fun n bytes hBytes => ⟨readTable_eq_none_iff hBytes, fun t ht => ?_⟩, fun s p f hp hLength => ?_,
    fun s p rate n bytes hp hBytes => ?_⟩
  · simp only [valid_iff, oneShift_iff, inBoth_iff, not_any_badPrint_iff, forall_and]
  · obtain ⟨hFold, hEntries⟩ := readTable_eq_some ht
    refine ⟨?_, fun j => ?_⟩
    · rw [← BitVec.toNat_inj, hFold]
      cases t.fold <;> decide
    · obtain ⟨hLetters, hFigures⟩ := hEntries j
      simp only [Entry.TakenFrom, Kind.ofNumber_eq] at hLetters hFigures
      exact ⟨hLetters, hFigures⟩
  · exact exec_of_ready rfl hp (loadTableCommand_badLength hLength)
  · have hLength : (n :: bytes).length = 130 := by simp [hBytes]
    refine ⟨fun hBad => ?_, fun k t hSlot hk ht => ?_⟩
    · refine exec_of_ready rfl hp (loadTableCommand_badValue hLength ?_)
      exact hBad.imp_left fun hZero => by subst hZero; rfl
    · have hReply := loadTableCommand_readable (s := s) hLength hSlot hk ht
      have hUse := slotInUse_iff s k
      simp only [usesSlot_iff] at hUse
      refine ⟨fun hUsed => ?_, fun hFree hInvalid => ?_, fun hFree hValid => ?_⟩
      · exact exec_of_ready rfl hp (hReply.trans (if_pos (hUse.mpr hUsed)))
      · exact exec_of_ready rfl hp (hReply.trans ((if_neg (hFree ∘ hUse.mp)).trans (if_pos hInvalid)))
      · exact exec_of_ready rfl hp (hReply.trans ((if_neg (hFree ∘ hUse.mp)).trans (if_neg (by simp [hValid]))))

end Sys2Proof.Machine
end

section
/-! SUPPORT. The commands that read: STATUS, READ_LINE, READ_TABLE, LIST_STORIES and READ_STORY (R16, R21, R109, R110, R174). -/

namespace Sys2Proof.Machine

/-! ## The stories listed (R110) -/

theorem passes_iff (st : Story) (states bound origin : Nat) :
    st.passes states bound origin = true ↔
      states.testBit (st.state.number - 1) = true ∧ st.priority.number ≤ bound ∧
        (origin = 255 ∨ origin = st.origin.number) := by
  simp only [Story.passes, Bool.and_eq_true, Bool.or_eq_true, decide_eq_true_eq, and_assoc]

theorem mem_passing_cons (states bound origin : Nat) (r : StoryRecord) (rs : List StoryRecord) (i : Nat) (h : Handle)
    (st : Story) :
    (h, st) ∈ passing states bound origin (r :: rs) i ↔
      (h = { index := Fin.ofNat 256 i, generation := r.generation } ∧ r.story = some st ∧
        st.passes states bound origin = true) ∨ (h, st) ∈ passing states bound origin rs (i + 1) := by
  rw [passing]
  cases hStory : r.story with
  | none => simp
  | some y =>
    obtain rfl | hOther := eq_or_ne y st
    · cases hPasses : y.passes states bound origin <;> simp [hPasses]
    · cases hPasses : y.passes states bound origin <;> simp [hPasses, hOther, hOther.symm]

/-- What passes of a list of records: the story of a record that passes the filter, with the handle of the record's place. -/
theorem mem_passing_iff (states bound origin : Nat) (rs : List StoryRecord) (i : Nat) (h : Handle) (st : Story) :
    (h, st) ∈ passing states bound origin rs i ↔
      ∃ k r, rs[k]? = some r ∧ h = { index := Fin.ofNat 256 (i + k), generation := r.generation } ∧ r.story = some st ∧
        st.passes states bound origin = true := by
  induction rs generalizing i with
  | nil => simp [passing]
  | cons r rs ih =>
    rw [mem_passing_cons, ih]
    refine Iff.trans ?_ Nat.or_exists_add_one
    simp [Nat.add_assoc, Nat.add_comm 1]

theorem pairwise_passing (states bound origin : Nat) (rs : List StoryRecord) (i : Nat) (h : i + rs.length ≤ 256) :
    (passing states bound origin rs i).Pairwise fun x y => x.1.index.val < y.1.index.val := by
  induction rs generalizing i with
  | nil => exact .nil
  | cons r rs ih =>
    have hTail := ih (i + 1) (by simpa [Nat.add_assoc, Nat.add_comm 1] using h)
    rw [passing]
    cases r.story with
    | none => exact hTail
    | some st =>
      dsimp only
      split
      · refine List.pairwise_cons.mpr ⟨fun y hy => ?_, hTail⟩
        obtain ⟨k, r, hk, hHandle, -⟩ := (mem_passing_iff _ _ _ _ _ y.1 y.2).mp hy
        have hkLength := (List.getElem?_eq_some_iff.mp hk).1
        rw [List.length_cons] at h
        rw [hHandle]
        simp only [Fin.val_ofNat]
        omega
      · exact hTail

theorem toList_records_getElem? (s : State) (i : Fin 256) : s.store.records.toList[i.val]? = some (s.record i) := by
  simp [toList_eq_map_get, State.record]

/-- The stories listed from a start index on (R110). -/
theorem mem_listed_iff (s : State) (states bound origin start : Nat) (h : Handle) (st : Story) :
    (h, st) ∈ passing states bound origin (s.store.records.toList.drop start) start ↔
      start ≤ h.index.val ∧ s.storyOf h = some st ∧ st.passes states bound origin = true := by
  simp only [mem_passing_iff, List.getElem?_drop]
  constructor
  · rintro ⟨k, r, hRecord, rfl, hStory, hPasses⟩
    have hPlace : start + k < 256 := by simpa using (List.getElem?_eq_some_iff.mp hRecord).1
    have hIndex : Fin.ofNat 256 (start + k) = ⟨start + k, hPlace⟩ := Fin.ext (Nat.mod_eq_of_lt hPlace)
    obtain rfl : s.record ⟨start + k, hPlace⟩ = r :=
      Option.some.inj ((toList_records_getElem? s ⟨start + k, hPlace⟩).symm.trans hRecord)
    rw [hIndex]
    exact ⟨Nat.le_add_right start k, by simp [State.storyOf, hStory], hPasses⟩
  · rintro ⟨hStart, hStory, hPasses⟩
    obtain ⟨hGeneration, hRecord⟩ := storyOf_eq_some hStory
    refine ⟨h.index.val - start, s.record h.index, ?_, ?_, hRecord, hPasses⟩
    · rw [Nat.add_sub_cancel' hStart, toList_records_getElem?]
    · rw [Nat.add_sub_cancel' hStart, Fin.ofNat_val_eq_self, hGeneration]

theorem continueIndex_append (xs : List (Handle × Story)) (h : Handle) (st : Story) :
    continueIndex (xs ++ [(h, st)]) = if xs.length = 14 ∧ h.index.val < 255 then some (h.index.val + 1) else none := by
  simp [continueIndex]

/-! ## The text read (R109) -/

theorem charsFrom_eq_map (m : Memory) (chain : List Nat) (p count : Nat) :
    m.charsFrom chain p count = (List.range count).map fun k => m.charAt chain (p + k) := by
  induction count generalizing p with
  | zero => rfl
  | succ count ih =>
    rw [Memory.charsFrom, ih, List.range_succ_eq_map]
    simp [Nat.add_assoc, Nat.add_comm 1]

/-! ## The replies -/

section
variable {s : State} {xs : List Byte}

theorem statusCommand_badLength (h : xs.length ≠ 0) : statusCommand xs s = s.refuse .badLength := if_pos h

theorem readLineCommand_badLength (h : xs.length ≠ 1) : readLineCommand xs s = s.refuse .badLength := if_pos h

theorem readLineCommand_badValue {n : Byte} (h : 15 < n.toNat) : readLineCommand [n] s = s.refuse .badValue := by
  simp [readLineCommand, byteAt, lineOf_eq_none h]

theorem readLineCommand_line {n : Byte} {l : LineNo} (h : n.toNat = l.val) :
    readLineCommand [n] s = s.done (n :: (s.line l).record.bytes ++ (s.line l).workingBytes) := by
  simp [readLineCommand, byteAt, (lineOf_eq_some_iff _ _).mpr h, byte1_of_toNat h]

theorem readTableCommand_badLength (h : xs.length ≠ 1) : readTableCommand xs s = s.refuse .badLength := if_pos h

theorem readTableCommand_badValue {n : Byte} (h : 3 < n.toNat) : readTableCommand [n] s = s.refuse .badValue := by
  simp [readTableCommand, byteAt, slotOf_eq_none h]

theorem readTableCommand_slot {n : Byte} {k : Fin 4} (h : n.toNat = k.val) :
    readTableCommand [n] s = s.done (s.tables.get k).bytes := by
  simp [readTableCommand, byteAt, (slotOf_eq_some_iff _ _).mpr h]

theorem listStoriesCommand_badLength (h : xs.length ≠ 4) : listStoriesCommand xs s = s.refuse .badLength := if_pos h

theorem listStoriesCommand_badValue {start states bound origin : Byte}
    (h : states.toNat % 8 = 0 ∨ 4 < bound.toNat ∨ (17 < origin.toNat ∧ origin.toNat ≠ 255)) :
    listStoriesCommand [start, states, bound, origin] s = s.refuse .badValue :=
  if_pos h

theorem listStoriesCommand_listed {start states bound origin : Byte} (hStates : states.toNat % 8 ≠ 0)
    (hBound : bound.toNat ≤ 4) (hOrigin : origin.toNat ≤ 17 ∨ origin.toNat = 255) :
    let given :=
      (passing (states.toNat % 8) bound.toNat origin.toNat (s.store.records.toList.drop start.toNat) start.toNat).take 15
    listStoriesCommand [start, states, bound, origin] s =
      s.done ([byte1 given.length, if continueIndex given = none then 0 else 1, byte1 ((continueIndex given).getD 0)] ++
        given.flatMap fun q => summaryBytes q.1 q.2) := by
  intro given
  have hTaken : ¬(states.toNat % 8 = 0 ∨ 4 < bound.toNat ∨ (17 < origin.toNat ∧ origin.toNat ≠ 255)) := by omega
  have hMark : (if continueIndex given = none then (0 : Byte) else 1) = byte1 (boolNum (continueIndex given).isSome) := by
    cases continueIndex given <;> rfl
  rw [hMark]
  exact if_neg hTaken

theorem readStoryCommand_badLength (h : xs.length ≠ 5) : readStoryCommand xs s = s.refuse .badLength := if_pos h

theorem readStoryCommand_stale {i g o0 o1 n : Byte}
    (hs : ∀ h : Handle, i.toNat = h.index.val → g.toNat = h.generation.val → s.storyOf h = none) :
    readStoryCommand [i, g, o0, o1, n] s = s.refuse .stale := by
  simp [readStoryCommand, namedStory_eq_none hs]

section
variable {i g o0 o1 n : Byte} {h : Handle} {st : Story} (hi : i.toNat = h.index.val) (hg : g.toNat = h.generation.val)
  (hs : s.storyOf h = some st)
include hi hg hs

theorem readStoryCommand_badValue (hn : n = 0) : readStoryCommand [i, g, o0, o1, n] s = s.refuse .badValue := by
  simp [readStoryCommand, namedStory_eq_some hi hg hs, hn, byteAt]

theorem readStoryCommand_read (hn : n ≠ 0) :
    let offset := o0.toNat + 256 * o1.toNat
    let count := min (min n.toNat 240) (st.length - offset)
    readStoryCommand [i, g, o0, o1, n] s =
      s.done ([byte1 st.state.number, byte1 st.length, byte1 (st.length / 256), byte1 count] ++
        (List.range count).map fun k => s.store.text.charAt st.chain (offset + k)) := by
  intro offset count
  have hOffset : numAt [i, g, o0, o1, n] 2 2 = offset := numAt_two (by simp)
  have hCount : byteAt [i, g, o0, o1, n] 4 = n.toNat := rfl
  have hNonzero : n.toNat ≠ 0 := fun hZero => hn (BitVec.eq_of_toNat_eq hZero)
  simp [readStoryCommand, namedStory_eq_some hi hg hs, hOffset, hCount, hNonzero, charsFrom_eq_map, leBytes, count]

end
end

/-- Settles O42: the stories listed by `mem_listed_iff`, and each reply by the tests of its command. -/
theorem readingCommandsResult : Obligations.ReadingCommandsResult := by
  refine ⟨fun s states bound origin start hStart => ⟨fun h st => ?_, ?_⟩, ⟨rfl, fun xs h st => ?_⟩, fun s p f hp => ?_,
    fun s p rate hp => ?_⟩
  · rw [mem_listed_iff, passes_iff]
  · exact pairwise_passing _ _ _ _ _ (by simp; omega)
  · rw [continueIndex_append]
    refine ⟨fun hFull hMore => if_pos ⟨hFull, hMore⟩, fun _ hLast => if_neg ?_, fun hFew => if_neg ?_⟩
    · exact fun hNext => absurd hNext.2 (by omega)
    · exact fun hNext => hFew hNext.1
  · obtain ⟨rate, payload⟩ := f
    refine ⟨fun h => exec_of_ready rfl hp (statusCommand_badLength h),
      fun h => exec_of_ready rfl hp (readLineCommand_badLength h), fun n hPayload h => ?_,
      fun h => exec_of_ready rfl hp (readTableCommand_badLength h), fun n hPayload h => ?_,
      fun h => exec_of_ready rfl hp (listStoriesCommand_badLength h), fun start states bound origin hPayload h => ?_,
      fun h => exec_of_ready rfl hp (readStoryCommand_badLength h),
      fun i g o0 o1 n hPayload => ⟨fun hs => ?_, fun h hi hg hs hn => ?_⟩⟩
    all_goals cases hPayload
    · exact exec_of_ready rfl hp (readLineCommand_badValue h)
    · exact exec_of_ready rfl hp (readTableCommand_badValue h)
    · exact exec_of_ready rfl hp (listStoriesCommand_badValue h)
    · exact exec_of_ready rfl hp (readStoryCommand_stale hs)
    · obtain ⟨st, hStory⟩ := Option.ne_none_iff_exists'.mp hs
      exact exec_of_ready rfl hp (readStoryCommand_badValue hi hg hStory hn)
  · exact ⟨exec_of_ready rfl hp rfl, fun n l h => exec_of_ready rfl hp (readLineCommand_line h),
      fun n k h => exec_of_ready rfl hp (readTableCommand_slot h),
      fun start states bound origin hStates hBound hOrigin =>
        exec_of_ready rfl hp (listStoriesCommand_listed hStates hBound hOrigin),
      fun i g o0 o1 n h st hi hg hs hn => exec_of_ready rfl hp (readStoryCommand_read hi hg hs hn)⟩

end Sys2Proof.Machine
end

section
/-! SUPPORT. Clamping: the nearer limit of a range, the four fields with rules of their own, and a record in range (R17, R18). -/

namespace Sys2Proof.Machine

/-! ## The nearer limit -/

theorem clampTo_eq {low high : Nat} (h : low ≤ high) (n : Nat) : clampTo low high n = max low (min n high) := by
  unfold clampTo
  split
  · omega
  · split <;> omega

theorem clampTo_mem {low high : Nat} (h : low ≤ high) (n : Nat) :
    low ≤ clampTo low high n ∧ clampTo low high n ≤ high := by
  rw [clampTo_eq h]
  omega

theorem clampTo_of_mem {low high n : Nat} (h : low ≤ n ∧ n ≤ high) : clampTo low high n = n := by
  rw [clampTo_eq (h.1.trans h.2)]
  omega

/-- A range from 0 has only its upper limit to take. -/
theorem clampTo_zero (high n : Nat) : clampTo 0 high n = min n high := by
  rw [clampTo_eq high.zero_le, Nat.zero_max]

theorem clampTo_zero_le (high n : Nat) : clampTo 0 high n ≤ high := (clampTo_mem high.zero_le n).2

theorem clampTo_zero_of_le {high n : Nat} (h : n ≤ high) : clampTo 0 high n = n := clampTo_of_mem ⟨n.zero_le, h⟩

theorem clampSlot_val (n : Nat) : (clampSlot n).val = min n 3 := by
  rw [clampSlot, clampTo_zero]
  exact Nat.mod_eq_of_lt (by omega)

/-! ## The four fields with rules of their own -/

theorem clampRefresh_eq (n : Nat) : clampRefresh n = if n = 0 then 0 else max 8 (min n 80) := by
  rw [clampRefresh, clampTo_eq (by decide)]

theorem clampRefresh_mem (n : Nat) : clampRefresh n = 0 ∨ (8 ≤ clampRefresh n ∧ clampRefresh n ≤ 80) := by
  rw [clampRefresh_eq]
  split
  · exact .inl rfl
  · omega

theorem clampRefresh_of_mem {n : Nat} (h : n = 0 ∨ (8 ≤ n ∧ n ≤ 80)) : clampRefresh n = n := by
  rw [clampRefresh_eq]
  split <;> omega

/-- The low threshold gives way to the open one: the least value above it is a second lower limit. -/
theorem clamped_lowThreshold_eq (r : LineRecord) :
    r.clamped.lowThreshold = max (max 2 (min r.lowThreshold 200)) (max 1 (min r.openThreshold 64) + 1) := by
  unfold LineRecord.clamped
  dsimp only
  rw [clampTo_eq (by decide), clampTo_eq (by decide)]
  split <;> omega

theorem clamped_lowThreshold_mem (r : LineRecord) :
    r.clamped.openThreshold < r.clamped.lowThreshold ∧ 2 ≤ r.clamped.lowThreshold ∧ r.clamped.lowThreshold ≤ 200 := by
  have hOpen : r.clamped.openThreshold = max 1 (min r.openThreshold 64) := clampTo_eq (by decide) _
  rw [clamped_lowThreshold_eq, hOpen]
  omega

/-- The poor threshold is clamped to at least 2, so the range 1..Tp - 1 of the good one is never empty. -/
theorem clamped_goodThreshold_eq (r : LineRecord) :
    r.clamped.goodThreshold = max 1 (min r.goodThreshold (max 2 (min r.poorThreshold 255) - 1)) := by
  have hPoor : clampTo 2 255 r.poorThreshold = max 2 (min r.poorThreshold 255) := clampTo_eq (by decide) _
  rw [← hPoor]
  exact clampTo_eq (by omega) _

theorem clamped_goodThreshold_mem (r : LineRecord) :
    1 ≤ r.clamped.goodThreshold ∧ r.clamped.goodThreshold < r.clamped.poorThreshold := by
  have hPoor : r.clamped.poorThreshold = max 2 (min r.poorThreshold 255) := clampTo_eq (by decide) _
  rw [clamped_goodThreshold_eq, hPoor]
  omega

theorem clamped_startDelay_eq (r : LineRecord) : r.clamped.startDelay = min r.startDelay 5000 / 100 * 100 :=
  congrArg (· / 100 * 100) (clampTo_zero 5000 r.startDelay)

theorem clamped_startDelay_mem (r : LineRecord) : r.clamped.startDelay ≤ 5000 ∧ r.clamped.startDelay % 100 = 0 := by
  rw [clamped_startDelay_eq]
  omega

/-! ## The record -/

/-- Settles O48, field by field: a plain field takes the nearer limit by `clampTo_eq`, lies in its range by `clampTo_mem` and is
kept there by `clampTo_of_mem`; the four special fields have lemmas of their own. -/
theorem clampedRecordLiesInRange : Obligations.ClampedRecordLiesInRange := by
  refine ⟨fun r => ?_, clampSlot_val, fun r => ⟨?_, ?_⟩⟩
  · dsimp only [LineRecord.clamped]
    congr 1
    exacts [clampTo_eq (by decide) _, clampTo_eq (by decide) _, clampTo_eq (by decide) _, clampTo_eq (by decide) _,
      clamped_lowThreshold_eq r, clampTo_eq (by decide) _, clampTo_eq (by decide) _, clampTo_eq (by decide) _,
      clamped_goodThreshold_eq r, clampTo_eq (by decide) _, clampTo_eq (by decide) _, clampTo_eq (by decide) _,
      clampTo_zero _ _, clampRefresh_eq _, clampTo_zero _ _, clampTo_zero _ _, clampTo_zero _ _,
      clamped_startDelay_eq r, clampTo_eq (by decide) _, clampTo_eq (by decide) _]
  · exact ⟨clampTo_mem (by decide) _, clampTo_mem (by decide) _, clampTo_mem (by decide) _, clampTo_mem (by decide) _,
      clamped_lowThreshold_mem r, clampTo_mem (by decide) _, clampTo_mem (by decide) _, clampTo_mem (by decide) _,
      clamped_goodThreshold_mem r, clampTo_mem (by decide) _, clampTo_mem (by decide) _, clampTo_mem (by decide) _,
      clampTo_zero_le _ _, clampRefresh_mem _, clampTo_zero_le _ _, clampTo_zero_le _ _, clampTo_zero_le _ _,
      clamped_startDelay_mem r, clampTo_mem (by decide) _, clampTo_mem (by decide) _⟩
  · rintro ⟨hUnit, hStop, hMark, hOpen, hLow, hIdle, hDistortion, hPoor, hGood, hOpenTime, hWidth, hCr, hLtrs, hRefresh, hFlash,
      hBulletin, hSeparation, hStart, hStopDelay, hGuard⟩
    have hGoodRange : 1 ≤ r.goodThreshold ∧ r.goodThreshold ≤ r.poorThreshold - 1 := by omega
    have hRounded : r.startDelay / 100 * 100 = r.startDelay := by omega
    simp only [LineRecord.clamped, clampTo_of_mem hUnit, clampTo_of_mem hStop, clampTo_of_mem hMark, clampTo_of_mem hOpen,
      clampTo_of_mem hLow.2, if_pos hLow.1, clampTo_of_mem hIdle, clampTo_of_mem hDistortion, clampTo_of_mem hPoor,
      clampTo_of_mem hGoodRange, clampTo_of_mem hOpenTime, clampTo_of_mem hWidth, clampTo_of_mem hCr, clampTo_zero_of_le hLtrs,
      clampRefresh_of_mem hRefresh, clampTo_zero_of_le hFlash, clampTo_zero_of_le hBulletin, clampTo_zero_of_le hSeparation,
      clampTo_zero_of_le hStart.1, hRounded, clampTo_of_mem hStopDelay, clampTo_of_mem hGuard]

end Sys2Proof.Machine
end

section
/-! SUPPORT. A reading's class (R41), one case for each side of the two thresholds; and what one classified reading does to a
channel (R42): it agrees with the loop state, begins a run, adds to one, or completes it. -/

namespace Sys2Proof.Machine

/-! ## The class of a reading (R41) -/

namespace LineRecord

variable {r : LineRecord} {side : Side} {v : Nat}

/-- A neutral receive channel is read while its comparator calls mark, so current flows and the loop is not open. -/
theorem classOf_below_open_neutral (hv : v < r.openThreshold) (hSide : side = .receive) (hKeying : r.keying = .neutral) :
    r.classOf side v = .low := by
  rw [classOf, if_pos hv, if_pos ⟨hSide, hKeying⟩]

theorem classOf_below_open (hv : v < r.openThreshold) (h : side = .send ∨ r.keying = .polar) :
    r.classOf side v = .opened := by
  have hSensed : ¬(side = .receive ∧ r.keying = .neutral) := by
    rintro ⟨rfl, hKeying⟩
    simp [hKeying] at h
  rw [classOf, if_pos hv, if_neg hSensed]

theorem classOf_between (hOpen : r.openThreshold ≤ v) (hLow : v < r.lowThreshold) : r.classOf side v = .low := by
  rw [classOf, if_neg hOpen.not_gt, if_pos hLow]

theorem classOf_above (hOpen : r.openThreshold ≤ v) (hLow : r.lowThreshold ≤ v) : r.classOf side v = .normal := by
  rw [classOf, if_neg hOpen.not_gt, if_neg hLow.not_gt]

end LineRecord

/-! ## One classified reading (R42) -/

namespace LoopChannel

variable {c : LoopChannel} {k : LoopClass}

theorem classified_of_agrees (h : k.state = c.loop) :
    c.classified k = { loop := c.loop, candidate := none, run := 0 } :=
  if_pos h

theorem classified_of_new (h : k.state ≠ c.loop) (hCandidate : c.candidate ≠ some k) :
    c.classified k = { loop := c.loop, candidate := some k, run := 1 } := by
  rw [classified, if_neg h, if_neg hCandidate]

theorem classified_of_run_ne (h : k.state ≠ c.loop) (hCandidate : c.candidate = some k) (hRun : c.run ≠ 2) :
    c.classified k = { loop := c.loop, candidate := some k, run := c.run + 1 } := by
  rw [classified, if_neg h, if_pos hCandidate, if_neg (by omega), hCandidate]

theorem classified_of_run_eq (h : k.state ≠ c.loop) (hCandidate : c.candidate = some k) (hRun : c.run = 2) :
    c.classified k = { loop := k.state, candidate := none, run := 0 } := by
  rw [classified, if_neg h, if_pos hCandidate, if_pos (by omega)]

/-- A run begun by a reading is at 2 after the next reading of its class. -/
theorem classified_twice_of_new (h : k.state ≠ c.loop) (hCandidate : c.candidate ≠ some k) :
    (c.classified k).classified k = { loop := c.loop, candidate := some k, run := 2 } := by
  rw [classified_of_new h hCandidate]
  exact classified_of_run_ne h rfl (by decide : (1 : Nat) ≠ 2)

/-- The third consecutive reading of a class changes the loop state. -/
theorem classified_thrice_of_new (h : k.state ≠ c.loop) (hCandidate : c.candidate ≠ some k) :
    ((c.classified k).classified k).classified k = { loop := k.state, candidate := none, run := 0 } := by
  rw [classified_twice_of_new h hCandidate]
  exact classified_of_run_eq h rfl rfl

theorem classified_run_le_two (hRun : c.run ≤ 2) : (c.classified k).run ≤ 2 := by
  by_cases h : k.state = c.loop
  · simp [classified_of_agrees h]
  by_cases hCandidate : c.candidate = some k
  · by_cases hTwo : c.run = 2
    · simp [classified_of_run_eq h hCandidate hTwo]
    · rw [classified_of_run_ne h hCandidate hTwo]
      show c.run + 1 ≤ 2
      omega
  · simp [classified_of_new h hCandidate]

end LoopChannel

/-- Settles O12: the classes by the thresholds, and a channel's reading case by case. -/
theorem threeReadingsChangeTheLoopState : Obligations.ThreeReadingsChangeTheLoopState := by
  refine ⟨fun r side v => ?_, fun c k => ?_⟩
  · exact ⟨LineRecord.classOf_below_open, LineRecord.classOf_below_open_neutral, LineRecord.classOf_between,
      LineRecord.classOf_above⟩
  · exact ⟨LoopChannel.classified_of_agrees,
      fun h hCandidate => ⟨LoopChannel.classified_of_new h hCandidate, LoopChannel.classified_twice_of_new h hCandidate,
        LoopChannel.classified_thrice_of_new h hCandidate⟩,
      LoopChannel.classified_of_run_ne, LoopChannel.classified_of_run_eq, LoopChannel.classified_run_le_two⟩

end Sys2Proof.Machine
end

section
/-! SUPPORT. The FREE records (R94), the store's marks against the free count, and SET_STORE_LIMITS (R98, R99, R103). -/

namespace Sys2Proof.Machine

/-! ## The FREE records (R94) -/

theorem someFree_iff (x : Store) : x.someFree = true ↔ ∃ i, (x.records.get i).story = none := by
  rw [Store.someFree, toList_eq_map_get]
  simp

theorem lowestFree_eq_none_iff (x : Store) : x.lowestFree = none ↔ ∀ i, (x.records.get i).story ≠ none := by
  simp [Store.lowestFree, toList_eq_map_get, List.findIdx?_eq_none_iff, Option.isSome_iff_ne_none]

theorem lowestFree_eq_some_iff (x : Store) (i : Fin 256) :
    x.lowestFree = some i ↔
      (x.records.get i).story = none ∧ ∀ j : Fin 256, j.val < i.val → (x.records.get j).story ≠ none := by
  simp only [Store.lowestFree, toList_eq_map_get, List.findIdx?_map, Option.map_eq_some_iff,
    List.findIdx?_eq_some_iff_getElem, Function.comp_apply, List.getElem_finRange, List.length_finRange,
    Option.isNone_iff_eq_none]
  constructor
  · rintro ⟨k, ⟨hk, hFree, hBelow⟩, rfl⟩
    have hPlace : Fin.ofNat 256 k = ⟨k, hk⟩ := Fin.ext (Nat.mod_eq_of_lt hk)
    rw [hPlace]
    exact ⟨hFree, fun j hj => hBelow j.val hj⟩
  · rintro ⟨hFree, hBelow⟩
    exact ⟨i.val, ⟨i.isLt, hFree, fun j hj => hBelow ⟨j, hj.trans i.isLt⟩ hj⟩, Fin.ofNat_val_eq_self i⟩

/-! ## The pool-low mark (R99) -/

section
variable {s : State}

theorem judgePool_of_low (hMark : s.store.poolLow = false) (hFree : s.store.freeCount ≤ s.store.deskReserve) :
    s.judgePool = (s.modStore fun x => { x with poolLow := true }).postBoth (.poolLow s.store.freeCount) :=
  if_pos ⟨hMark, hFree⟩

theorem judgePool_of_recovered (hMark : s.store.poolLow = true) (hFree : s.store.deskReserve < s.store.freeCount) :
    s.judgePool = (s.modStore fun x => { x with poolLow := false }).postBoth (.poolRecovered s.store.freeCount) := by
  rw [State.judgePool, if_neg (by simp [hMark]), if_pos ⟨hMark, hFree⟩]

/-- A mark that agrees with the free count stays. -/
theorem judgePool_of_agrees (h : s.store.poolLow = false ↔ s.store.deskReserve < s.store.freeCount) : s.judgePool = s := by
  have hNotLow : ¬(s.store.poolLow = false ∧ s.store.freeCount ≤ s.store.deskReserve) :=
    fun ⟨hMark, hFree⟩ => absurd (h.mp hMark) hFree.not_gt
  have hNotRecovered : ¬(s.store.poolLow = true ∧ s.store.deskReserve < s.store.freeCount) :=
    fun ⟨hMark, hFree⟩ => by simp [h.mpr hFree] at hMark
  rw [State.judgePool, if_neg hNotLow, if_neg hNotRecovered]

/-! ## STORE_EXHAUSTED (R103) -/

theorem exhausted_and_over_iff (x : Store) :
    (x.exhausted && x.exhaustionOver) = true ↔
      x.exhausted = true ∧ x.reclaimMark < x.freeCount ∧ ∃ i, (x.records.get i).story = none := by
  simp only [Store.exhaustionOver, Bool.and_eq_true, decide_eq_true_eq, someFree_iff]

theorem judgeExhausted_of_over
    (h : s.store.exhausted = true ∧ s.store.reclaimMark < s.store.freeCount ∧ ∃ i, (s.record i).story = none) :
    s.judgeExhausted = s.modStore fun x => { x with exhausted := false } :=
  if_pos ((exhausted_and_over_iff s.store).mpr h)

theorem judgeExhausted_of_not_over
    (h : ¬(s.store.exhausted = true ∧ s.store.reclaimMark < s.store.freeCount ∧ ∃ i, (s.record i).story = none)) :
    s.judgeExhausted = s :=
  if_neg fun hOver => h ((exhausted_and_over_iff s.store).mp hOver)

/-! ## SET_STORE_LIMITS (R98) -/

theorem setStoreLimitsCommand_badLength {xs : List Byte} (h : xs.length ≠ 4) :
    setStoreLimitsCommand xs s = s.refuse .badLength :=
  if_pos h

theorem setStoreLimitsCommand_taken (r0 r1 m0 m1 : Byte) :
    let reserve := min (r0.toNat + 256 * r1.toNat) 2048
    let mark := min (m0.toNat + 256 * m1.toNat) 1024
    setStoreLimitsCommand [r0, r1, m0, m1] s =
      ((s.modStore fun x => { x with deskReserve := reserve, reclaimMark := mark }).judgePool.judgeExhausted).done
        [byte1 reserve, byte1 (reserve / 256), byte1 mark, byte1 (mark / 256)] := by
  intro reserve mark
  have hReserve : clampTo 0 2048 (numAt [r0, r1, m0, m1] 0 2) = reserve := by
    rw [clampTo_zero, numAt_two (by simp)]
    rfl
  have hMark : clampTo 0 1024 (numAt [r0, r1, m0, m1] 2 2) = mark := by
    rw [clampTo_zero, numAt_two (by simp)]
    rfl
  simp [setStoreLimitsCommand, hReserve, hMark, leBytes]

end

/-- Settles O20: the mark and STORE_EXHAUSTED by the case of the free count, and the command by its length. -/
theorem setStoreLimitsResult : Obligations.SetStoreLimitsResult := by
  refine ⟨fun s => ?_, fun s p f hp hLength => ?_, fun s p rate r0 r1 m0 m1 hp => ?_⟩
  · exact ⟨judgePool_of_low, judgePool_of_recovered, judgePool_of_agrees, judgeExhausted_of_over, judgeExhausted_of_not_over⟩
  · exact exec_of_ready rfl hp (setStoreLimitsCommand_badLength hLength)
  · exact exec_of_ready rfl hp (setStoreLimitsCommand_taken r0 r1 m0 m1)

end Sys2Proof.Machine
end

section
/-! SUPPORT. A port in a set of ports (R91), and the commands that open, retain, release and discard a story (R104, R106, R107,
R108). -/

namespace Sys2Proof.Machine

/-! ## Sets of ports -/

theorem PortSet.add_eq (ps : PortSet) (p : Port) :
    ps.add p = { a := ps.a || decide (p = .a), b := ps.b || decide (p = .b) } := by
  cases p <;> simp [PortSet.add]

theorem PortSet.drop_eq (ps : PortSet) (p : Port) :
    ps.drop p = { a := ps.a && decide (p ≠ .a), b := ps.b && decide (p ≠ .b) } := by
  cases p <;> simp [PortSet.drop]

/-! ## Priorities by number -/

theorem Priority.ofNumber_number (p : Priority) : Priority.ofNumber p.number = some p := by cases p <;> rfl

theorem Priority.ofNumber_eq_none_iff (n : Nat) : Priority.ofNumber n = none ↔ 4 < n := by
  rw [Priority.ofNumber_eq, List.getElem?_eq_none_iff]
  exact Nat.succ_le_iff

/-! ## OPEN_STORY (R104) -/

section
variable {s : State} {p : Port} {xs : List Byte} {n : Byte}

theorem openStoryCommand_badLength (h : xs.length ≠ 1) : openStoryCommand p xs s = s.refuse .badLength := if_pos h

theorem openStoryCommand_badValue (h : 4 < n.toNat) : openStoryCommand p [n] s = s.refuse .badValue := by
  simp [openStoryCommand, byteAt, (Priority.ofNumber_eq_none_iff _).mpr h]

theorem openStoryCommand_directoryFull (h : n.toNat ≤ 4) (hFull : ∀ i, (s.record i).story ≠ none) :
    openStoryCommand p [n] s = s.refuse .directoryFull := by
  obtain ⟨priority, hPriority⟩ := Option.ne_none_iff_exists'.mp (mt (Priority.ofNumber_eq_none_iff _).mp h.not_gt)
  simp [openStoryCommand, byteAt, hPriority, (lowestFree_eq_none_iff s.store).mpr hFull]

theorem openStoryCommand_opened {i : Fin 256} {priority : Priority} (hPriority : n.toNat = priority.number)
    (hFree : (s.record i).story = none) (hBelow : ∀ j : Fin 256, j.val < i.val → (s.record j).story ≠ none) :
    openStoryCommand p [n] s = (s.makeStory i (s.newComposed p priority)).done (s.handleAt i).bytes := by
  simp [openStoryCommand, byteAt, hPriority, Priority.ofNumber_number,
    (lowestFree_eq_some_iff s.store i).mpr ⟨hFree, hBelow⟩]

end

/-- Only its port retains a story that has just been opened. -/
theorem newComposed_interest (s : State) (p : Port) (priority : Priority) :
    (s.newComposed p priority).interest = { a := decide (p = .a), b := decide (p = .b) } := by
  simp [State.newComposed, PortSet.add_eq, PortSet.empty]

/-- Settles O53: the tests in order, and the new record's fields, which `newComposed` has as they are listed but for the interest
set. -/
theorem openStoryResult : Obligations.OpenStoryResult := by
  refine ⟨fun s p f hp hLength => exec_of_ready rfl hp (openStoryCommand_badLength hLength), fun s p rate n hp => ?_⟩
  refine ⟨fun hHigh => exec_of_ready rfl hp (openStoryCommand_badValue hHigh),
    fun hPriority hFull => exec_of_ready rfl hp (openStoryCommand_directoryFull hPriority hFull),
    fun i priority hPriority hFree hBelow => ?_⟩
  rw [← newComposed_interest s p priority]
  exact exec_of_ready rfl hp (openStoryCommand_opened hPriority hFree hBelow)

/-! ## RETAIN_STORY, RELEASE_STORY and DISCARD_STORY (R106, R107, R108) -/

section
variable {s : State} {p : Port} {xs : List Byte}

theorem retainStoryCommand_badLength (h : xs.length ≠ 2) : retainStoryCommand p xs s = s.refuse .badLength := if_pos h

theorem releaseStoryCommand_badLength (h : xs.length ≠ 2) : releaseStoryCommand p xs s = s.refuse .badLength := if_pos h

theorem discardStoryCommand_badLength (h : xs.length ≠ 2) : discardStoryCommand p xs s = s.refuse .badLength := if_pos h

section
variable (hLength : xs.length = 2) (hNone : s.namedStory xs = none)
include hLength hNone

theorem retainStoryCommand_stale : retainStoryCommand p xs s = s.refuse .stale := by
  simp [retainStoryCommand, hLength, hNone]

theorem releaseStoryCommand_stale : releaseStoryCommand p xs s = s.refuse .stale := by
  simp [releaseStoryCommand, hLength, hNone]

theorem discardStoryCommand_stale : discardStoryCommand p xs s = s.refuse .stale := by
  simp [discardStoryCommand, hLength, hNone]

end

section
variable {h : Handle} {st : Story} (hLength : xs.length = 2) (hNamed : s.namedStory xs = some (h, st))
include hLength hNamed

theorem retainStoryCommand_named :
    retainStoryCommand p xs s = (s.modStory h fun x => { x with interest := x.interest.add p }).done [] := by
  simp [retainStoryCommand, hLength, hNamed]

theorem releaseStoryCommand_named :
    releaseStoryCommand p xs s =
      if st.state = .composing ∧ st.holder = some p then s.refuse .wrongState
      else if st.interest.has p = false then s.done []
      else ((s.modStory h fun x => { x with interest := x.interest.drop p }).freeingTest h.index).done [] := by
  simp [releaseStoryCommand, hLength, hNamed]

theorem discardStoryCommand_named :
    discardStoryCommand p xs s =
      if st.state ≠ .composing then s.refuse .wrongState
      else if st.holder ≠ some p then s.refuse .notHolder
      else
        (s.freeStory h.index fun t =>
          if st.interest.has p.other then t.post p.other (discardNotice h st .discard) else t).done [] := by
  simp [discardStoryCommand, hLength, hNamed]

end
end

/-- Settles O55: the three tests of length and handle, then each command on a current handle by the tests of its rule. -/
theorem keepingCommandsResult : Obligations.KeepingCommandsResult := by
  refine ⟨fun s p f hp hLength => ?_, fun s p rate i g hp hStale => ?_, fun s p rate i g h st hp hi hg hs => ?_⟩
  · exact ⟨exec_of_ready rfl hp (retainStoryCommand_badLength hLength),
      exec_of_ready rfl hp (releaseStoryCommand_badLength hLength),
      exec_of_ready rfl hp (discardStoryCommand_badLength hLength)⟩
  · have hNone : s.namedStory [i, g] = none := namedStory_eq_none hStale
    exact ⟨exec_of_ready rfl hp (retainStoryCommand_stale rfl hNone),
      exec_of_ready rfl hp (releaseStoryCommand_stale rfl hNone),
      exec_of_ready rfl hp (discardStoryCommand_stale rfl hNone)⟩
  · intro f out inSet
    have hNamed : s.namedStory [i, g] = some (h, st) := namedStory_eq_some hi hg hs
    have hInSet : inSet = st.interest.has := by
      funext q
      cases q <;> rfl
    have hRetain := retainStoryCommand_named (p := p) rfl hNamed
    have hRelease := releaseStoryCommand_named (p := p) rfl hNamed
    have hDiscard := discardStoryCommand_named (p := p) rfl hNamed
    simp only [PortSet.add_eq] at hRetain
    simp only [PortSet.drop_eq] at hRelease
    rw [hInSet]
    refine ⟨exec_of_ready rfl hp hRetain, fun hState hHolder => ?_, fun hOther hOut => ?_, fun hOther hIn => ?_,
      fun hState => ?_, fun hState hHolder => ?_, fun hState hHolder => ?_⟩
    · exact exec_of_ready rfl hp (hRelease.trans (if_pos ⟨hState, hHolder⟩))
    · exact exec_of_ready rfl hp (hRelease.trans ((if_neg hOther).trans (if_pos hOut)))
    · exact exec_of_ready rfl hp (hRelease.trans ((if_neg hOther).trans (if_neg (by simp [hIn]))))
    · exact exec_of_ready rfl hp (hDiscard.trans (if_pos hState))
    · exact exec_of_ready rfl hp (hDiscard.trans ((if_neg (not_not_intro hState)).trans (if_pos hHolder)))
    · exact exec_of_ready rfl hp
        (hDiscard.trans ((if_neg (not_not_intro hState)).trans (if_neg (not_not_intro hHolder))))

end Sys2Proof.Machine
end

section
/-! SUPPORT. The place of a new queue entry (R115), and the next-story choice by the heads of queue and stack (R120, R121). -/

namespace Sys2Proof.Machine

/-! ## Queue order (R115) -/

section
variable {e q : DistEntry} {qs : List DistEntry}

theorem enqueue_of_reached (h : ∃ x ∈ q :: qs, x.priority.number ≤ e.priority.number) :
    enqueue e (q :: qs) = q :: enqueue e qs :=
  if_pos (by simpa only [List.any_eq_true, decide_eq_true_eq] using h)

theorem enqueue_of_passed (h : ∀ x ∈ qs, e.priority.number < x.priority.number) : enqueue e qs = e :: qs := by
  cases qs with
  | nil => rfl
  | cons q qs => exact if_neg (by simpa only [List.any_eq_true, decide_eq_true_eq, not_exists, not_and, not_le] using h)

end

/-- A new entry passes exactly a tail of the queue: all of it is of lower priority, and the entry before it is not. -/
theorem enqueue_place (e : DistEntry) (q : List DistEntry) :
    ∃ before after, q = before ++ after ∧ enqueue e q = before ++ e :: after ∧
      (∀ x ∈ after, e.priority.number < x.priority.number) ∧
      ∀ x, before.getLast? = some x → x.priority.number ≤ e.priority.number := by
  induction q with
  | nil => exact ⟨[], [], by simp [enqueue]⟩
  | cons y ys ih =>
    by_cases hReached : ∃ x ∈ y :: ys, x.priority.number ≤ e.priority.number
    · obtain ⟨before, after, rfl, hEnqueue, hAfter, hLast⟩ := ih
      refine ⟨y :: before, after, rfl, ?_, hAfter, ?_⟩
      · rw [enqueue_of_reached hReached, hEnqueue, List.cons_append]
      · cases before with
        | nil =>
          -- Every entry behind `y` is passed, so the entry that is reached is `y` itself.
          obtain ⟨x, hMem, hLe⟩ := hReached
          obtain rfl | hx := List.mem_cons.mp hMem
          · simpa using hLe
          · exact absurd hLe (hAfter x hx).not_ge
        | cons b bs => simpa only [List.getLast?_cons_cons] using hLast
    · have hPassed : ∀ x ∈ y :: ys, e.priority.number < x.priority.number := by simpa using hReached
      exact ⟨[], y :: ys, rfl, enqueue_of_passed hPassed, hPassed, by simp⟩

/-! ## The next-story choice (R120, R121) -/

namespace Distribution

section
variable {d : Distribution} {e top : DistEntry} {rest : List DistEntry}

theorem choose_of_nil (hQueue : d.queue = []) (hStack : d.stack = []) : d.choose = none := by
  simp only [choose, hQueue, hStack]

/-- The queue head is taken when no stack top keeps it back. -/
theorem choose_queueHead (hQueue : d.queue = e :: rest)
    (hAbove : ∀ top, d.stack.head? = some top → e.priority.number < top.priority.number) :
    d.choose = some ({ d with queue := rest, current := some e.begin }, false) := by
  cases hStack : d.stack with
  | nil => simp only [choose, hQueue, hStack]
  | cons top ts =>
    have hHead : e.priority.above top.priority = true := decide_eq_true (hAbove top (by simp [hStack]))
    simp only [choose, hQueue, hStack, hHead, if_true]

/-- The stack top is taken when no queue head passes it; one of equal priority does not. -/
theorem choose_stackTop (hStack : d.stack = top :: rest)
    (hNotAbove : ∀ e, d.queue.head? = some e → top.priority.number ≤ e.priority.number) :
    d.choose = some ({ d with stack := rest, current := some top.resumed }, true) := by
  cases hQueue : d.queue with
  | nil => simp only [choose, hQueue, hStack]
  | cons e q =>
    have hHead : e.priority.above top.priority = false := decide_eq_false (hNotAbove e (by simp [hQueue])).not_gt
    simp only [choose, hQueue, hStack, hHead, Bool.false_eq_true, if_false]

end
end Distribution

/-- Settles O22: the place by induction on the queue, and the choice by its three cases. -/
theorem queueOrderAndNextStoryChoice : Obligations.QueueOrderAndNextStoryChoice :=
  ⟨enqueue_place, fun _ => ⟨Distribution.choose_of_nil, fun _ _ => Distribution.choose_queueHead,
    fun _ _ => Distribution.choose_stackTop⟩⟩

end Sys2Proof.Machine
end

section
/-! SUPPORT. A notice posted to a port, a set of ports or a submitter, the attention output, and FETCH_NOTICES (R177, R178). -/

namespace Sys2Proof.Machine

/-! ## The record of a notice (R184) -/

/-- Every kind has a bit in the notice mask. -/
theorem Notice.kind_sub_one_lt (n : Notice) : n.kind - 1 < 11 := by
  cases n <;> simp only [Notice.kind] <;> decide

theorem LineReport.length_bytes (r : LineReport) : r.bytes.length = 2 := by cases r <;> rfl

theorem Notice.length_bytes (n : Notice) : n.bytes.length = 8 := by
  cases n with
  | lineState l side r => simp [Notice.bytes, absentHandle, r.length_bytes]
  | _ => rfl

/-! ## Posting (R177) -/

section
variable {s : State} {p : Port} {n : Notice}

theorem post_of_masked (hMasked : (s.port p).noticeMask.getLsbD (n.kind - 1) = false) : s.post p n = s :=
  modPort_self (if_pos hMasked)

theorem post_of_room (hUnmasked : (s.port p).noticeMask.getLsbD (n.kind - 1) = true)
    (hRoom : (s.port p).notices.length < Config.noticeRoom) :
    s.post p n = s.modPort p fun q => { q with notices := q.notices ++ [n] } :=
  modPort_congr ((if_neg (by simp [hUnmasked])).trans (if_pos hRoom))

theorem post_of_full (hUnmasked : (s.port p).noticeMask.getLsbD (n.kind - 1) = true)
    (hFull : Config.noticeRoom ≤ (s.port p).notices.length) :
    s.post p n = s.modPort p fun q => { q with overflow := true } :=
  modPort_congr ((if_neg (by simp [hUnmasked])).trans (if_neg hFull.not_gt))

end

theorem DeskPort.attention_iff (q : DeskPort) : q.attention = true ↔ q.notices ≠ [] ∨ q.overflow = true := by
  rw [DeskPort.attention, Bool.or_eq_true, Bool.not_eq_true', List.isEmpty_eq_false_iff]

/-- Settles O39: a post by the mask and the length of the queue; the posts to several ports are posts to each in turn. -/
theorem postedNoticeAndAttention : Obligations.PostedNoticeAndAttention :=
  ⟨fun _ _ n => ⟨post_of_masked, post_of_room, post_of_full, n.kind_sub_one_lt, n.length_bytes⟩,
    fun _ _ _ _ _ => ⟨fun _ => rfl, fun _ => rfl, rfl, rfl⟩, fun s p => (s.port p).attention_iff⟩

/-! ## FETCH_NOTICES (R178) -/

theorem fetchNoticesCommand_badLength {s : State} {p : Port} {xs : List Byte} (h : xs.length ≠ 1) :
    fetchNoticesCommand p xs s = s.refuse .badLength :=
  if_pos h

theorem fetchNoticesCommand_fetched (s : State) (p : Port) (n : Byte) :
    let q := s.port p
    let k := min (max 1 (min n.toNat 16)) q.notices.length
    fetchNoticesCommand p [n] s =
      (s.modPort p fun q => { q with notices := q.notices.drop k, overflow := false }).done
        ([if q.overflow then 1 else 0, byte1 k] ++ (q.notices.take k).flatMap Notice.bytes) := by
  intro q k
  have hGiven : q.notices.take (clampTo 1 16 (byteAt [n] 0)) = q.notices.take k := by
    rw [clampTo_eq (by decide), List.take_eq_take_min]
    rfl
  have hLength : (q.notices.take k).length = k := List.length_take_of_le (min_le_right ..)
  have hFlag : byte1 (boolNum q.overflow) = if q.overflow then 1 else 0 := by cases q.overflow <;> rfl
  simp [fetchNoticesCommand, q, k, hGiven, hLength, hFlag]

/-- Settles O46: the notices returned are the first `k` of the queue, which are the ones that leave it. -/
theorem fetchNoticesResult : Obligations.FetchNoticesResult :=
  ⟨fun _ _ _ hp hLength => exec_of_ready rfl hp (fetchNoticesCommand_badLength hLength),
    fun s p _ n hp => exec_of_ready rfl hp (fetchNoticesCommand_fetched s p n)⟩

end Sys2Proof.Machine
end

section
/-! SUPPORT. The alarm output and its causes (R190), SET_ROOM_OPTIONS (R191) and RESUME (R194). -/

namespace Sys2Proof.Machine

/-! ## The alarm output (R190) -/

theorem givesLoopOpen_iff (x : Line) :
    x.givesLoopOpen = true ↔
      x.record.alarmOnOpen = true ∧ (x.rx.state = .opened ∨ x.rxLoop.loop = .opened ∨ x.txLoop.loop = .opened) := by
  simp only [Line.givesLoopOpen, Line.loopOpenInputs, Bool.and_eq_true, Bool.or_eq_true, decide_eq_true_eq, or_assoc]

theorem loopOpenCause_iff (s : State) : s.loopOpenCause = true ↔ ∃ l, (s.line l).givesLoopOpen = true := by
  rw [State.loopOpenCause, toList_eq_map_get]
  simp [State.line]

theorem alarm_iff (s : State) :
    s.alarm = true ↔ s.room.unattended = true ∨ s.store.exhausted = true ∨ s.loopOpenCause = true := by
  simp only [State.alarm, Bool.or_eq_true, or_assoc]

/-- Without the cause UNATTENDED the alarm has the other two. -/
theorem alarm_iff_of_attended {s : State} (h : s.room.unattended = false) :
    s.alarm = true ↔ s.store.exhausted = true ∨ s.loopOpenCause = true := by
  simp [alarm_iff, h]

@[simp] theorem post_room (s : State) (p : Port) (n : Notice) : (s.post p n).room = s.room := modPort_room ..

@[simp] theorem modRoom_loopOpenCause (s : State) (f : Room → Room) : (s.modRoom f).loopOpenCause = s.loopOpenCause := rfl

@[simp] theorem post_loopOpenCause (s : State) (p : Port) (n : Notice) :
    (s.post p n).loopOpenCause = s.loopOpenCause := by
  rw [State.loopOpenCause, post_lines, State.loopOpenCause]

/-! ## SET_ROOM_OPTIONS (R191) -/

theorem BellTone.ofNumber_eq (n : Nat) : BellTone.ofNumber n = [BellTone.hz500, .hz1000, .hz2000, .hz4000][n]? := by
  rcases n with _ | _ | _ | _ | n <;> simp [BellTone.ofNumber]

theorem BellTone.ofNumber_number (t : BellTone) : BellTone.ofNumber t.number = some t := by cases t <;> rfl

theorem BellTone.ofNumber_eq_none_iff (n : Nat) : BellTone.ofNumber n = none ↔ 3 < n := by
  rw [BellTone.ofNumber_eq, List.getElem?_eq_none_iff]
  exact Nat.succ_le_iff

/-- A line set given in two bytes is returned in the same two (R180). -/
theorem leBytes_two_ofNat (x y : Byte) : leBytes 2 (BitVec.ofNat 16 (x.toNat + 256 * y.toNat)).toNat = [x, y] := by
  have hx := x.isLt
  have hy := y.isLt
  have hFits : (x.toNat + 256 * y.toNat) % 2 ^ 16 = x.toNat + 256 * y.toNat := by omega
  have hLow : byte1 (x.toNat + 256 * y.toNat) = x := by
    apply BitVec.eq_of_toNat_eq
    rw [byte1, BitVec.toNat_ofNat]
    omega
  have hHigh : byte1 ((x.toNat + 256 * y.toNat) / 256) = y := byte1_of_toNat (by omega)
  rw [BitVec.toNat_ofNat, hFits]
  simp only [leBytes, hLow, hHigh]

theorem readRoomOptions_eq_none_iff (xs : List Byte) :
    readRoomOptions xs = none ↔ 4 < byteAt xs 4 ∨ 3 < byteAt xs 5 := by
  rw [← Priority.ofNumber_eq_none_iff, ← BellTone.ofNumber_eq_none_iff, readRoomOptions]
  cases Priority.ofNumber (byteAt xs 4) <;> cases BellTone.ofNumber (byteAt xs 5) <;> simp

section
variable {s : State} {xs : List Byte}

theorem setRoomOptionsCommand_badLength (h : xs.length ≠ 11) : setRoomOptionsCommand xs s = s.refuse .badLength := if_pos h

theorem setRoomOptionsCommand_badValue (hLength : xs.length = 11) (h : 4 < byteAt xs 4 ∨ 3 < byteAt xs 5) :
    setRoomOptionsCommand xs s = s.refuse .badValue := by
  simp [setRoomOptionsCommand, hLength, (readRoomOptions_eq_none_iff xs).mpr h]

theorem setRoomOptionsCommand_taken {o : RoomOptions} (hLength : xs.length = 11) (h : readRoomOptions xs = some o) :
    setRoomOptionsCommand xs s = (s.modRoom fun r => { r with options := o }).done o.bytes := by
  simp [setRoomOptionsCommand, hLength, h]

end

section
variable (m0 m1 o0 o1 b t c0 c1 c2 c3 c4 : Byte) (bound : Priority) (tone : BellTone)

/-- The room options of a payload's bytes, the bell counts clamped to 9. -/
def RoomOptions.ofBytes : RoomOptions :=
  { monitors := BitVec.ofNat 16 (m0.toNat + 256 * m1.toNat)
    sources := BitVec.ofNat 16 (o0.toNat + 256 * o1.toNat)
    bound := bound
    tone := tone
    bellCounts := #v[min c0.toNat 9, min c1.toNat 9, min c2.toNat 9, min c3.toNat 9, min c4.toNat 9] }

variable {b t bound tone} (hBound : b.toNat = bound.number) (hTone : t.toNat = tone.number)
include hBound hTone

theorem readRoomOptions_eq_ofBytes :
    readRoomOptions [m0, m1, o0, o1, b, t, c0, c1, c2, c3, c4] =
      some (.ofBytes m0 m1 o0 o1 c0 c1 c2 c3 c4 bound tone) := by
  simp [readRoomOptions, byteAt, lineSetAt, numAt_two, hBound, hTone, Priority.ofNumber_number, BellTone.ofNumber_number,
    RoomOptions.ofBytes]

theorem RoomOptions.bytes_ofBytes :
    (RoomOptions.ofBytes m0 m1 o0 o1 c0 c1 c2 c3 c4 bound tone).bytes =
      [m0, m1, o0, o1, b, t, byte1 (min c0.toNat 9), byte1 (min c1.toNat 9), byte1 (min c2.toNat 9),
        byte1 (min c3.toNat 9), byte1 (min c4.toNat 9)] := by
  simp only [RoomOptions.bytes, RoomOptions.ofBytes, leBytes_two_ofNat, byte1_of_toNat hBound, byte1_of_toNat hTone]
  rfl

end

/-! ## RESUME (R194) -/

section
variable {s : State}

theorem resumeCommand_badLength {xs : List Byte} (h : xs.length ≠ 0) : resumeCommand xs s = s.refuse .badLength := if_pos h

theorem resumeCommand_unattended (h : s.room.unattended = true) :
    resumeCommand [] s = ((s.modRoom fun r => { r with unattended := false }).postBoth .unattendedEnd).done [] :=
  if_pos h

theorem resumeCommand_attended (h : s.room.unattended = false) : resumeCommand [] s = s.done [] := by
  simp [resumeCommand, h]

end

/-- Once RESUME has posted its notices, the alarm has only the two other causes. -/
theorem alarm_resumed_iff (s : State) :
    ((s.modRoom fun r => { r with unattended := false }).postBoth .unattendedEnd).alarm = true ↔
      s.store.exhausted = true ∨ s.loopOpenCause = true := by
  rw [State.postBoth, alarm_iff_of_attended (by simp)]
  simp

/-- Settles O45: the alarm by its causes, SET_ROOM_OPTIONS by what its payload reads as, and RESUME by the mode. -/
theorem roomCommandsResult : Obligations.RoomCommandsResult := by
  refine ⟨fun s => ?_, fun s p f hp => ⟨?_, ?_⟩, fun s p rate m0 m1 o0 o1 b t c0 c1 c2 c3 c4 hp => ⟨?_, ?_⟩,
    fun s p rate hp => ⟨?_, ?_, ?_⟩⟩
  · simp only [alarm_iff, loopOpenCause_iff, givesLoopOpen_iff]
  · exact fun hLength => exec_of_ready rfl hp (setRoomOptionsCommand_badLength hLength)
  · exact fun hLength => exec_of_ready rfl hp (resumeCommand_badLength hLength)
  · intro bound tone hBound hTone
    have hRead := readRoomOptions_eq_ofBytes m0 m1 o0 o1 c0 c1 c2 c3 c4 hBound hTone
    rw [← RoomOptions.bytes_ofBytes m0 m1 o0 o1 c0 c1 c2 c3 c4 hBound hTone]
    exact exec_of_ready rfl hp (setRoomOptionsCommand_taken rfl hRead)
  · exact fun hUndefined => exec_of_ready rfl hp (setRoomOptionsCommand_badValue rfl hUndefined)
  · exact fun hUnattended => exec_of_ready rfl hp (resumeCommand_unattended hUnattended)
  · exact fun hAttended => exec_of_ready rfl hp (resumeCommand_attended hAttended)
  · exact alarm_resumed_iff s

end Sys2Proof.Machine
end

section
/-! SUPPORT. What a desk command and a row can do to the part, one case each, so that what every step keeps is proved case by
case (R1, R36 to R194). -/

namespace Sys2Proof.Machine

/-! ## Desk commands -/

/-- The link settings that SET_PORT gives a port (R175). -/
def State.withSettings (s : State) (p : Port) (interest : LineSet) (mask : BitVec 11) (interval : Nat) : State :=
  s.modPort p fun q =>
    { q with
      interest := interest
      noticeMask := mask
      interval := interval
      silence := if interval = 0 then .untimed else .active
      silenceTimer := if interval = 0 then none else some (s.timerS interval) }

/-- All that a desk command can make of the settings of store, room, tables and its own port. -/
inductive SettingEffect (p : Port) (s : State) : State → Prop
  | nothing : SettingEffect p s s
  | clock (c : DayClock) : SettingEffect p s (s.modRoom fun r => { r with clock := c })
  | settings (interest : LineSet) (mask : BitVec 11) (interval : Nat) :
      SettingEffect p s (s.withSettings p interest mask interval)
  | settingsJudged (interest : LineSet) (mask : BitVec 11) (interval : Nat) :
      SettingEffect p s (s.withSettings p interest mask interval).judgeRoom
  | limits (reserve mark : Nat) :
      SettingEffect p s (s.modStore fun x => { x with deskReserve := reserve, reclaimMark := mark }).judgePool.judgeExhausted
  | options (o : RoomOptions) : SettingEffect p s (s.modRoom fun r => { r with options := o })
  | attended : SettingEffect p s ((s.modRoom fun r => { r with unattended := false }).postBoth .unattendedEnd)
  | fetched (n : Nat) : SettingEffect p s (s.modPort p fun x => { x with notices := x.notices.drop n, overflow := false })
  | tableLoaded (k : Fin 4) (t : Table) :
      k ≠ 0 → t.valid = true → SettingEffect p s { s with tables := s.tables.set k.val t }

/-- All that a desk command can make of lines and stories. -/
inductive WorkEffect (p : Port) (s : State) : State → Prop
  | configured (l : LineNo) (r : LineRecord) : WorkEffect p s (s.takeRecord l r)
  | reset (l : LineNo) : (s.line l).record.mode ≠ .off → WorkEffect p s (s.resetLine l)
  | held (l : LineNo) : (s.line l).record.mode.hasSend = true → WorkEffect p s (s.holdLine l)
  | resumed (l : LineNo) : (s.line l).record.mode.hasSend = true → WorkEffect p s (s.resumeLine l)
  | opened (i : Fin 256) (priority : Priority) :
      s.store.lowestFree = some i → WorkEffect p s (s.makeStory i (s.newComposed p priority))
  | appended (h : Handle) (st : Story) (cs : List Byte) :
      s.storyOf h = some st → st.state = .composing → st.length + cs.length ≤ Config.storyCap →
      cellsFor (st.length + cs.length) - cellsFor st.length = 0 →
      WorkEffect p s (s.appendChars h 0 cs)
  | appendedCells (h : Handle) (st : Story) (cs : List Byte) :
      s.storyOf h = some st → st.state = .composing → st.length + cs.length ≤ Config.storyCap →
      s.store.deskReserve + (cellsFor (st.length + cs.length) - cellsFor st.length) ≤ s.store.freeCount →
      WorkEffect p s
        (s.appendChars h (cellsFor (st.length + cs.length) - cellsFor st.length) cs).afterAllocation
  | submitted (h : Handle) (st : Story) (ls : List LineNo) :
      s.storyOf h = some st → st.state ≠ .assembling →
      WorkEffect p s
        (((s.modStory h fun st => st.completed s.stamp).tryLines h st.priority (.port p) ls).2.freeingTest h.index)
  | withdrawn (h : Handle) (st : Story) (ls : List LineNo) :
      s.storyOf h = some st → WorkEffect p s ((s.withdrawLines h ls).2.freeingTest h.index)
  | retained (h : Handle) (st : Story) :
      s.storyOf h = some st → WorkEffect p s (s.modStory h fun st => { st with interest := st.interest.add p })
  | released (h : Handle) (st : Story) :
      s.storyOf h = some st → ¬(st.state = .composing ∧ st.holder = some p) →
      WorkEffect p s ((s.modStory h fun st => { st with interest := st.interest.drop p }).freeingTest h.index)
  | discarded (h : Handle) (st : Story) :
      s.storyOf h = some st → st.state = .composing →
      WorkEffect p s
        (s.freeStory h.index fun t =>
          if st.interest.has p.other then t.post p.other (discardNotice h st .discard) else t)

/-- All that a desk command can make of the part. -/
def CommandEffect (p : Port) (s t : State) : Prop := SettingEffect p s t ∨ WorkEffect p s t

namespace CommandEffect

variable {p : Port} {s : State}

/-- A refusal, or a command that only reads. -/
theorem nothing : CommandEffect p s s := .inl .nothing

theorem setClock (xs : List Byte) : CommandEffect p s (setClockCommand xs s).state := by
  unfold setClockCommand
  split
  · exact nothing
  · split
    · exact nothing
    · exact .inl (.clock _)

theorem setPort (xs : List Byte) : CommandEffect p s (setPortCommand p xs s).state := by
  unfold setPortCommand
  split
  · exact nothing
  · show CommandEffect p s
      (if (if byteAt xs 4 = 0 then Silence.untimed else .active) = (s.port p).silence then
        s.withSettings p (lineSetAt xs 0) (BitVec.ofNat 11 (numAt xs 2 2)) (byteAt xs 4)
      else (s.withSettings p (lineSetAt xs 0) (BitVec.ofNat 11 (numAt xs 2 2)) (byteAt xs 4)).judgeRoom)
    by_cases hSame : (if byteAt xs 4 = 0 then Silence.untimed else .active) = (s.port p).silence
    · rw [if_pos hSame]
      exact .inl (.settings _ _ _)
    · rw [if_neg hSame]
      exact .inl (.settingsJudged _ _ _)

theorem setStoreLimits (xs : List Byte) : CommandEffect p s (setStoreLimitsCommand xs s).state := by
  unfold setStoreLimitsCommand
  split
  · exact nothing
  · exact .inl (.limits _ _)

theorem setRoomOptions (xs : List Byte) : CommandEffect p s (setRoomOptionsCommand xs s).state := by
  unfold setRoomOptionsCommand
  split
  · exact nothing
  · split
    · exact nothing
    · exact .inl (.options _)

theorem resume (xs : List Byte) : CommandEffect p s (resumeCommand xs s).state := by
  unfold resumeCommand
  split
  · exact nothing
  · split
    · exact .inl .attended
    · exact nothing

theorem fetchNotices (xs : List Byte) : CommandEffect p s (fetchNoticesCommand p xs s).state := by
  unfold fetchNoticesCommand
  split
  · exact nothing
  · exact .inl (.fetched _)

theorem configureLine (xs : List Byte) : CommandEffect p s (configureLineCommand xs s).state := by
  unfold configureLineCommand
  split
  · exact nothing
  · split
    · exact nothing
    · split
      · exact nothing
      · exact .inr (.configured _ _)

theorem lineControl (xs : List Byte) : CommandEffect p s (lineControlCommand xs s).state := by
  unfold lineControlCommand
  split
  · exact nothing
  · split
    · exact nothing
    · dsimp only
      split
      · exact nothing
      · split
        · split
          · exact nothing
          · exact .inr (.reset _ (by assumption))
        · split
          · exact nothing
          · split
            · exact .inr (.held _ (by simpa using ‹¬ _ = false›))
            · exact .inr (.resumed _ (by simpa using ‹¬ _ = false›))

theorem loadTable (xs : List Byte) : CommandEffect p s (loadTableCommand xs s).state := by
  unfold loadTableCommand
  split
  · exact nothing
  · split
    · exact nothing
    · split
      · exact nothing
      · split
        · exact nothing
        · split
          · exact nothing
          · split
            · exact nothing
            · exact .inl (.tableLoaded _ _ (by assumption) (by simpa using ‹¬ _ = false›))

theorem openStory (xs : List Byte) : CommandEffect p s (openStoryCommand p xs s).state := by
  unfold openStoryCommand
  split
  · exact nothing
  · split
    · exact nothing
    · split
      · exact nothing
      · exact .inr (.opened _ _ (by assumption))

theorem appendText (xs : List Byte) : CommandEffect p s (appendTextCommand p xs s).state := by
  unfold appendTextCommand
  split
  · exact nothing
  · split
    · exact nothing
    · rename_i h st hNamed
      dsimp only
      split
      · exact nothing
      · rename_i hComposing
        split
        · exact nothing
        · split
          · exact nothing
          · split
            · exact nothing
            · rename_i hCap hFree
              have hState : st.state = .composing := by simpa using hComposing
              by_cases hNoCell : cellsFor (st.length + (xs.drop 2).length) - cellsFor st.length = 0
              · rw [if_pos hNoCell, hNoCell]
                exact .inr (.appended h st _ (namedStory_some hNamed) hState (by omega) hNoCell)
              · rw [if_neg hNoCell]
                exact .inr (.appendedCells h st _ (namedStory_some hNamed) hState (by omega) (by omega))

theorem submitStory (xs : List Byte) : CommandEffect p s (submitStoryCommand p xs s).state := by
  unfold submitStoryCommand
  split
  · exact nothing
  · split
    · exact nothing
    · rename_i h st hNamed
      split
      · exact nothing
      · split
        · exact nothing
        · exact .inr (.submitted h st _ (namedStory_some hNamed) (by assumption))

theorem withdrawStory (xs : List Byte) : CommandEffect p s (withdrawStoryCommand xs s).state := by
  unfold withdrawStoryCommand
  split
  · exact nothing
  · split
    · exact nothing
    · rename_i h st hNamed
      exact .inr (.withdrawn h st _ (namedStory_some hNamed))

theorem retainStory (xs : List Byte) : CommandEffect p s (retainStoryCommand p xs s).state := by
  unfold retainStoryCommand
  split
  · exact nothing
  · split
    · exact nothing
    · rename_i h st hNamed
      exact .inr (.retained h st (namedStory_some hNamed))

theorem releaseStory (xs : List Byte) : CommandEffect p s (releaseStoryCommand p xs s).state := by
  unfold releaseStoryCommand
  split
  · exact nothing
  · split
    · exact nothing
    · rename_i h st hNamed
      split
      · exact nothing
      · split
        · exact nothing
        · exact .inr (.released h st (namedStory_some hNamed) (by assumption))

theorem discardStory (xs : List Byte) : CommandEffect p s (discardStoryCommand p xs s).state := by
  unfold discardStoryCommand
  split
  · exact nothing
  · split
    · exact nothing
    · rename_i h st hNamed
      split
      · exact nothing
      · split
        · exact nothing
        · exact .inr (.discarded h st (namedStory_some hNamed) (by simpa using ‹¬st.state ≠ .composing›))

end CommandEffect

/-- Whatever command a frame names, it has an effect of one of the two kinds. -/
theorem runCommand_effect (p : Port) (g : GoodFrame) (s : State) : CommandEffect p s (runCommand p g s).state := by
  unfold runCommand
  dsimp only
  split
  · unfold statusCommand; split <;> exact .nothing
  · exact .setClock _
  · exact .setPort _
  · exact .setStoreLimits _
  · exact .setRoomOptions _
  · exact .resume _
  · exact .fetchNotices _
  · exact .configureLine _
  · unfold readLineCommand
    split
    · exact .nothing
    · split <;> exact .nothing
  · exact .lineControl _
  · exact .loadTable _
  · unfold readTableCommand
    split
    · exact .nothing
    · split <;> exact .nothing
  · unfold listStoriesCommand
    dsimp only
    split
    · exact .nothing
    · split <;> exact .nothing
  · unfold readStoryCommand
    split
    · exact .nothing
    · split
      · exact .nothing
      · dsimp only
        split <;> exact .nothing
  · exact .openStory _
  · exact .appendText _
  · exact .submitStory _
  · exact .withdrawStory _
  · exact .retainStory _
  · exact .releaseStory _
  · exact .discardStory _
  · exact .nothing

/-! ## Rows -/

/-- All that a row of a line's loops can make of the part, once time has run on to its moment. -/
inductive LineEffect (s : State) : State → Prop
  | current (c : ChannelNo) (current : Int) : LineEffect s (s.setCurrent c current)
  | change (l : LineNo) : LineEffect s (s.completeChange l)
  | conversion : LineEffect s s.endConversion
  | startCheck (l : LineNo) : LineEffect s (s.checkStart l)
  | element (l : LineNo) :
      (∀ c, (s.line l).rx.state = .inCharacter c → c.elements.length < 5) → LineEffect s (s.sampleElement l)
  | stop (l : LineNo) : LineEffect s (s.sampleStop l)
  | space (l : LineNo) : (s.line l).rx.space ≠ none → LineEffect s (s.openLine l)
  | idleGap (l : LineNo) : LineEffect s (s.idleGapOver l)
  | frameEnd (l : LineNo) : LineEffect s (s.endFrame l)
  | key (l : LineNo) : (s.line l).send.frame ≠ none → LineEffect s (s.modSend l SendSide.nextElement).wakeConverter
  | startDelay (l : LineNo) : LineEffect s (s.startDelayOver l)
  | stopDelay (l : LineNo) : (s.line l).send.state = .idle → (s.line l).send.stopDelay ≠ none →
      LineEffect s (s.modSend l fun x => { x with state := .stopped, motor := false, stopDelay := none })
  | guard (l : LineNo) : LineEffect s (s.guardOver l)

/-- All that a row of the desk links can make of the part, once time has run on to its moment. -/
inductive LinkEffect (s : State) : State → Prop
  | frameStart (p : Port) (run sample : Nat) : Config.minRun ≤ run → run ≤ Config.maxRun →
      LinkEffect s (s.modPort p fun q => q.startFrame run sample)
  | byteStart (p : Port) (edge : Nat) : LinkEffect s (s.modPort p fun q => q.startByte edge)
  | byteStop (p : Port) (x : Byte) (stop : Level) (sample : Nat) : (s.port p).link = .inFrame →
      LinkEffect s (s.modPort p fun q => q.takeByte x stop sample)
  | frameComplete (p : Port) (check : Byte) (stop : Level) (sample : Nat) : LinkEffect s (s.completeFrame p check stop sample)
  | gapTimer (p : Port) (tick : Nat) : LinkEffect s (s.modPort p fun q => q.abandonFrame tick)
  | responseEnd (p : Port) : LinkEffect s (s.endResponse p)
  | silence (p : Port) : (s.port p).silence = .active → LinkEffect s (s.silenceOver p)
  | frame (p : Port) (g : GoodFrame) : LinkEffect s (s.offerFrame p g (runCommand p g))

/-- All that a row but POWER_ON can make of the part, once time has run on to its moment. -/
inductive RowEffect (s : State) : State → Prop
  | still : RowEffect s s
  | tone (t : Timer) : s.room.bell.phase = .tone t → RowEffect s s.endTone
  | gap : RowEffect s s.endGap
  | line {t : State} : LineEffect s t → RowEffect s t
  | link {t : State} : LinkEffect s t → RowEffect s t

/-- A timed row, by the effect of what it does at its moment. -/
theorem whenDue_effect {s : State} {due : Option Nat} {act : State → State}
    (hAct : ∀ d, due = some d → RowEffect (s.advanceTo d) (act (s.advanceTo d))) :
    ∃ d, RowEffect (s.advanceTo d) (s.whenDue due act) := by
  cases due with
  | none => exact ⟨s.tick, by rw [advanceTo_of_le s (le_refl _)]; exact .still⟩
  | some d => exact ⟨d, hAct d rfl⟩

/-- A row that is not taken changes nothing. -/
theorem still_effect (s : State) : ∃ d, RowEffect (s.advanceTo d) s :=
  ⟨s.tick, by rw [advanceTo_of_le s (le_refl _)]; exact .still⟩

/-- The samples of a byte are taken in IN_FRAME only. -/
theorem inFrame_of_sampled {q : DeskPort} {level : Level} {changes : List Nat} {d : Nat × Byte × Level}
    (h : q.sampled level changes = some d) : q.link = .inFrame := by
  unfold DeskPort.sampled at h
  split at h
  · assumption
  · cases h

/-- Every row completes; POWER_ON apart, time runs on to some tick, and then the row has one of the effects. -/
theorem exec_effect (c : Instr) (s : State) (hc : c ≠ .powerOn) :
    ∃ t, exec c s = .next t ∧ ∃ d, RowEffect (s.advanceTo d) t := by
  by_cases hDesk : ∃ p g, goodFrameOf c = some (p, g)
  · obtain ⟨p, g, hg⟩ := hDesk
    refine ⟨_, exec_of_goodFrameOf hg s, s.tick, ?_⟩
    rw [advanceTo_of_le s (le_refl _)]
    exact .link (.frame p g)
  · cases c with
    | powerOn => exact absurd rfl hc
    | clockSecond => exact ⟨_, rfl, s.nextSecond, .still⟩
    | rawLevelChange c i t => exact ⟨_, rfl, t, .line (.current c i)⟩
    | pendingChangeComplete l => exact ⟨_, rfl, whenDue_effect fun _ _ => .line (.change l)⟩
    | startCheck l => exact ⟨_, rfl, whenDue_effect fun _ _ => .line (.startCheck l)⟩
    | elementSample l =>
      refine ⟨_, rfl, whenDue_effect fun d hd => .line (.element l fun c hChar => ?_)⟩
      rw [advanceTo_line] at hChar
      simp only [Line.elementDue, hChar, RxState.char] at hd
      split at hd
      · rename_i h; exact h.2
      · cases hd
    | stopSample l => exact ⟨_, rfl, whenDue_effect fun _ _ => .line (.stop l)⟩
    | spaceCountExpiry l =>
      refine ⟨_, rfl, whenDue_effect fun d hd => .line (.space l fun hNone => ?_)⟩
      rw [advanceTo_line] at hNone
      simp [Line.spaceDue, hNone] at hd
    | idleGapExpiry l => exact ⟨_, rfl, whenDue_effect fun _ _ => .line (.idleGap l)⟩
    | bellToneEnd =>
      refine ⟨_, rfl, whenDue_effect fun d hd => ?_⟩
      unfold Bell.toneDue at hd
      split at hd
      · exact .tone _ (by rw [advanceTo_room_bell]; assumption)
      · cases hd
      · cases hd
    | bellGapEnd => exact ⟨_, rfl, whenDue_effect fun _ _ => .gap⟩
    | conversionEnd => exact ⟨_, rfl, whenDue_effect fun _ _ => .line .conversion⟩
    | guardTimerExpiry l => exact ⟨_, rfl, whenDue_effect fun _ _ => .line (.guard l)⟩
    | startDelayExpiry l => exact ⟨_, rfl, whenDue_effect fun _ _ => .line (.startDelay l)⟩
    | stopDelayExpiry l =>
      refine ⟨_, rfl, whenDue_effect fun d hd => ?_⟩
      have hIdle : (s.line l).send.state = .idle := by
        unfold Line.stopDelayDue at hd
        split at hd
        · assumption
        all_goals cases hd
      refine .line (.stopDelay l (by rwa [advanceTo_line]) fun hNone => ?_)
      rw [advanceTo_line] at hNone
      simp [Line.stopDelayDue, hIdle, hNone] at hd
    | frameEnd l => exact ⟨_, rfl, whenDue_effect fun _ _ => .line (.frameEnd l)⟩
    | keyLevelChange l =>
      refine ⟨_, rfl, whenDue_effect fun d hd => .line (.key l fun hNone => ?_)⟩
      rw [advanceTo_line] at hNone
      simp [Line.keyDue, hNone] at hd
    | frameComplete p level changes =>
      refine ⟨_, rfl, ?_⟩
      split
      · exact still_effect s
      · split
        · exact ⟨_, .link (.frameComplete p _ _ _)⟩
        · exact still_effect s
    | gapTimerExpiry p =>
      refine ⟨_, rfl, ?_⟩
      split
      · exact still_effect s
      · exact ⟨_, .link (.gapTimer p _)⟩
    | responseEnd p => exact ⟨_, rfl, whenDue_effect fun _ _ => .link (.responseEnd p)⟩
    | silenceTimerExpiry p =>
      refine ⟨_, rfl, whenDue_effect fun d hd => .link (.silence p ?_)⟩
      rw [advanceTo_port]
      unfold DeskPort.silenceDue at hd
      split at hd
      · assumption
      · cases hd
      · cases hd
    | frameStart p edge run level changes =>
      refine ⟨_, rfl, ?_⟩
      split
      · rename_i h
        simp only [DeskPort.isFrameStart, Bool.and_eq_true, decide_eq_true_eq] at h
        obtain ⟨⟨⟨⟨-, hMin⟩, hMax⟩, -⟩, -⟩ := h
        exact ⟨_, .link (.frameStart p run _ hMin hMax)⟩
      · exact still_effect s
    | byteStartEdge p edge => exact ⟨_, rfl, edge, .link (.byteStart p edge)⟩
    | byteStopSample p level changes =>
      refine ⟨_, rfl, ?_⟩
      split
      · exact still_effect s
      · rename_i hs
        split
        · exact still_effect s
        · exact ⟨_, .link (.byteStop p _ _ _ (by rw [advanceTo_port]; exact inFrame_of_sampled hs))⟩
    | _ => exact absurd ⟨_, _, rfl⟩ hDesk

/-! ## Steps -/

/-- The state that POWER_ON makes (R17 and the power-on values of every chapter). -/
def State.poweredOn (s : State) : State := { State.reset with lines := s.powerOnLines, pending := s.pending }

/-- A predicate that the queue, time and POWER_ON keep, and every effect of a row, is kept by every step. -/
theorem step_keeps {P : State → Prop} {s t : State} (hQueue : ∀ s q, P s → P { s with pending := q })
    (hTime : ∀ s d, P s → P (s.advanceTo d)) (hPower : ∀ s, P s → P s.poweredOn)
    (hRow : ∀ s t, P s → RowEffect s t → P t) (hs : P s) (hStep : step s = .next t) : P t := by
  unfold step at hStep
  split at hStep
  · cases hStep
    unfold State.idle
    split
    · exact hTime _ _ hs
    · exact hQueue _ _ hs
  · rename_i c rest _
    by_cases hc : c = .powerOn
    · subst hc
      cases hStep
      exact hPower _ (hQueue _ rest hs)
    · obtain ⟨u, hExec, d, hEffect⟩ := exec_effect c { s with pending := rest } hc
      rw [hExec] at hStep
      cases hStep
      exact hRow _ _ (hTime _ d (hQueue _ rest hs)) hEffect

end Sys2Proof.Machine
end

section
/-! SUPPORT. The laws of the shared blocks, of the lines' two sides, and of tables and ports are kept by every step; every command
completes; the state after power-on is under the laws. -/

namespace Sys2Proof.Machine

/-! ## What the effects leave alone -/

/-- Lines, records, time and queue are left as they are. -/
structure Apart (s t : State) : Prop where
  lines : t.lines = s.lines
  records : t.store.records = s.store.records
  tick : t.tick = s.tick
  pending : t.pending = s.pending

namespace Apart

theorem refl (s : State) : Apart s s := ⟨rfl, rfl, rfl, rfl⟩

theorem trans {s t u : State} (a : Apart s t) (b : Apart t u) : Apart s u :=
  ⟨b.lines.trans a.lines, b.records.trans a.records, b.tick.trans a.tick, b.pending.trans a.pending⟩

theorem modPort (s : State) (p : Port) (f : DeskPort → DeskPort) : Apart s (s.modPort p f) :=
  ⟨by simp, by simp, by simp, by simp⟩

theorem modRoom (s : State) (f : Room → Room) : Apart s (s.modRoom f) := ⟨rfl, rfl, rfl, rfl⟩

theorem postBoth (s : State) (n : Notice) : Apart s (s.postBoth n) :=
  (modPort s .a fun x => x.post n).trans (modPort (s.post .a n) .b fun x => x.post n)

theorem judgeRoom (s : State) : Apart s s.judgeRoom := by
  unfold State.judgeRoom
  split
  · exact (modRoom ..).trans (postBoth ..)
  · exact refl s

end Apart

theorem SettingEffect.apart {p : Port} {s t : State} (h : SettingEffect p s t) : Apart s t := by
  cases h with
  | nothing => exact .refl s
  | clock c => exact .modRoom s _
  | settings i m n => exact .modPort s p _
  | settingsJudged i m n => exact (Apart.modPort s p _).trans (.judgeRoom _)
  | limits reserve mark =>
    have hPool := (Works.judgePool (s.modStore fun x => { x with deskReserve := reserve, reclaimMark := mark })).kept
    have hExhausted := (Works.judgeExhausted
      (s.modStore fun x => { x with deskReserve := reserve, reclaimMark := mark }).judgePool).kept
    exact ⟨by simp, by simp, hExhausted.tick.trans hPool.tick, hExhausted.pending.trans hPool.pending⟩
  | options o => exact .modRoom s _
  | attended => exact (Apart.modRoom ..).trans (.postBoth ..)
  | fetched n => exact .modPort s p _
  | tableLoaded k t _ _ => exact ⟨rfl, rfl, rfl, rfl⟩

theorem WorkEffect.shared {p : Port} {s t : State} (h : WorkEffect p s t) : Shared s t := by
  cases h with
  | configured l r => exact .takeRecord s l r
  | reset l _ => exact (Kept.resetLine s l).toShared
  | held l _ => exact (Works.holdLine s l).kept.toShared
  | resumed l _ => exact (Works.resumeLine s l).kept.toShared
  | opened i priority hFree => exact (Works.makeStory (lowestFree_free hFree) rfl).kept.toShared
  | appended h st cs => exact (Works.appendChars s h 0 cs).kept.toShared
  | appendedCells h st cs => exact (Works.after (.afterAllocation _) (.appendChars s h _ cs)).kept.toShared
  | submitted h st ls _ _ =>
    refine (Works.after (.freeingTest ..) (.after (.tryLines ..) (.modStory s h fun st => ?_))).kept.toShared
    unfold Story.completed
    split <;> rfl
  | withdrawn h st ls _ => exact (Works.after (.freeingTest ..) (.withdrawLines ..)).kept.toShared
  | retained h st _ =>
    refine (Works.modStory s h ?_).kept.toShared
    exact fun _ => rfl
  | released h st _ _ =>
    refine (Works.after (.freeingTest ..) (.modStory s h ?_)).kept.toShared
    exact fun _ => rfl
  | discarded h st _ _ =>
    refine (Works.freeStory _ _ fun t => ?_).kept.toShared
    split
    · exact .post ..
    · exact .refl _

theorem LineEffect.shared {s t : State} (h : LineEffect s t) : Shared s t := by
  cases h with
  | current c i => exact .setCurrent s c i
  | change l => exact (Kept.completeChange s l).toShared
  | conversion => exact (Kept.endConversion s).toShared
  | startCheck l => exact (Kept.checkStart s l).toShared
  | element l _ => exact (Kept.sampleElement s l).toShared
  | stop l => exact (Kept.sampleStop s l).toShared
  | space l _ => exact (Kept.openLine s l).toShared
  | idleGap l => exact (Works.idleGapOver s l).kept.toShared
  | frameEnd l => exact (Kept.endFrame s l).toShared
  | key l _ => exact (Kept.after (.wakeConverter _) (Works.modSend s l _).kept).toShared
  | startDelay l => exact (Works.startDelayOver s l).kept.toShared
  | stopDelay l _ _ => exact (Works.modSend s l _).kept.toShared
  | guard l => exact (Works.guardOver s l).kept.toShared

/-- A frame taken: its command, and then the response begins. -/
theorem takeFrame_effect (s : State) (p : Port) (g : GoodFrame) :
    ∃ v, CommandEffect p s v ∧ Apart v (s.takeFrame p g (runCommand p g)) :=
  ⟨_, runCommand_effect p g s, by unfold State.takeFrame; exact .modPort ..⟩

/-- A row of the links works on lines and stories through one command at most; what comes before it keeps the laws. -/
theorem LinkEffect.apart_or_command {s t : State} (h : LinkEffect s t) :
    Apart s t ∨ ∃ p u v, Apart s u ∧ (s.Lawful → u.Lawful) ∧ CommandEffect p u v ∧ Apart v t := by
  have offered : ∀ {u : State} (p : Port) (g : GoodFrame), Apart s u → (s.Lawful → u.Lawful) →
      Apart s (u.offerFrame p g (runCommand p g)) ∨
        ∃ p' u' v, Apart s u' ∧ (s.Lawful → u'.Lawful) ∧ CommandEffect p' u' v ∧
          Apart v (u.offerFrame p g (runCommand p g)) := by
    intro u p g hu hLawful
    unfold State.offerFrame
    split
    · exact .inl hu
    · split
      · exact .inl (hu.trans (.modPort _ p _))
      · obtain ⟨v, hv, hApart⟩ := takeFrame_effect u p g
        exact .inr ⟨p, u, v, hu, hLawful, hv, hApart⟩
  cases h with
  | frameStart p run sample _ _ => exact .inl (.modPort s p _)
  | byteStart p edge => exact .inl (.modPort s p _)
  | byteStop p x stop sample _ => exact .inl (.modPort s p _)
  | gapTimer p tick => exact .inl (.modPort s p _)
  | silence p _ => exact .inl ((Apart.modPort s p _).trans ((Apart.modPort _ p.other _).trans (.judgeRoom _)))
  | frame p g => exact offered p g (.refl s) id
  | responseEnd p =>
    unfold State.endResponse
    dsimp only
    split
    · exact .inl (.modPort s p _)
    · rename_i g _
      obtain ⟨v, hv, hApart⟩ :=
        takeFrame_effect (s.modPort p fun q => { q with response := none, held := none }) p g
      exact .inr ⟨p, _, v, .modPort s p _, fun h => lawful_modPort h (h.notices p), hv, hApart⟩
  | frameComplete p check stop sample =>
    unfold State.completeFrame
    dsimp only
    split
    · exact .inl (.modPort s p _)
    · split
      · refine offered p _ ((Apart.modPort s p fun q => q.abandonFrame sample).trans ?_)
          fun h => lawful_hearFrame (lawful_modPort h (h.notices p)) p
        unfold State.hearFrame
        split
        · exact .refl _
        · exact .modPort _ p _
        · exact (Apart.modPort _ p _).trans (.judgeRoom _)
      · exact .inl (.modPort s p _)

/-! ## The shared blocks -/

/-- A predicate over the blocks does not look at the queue. -/
theorem lawful_setPending {s : State} (h : s.Lawful) (q : List Instr) : State.Lawful { s with pending := q } :=
  ⟨h.store, h.room, h.dist, fun p => by cases p; exacts [h.notices .a, h.notices .b]⟩

theorem powerOnStore_isLawful : powerOnStore.Lawful := by
  have hNone : ∀ n, (List.replicate n ({ generation := 0, story := none } : StoryRecord)).flatMap StoryRecord.cells = [] := by
    intro n
    simp [List.flatMap_replicate, StoryRecord.cells]
  refine ⟨rfl, List.length_range'.symm, ?_⟩
  have hCells : powerOnStore.cells = List.range' 0 Config.cellCount := by
    rw [Store.cells, show powerOnStore.records.toList = _ from Vector.toList_replicate, hNone, List.append_nil]
    rfl
  rw [hCells]

theorem powerOnRoom_isLawful : powerOnRoom.Lawful :=
  ⟨⟨by decide, by decide, by decide⟩, ⟨by decide, by decide⟩, by unfold RoomOptions.countsFit; decide⟩

@[simp] theorem reset_line (l : LineNo) : State.reset.line l = powerOnLine := by
  simp [State.line, State.reset, Vector.get_eq_getElem]

@[simp] theorem reset_port (p : Port) : State.reset.port p = powerOnPort := by cases p <;> rfl

@[simp] theorem reset_record (i : Fin 256) : State.reset.record i = { generation := 0, story := none } := by
  simp [State.record, State.reset, powerOnStore, Vector.get_eq_getElem]

@[simp] theorem poweredOn_line (s : State) (l : LineNo) :
    s.poweredOn.line l = { powerOnLine with rxCurrent := (s.line l).rxCurrent, txCurrent := (s.line l).txCurrent } := by
  simp [State.line, State.poweredOn, State.powerOnLines, Vector.get_eq_getElem]

@[simp] theorem poweredOn_port (s : State) (p : Port) : s.poweredOn.port p = powerOnPort := by cases p <;> rfl

@[simp] theorem poweredOn_record (s : State) (i : Fin 256) : s.poweredOn.record i = { generation := 0, story := none } :=
  reset_record i

theorem reset_isLawful : State.reset.Lawful :=
  ⟨powerOnStore_isLawful, powerOnRoom_isLawful, fun l => by rw [reset_line]; exact freshDistribution_lawful,
    fun p => by rw [reset_port]; exact Nat.zero_le _⟩

theorem poweredOn_isLawful (s : State) : s.poweredOn.Lawful :=
  ⟨powerOnStore_isLawful, powerOnRoom_isLawful, fun l => by rw [poweredOn_line]; exact freshDistribution_lawful,
    fun p => by rw [poweredOn_port]; exact Nat.zero_le _⟩

/-- TONE is not QUIET, and so a burst remains when the tone ends. -/
theorem Bell.Lawful.endTone {b : Bell} (h : b.Lawful) {t : Timer} (hTone : b.phase = .tone t) (u : Timer) :
    Bell.Lawful { b with phase := .gap u } := by
  refine ⟨h.bound, ?_⟩
  have hLeft := h.quiet
  simp_all

theorem lawful_endGap {s : State} (h : s.Lawful) : s.endGap.Lawful := by
  refine lawful_modRoom h ⟨h.room.clock, ?_, h.room.counts⟩
  have hBound := h.room.bell.bound
  dsimp only
  split
  · exact ⟨Nat.zero_le _, by simp⟩
  · rename_i hLeft
    exact ⟨show s.room.bell.remaining - 1 ≤ 9 by omega, by simpa using hLeft⟩

theorem LinkEffect.lawful {s t : State} (hs : s.Lawful) (h : LinkEffect s t) : t.Lawful := by
  cases h with
  | frameStart p run sample _ _ => exact lawful_modPort hs (hs.notices p)
  | byteStart p edge =>
    refine lawful_modPort hs ?_
    have hNotices : ((s.port p).startByte edge).notices = (s.port p).notices := by
      unfold DeskPort.startByte
      repeat' split
      all_goals rfl
    unfold DeskPort.noticesFit
    rw [hNotices]
    exact hs.notices p
  | byteStop p x stop sample _ =>
    refine lawful_modPort hs ?_
    have hNotices : ((s.port p).takeByte x stop sample).notices = (s.port p).notices := by
      unfold DeskPort.takeByte
      repeat' split
      all_goals rfl
    unfold DeskPort.noticesFit
    rw [hNotices]
    exact hs.notices p
  | frameComplete p check stop sample => exact lawful_completeFrame hs p check stop sample
  | gapTimer p tick => exact lawful_modPort hs (hs.notices p)
  | responseEnd p => exact lawful_endResponse hs p
  | silence p _ => exact lawful_silenceOver hs p
  | frame p g => exact lawful_offerFrame hs p g (runCommand_safe hs p g)

theorem RowEffect.lawful {s t : State} (hs : s.Lawful) (h : RowEffect s t) : t.Lawful := by
  cases h with
  | still => exact hs
  | tone timer hTone => exact lawful_modRoom hs ⟨hs.room.clock, hs.room.bell.endTone hTone _, hs.room.counts⟩
  | gap => exact lawful_endGap hs
  | line h => exact h.shared.lawful hs
  | link h => exact h.lawful hs

/-- Settles O56: time, queue, POWER_ON and every effect of a row keep the laws. -/
theorem everyStepKeepsTheSharedLaws : Obligations.EveryStepKeepsTheSharedLaws := fun _ _ =>
  step_keeps (fun _ q h => lawful_setPending h q) (fun _ d h => lawful_advanceTo h d) (fun s _ => poweredOn_isLawful s)
    fun _ _ h e => e.lawful h

/-! ## Every command completes -/

theorem CommandEffect.tick_pending {p : Port} {s t : State} (h : CommandEffect p s t) :
    t.tick = s.tick ∧ t.pending = s.pending := by
  obtain h | h := h
  · exact ⟨h.apart.tick, h.apart.pending⟩
  · exact ⟨h.shared.tick, h.shared.pending⟩

theorem RowEffect.tick_pending {s t : State} (h : RowEffect s t) : t.tick = s.tick ∧ t.pending = s.pending := by
  cases h with
  | still => exact ⟨rfl, rfl⟩
  | tone timer _ => exact ⟨rfl, rfl⟩
  | gap => exact ⟨rfl, rfl⟩
  | line h => exact ⟨h.shared.tick, h.shared.pending⟩
  | link h =>
    obtain h | ⟨p, u, v, hBefore, -, hCommand, hAfter⟩ := h.apart_or_command
    · exact ⟨h.tick, h.pending⟩
    · obtain ⟨hTick, hPending⟩ := hCommand.tick_pending
      exact ⟨hAfter.tick.trans (hTick.trans hBefore.tick), hAfter.pending.trans (hPending.trans hBefore.pending)⟩

theorem exec_of_not_due {c : Instr} (hc : c ∈ ownEvents) {s : State} (hDue : s.dueTick c = none) : exec c s = .next s := by
  cases c with
  | pendingChangeComplete l => exact congrArg (fun d => Host.Outcome.next (s.whenDue d _)) hDue
  | startCheck l => exact congrArg (fun d => Host.Outcome.next (s.whenDue d _)) hDue
  | elementSample l => exact congrArg (fun d => Host.Outcome.next (s.whenDue d _)) hDue
  | stopSample l => exact congrArg (fun d => Host.Outcome.next (s.whenDue d _)) hDue
  | spaceCountExpiry l => exact congrArg (fun d => Host.Outcome.next (s.whenDue d _)) hDue
  | idleGapExpiry l => exact congrArg (fun d => Host.Outcome.next (s.whenDue d _)) hDue
  | bellToneEnd => exact congrArg (fun d => Host.Outcome.next (s.whenDue d _)) hDue
  | bellGapEnd => exact congrArg (fun d => Host.Outcome.next (s.whenDue d _)) hDue
  | conversionEnd => exact congrArg (fun d => Host.Outcome.next (s.whenDue d _)) hDue
  | guardTimerExpiry l => exact congrArg (fun d => Host.Outcome.next (s.whenDue d _)) hDue
  | startDelayExpiry l => exact congrArg (fun d => Host.Outcome.next (s.whenDue d _)) hDue
  | stopDelayExpiry l => exact congrArg (fun d => Host.Outcome.next (s.whenDue d _)) hDue
  | frameEnd l => exact congrArg (fun d => Host.Outcome.next (s.whenDue d _)) hDue
  | keyLevelChange l => exact congrArg (fun d => Host.Outcome.next (s.whenDue d _)) hDue
  | responseEnd p => exact congrArg (fun d => Host.Outcome.next (s.whenDue d _)) hDue
  | silenceTimerExpiry p => exact congrArg (fun d => Host.Outcome.next (s.whenDue d _)) hDue
  | gapTimerExpiry p =>
    have hGap : (s.port p).gapDue = none := hDue
    simp only [exec, execGapTimerExpiry, hGap]
  | _ => simp [ownEvents, lineEvents, portEvents] at hc

/-- Settles O5: every row is an effect at some tick, and POWER_ON keeps the queue. -/
theorem everyCommandCompletes : Obligations.EveryCommandCompletes := by
  refine ⟨fun c s => ?_, fun c s hc hDue => exec_of_not_due hc hDue⟩
  by_cases hc : c = .powerOn
  · subst hc
    exact ⟨s.poweredOn, rfl, rfl, fun h => absurd rfl h⟩
  · obtain ⟨t, hExec, d, hEffect⟩ := exec_effect c s hc
    obtain ⟨hTick, hPending⟩ := hEffect.tick_pending
    refine ⟨t, hExec, by rw [hPending, advanceTo_pending], fun _ => ?_⟩
    rw [hTick, advanceTo_tick]
    exact le_max_left _ _

end Sys2Proof.Machine
end

section
/-! SUPPORT. Every step keeps the laws of every line's send side and receive side (R33, R47, R153, R156, R159). -/

namespace Sys2Proof.Machine

/-- The laws of the two sides, on every line. -/
def State.SidesLawful (s : State) : Prop := ∀ l, (s.line l).SendLawful ∧ (s.line l).ReceiveLawful

/-- The lines that have a receive side. -/
def State.receiveSides (s : State) : LineNo → Bool := fun l => (s.line l).record.mode.hasReceive

theorem State.sidesLawful_iff (s : State) :
    s.SidesLawful ↔ s.SendAll (fun _ => true) ∧ s.ReceiveAll s.receiveSides :=
  ⟨fun h => ⟨⟨fun l => (Line.sendLawful_iff _).mp (h l).1⟩, ⟨fun l => (Line.receiveLawful_iff _).mp (h l).2⟩⟩,
    fun h l => ⟨(Line.sendLawful_iff _).mpr (h.1.line l), (Line.receiveLawful_iff _).mpr (h.2.line l)⟩⟩

namespace State.SidesLawful

variable {s t : State}

theorem send (h : s.SidesLawful) : s.SendAll fun _ => true := ((sidesLawful_iff s).mp h).1

theorem receive (h : s.SidesLawful) : s.ReceiveAll s.receiveSides := ((sidesLawful_iff s).mp h).2

/-- Where the records stay, the sides that are to be there stay. -/
theorem of_record (hRecord : ∀ l, (t.line l).record = (s.line l).record) (hSend : t.SendAll fun _ => true)
    (hReceive : t.ReceiveAll s.receiveSides) : t.SidesLawful := by
  have hSides : s.receiveSides = t.receiveSides := funext fun l => by rw [State.receiveSides, State.receiveSides, hRecord]
  exact (sidesLawful_iff t).mpr ⟨hSend, hSides ▸ hReceive⟩

theorem lines (h : s.SidesLawful) (e : t.lines = s.lines) : t.SidesLawful := fun l => by
  rw [line_of_lines e]
  exact h l

/-- Operations that leave reception alone. -/
theorem works (h : s.SidesLawful) (w : Works s t) (hSend : t.SendAll fun _ => true) : t.SidesLawful :=
  of_record w.kept.record hSend (h.receive.works w)

/-- Operations of reception and sensing. -/
theorem kept (h : s.SidesLawful) (k : Kept s t) (hSend : s.SendAll (fun _ => true) → t.SendAll fun _ => true)
    (hReceive : s.ReceiveAll s.receiveSides → t.ReceiveAll s.receiveSides) : t.SidesLawful :=
  of_record k.record (hSend h.send) (hReceive h.receive)

end State.SidesLawful

/-! ## The taking of a record -/

/-- An operation made under a condition. -/
theorem record_when {s t : State} (h : Kept s t) (c : Prop) [Decidable c] (m : LineNo) :
    ((if c then t else s).line m).record = (s.line m).record := by
  split
  · exact h.record m
  · rfl

/-- The line holds the record taken, every other line its own. -/
theorem takeRecord_record (s : State) (l : LineNo) (r : LineRecord) (m : LineNo) :
    ((s.takeRecord l r).line m).record = if m = l then r else (s.line m).record := by
  unfold State.takeRecord
  dsimp only
  rw [(Kept.wakeConverter _).record, record_when (Kept.feedFilter ..), record_when (Works.commitHeld ..).kept,
    record_when (Kept.changeMotorControl ..), record_when (Kept.addSend ..), record_when (Kept.addReceive ..)]
  unfold State.setLineRecord
  by_cases hm : m = l
  · simp [hm]
  · simp only [line_modLine, hm, if_false]
    rw [record_when (Kept.removeReceive ..), record_when (Kept.removeSend ..)]
    simp [hm]

theorem State.SidesLawful.takeRecord {s : State} (h : s.SidesLawful) (l : LineNo) (r : LineRecord) :
    (s.takeRecord l r).SidesLawful := by
  have hSides : (s.takeRecord l r).receiveSides = fun m => if m = l then r.mode.hasReceive else s.receiveSides m := by
    funext m
    rw [State.receiveSides, takeRecord_record]
    split <;> rfl
  exact (State.sidesLawful_iff _).mpr ⟨h.send.takeRecord l r, hSides ▸ h.receive.takeRecord r rfl⟩

/-! ## Commands -/

@[simp] theorem appendChars_lines (s : State) (h : Handle) (n : Nat) (cs : List Byte) :
    (s.appendChars h n cs).lines = s.lines := by
  unfold State.appendChars
  dsimp only
  split <;> simp

/-- A send side that the mode has is not OFF. -/
theorem State.SidesLawful.send_ne_off {s : State} (h : s.SidesLawful) {l : LineNo}
    (hMode : (s.line l).record.mode.hasSend = true) : (s.line l).send.state ≠ .off := fun hOff => by
  rw [(h l).1.off.mp hOff] at hMode
  cases hMode

theorem WorkEffect.sides {p : Port} {s t : State} (hs : s.SidesLawful) (h : WorkEffect p s t) : t.SidesLawful := by
  cases h with
  | configured l r => exact hs.takeRecord l r
  | reset l _ => exact hs.kept (.resetLine s l) (·.resetLine l) (·.resetLine id)
  | held l _ => exact hs.works (.holdLine s l) (hs.send.holdLine l)
  | resumed l hMode => exact hs.works (.resumeLine s l) (hs.send.resumeLine (hs.send_ne_off hMode))
  | opened i priority _ => exact hs.lines (by simp)
  | appended h st cs => exact hs.lines (by simp)
  | appendedCells h st cs => exact hs.lines (by simp)
  | submitted h st ls _ _ =>
    have hCompleted : (s.modStory h fun st => st.completed s.stamp).SidesLawful := hs.lines (by simp)
    exact (hCompleted.works (.tryLines ..) (hCompleted.send.tryLines h st.priority (.port p) ls)).lines (by simp)
  | withdrawn h st ls _ => exact (hs.works (.withdrawLines ..) (hs.send.withdrawLines h ls)).lines (by simp)
  | retained h st _ => exact hs.lines (by simp)
  | released h st _ _ => exact hs.lines (by simp)
  | discarded h st _ _ =>
    refine hs.lines (freeStory_lines _ _ fun t => ?_)
    split <;> simp

/-! ## Rows -/

theorem Kept.setCurrent (s : State) (c : ChannelNo) (i : Int) (l : LineNo) :
    ((s.setCurrent c i).line l).record = (s.line l).record := by
  unfold State.setCurrent
  dsimp only
  split
  · rw [(Kept.wakeConverter _).record, (Kept.feedFilter ..).record]
    by_cases hl : l = channelLine c <;> simp [hl]
  · by_cases hl : l = channelLine c <;> simp [hl]

theorem State.SidesLawful.setCurrent {s : State} (h : s.SidesLawful) (c : ChannelNo) (i : Int) :
    (s.setCurrent c i).SidesLawful := by
  refine .of_record (Kept.setCurrent s c i) ?_ ?_ <;> unfold State.setCurrent <;> dsimp only <;> split
  · exact ((h.send.modLine_same rfl rfl).feedFilter ..).wakeConverter
  · exact h.send.modLine_same rfl rfl
  · exact ((h.receive.modLine_same rfl rfl).feedFilter ..).wakeConverter
  · exact h.receive.modLine_same rfl rfl

theorem LineEffect.sides {s t : State} (hs : s.SidesLawful) (h : LineEffect s t) : t.SidesLawful := by
  cases h with
  | current c i => exact hs.setCurrent c i
  | change l => exact hs.kept (.completeChange s l) (·.completeChange l) (·.completeChange l)
  | conversion => exact hs.kept (.endConversion s) (·.endConversion) (·.endConversion)
  | startCheck l => exact hs.kept (.checkStart s l) (·.modRx l _) (·.checkStart l)
  | element l hCount => exact hs.kept (.sampleElement s l) (·.modRx l _) (·.sampleElement hCount)
  | stop l => exact hs.kept (.sampleStop s l) (·.sampleStop l) (·.sampleStop l)
  | space l hCount =>
    exact hs.kept (.openLine s l) (·.openLine l) (·.openLine fun hDisabled => hCount ((hs l).2.space (.inl hDisabled)))
  | idleGap l => exact hs.works (.idleGapOver s l) (hs.send.idleGapOver l)
  | frameEnd l => exact hs.kept (.endFrame s l) (·.endFrame l) (·.endFrame l)
  | key l hFrame =>
    have hOn : (s.line l).send.state ≠ .off := fun hOff => hFrame (by rw [(hs l).1.removed hOff]; rfl)
    refine hs.kept (.after (.wakeConverter _) (Works.modSend ..).kept) (fun h => ?_)
      fun h => (h.works (.modSend ..)).wakeConverter
    refine (h.modSend_same hOn ?_ ?_ ?_ ?_ ?_ ?_).wakeConverter <;> unfold SendSide.nextElement <;> split <;>
      simp
  | startDelay l => exact hs.works (.startDelayOver s l) (hs.send.startDelayOver l)
  | stopDelay l hIdle hTimer => exact hs.works (.modSend s l _) (hs.send.stopDelayOver hIdle hTimer)
  | guard l => exact hs.works (.guardOver s l) (hs.send.guardOver l)

theorem CommandEffect.sides {p : Port} {s t : State} (hs : s.SidesLawful) (h : CommandEffect p s t) : t.SidesLawful := by
  obtain h | h := h
  · exact hs.lines h.apart.lines
  · exact h.sides hs

theorem RowEffect.sides {s t : State} (hs : s.SidesLawful) (h : RowEffect s t) : t.SidesLawful := by
  cases h with
  | still => exact hs
  | tone timer _ => exact hs
  | gap => exact hs
  | line h => exact h.sides hs
  | link h =>
    obtain h | ⟨p, u, v, hBefore, -, hCommand, hAfter⟩ := h.apart_or_command
    · exact hs.lines h.lines
    · exact (hCommand.sides (hs.lines hBefore.lines)).lines hAfter.lines

/-! ## Power-on -/

theorem powerOnLine_sendLawful : powerOnLine.SendLawful :=
  ⟨by simp [powerOnLine, offSendSide, SendSide.caused], by decide, fun _ => rfl, fun _ => rfl, by decide, by decide, by decide⟩

theorem powerOnLine_receiveLawful : powerOnLine.ReceiveLawful :=
  ⟨by decide, by decide, by decide, ⟨fun _ hChar => (nomatch hChar), by decide, by decide⟩⟩

/-- The currents on the pins are no part of the laws. -/
theorem poweredOn_sides (s : State) : s.poweredOn.SidesLawful := fun l => by
  rw [poweredOn_line]
  exact ⟨(Line.sendLawful_iff _).mpr (((Line.sendLawful_iff _).mp powerOnLine_sendLawful).congr rfl rfl rfl),
    (Line.receiveLawful_iff _).mpr (((Line.receiveLawful_iff _).mp powerOnLine_receiveLawful).congr rfl rfl)⟩

/-- Settles O57: time, queue, POWER_ON and every effect of a row keep the laws of both sides. -/
theorem everyStepKeepsTheLineLaws : Obligations.EveryStepKeepsTheLineLaws := fun _ _ hs hStep =>
  step_keeps (P := State.SidesLawful) (fun _ _ h => h) (fun s d h => h.lines (advanceTo_lines s d))
    (fun s _ => poweredOn_sides s) (fun _ _ h e => e.sides h) hs hStep

end Sys2Proof.Machine
end

section
/-! SUPPORT. Every step keeps the laws of the table slots and of both desk ports (R6, R7, R12, R168 to R170, R175, R176); the
state after power-on is under all the laws. -/

namespace Sys2Proof.Machine

/-- The laws of a port's link and of its silence. -/
def DeskPort.Ok (q : DeskPort) : Prop := q.LinkLawful ∧ q.SilenceLawful

/-- The laws of the slots and of both ports. -/
def State.TablesAndPorts (s : State) : Prop := s.TablesLawful ∧ ∀ p, (s.port p).Ok

/-! ## One port -/

namespace DeskPort.Ok

variable {q r : DeskPort}

/-- The laws look at the link receiver, the interval and the silence alone. -/
theorem congr (h : q.Ok) (hLink : r.link = q.link) (hRate : r.rate = q.rate) (hReceived : r.received = q.received)
    (hByte : r.byteStart = q.byteStart) (hGap : r.gapFrom = q.gapFrom) (hInterval : r.interval = q.interval)
    (hSilence : r.silence = q.silence) (hTimer : r.silenceTimer = q.silenceTimer) : r.Ok := by
  obtain ⟨hl, hs⟩ := h
  refine ⟨⟨?_, ?_, ?_⟩, ⟨?_, ?_⟩⟩
  · rw [hLink, hReceived, hByte, hGap]; exact hl.hunting
  · rw [hLink, hReceived, hByte, hGap, hRate]; exact hl.inFrame
  · rw [hRate]; exact hl.rate
  · rw [hSilence, hInterval]; exact hs.untimed
  · rw [hSilence, hTimer]; exact hs.timer

/-- A change of the silence keeps the link's law. -/
theorem silent (h : q.Ok) (silence : Silence) (timer : Option Timer) (hUntimed : silence = .untimed ↔ q.interval = 0)
    (hTimer : silence = .active ↔ timer.isSome) : DeskPort.Ok { q with silence := silence, silenceTimer := timer } :=
  ⟨⟨h.1.hunting, h.1.inFrame, h.1.rate⟩, ⟨hUntimed, hTimer⟩⟩

theorem abandonFrame (h : q.Ok) (tick : Nat) : (q.abandonFrame tick).Ok :=
  ⟨⟨fun _ => ⟨rfl, rfl, rfl⟩, nofun, h.1.rate⟩, ⟨h.2.untimed, h.2.timer⟩⟩

theorem startFrame (h : q.Ok) {run : Nat} (sample : Nat) (hMin : Config.minRun ≤ run) (hMax : run ≤ Config.maxRun) :
    (q.startFrame run sample).Ok := by
  refine ⟨⟨nofun, fun _ => ⟨rfl, by simp [DeskPort.startFrame], by simp [DeskPort.startFrame]⟩, fun r hRate => ?_⟩,
    ⟨h.2.untimed, h.2.timer⟩⟩
  cases hRate
  exact ⟨hMin, hMax⟩

theorem startByte (h : q.Ok) (edge : Nat) : (q.startByte edge).Ok := by
  unfold DeskPort.startByte
  split
  · rename_i g hLink hGap
    obtain ⟨hRate, hReceived, -⟩ := h.1.inFrame hLink
    split
    · exact h
    · split
      · exact ⟨⟨fun hHunting => absurd (hLink.symm.trans hHunting) (by decide), fun _ => ⟨hRate, hReceived, by simp⟩,
          h.1.rate⟩, ⟨h.2.untimed, h.2.timer⟩⟩
      · exact h.abandonFrame _
  · exact h

theorem takeByte (h : q.Ok) (hLink : q.link = .inFrame) (x : Byte) (stop : Level) (sample : Nat) :
    (q.takeByte x stop sample).Ok := by
  unfold DeskPort.takeByte
  split
  · exact h.abandonFrame sample
  · split
    · exact h.abandonFrame sample
    · exact ⟨⟨fun hHunting => absurd (hLink.symm.trans hHunting) (by decide),
        fun _ => ⟨(h.1.inFrame hLink).1, by simp, by simp⟩, h.1.rate⟩, ⟨h.2.untimed, h.2.timer⟩⟩

end DeskPort.Ok

/-! ## The part -/

namespace State.TablesAndPorts

variable {s t : State}

/-- Inner operations leave the slots, and of the ports all but the notices. -/
theorem shared (h : s.TablesAndPorts) (hShared : Shared s t) : t.TablesAndPorts := by
  obtain ⟨hTables, hPorts⟩ := h
  refine ⟨⟨by rw [hShared.tables]; exact hTables.fixed, by rw [hShared.tables]; exact hTables.valid⟩, fun p => ?_⟩
  obtain ⟨ns, o, hPort⟩ := hShared.port p
  rw [hPort]
  exact (hPorts p).congr rfl rfl rfl rfl rfl rfl rfl rfl

theorem same (h : s.TablesAndPorts) (hTables : t.tables = s.tables) (hPorts : ∀ p, t.port p = s.port p) :
    t.TablesAndPorts :=
  ⟨⟨by rw [hTables]; exact h.1.fixed, by rw [hTables]; exact h.1.valid⟩, fun p => by rw [hPorts]; exact h.2 p⟩

theorem modPort (h : s.TablesAndPorts) (p : Port) {f : DeskPort → DeskPort} (hf : (f (s.port p)).Ok) :
    (s.modPort p f).TablesAndPorts := by
  refine ⟨⟨by rw [modPort_tables]; exact h.1.fixed, by rw [modPort_tables]; exact h.1.valid⟩, fun r => ?_⟩
  rw [port_modPort]
  split
  · exact hf
  · exact h.2 r

theorem modRoom (h : s.TablesAndPorts) (f : Room → Room) : (s.modRoom f).TablesAndPorts :=
  h.same rfl fun p => by simp

theorem postBoth (h : s.TablesAndPorts) (n : Notice) : (s.postBoth n).TablesAndPorts :=
  h.shared (Works.postBoth s n).kept.toShared

theorem judgeRoom (h : s.TablesAndPorts) : s.judgeRoom.TablesAndPorts := by
  unfold State.judgeRoom
  split
  · exact (h.modRoom _).postBoth _
  · exact h

theorem hearFrame (h : s.TablesAndPorts) (p : Port) : (s.hearFrame p).TablesAndPorts := by
  have hActive : (s.port p).silence ≠ .untimed →
      DeskPort.Ok { s.port p with silence := .active, silenceTimer := some (s.timerS (s.port p).interval) } :=
    fun hTimed => (h.2 p).silent _ _ ⟨nofun, fun hZero => absurd ((h.2 p).2.untimed.mpr hZero) hTimed⟩ (by simp)
  unfold State.hearFrame
  split
  · exact h
  · rename_i hSilence
    refine h.modPort p ?_
    have hKept := hActive (by rw [hSilence]; decide)
    rwa [← hSilence] at hKept
  · rename_i hSilence
    exact (h.modPort p (f := fun q => { q with silence := .active, silenceTimer := some (s.timerS q.interval) })
      (hActive (by rw [hSilence]; decide))).judgeRoom

end State.TablesAndPorts

theorem SettingEffect.tablesAndPorts {p : Port} {s t : State} (hs : s.TablesAndPorts) (h : SettingEffect p s t) :
    t.TablesAndPorts := by
  have given : ∀ interest mask interval, (s.withSettings p interest mask interval).TablesAndPorts := by
    intro interest mask interval
    obtain ⟨hLink, -⟩ := hs.2 p
    refine hs.modPort p ⟨⟨hLink.hunting, hLink.inFrame, hLink.rate⟩, ⟨?_, ?_⟩⟩ <;> dsimp only <;> split <;> simp_all
  cases h with
  | nothing => exact hs
  | clock c => exact hs.modRoom _
  | settings i m n => exact given i m n
  | settingsJudged i m n => exact (given i m n).judgeRoom
  | limits reserve mark =>
    have hLimits : (s.modStore fun x => { x with deskReserve := reserve, reclaimMark := mark }).TablesAndPorts :=
      hs.same rfl fun p => by simp
    exact hLimits.shared (Works.after (.judgeExhausted _) (.judgePool _)).kept.toShared
  | options o => exact hs.modRoom _
  | attended => exact (hs.modRoom _).postBoth _
  | fetched n => exact hs.modPort p ((hs.2 p).congr rfl rfl rfl rfl rfl rfl rfl rfl)
  | tableLoaded k table hSlot hValid =>
    refine ⟨⟨?_, fun j => ?_⟩, fun p => by cases p; exacts [hs.2 .a, hs.2 .b]⟩
    · have hOther : k.val ≠ 0 := fun hZero => hSlot (Fin.ext hZero)
      have hFixed := hs.1.fixed
      simp only [Vector.get_eq_getElem] at hFixed ⊢
      simpa [hOther] using hFixed
    · have hOld := hs.1.valid j
      simp only [Vector.get_eq_getElem, Vector.getElem_set] at hOld ⊢
      split
      · exact hValid
      · exact hOld

theorem CommandEffect.tablesAndPorts {p : Port} {s t : State} (hs : s.TablesAndPorts) (h : CommandEffect p s t) :
    t.TablesAndPorts := by
  obtain h | h := h
  · exact h.tablesAndPorts hs
  · exact hs.shared h.shared

namespace State.TablesAndPorts

variable {s : State}

theorem takeFrame (h : s.TablesAndPorts) (p : Port) (g : GoodFrame) :
    (s.takeFrame p g (runCommand p g)).TablesAndPorts := by
  have hRun := (runCommand_effect p g s).tablesAndPorts h
  unfold State.takeFrame
  exact hRun.modPort p ((hRun.2 p).congr rfl rfl rfl rfl rfl rfl rfl rfl)

theorem offerFrame (h : s.TablesAndPorts) (p : Port) (g : GoodFrame) :
    (s.offerFrame p g (runCommand p g)).TablesAndPorts := by
  unfold State.offerFrame
  split
  · exact h
  · split
    · exact h.modPort p ((h.2 p).congr rfl rfl rfl rfl rfl rfl rfl rfl)
    · exact h.takeFrame p g

end State.TablesAndPorts

theorem LinkEffect.tablesAndPorts {s t : State} (hs : s.TablesAndPorts) (h : LinkEffect s t) : t.TablesAndPorts := by
  cases h with
  | frameStart p run sample hMin hMax => exact hs.modPort p ((hs.2 p).startFrame sample hMin hMax)
  | byteStart p edge => exact hs.modPort p ((hs.2 p).startByte edge)
  | byteStop p x stop sample hLink => exact hs.modPort p ((hs.2 p).takeByte hLink x stop sample)
  | frameComplete p check stop sample =>
    have hHunting := hs.modPort p (f := fun q => q.abandonFrame sample) ((hs.2 p).abandonFrame sample)
    unfold State.completeFrame
    dsimp only
    split
    · exact hHunting
    · split
      · exact (hHunting.hearFrame p).offerFrame p _
      · exact hHunting
  | gapTimer p tick => exact hs.modPort p ((hs.2 p).abandonFrame tick)
  | responseEnd p =>
    have hIdle := hs.modPort p (f := fun q => { q with response := none, held := none })
      ((hs.2 p).congr rfl rfl rfl rfl rfl rfl rfl rfl)
    unfold State.endResponse
    dsimp only
    split
    · exact hIdle
    · exact hIdle.takeFrame p _
  | silence p hActive =>
    have hTimed : (s.port p).interval ≠ 0 := fun hZero => by
      have := (hs.2 p).2.untimed.mpr hZero
      rw [hActive] at this
      cases this
    have hSilent := hs.modPort p (f := fun q => { q with silence := .silent, silenceTimer := none })
      ((hs.2 p).silent _ _ ⟨nofun, fun hZero => absurd hZero hTimed⟩ (by simp))
    exact (hSilent.shared (Works.post ..).kept.toShared).judgeRoom
  | frame p g => exact hs.offerFrame p g

theorem RowEffect.tablesAndPorts {s t : State} (hs : s.TablesAndPorts) (h : RowEffect s t) : t.TablesAndPorts := by
  cases h with
  | still => exact hs
  | tone timer _ => exact hs.modRoom _
  | gap => exact hs.modRoom _
  | line h => exact hs.shared h.shared
  | link h => exact h.tablesAndPorts hs

/-! ## Power-on -/

theorem powerOnPort_isLawful : powerOnPort.Ok :=
  ⟨⟨by decide, by decide, fun _ hRate => nomatch hRate⟩, ⟨by decide, by decide⟩⟩

/-- Every slot holds the fixed table, which is valid. -/
theorem powerOnTables_valid (k : Fin 4) : (State.reset.tables.get k).valid = true := by
  have hFixed : State.reset.tables.get k = fixedTable := by simp [State.reset, Vector.get_eq_getElem]
  rw [hFixed]
  decide +kernel

theorem reset_tablesLawful : State.reset.TablesLawful := ⟨rfl, powerOnTables_valid⟩

theorem poweredOn_tablesAndPorts (s : State) : s.poweredOn.TablesAndPorts :=
  ⟨⟨rfl, powerOnTables_valid⟩, fun p => by rw [poweredOn_port]; exact powerOnPort_isLawful⟩

/-- Settles O59: time, queue, POWER_ON and every effect of a row keep the laws of slots and ports. -/
theorem everyStepKeepsTheTableAndPortLaws : Obligations.EveryStepKeepsTheTableAndPortLaws := fun _ _ hs hStep =>
  step_keeps (P := State.TablesAndPorts) (fun _ _ h => h.same rfl fun p => by cases p <;> rfl)
    (fun s d h => h.same (advanceTo_tables s d) (advanceTo_port s d)) (fun s _ => poweredOn_tablesAndPorts s)
    (fun _ _ h e => e.tablesAndPorts h) hs hStep

theorem reset_storiesLawful : State.reset.StoriesLawful where
  story := fun i st hStory => by simp at hStory
  once := fun l => by rw [reset_line]; exact List.nodup_nil
  pending := fun l h => by
    rw [reset_line]
    refine ⟨fun hHeld => (nomatch hHeld), fun ⟨st, hStory, _⟩ => ?_⟩
    obtain ⟨-, hRecord⟩ := storyOf_eq_some hStory
    simp at hRecord
  sendless := fun l _ => by rw [reset_line]; rfl
  assembling := fun l h hOpen => by
    rw [reset_line] at hOpen
    cases hOpen
  alone := fun l m h hOpen => by
    rw [reset_line] at hOpen
    cases hOpen

/-- Settles O60, law by law. -/
theorem powerOnStateIsUnderTheLaws : Obligations.PowerOnStateIsUnderTheLaws :=
  ⟨reset_isLawful, fun l => by rw [reset_line]; exact ⟨powerOnLine_sendLawful, powerOnLine_receiveLawful⟩,
    reset_storiesLawful, reset_tablesLawful, fun p => by rw [reset_port]; exact powerOnPort_isLawful⟩

end Sys2Proof.Machine
end

section
/-! SUPPORT. What the send side does to the stories of its line, said once (chapters 7 and 9): it moves them among queue, current
transmission and stack, and it ends the current transmission. -/

namespace Sys2Proof.Machine

/-! ## The stories a distribution unit holds -/

/-- The story of the current transmission, if any. -/
def Distribution.currentHandles (d : Distribution) : List Handle :=
  match d.current with
  | none => []
  | some u => [u.entry.handle]

theorem Distribution.handles_eq (d : Distribution) :
    d.handles = d.currentHandles ++ d.stack.map DistEntry.handle ++ d.queue.map DistEntry.handle := by
  unfold Distribution.handles Distribution.inAbandonOrder Distribution.currentHandles
  rw [List.map_append, List.map_append]
  split <;> simp_all

theorem Distribution.handles_of_current {d : Distribution} {u : Transmission} (h : d.current = some u) :
    d.handles = u.entry.handle :: Distribution.handles { d with current := none } := by
  simp [handles_eq, currentHandles, h]

/-- A current transmission replaced by one of the same story. -/
theorem Distribution.handles_current {d : Distribution} {u v : Transmission} (h : d.current = some u)
    (hv : v.entry.handle = u.entry.handle) : Distribution.handles { d with current := some v } = d.handles := by
  simp [handles_eq, currentHandles, h, hv]

/-- The next-story choice moves one entry. -/
theorem Distribution.choose_handles {d e : Distribution} {resumed : Bool} (hNone : d.current = none)
    (hChoose : d.choose = some (e, resumed)) : e.handles.Perm d.handles := by
  have queued : ∀ (q : DistEntry) (qs : List DistEntry), d.queue = q :: qs →
      (Distribution.handles { d with queue := qs, current := some q.begin }).Perm d.handles := by
    intro q qs hQueue
    simp only [handles_eq, currentHandles, hNone, hQueue, DistEntry.begin, List.map_cons, List.nil_append, List.cons_append]
    exact List.perm_middle.symm
  have stacked : ∀ (q : DistEntry) (qs : List DistEntry), d.stack = q :: qs →
      (Distribution.handles { d with stack := qs, current := some q.resumed }).Perm d.handles := by
    intro q qs hStack
    simp [handles_eq, currentHandles, hNone, hStack, DistEntry.resumed]
  unfold Distribution.choose at hChoose
  split at hChoose
  · cases hChoose
  · cases hChoose; exact queued _ _ (by assumption)
  · cases hChoose; exact stacked _ _ (by assumption)
  · split at hChoose <;> cases hChoose
    · exact queued _ _ (by assumption)
    · exact stacked _ _ (by assumption)

/-! ## Forming keeps the story -/

theorem DistEntry.count_handle (d : DistEntry) (counted : Bool) : (d.count counted).handle = d.handle := by
  unfold DistEntry.count
  split <;> rfl

theorem Transmission.advance_handle (u : Transmission) (r : Treated) (length : Nat) :
    (u.advance r length).entry.handle = u.entry.handle := by
  unfold Transmission.advance
  dsimp only
  generalize (if r.taken = true then 1 else 0) = taken
  split <;> simp [Transmission.beginPostamble, DistEntry.count_handle]

/-- The transmission a round of forming leaves. -/
def Forming.transmission : Forming → Transmission
  | .formed u _ => u
  | .spent u _ => u

theorem Encoder.formRound_handle (e : Encoder) (t : Table) (c : SendCopy) (char : Nat → Byte) (length : Nat)
    (u : Transmission) : (e.formRound t c char length u).transmission.entry.handle = u.entry.handle := by
  unfold Encoder.formRound
  dsimp only
  repeat' split
  all_goals simp [Forming.transmission, DistEntry.count_handle, Transmission.advance_handle, Transmission.beginPostamble]

theorem Encoder.form_handle (e : Encoder) (t : Table) (c : SendCopy) (char : Nat → Byte) (length : Nat)
    (u : Transmission) (rounds : Nat) : (e.form t c char length u rounds).transmission.entry.handle = u.entry.handle := by
  induction rounds generalizing e u with
  | zero => rfl
  | succ n ih =>
    have hRound := e.formRound_handle t c char length u
    unfold Encoder.form
    split
    · rename_i v f h
      rw [h] at hRound
      exact hRound
    · rename_i v f h
      rw [h] at hRound
      split
      · rw [ih]; exact hRound
      · exact hRound

/-! ## Changes that the laws of stories do not see -/

/-- Records, the stories each line holds, the lines' send sides and open stories are left as they are. -/
structure Inert (s t : State) : Prop where
  records : t.store.records = s.store.records
  handles : ∀ l, (t.line l).dist.handles.Perm (s.line l).dist.handles
  mode : ∀ l, (t.line l).record.mode.hasSend = (s.line l).record.mode.hasSend
  story : ∀ l, (t.line l).asm.state.story = (s.line l).asm.state.story

namespace Inert

theorem refl (s : State) : Inert s s := ⟨rfl, fun _ => .refl _, fun _ => rfl, fun _ => rfl⟩

theorem trans {s t u : State} (a : Inert s t) (b : Inert t u) : Inert s u :=
  ⟨b.records.trans a.records, fun l => (b.handles l).trans (a.handles l), fun l => (b.mode l).trans (a.mode l),
    fun l => (b.story l).trans (a.story l)⟩

theorem modLine {s : State} {l : LineNo} {f : Line → Line} (hd : (f (s.line l)).dist.handles.Perm (s.line l).dist.handles)
    (hm : (f (s.line l)).record.mode.hasSend = (s.line l).record.mode.hasSend)
    (ha : (f (s.line l)).asm.state.story = (s.line l).asm.state.story) : Inert s (s.modLine l f) := by
  refine ⟨rfl, fun m => ?_, fun m => ?_, fun m => ?_⟩ <;> rw [line_modLine] <;> split
  · subst m; exact hd
  · exact .refl _
  · subst m; exact hm
  · rfl
  · subst m; exact ha
  · rfl

theorem modSend (s : State) (l : LineNo) (f : SendSide → SendSide) : Inert s (s.modSend l f) := modLine (.refl _) rfl rfl

theorem modEnc (s : State) (l : LineNo) (f : Encoder → Encoder) : Inert s (s.modEnc l f) := modLine (.refl _) rfl rfl

theorem modRx (s : State) (l : LineNo) (f : Receiver → Receiver) : Inert s (s.modRx l f) := modLine (.refl _) rfl rfl

/-- Changes that leave lines and records alone. -/
theorem apart {s t : State} (hl : t.lines = s.lines) (hr : t.store.records = s.store.records) : Inert s t :=
  ⟨hr, fun l => by rw [line_of_lines hl], fun l => by rw [line_of_lines hl], fun l => by rw [line_of_lines hl]⟩

theorem postLine (s : State) (l : LineNo) (side : Side) (r : LineReport) : Inert s (s.postLine l side r) :=
  apart (by simp) (by simp)

theorem stories {s t : State} (h : Inert s t) {x : Slack} (hs : s.StoriesOk x) : t.StoriesOk x :=
  hs.same h.records h.handles h.mode h.story

end Inert

/-! ## The operations of one send side -/

/-- All that the operations of a line's send side do to stories and to what lines hold. -/
inductive Sends (l : LineNo) : State → State → Prop
  | inert {s t : State} : Inert s t → Sends l s t
  | ended {s : State} (u : Transmission) (o : DistOutcome) :
      (s.line l).dist.current = some u → Sends l s ((s.modLine l Line.dropCurrent).departs l u.entry o)
  | trans {s t u : State} : Sends l s t → Sends l t u → Sends l s u

namespace Sends

variable {l : LineNo}

theorem refl (s : State) : Sends l s s := .inert (.refl s)

/-- The last operation of a chain first. -/
theorem after {s t u : State} (b : Sends l t u) (a : Sends l s t) : Sends l s u := a.trans b

theorem modSend (s : State) (f : SendSide → SendSide) : Sends l s (s.modSend l f) := .inert (.modSend s l f)

theorem modEnc (s : State) (f : Encoder → Encoder) : Sends l s (s.modEnc l f) := .inert (.modEnc s l f)

theorem loadStopDelay (s : State) : Sends l s (s.loadStopDelay l) := by
  unfold State.loadStopDelay
  split
  · exact modSend ..
  · exact refl s

theorem enterIdle (s : State) : Sends l s (s.enterIdle l) := after (loadStopDelay _) (modSend ..)

theorem workRunsOut (s : State) : Sends l s (s.workRunsOut l) := by
  unfold State.workRunsOut
  split
  · exact enterIdle s
  all_goals exact refl s

theorem chooseNext (s : State) : Sends l s (s.chooseNext l) := by
  unfold State.chooseNext
  split
  · exact refl s
  · rename_i hNone
    split
    · exact refl s
    · exact .inert (.modLine (Distribution.choose_handles (by simpa using hNone) (by assumption)) rfl rfl)

theorem takeHold (s : State) : Sends l s (s.takeHold l) := by
  unfold State.takeHold
  split
  · exact modSend ..
  · exact refl s

theorem breakLine (s : State) : Sends l s (s.modLine l Line.broken) := by
  refine .inert (.modLine ?_ ?_ ?_) <;> unfold Line.broken <;> split
  · exact .refl _
  · rename_i u hCurrent
    exact .of_eq (Distribution.handles_current hCurrent rfl)
  all_goals rfl

theorem takeBreakIn (s : State) : Sends l s (s.takeBreakIn l) := by
  unfold State.takeBreakIn
  split
  · exact modSend ..
  · exact after (.inert (.postLine ..)) (after (modSend ..) (breakLine s))

theorem beginFrame (s : State) (k : Code) (c : SendCopy) : Sends l s (s.beginFrame l k c) :=
  after (loadStopDelay _) (modSend ..)

/-- The current transmission replaced by one of the same story. -/
theorem replace {s : State} {u v : Transmission} (hCurrent : (s.line l).dist.current = some u)
    (hv : v.entry.handle = u.entry.handle) (f : Encoder → Encoder) :
    Sends l s (s.modLine l fun x => { x with dist := { x.dist with current := some v }, enc := f x.enc }) :=
  .inert (.modLine (.of_eq (Distribution.handles_current hCurrent hv)) rfl rfl)

theorem suspend {s : State} {u v : Transmission} (hCurrent : (s.line l).dist.current = some u)
    (hv : v.entry.handle = u.entry.handle) : Sends l s (s.modLine l fun x => x.suspend v) := by
  refine .inert (.modLine (.of_eq ?_) rfl rfl)
  simp [Line.suspend, Distribution.handles_eq, Distribution.currentHandles, hCurrent, hv]

theorem printLineEnd (s : State) : Sends l s (s.printLineEnd l) := by
  unfold State.printLineEnd
  split
  · exact refl s
  · rename_i v hCurrent
    dsimp only
    split
    · refine after (takeHold _) (replace hCurrent ?_ fun e => { e with progress := none })
      rfl
    · split
      · have hSuspended : Sends l s _ := after (takeHold _) (suspend hCurrent (v := { v with
          entry := { v.entry with lineStart := v.entry.resumeOffset } }) rfl)
        split
        · exact hSuspended
        · exact after (chooseNext _) hSuspended
      · refine after (takeHold _) (replace hCurrent ?_ id)
        rfl

theorem endTransmission (s : State) : Sends l s (s.endTransmission l) := by
  unfold State.endTransmission
  split
  · exact refl s
  · rename_i u hCurrent
    dsimp only
    generalize (if u.withdrawn = true then DistOutcome.withdrawn else DistOutcome.completed) = o
    have hEnded := Sends.ended u o hCurrent
    split
    · exact after (takeHold _) hEnded
    · split
      · exact after (chooseNext _) hEnded
      · exact after (workRunsOut _) hEnded

theorem handCode (s : State) (c : SendCopy) : Sends l s (s.handCode l c) := by
  unfold State.handCode
  split
  · exact refl s
  · rename_i k rest _
    dsimp only
    have hBegun : Sends l s ((s.modEnc l fun e => { e with group := rest }).beginFrame l k c) :=
      after (beginFrame ..) (modEnc ..)
    split
    · split
      · exact after (modEnc ..) hBegun
      · exact after (printLineEnd _) (after (modEnc ..) hBegun)
      · exact after (endTransmission _) (after (modEnc ..) hBegun)
    · exact hBegun

theorem request (s : State) (rounds : Nat) : Sends l s (s.request l rounds) := by
  induction rounds generalizing s with
  | zero => exact refl s
  | succ n ih =>
    unfold State.request
    split
    · rename_i u c hCurrent _
      split
      · have hForm := (s.line l).enc.form_handle (s.tables.get c.slot) c (s.textAt u.entry.handle)
          (s.lengthOf u.entry.handle) u formRounds
        split
        · rename_i v e h
          rw [h] at hForm
          exact after (handCode _ c) (replace hCurrent hForm fun _ => e)
        · rename_i v e h
          rw [h] at hForm
          have hEnded : Sends l s _ := after (endTransmission _) (replace hCurrent hForm fun _ => e)
          dsimp only
          split
          · exact after (ih _) hEnded
          · exact hEnded
      · exact handCode s c
    · exact refl s

theorem enterSending (s : State) : Sends l s (s.enterSending l) := by
  unfold State.enterSending
  dsimp only
  have hChosen : Sends l s ((s.modSend l fun x => { x with state := .sending }).chooseNext l) :=
    after (chooseNext _) (modSend ..)
  split
  · exact hChosen
  · exact after (request ..) hChosen

theorem startDelayOver (s : State) : Sends l s (s.startDelayOver l) := by
  unfold State.startDelayOver
  dsimp only
  split
  · split
    · exact after (enterSending _) (modSend ..)
    · exact after (enterIdle _) (modSend ..)
  all_goals exact modSend ..

theorem enterStarting (s : State) : Sends l s (s.enterStarting l) := by
  unfold State.enterStarting
  dsimp only
  split <;> split
  · exact after (startDelayOver _) (after (takeBreakIn _) (modSend ..))
  · exact after (startDelayOver _) (modSend ..)
  · exact after (takeBreakIn _) (modSend ..)
  · exact modSend ..

theorem workArrives (s : State) : Sends l s (s.workArrives l) := by
  unfold State.workArrives
  split
  · exact enterStarting s
  · exact after (enterSending _) (modSend ..)
  all_goals exact refl s

theorem leaveHalted (s : State) : Sends l s (s.leaveHalted l) := by
  unfold State.leaveHalted
  dsimp only
  split
  · split
    · split
      · split
        · split
          · exact after (takeBreakIn _) (modSend ..)
          · exact modSend ..
        · exact enterIdle s
      · split
        · exact enterSending s
        · exact enterIdle s
    · split
      · exact enterStarting s
      · exact modSend ..
  · split
    · exact enterSending s
    · exact modSend ..

theorem leaveIfFree (s : State) : Sends l s (s.leaveIfFree l) := by
  unfold State.leaveIfFree
  split
  · exact leaveHalted s
  · exact refl s

theorem dropBreakIn (s : State) : Sends l s (s.dropBreakIn l) := after (.inert (.postLine ..)) (modSend ..)

theorem holdLine (s : State) : Sends l s (s.holdLine l) := by
  unfold State.holdLine
  split
  case h_6 => exact refl s
  all_goals exact modSend ..

theorem resumeLine (s : State) : Sends l s (s.resumeLine l) := by
  unfold State.resumeLine
  dsimp only
  split
  · exact after (leaveIfFree _) (after (dropBreakIn _) (modSend ..))
  · exact after (leaveIfFree _) (modSend ..)

theorem motorTurnedOn (s : State) : Sends l s (s.motorTurnedOn l) := by
  unfold State.motorTurnedOn
  split
  · exact after (loadStopDelay _) (modSend ..)
  · exact modSend ..
  · exact modSend ..
  all_goals exact refl s

theorem motorTurnedOff (s : State) : Sends l s (s.motorTurnedOff l) := by
  unfold State.motorTurnedOff
  dsimp only
  split
  · exact after (modSend ..) (modSend ..)
  · split
    · exact after (enterSending _) (modSend ..)
    · exact after (modSend ..) (modSend ..)
  · exact modSend ..
  · exact modSend ..
  · exact modSend ..
  · exact refl s

theorem changeMotorControl (s : State) (was now : Bool) : Sends l s (s.changeMotorControl l was now) := by
  unfold State.changeMotorControl
  split
  · exact refl s
  · split
    · exact motorTurnedOn s
    · exact motorTurnedOff s

theorem guardOver (s : State) : Sends l s (s.guardOver l) := by
  unfold State.guardOver
  dsimp only
  split
  · split
    · exact after (leaveIfFree _) (after (dropBreakIn _) (modSend ..))
    · exact modSend ..
  · exact modSend ..

theorem sendLoopChanged (s : State) (was now : LoopState) : Sends l s (s.sendLoopChanged l was now) := by
  unfold State.sendLoopChanged
  split
  · split
    · exact refl s
    · exact refl s
    all_goals exact takeBreakIn s
  · split
    · exact modSend ..
    · exact refl s

theorem searchConverter (s : State) : Sends l s s.searchConverter := by
  unfold State.searchConverter
  split <;> exact .inert (.apart rfl rfl)

theorem wakeConverter (s : State) : Sends l s s.wakeConverter := by
  unfold State.wakeConverter
  split
  · exact refl s
  · exact searchConverter s

theorem endFrame (s : State) : Sends l s (s.endFrame l) := by
  unfold State.endFrame
  dsimp only
  split
  · exact after (wakeConverter _) (after (request ..) (modSend ..))
  · exact after (wakeConverter _) (modSend ..)

end Sends

end Sys2Proof.Machine
end

section
/-! SUPPORT. The laws of stories and lines are kept by every operation of a send side, by submissions, withdrawals, abandonment
and offers (R91, R96, R114). -/

namespace Sys2Proof.Machine

/-! ## Line sets -/

@[simp] theorem lineIn_addLine (x : LineSet) (l m : LineNo) : lineIn (addLine x l) m = (lineIn x m || decide (m = l)) := by
  have hm : m.val < 16 := m.isLt
  simp [lineIn, addLine, lineBit, hm, Fin.ext_iff, eq_comm]

@[simp] theorem lineIn_dropLine (x : LineSet) (l m : LineNo) : lineIn (dropLine x l) m = (lineIn x m && !decide (m = l)) := by
  have hm : m.val < 16 := m.isLt
  simp [lineIn, dropLine, lineBit, hm, Fin.ext_iff, eq_comm]

/-- A line set with no line in it is empty. -/
theorem lineSet_ne_zero_iff (x : LineSet) : x ≠ 0 ↔ ∃ l, lineIn x l = true := by
  constructor
  · intro hne
    by_contra hNone
    refine hne (BitVec.eq_of_getLsbD_eq fun i hi => ?_)
    have hOut : lineIn x ⟨i, hi⟩ ≠ true := fun hIn => hNone ⟨_, hIn⟩
    simpa [lineIn] using hOut
  · rintro ⟨l, hIn⟩ rfl
    simp [lineIn] at hIn

/-! ## Records after a change of a story, and after a freeing test -/

theorem record_modStory (s : State) (h : Handle) (f : Story → Story) (i : Fin 256) :
    (s.modStory h f).record i =
      if i = h.index ∧ (s.record i).generation = h.generation then
        { generation := (s.record i).generation, story := (s.record i).story.map f }
      else s.record i := by
  by_cases hi : i = h.index
  · subst hi
    by_cases hGen : (s.record h.index).generation = h.generation
    · cases hStory : (s.record h.index).story with
      | none =>
        have hSame : s.modStory h f = s := by simp [State.modStory, State.storyOf, hGen, hStory]
        rw [hSame, if_pos ⟨rfl, hGen⟩]
        exact congrArg (StoryRecord.mk _) hStory
      | some st => simp [State.modStory, State.storyOf, hGen, hStory]
    · simp [State.modStory, State.storyOf, hGen]
  · rw [if_neg fun c => hi c.1]
    obtain hSame | ⟨st, -, hSet⟩ := modStory_cases s h f
    · rw [hSame]
    · rw [hSet, record_setRecord_ne _ _ _ _ hi]

theorem storyOf_modStory (s : State) (h : Handle) (f : Story → Story) (k : Handle) :
    (s.modStory h f).storyOf k = if k = h then (s.storyOf h).map f else s.storyOf k := by
  unfold State.storyOf
  rw [record_modStory]
  by_cases hk : k = h
  · subst hk
    by_cases hGen : (s.record k.index).generation = k.generation <;> simp [hGen]
  · rw [if_neg hk]
    split
    · rename_i hHit
      obtain ⟨hIndex, hGen⟩ := hHit
      have hOther : h.generation ≠ k.generation := fun e => hk (by cases k; cases h; simp_all)
      simp [hGen, hOther]
    · rfl

theorem records_ext {s t : State} (h : ∀ i, t.record i = s.record i) : t.store.records = s.store.records :=
  Vector.ext fun i hi => h ⟨i, hi⟩

/-- Two changes of one story are one. -/
theorem modStory_modStory_records (s : State) (h : Handle) (f g : Story → Story) :
    ((s.modStory h f).modStory h g).store.records = (s.modStory h (g ∘ f)).store.records := by
  refine records_ext fun i => ?_
  rw [record_modStory, record_modStory, record_modStory]
  by_cases hHit : i = h.index ∧ (s.record i).generation = h.generation
  · simp only [if_pos hHit, Option.map_map]
  · simp only [if_neg hHit]

theorem record_freeingTest (s : State) (i j : Fin 256) :
    (s.freeingTest i).record j =
      if j = i ∧ (s.record i).story.any Story.unretained = true then
        { generation := (s.record i).generation + 1, story := none }
      else s.record j := by
  unfold State.freeingTest
  split
  · rename_i hNone
    simp [hNone]
  · rename_i st hStory
    by_cases hFree : st.unretained = true
    · rw [if_pos hFree, record_set (freeStory_records s hStory (tell := id) fun _ => rfl)]
      simp [hStory, hFree]
    · simp [hStory, hFree]

/-- A story that is still retained is not freed. -/
theorem freeingTest_of_retained {s : State} {i : Fin 256} {st : Story} (h : (s.record i).story = some st)
    (hKept : st.unretained = false) : s.freeingTest i = s := by
  unfold State.freeingTest
  rw [h]
  simp [hKept]

/-- Laws about lists that are taken from lines whose records stay. -/
theorem modStory_records {s t : State} (e : t.store.records = s.store.records) (h : Handle) (f : Story → Story) :
    (t.modStory h f).store.records = (s.modStory h f).store.records := by
  refine records_ext fun i => ?_
  rw [record_modStory, record_modStory, record_of_records e]

/-! ## One story changed -/

namespace State.StoriesOk

variable {x y : Slack} {s t : State}

/-- A story changed, and lines with it: what has to be shown clause by clause. -/
theorem update (hs : s.StoriesOk x) {h : Handle} {st : Story} {f : Story → Story} (hNamed : s.storyOf h = some st)
    (hRecords : t.store.records = (s.modStory h f).store.records)
    (hStory : st.Ok (x.retained h.index) (x.cells h.index) → (f st).Ok (y.retained h.index) (y.cells h.index))
    (hRetained : ∀ j, j ≠ h.index → x.retained j → y.retained j) (hCells : ∀ j, j ≠ h.index → x.cells j → y.cells j)
    (hOnce : ∀ l, ((t.line l).dist.handles ++ y.held l).Nodup)
    (hPending : ∀ l k, k ∈ (t.line l).dist.handles ++ y.held l ↔
      if k = h then lineIn (f st).pending l = true else k ∈ (s.line l).dist.handles ++ x.held l)
    (hSendless : ∀ l, ¬y.mode l → (t.line l).record.mode.hasSend = false → (t.line l).dist.handles = [])
    (hOpen : ∀ l k, (t.line l).asm.state.story = some k →
      (s.line l).asm.state.story = some k ∧ (k = h → (f st).state = .assembling)) : t.StoriesOk y := by
  have hStoryOf : ∀ k, t.storyOf k = if k = h then some (f st) else s.storyOf k := fun k => by
    rw [storyOf_of_records hRecords, storyOf_modStory, hNamed]
    rfl
  obtain ⟨hGen, hRecord⟩ := storyOf_eq_some hNamed
  refine ⟨fun j z hz => ?_, hOnce, fun l k => ?_, hSendless, fun l k hk => ?_, fun l m k hl hm => ?_⟩
  · rw [record_of_records hRecords, record_modStory] at hz
    by_cases hj : j = h.index
    · subst hj
      rw [if_pos ⟨rfl, hGen⟩, hRecord] at hz
      cases hz
      exact hStory (hs.story _ _ hRecord)
    · rw [if_neg fun c => hj c.1] at hz
      exact (hs.story j z hz).weaken (hRetained j hj) (hCells j hj)
  · rw [hPending, hStoryOf]
    split
    · simp
    · exact hs.pending l k
  · obtain ⟨hOld, hAssembling⟩ := hOpen l k hk
    rw [hStoryOf]
    split
    · exact ⟨_, rfl, hAssembling (by assumption)⟩
    · exact hs.assembling l k hOld
  · exact hs.alone l m k (hOpen l k hl).1 (hOpen m k hm).1

/-- A handle that has left a line's lists leaves the story's pending set; its retention waits for the freeing test (R126). -/
theorem leavePending {l : LineNo} {d : Handle} {hh : List Handle} (hs : s.StoriesOk (x.hold l (d :: hh))) :
    (s.leavePending d l).StoriesOk ((x.hold l hh).retain d.index) := by
  have hOnce := hs.once l
  rw [Slack.hold_held] at hOnce
  obtain ⟨st, hNamed, hIn⟩ := (hs.pending l d).mp (by simp)
  refine hs.update (t := s.leavePending d l) hNamed rfl (fun k => ?_) (fun _ _ => .inl) (fun _ _ => id) (fun m => ?_) (fun m k => ?_)
    (fun m hm hMode => ?_) fun m k hk => ?_
  · exact ⟨k.holder, k.interest, k.closed, k.length, k.doubtful, k.cells,
      fun _ => k.pending ((lineSet_ne_zero_iff _).mpr ⟨l, hIn⟩), fun hWaits => absurd (.inr rfl) hWaits⟩
  · rw [line_of_lines (leavePending_lines ..)]
    by_cases hm : m = l
    · subst hm
      simp only [Slack.retain, Slack.hold_held]
      exact hOnce.sublist (.append_left (List.sublist_cons_self ..) _)
    · have := hs.once m
      rw [Slack.hold_held_ne _ _ hm] at this
      simpa [Slack.retain, Slack.hold_held_ne _ _ hm] using this
  · rw [line_of_lines (leavePending_lines ..)]
    have hLaw := hs.pending m k
    by_cases hm : m = l
    · subst hm
      simp only [Slack.retain, Slack.hold_held] at hLaw ⊢
      by_cases hk : k = d
      · subst hk
        simp only [if_true, lineIn_dropLine, decide_true, Bool.not_true, Bool.and_false]
        rw [List.nodup_append] at hOnce
        simp only [List.nodup_cons] at hOnce
        obtain ⟨-, ⟨hRest, -⟩, hApart⟩ := hOnce
        simp only [List.mem_append, reduceCtorEq, iff_false, not_or]
        exact ⟨fun hMem => hApart _ hMem _ (List.mem_cons_self ..) rfl, hRest⟩
      · simp [hk]
    · simp only [Slack.retain, Slack.hold_held_ne _ _ hm] at hLaw ⊢
      by_cases hk : k = d
      · subst hk
        rw [hLaw, hNamed]
        simp [hm]
      · simp [hk]
  · rw [line_of_lines (leavePending_lines ..)] at hMode ⊢
    exact hs.sendless m hm hMode
  · rw [line_of_lines (leavePending_lines ..)] at hk
    refine ⟨hk, fun e => ?_⟩
    subst e
    obtain ⟨z, hz, hState⟩ := hs.assembling m k hk
    rw [hNamed] at hz
    cases hz
    exact hState

/-- An entry that has left the line's lists departs (R126, R130). -/
theorem departs {l : LineNo} {d : DistEntry} {hh : List Handle} (hs : s.StoriesOk (x.hold l (d.handle :: hh)))
    (o : DistOutcome) : (s.departs l d o).StoriesOk (x.hold l hh) :=
  (hs.leavePending.postSubmitter _ _).freeingTest

/-- The current transmission dropped: its story waits to leave the pending set. -/
theorem dropCurrent (hs : s.StoriesOk x) {l : LineNo} (hHeld : x.held l = []) {u : Transmission}
    (hCurrent : (s.line l).dist.current = some u) :
    (s.modLine l Line.dropCurrent).StoriesOk (x.hold l [u.entry.handle]) := by
  have hHandles : (s.line l).dist.handles = u.entry.handle :: ((s.line l).dropCurrent).dist.handles :=
    Distribution.handles_of_current hCurrent
  have key : ∀ m, (((s.modLine l Line.dropCurrent).line m).dist.handles ++ (x.hold l [u.entry.handle]).held m).Perm
      ((s.line m).dist.handles ++ x.held m) := by
    intro m
    by_cases hm : m = l
    · subst hm
      rw [line_modLine, if_pos rfl, Slack.hold_held, hHandles, hHeld, List.append_nil]
      exact List.perm_append_singleton _ _
    · rw [line_modLine, if_neg hm, Slack.hold_held_ne _ _ hm]
  refine ⟨hs.story, fun m => (key m).nodup_iff.mpr (hs.once m), fun m k => (key m).mem_iff.trans (hs.pending m k),
    fun m hm hMode => ?_, fun m k hk => ?_, fun m n k hm hn => ?_⟩
  · by_cases e : m = l
    · subst e
      rw [line_modLine, if_pos rfl] at hMode ⊢
      have := hs.sendless m hm hMode
      rw [hHandles] at this
      cases this
    · rw [line_modLine, if_neg e] at hMode ⊢
      exact hs.sendless m hm hMode
  · refine hs.assembling m k ?_
    rw [line_modLine] at hk
    split at hk
    · subst m; exact hk
    · exact hk
  · have old : ∀ m, ((s.modLine l Line.dropCurrent).line m).asm = (s.line m).asm := by
      intro m
      rw [line_modLine]
      split
      · subst m; rfl
      · rfl
    rw [old] at hm hn
    exact hs.alone m n k hm hn

/-- The operations of a send side keep the laws. -/
theorem sends {l : LineNo} (hSends : Sends l s t) (hHeld : x.held l = []) (hs : s.StoriesOk x) : t.StoriesOk x := by
  induction hSends with
  | inert h => exact h.stories hs
  | ended u o hCurrent =>
    have hDeparted := (hs.dropCurrent hHeld hCurrent).departs o
    rwa [← hHeld, Slack.hold_self] at hDeparted
  | trans _ _ ih1 ih2 => exact ih2 (ih1 hs)

end State.StoriesOk

end Sys2Proof.Machine
end

section
/-! SUPPORT. A story offered to lines one after the other (R116 to R118, R193): while it is offered it stays in the store, and
the laws hold of the part in which it counts as COMPLETE (log 26). -/

namespace Sys2Proof.Machine

/-! ## A story that stays -/

/-- A story that a freeing test leaves, whatever becomes of one line's place in its pending set. -/
def Story.keptBeside (st : Story) (l : LineNo) : Prop :=
  st.state = .assembling ∨ st.interest.a = true ∨ st.interest.b = true ∨ ∃ m, m ≠ l ∧ lineIn st.pending m = true

/-- A story that a freeing test leaves. -/
def Story.isKept (st : Story) : Prop :=
  st.state = .assembling ∨ st.interest.a = true ∨ st.interest.b = true ∨ st.pending ≠ 0

theorem Story.keptBeside.isKept {st : Story} {l : LineNo} (h : st.keptBeside l) : st.isKept := by
  obtain h | h | h | ⟨m, -, hIn⟩ := h
  · exact .inl h
  · exact .inr (.inl h)
  · exact .inr (.inr (.inl h))
  · exact .inr (.inr (.inr ((lineSet_ne_zero_iff _).mpr ⟨m, hIn⟩)))

/-- A kept story that a line does not hold is kept beside that line. -/
theorem Story.isKept.beside {st : Story} {l : LineNo} (h : st.isKept) (hOut : lineIn st.pending l = false) :
    st.keptBeside l := by
  obtain h | h | h | hPending := h
  · exact .inl h
  · exact .inr (.inl h)
  · exact .inr (.inr (.inl h))
  · obtain ⟨m, hIn⟩ := (lineSet_ne_zero_iff _).mp hPending
    refine .inr (.inr (.inr ⟨m, fun e => ?_, hIn⟩))
    rw [e, hOut] at hIn
    cases hIn

theorem Story.isKept.retained {st : Story} (h : st.isKept) : st.unretained = false := by
  by_contra hFree
  simp only [Story.unretained, Bool.not_eq_false, Bool.and_eq_true, Bool.not_eq_true', decide_eq_true_eq] at hFree
  obtain ⟨⟨⟨hState, hA⟩, hB⟩, hPending⟩ := hFree
  obtain h | h | h | h := h
  · rw [hState] at h; cases h
  · rw [hA] at h; cases h
  · rw [hB] at h; cases h
  · exact h hPending

/-- The story of a handle, in a state of its own and with a property. -/
def State.Names (s : State) (h : Handle) (c : StoryState) (P : Story → Prop) : Prop :=
  ∃ st, s.storyOf h = some st ∧ st.state = c ∧ P st

/-! ## The part in which the story counts as COMPLETE -/

/-- The story of the handle stays, and counted as COMPLETE it leaves the laws. -/
structure State.Offered (x : Slack) (h : Handle) (c : StoryState) (P : Story → Prop) (s : State) : Prop where
  ok : (s.setStoryState h .complete).StoriesOk x
  names : s.Names h c P

namespace State.Offered

variable {x : Slack} {h : Handle} {c : StoryState} {P Q : Story → Prop} {s t : State}

theorem mono (hs : s.Offered x h c P) (hPQ : ∀ st, P st → Q st) : s.Offered x h c Q :=
  ⟨hs.ok, by obtain ⟨st, hNamed, hState, hP⟩ := hs.names; exact ⟨st, hNamed, hState, hPQ st hP⟩⟩

/-- The story counted as COMPLETE. -/
theorem shadow_storyOf (s : State) (h k : Handle) :
    (s.setStoryState h .complete).storyOf k =
      if k = h then (s.storyOf h).map fun st => { st with state := .complete } else s.storyOf k := storyOf_modStory ..

@[simp] theorem shadow_line (s : State) (h : Handle) (c : StoryState) (l : LineNo) : (s.setStoryState h c).line l = s.line l :=
  line_of_lines (modStory_lines' ..) l

theorem inert (hs : s.Offered x h c P) (hInert : Inert s t) : t.Offered x h c P := by
  have hShadow : Inert (s.setStoryState h .complete) (t.setStoryState h .complete) :=
    ⟨modStory_records hInert.records .., fun l => by simpa using hInert.handles l, fun l => by simpa using hInert.mode l,
      fun l => by simpa using hInert.story l⟩
  obtain ⟨st, hNamed, hRest⟩ := hs.names
  exact ⟨hShadow.stories hs.ok, st, by rwa [storyOf_of_records hInert.records], hRest⟩

/-- A current transmission ends: of another story, or of this one on the line beside which it is kept. -/
theorem ended {l : LineNo} {u : Transmission} (hs : s.Offered x h c (Story.keptBeside · l)) (hRetained : x.retained h.index)
    (hHeld : x.held l = []) (hCurrent : (s.line l).dist.current = some u) (o : DistOutcome) :
    ((s.modLine l Line.dropCurrent).departs l u.entry o).Offered x h c (Story.keptBeside · l) := by
  obtain ⟨st, hNamed, hState, hKept⟩ := hs.names
  -- the same end in the part in which the story counts as COMPLETE
  have hShadow : ((((s.setStoryState h .complete).modLine l Line.dropCurrent).leavePending u.entry.handle l)).StoriesOk
      ((x.hold l []).retain u.entry.handle.index) :=
    (hs.ok.dropCurrent hHeld (by rwa [shadow_line])).leavePending
  rw [← hHeld, Slack.hold_self] at hShadow
  generalize hd : u.entry.handle = d at hShadow
  have hLines : ((s.modLine l Line.dropCurrent).departs l u.entry o).lines =
      ((s.setStoryState h .complete).modLine l Line.dropCurrent).lines := by
    rw [departs_lines]
    simp [State.modLine, State.setStoryState, State.line]
  have hNotice : (((s.modLine l Line.dropCurrent).leavePending d l).postSubmitter u.entry.submitter
      (.distributionEnd l d o u.entry.substitutions)).store.records =
      ((s.modLine l Line.dropCurrent).leavePending d l).store.records := by rw [postSubmitter_store]
  by_cases hSame : d = h
  · -- the story itself: the line leaves its pending set, and the freeing test leaves it
    subst hSame
    have hLeft : ((s.modLine l Line.dropCurrent).leavePending d l).storyOf d =
        some { st with pending := dropLine st.pending l } := by
      rw [State.leavePending, storyOf_modStory, if_pos rfl, show (s.modLine l Line.dropCurrent).storyOf d = some st from hNamed]
      rfl
    have hKeptLeft : Story.keptBeside { st with pending := dropLine st.pending l } l := by
      obtain k | k | k | ⟨m, hm, hIn⟩ := hKept
      · exact .inl k
      · exact .inr (.inl k)
      · exact .inr (.inr (.inl k))
      · exact .inr (.inr (.inr ⟨m, hm, by simp [hm, hIn]⟩))
    have hRecords : ((s.modLine l Line.dropCurrent).departs l u.entry o).store.records =
        ((s.modLine l Line.dropCurrent).leavePending d l).store.records := by
      unfold State.departs
      rw [hd]
      rw [freeingTest_of_retained (st := { st with pending := dropLine st.pending l }) _ hKeptLeft.isKept.retained]
      · exact hNotice
      · rw [record_of_records hNotice]
        exact (storyOf_eq_some hLeft).2
    refine ⟨?_, { st with pending := dropLine st.pending l }, by rw [storyOf_of_records hRecords]; exact hLeft, hState,
      hKeptLeft⟩
    have hShadowed : ((s.modLine l Line.dropCurrent).departs l u.entry o |>.setStoryState d .complete).store.records =
        ((((s.setStoryState d .complete).modLine l Line.dropCurrent).leavePending d l)).store.records := by
      rw [State.setStoryState, modStory_records hRecords, State.leavePending, modStory_modStory_records, State.leavePending,
        modStory_records (s := s.setStoryState d .complete) (t := (s.setStoryState d .complete).modLine l Line.dropCurrent) rfl,
        State.setStoryState, modStory_modStory_records]
      exact modStory_records (s := s) (t := s.modLine l Line.dropCurrent) rfl d _
    refine (hShadow.apart ?_ hShadowed).weaken (fun i => ?_) (fun _ => id) rfl fun _ => id
    · rw [State.setStoryState, modStory_lines', hLines, leavePending_lines]
    · rintro (hi | rfl)
      · exact hi
      · exact hRetained
  · -- another story, in another record
    have hIndex : d.index ≠ h.index := by
      intro e
      have hMem : d ∈ ((s.setStoryState h .complete).line l).dist.handles ++ x.held l := by
        rw [shadow_line, Distribution.handles_of_current hCurrent, hd]
        exact List.mem_append_left _ (List.mem_cons_self ..)
      obtain ⟨z, hz, -⟩ := (hs.ok.pending l d).mp hMem
      rw [shadow_storyOf, if_neg hSame] at hz
      have hGen := (storyOf_eq_some hz).1
      rw [e, (storyOf_eq_some hNamed).1] at hGen
      exact hSame (by cases d; cases h; simp_all)
    have hRecord : ∀ i, ((s.modLine l Line.dropCurrent).departs l u.entry o).record i =
        if i = d.index ∧ (((s.modLine l Line.dropCurrent).leavePending d l).record d.index).story.any Story.unretained then
          { generation := (((s.modLine l Line.dropCurrent).leavePending d l).record d.index).generation + 1, story := none }
        else ((s.modLine l Line.dropCurrent).leavePending d l).record i := by
      intro i
      unfold State.departs
      rw [hd, record_freeingTest, record_of_records hNotice, record_of_records hNotice]
    refine ⟨hShadow.freeingTest.apart ?_ (records_ext fun i => ?_), st, ?_, hState, hKept⟩
    · rw [State.setStoryState, modStory_lines', hLines, freeingTest_lines, leavePending_lines]
    · have hBase : ∀ i, (s.modLine l Line.dropCurrent).record i = s.record i := fun _ => rfl
      have hShadowed : ∀ i, ((s.setStoryState h .complete).modLine l Line.dropCurrent).record i = _ :=
        fun i => record_modStory s h (fun st => { st with state := .complete }) i
      rw [State.setStoryState, record_modStory, hRecord, record_freeingTest]
      simp only [State.leavePending, record_modStory, hBase, hShadowed]
      by_cases hi : i = d.index
      · subst hi
        simp [hIndex]
      · by_cases hj : i = h.index
        · subst hj
          simp [hi]
        · simp [hi, hj]
    · have hStays : ((s.modLine l Line.dropCurrent).departs l u.entry o).record h.index = s.record h.index := by
        rw [hRecord, if_neg fun hHit => hIndex hHit.1.symm, State.leavePending, record_modStory,
          if_neg fun hHit => hIndex hHit.1.symm]
        rfl
      unfold State.storyOf
      rw [hStays]
      exact hNamed

theorem sends {l : LineNo} (hSends : Sends l s t) (hRetained : x.retained h.index) (hHeld : x.held l = [])
    (hs : s.Offered x h c (Story.keptBeside · l)) : t.Offered x h c (Story.keptBeside · l) := by
  induction hSends with
  | inert hInert => exact hs.inert hInert
  | ended u o hCurrent => exact hs.ended hRetained hHeld hCurrent o
  | trans _ _ ih1 ih2 => exact ih2 (ih1 hs)

end State.Offered

/-! ## Trying a line (R117) -/

theorem enqueue_perm (e : DistEntry) (qs : List DistEntry) : (enqueue e qs).Perm (e :: qs) := by
  induction qs with
  | nil => exact .refl _
  | cons q qs ih =>
    unfold enqueue
    split
    · exact (ih.cons q).trans (.swap ..)
    · exact .refl _

theorem Distribution.holds_iff (d : Distribution) (h : Handle) : d.holds h = true ↔ h ∈ d.handles := by
  rw [handles_eq, holds, currentHandles]
  cases d.current with
  | none =>
    simp only [Bool.or_eq_true, List.any_eq_true, decide_eq_true_eq, List.mem_append, List.mem_map, Bool.false_eq_true,
      List.not_mem_nil, or_false, false_or]
    exact or_comm
  | some u =>
    simp only [Bool.or_eq_true, List.any_eq_true, decide_eq_true_eq, List.mem_append, List.mem_singleton, List.mem_map]
    constructor
    · rintro ((hQueue | hStack) | hCurrent)
      · exact .inr hQueue
      · exact .inl (.inr hStack)
      · exact .inl (.inl hCurrent.symm)
    · rintro ((hCurrent | hStack) | hQueue)
      · exact .inr hCurrent.symm
      · exact .inl (.inr hStack)
      · exact .inl (.inl hQueue)

/-- What a line that takes a story has passed (R117). -/
theorem Line.trial_queued {x : Line} {h : Handle} (ht : x.trial h = .queued) :
    x.record.mode.hasSend = true ∧ h ∉ x.dist.handles := by
  unfold Line.trial at ht
  split at ht
  · cases ht
  · rename_i hMode
    split at ht
    · cases ht
    · rename_i hHolds
      exact ⟨by simpa using hMode, fun hMem => hHolds ((Distribution.holds_iff _ _).mpr hMem)⟩

namespace State.Offered

variable {x : Slack} {h : Handle} {c : StoryState} {s t : State}

/-- A story put into a queue and the line put into its pending set. -/
theorem join {l : LineNo} (hs : s.Offered x h c Story.isKept) (hHeld : x.held l = []) (hTrial : (s.line l).trial h = .queued)
    (p : Priority) (w : Submitter) :
    ((s.modDist l fun d => { d with queue := enqueue (newEntry h p w) d.queue }).joinPending h l).Offered x h c
      (Story.keptBeside · l) := by
  obtain ⟨hMode, hOut⟩ := Line.trial_queued hTrial
  obtain ⟨st, hNamed, hState, hKept⟩ := hs.names
  generalize ht : (s.modDist l fun d => { d with queue := enqueue (newEntry h p w) d.queue }).joinPending h l = t
  have hLines : t.lines = (s.modDist l fun d => { d with queue := enqueue (newEntry h p w) d.queue }).lines := by
    rw [← ht, joinPending_lines]
  have hHandles : ∀ m, ((t.line m).dist.handles).Perm (if m = l then h :: (s.line m).dist.handles else (s.line m).dist.handles) := by
    intro m
    rw [line_of_lines hLines, State.modDist, line_modLine]
    split
    · subst m
      simp only [Distribution.handles_eq, Distribution.currentHandles]
      refine (((enqueue_perm _ _).map DistEntry.handle).append_left _).trans ?_
      exact List.perm_middle
    · exact .refl _
  have hOther : ∀ m, (t.line m).record = (s.line m).record ∧ (t.line m).asm = (s.line m).asm := by
    intro m
    rw [line_of_lines hLines, State.modDist, line_modLine]
    split
    · subst m; exact ⟨rfl, rfl⟩
    · exact ⟨rfl, rfl⟩
  have hRecords : t.store.records = (s.modStory h fun st => { st with pending := addLine st.pending l }).store.records := by
    rw [← ht]
    exact modStory_records (s := s) (t := s.modDist l _) rfl h _
  have hPendingOut : lineIn st.pending l = false := by
    have hLaw := hs.ok.pending l h
    rw [shadow_line, hHeld, List.append_nil, shadow_storyOf, if_pos rfl, hNamed] at hLaw
    by_contra hIn
    exact hOut (hLaw.mpr ⟨_, rfl, by simpa using hIn⟩)
  have hNamedNow : t.storyOf h = some { st with pending := addLine st.pending l } := by
    rw [storyOf_of_records hRecords, storyOf_modStory, if_pos rfl, hNamed]
    rfl
  have hShadowNamed : (s.setStoryState h .complete).storyOf h = some { st with state := .complete } := by
    rw [shadow_storyOf, if_pos rfl, hNamed]
    rfl
  refine ⟨?_, _, hNamedNow, hState, ?_⟩
  · refine hs.ok.update (f := fun st => { st with pending := addLine st.pending l }) hShadowNamed ?_ (fun k => ?_)
      (fun _ _ => id) (fun _ _ => id) (fun m => ?_) (fun m k => ?_) (fun m hm hNoSend => ?_) fun m k hk => ?_
    · rw [State.setStoryState, modStory_records hRecords, modStory_modStory_records, State.setStoryState,
        modStory_modStory_records]
      rfl
    · exact ⟨k.holder, k.interest, k.closed, k.length, k.doubtful, k.cells, fun _ => rfl, fun hWaits _ =>
        .inr (.inr ((lineSet_ne_zero_iff _).mpr ⟨l, by simp⟩))⟩
    · rw [shadow_line]
      refine ((hHandles m).append_right _).nodup_iff.mpr ?_
      have hOnce := hs.ok.once m
      rw [shadow_line] at hOnce
      split
      · subst m
        rw [hHeld, List.append_nil] at hOnce ⊢
        exact List.nodup_cons.mpr ⟨hOut, hOnce⟩
      · exact hOnce
    · rw [shadow_line, shadow_line, ((hHandles m).append_right _).mem_iff]
      have hLaw := hs.ok.pending m k
      rw [shadow_line] at hLaw
      by_cases hm : m = l
      · subst hm
        rw [if_pos rfl, List.cons_append, List.mem_cons]
        by_cases hk : k = h
        · simp [hk]
        · simp [hk]
      · rw [if_neg hm]
        by_cases hk : k = h
        · subst hk
          rw [if_pos rfl, hLaw, hShadowNamed]
          simp [hm]
        · rw [if_neg hk]
    · rw [shadow_line] at hNoSend ⊢
      rw [(hOther m).1] at hNoSend
      have hm' : m ≠ l := fun e => by
        rw [e, hMode] at hNoSend
        cases hNoSend
      have hEmpty := hs.ok.sendless m hm (by rwa [shadow_line])
      have hPerm := hHandles m
      rw [if_neg hm', ← shadow_line s h .complete, hEmpty] at hPerm
      exact hPerm.eq_nil
    · rw [shadow_line, (hOther m).2] at hk
      refine ⟨by rwa [shadow_line], fun e => ?_⟩
      subst e
      obtain ⟨z, hz, hAssembling⟩ := hs.ok.assembling m k (by rwa [shadow_line])
      rw [hShadowNamed] at hz
      cases hz
      cases hAssembling
  · exact (hKept.beside hPendingOut).elim .inl fun k => .inr (k.imp id fun k => k.imp id fun ⟨m, hm, hIn⟩ =>
      ⟨m, hm, by simp [hIn]⟩)

theorem isKept {l : LineNo} (hs : s.Offered x h c (Story.keptBeside · l)) : s.Offered x h c Story.isKept :=
  hs.mono fun _ => Story.keptBeside.isKept

theorem tryLine (hs : s.Offered x h c Story.isKept) (hRetained : x.retained h.index) (hHeld : ∀ l, x.held l = []) (l : LineNo)
    (p : Priority) (w : Submitter) : (s.tryLine l h p w).2.Offered x h c Story.isKept := by
  unfold State.tryLine
  split
  · rename_i hTrial
    have hJoined := hs.join (hHeld l) hTrial p w
    dsimp only
    split
    · exact (hJoined.sends (.workArrives _) hRetained (hHeld l)).isKept
    · exact hJoined.isKept
  · exact hs

theorem tryLines (hs : s.Offered x h c Story.isKept) (hRetained : x.retained h.index) (hHeld : ∀ l, x.held l = [])
    (p : Priority) (w : Submitter) (ls : List LineNo) : (s.tryLines h p w ls).2.Offered x h c Story.isKept := by
  induction ls generalizing s with
  | nil => exact hs
  | cons l ls ih => exact ih (hs.tryLine hRetained hHeld l p w)

theorem roomSubmit (hs : s.Offered x h c Story.isKept) (hRetained : x.retained h.index) (hHeld : ∀ l, x.held l = [])
    (p : Priority) (ls : List LineNo) : (s.roomSubmit h p ls).Offered x h c Story.isKept := by
  induction ls generalizing s with
  | nil => exact hs
  | cons l ls ih =>
    have hTried := hs.tryLine hRetained hHeld l p .room
    unfold State.roomSubmit
    dsimp only
    split
    · exact ih hTried
    · exact ih (hTried.inert (.apart (by simp) (by simp)))

end State.Offered

namespace State.StoriesOk

variable {x : Slack} {s : State}

/-- A COMPLETE story offered counts as itself. -/
theorem offered (hs : s.StoriesOk x) {h : Handle} {st : Story} (hNamed : s.storyOf h = some st)
    (hComplete : st.state = .complete) (hKept : st.isKept) : s.Offered x h .complete Story.isKept := by
  refine ⟨?_, st, hNamed, hComplete, hKept⟩
  rwa [State.setStoryState, modStory_self]
  intro z hz
  rw [hNamed] at hz
  cases hz
  rw [← hComplete]

/-- A closed story offered to the monitor lines (R193): the freeing test is still to come. -/
theorem offerStory (hs : s.StoriesOk x) {h : Handle} {st : Story} (hNamed : s.storyOf h = some st)
    (hComplete : st.state = .complete) (hRetained : x.retained h.index) (hHeld : ∀ l, x.held l = []) (l : LineNo)
    (p : Priority) : (s.offerStory l h p).StoriesOk x := by
  unfold State.offerStory
  split
  · have hBegun : (s.setStoryState h .assembling).Offered x h .assembling Story.isKept := by
      refine ⟨?_, { st with state := .assembling }, ?_, rfl, .inl rfl⟩
      · refine hs.apart (by simp [State.setStoryState]) ?_
        rw [State.setStoryState, State.setStoryState, modStory_modStory_records, modStory_self]
        intro z hz
        rw [hNamed] at hz
        cases hz
        exact congrArg (fun c => { st with state := c }) hComplete.symm
      · rw [State.setStoryState, storyOf_modStory, if_pos rfl, hNamed]
        rfl
    exact (hBegun.roomSubmit hRetained hHeld p _).ok
  · exact hs

end State.StoriesOk

/-! ## Withdrawal and abandonment (R128, R130) -/

theorem takeEntry_perm {h : Handle} {es rest : List DistEntry} {d : DistEntry} (e : takeEntry h es = some (d, rest)) :
    d.handle = h ∧ es.Perm (d :: rest) := by
  induction es generalizing d rest with
  | nil => cases e
  | cons z es ih =>
    unfold takeEntry at e
    split at e
    · cases e
      exact ⟨by assumption, .refl _⟩
    · split at e
      · cases e
      · rename_i d' rest' h'
        cases e
        obtain ⟨hHandle, hPerm⟩ := ih h'
        exact ⟨hHandle, (hPerm.cons z).trans (.swap ..)⟩

namespace State.StoriesOk

variable {x : Slack} {s t : State}

/-- A line's distribution unit that holds fewer stories: what has left waits. -/
theorem holding (hs : s.StoriesOk x) {l : LineNo} {f : Line → Line} {gone : List Handle} (hHeld : x.held l = [])
    (hHandles : ((s.line l).dist.handles).Perm ((f (s.line l)).dist.handles ++ gone))
    (hMode : (f (s.line l)).record.mode.hasSend = (s.line l).record.mode.hasSend)
    (hAsm : (f (s.line l)).asm.state.story = (s.line l).asm.state.story) : (s.modLine l f).StoriesOk (x.hold l gone) := by
  have key : ∀ m, (((s.modLine l f).line m).dist.handles ++ (x.hold l gone).held m).Perm
      ((s.line m).dist.handles ++ x.held m) := by
    intro m
    by_cases hm : m = l
    · subst hm
      rw [line_modLine, if_pos rfl, Slack.hold_held, hHeld, List.append_nil]
      exact hHandles.symm
    · rw [line_modLine, if_neg hm, Slack.hold_held_ne _ _ hm]
  have hOpen : ∀ m, ((s.modLine l f).line m).asm.state.story = (s.line m).asm.state.story := by
    intro m
    rw [line_modLine]
    split
    · subst m; exact hAsm
    · rfl
  refine ⟨hs.story, fun m => (key m).nodup_iff.mpr (hs.once m), fun m k => (key m).mem_iff.trans (hs.pending m k),
    fun m hm hNoSend => ?_, fun m k hk => hs.assembling m k (by rwa [hOpen] at hk),
    fun m n k hm hn => hs.alone m n k (by rwa [hOpen] at hm) (by rwa [hOpen] at hn)⟩
  by_cases e : m = l
  · subst e
    rw [line_modLine, if_pos rfl] at hNoSend ⊢
    have hEmpty := hs.sendless m hm (by rwa [hMode] at hNoSend)
    rw [hEmpty] at hHandles
    exact (List.append_eq_nil_iff.mp hHandles.nil_eq.symm).1
  · rw [line_modLine, if_neg e] at hNoSend ⊢
    exact hs.sendless m hm hNoSend

/-- An entry withdrawn from a list of the line (R128). -/
theorem withdrawn {l : LineNo} {d : DistEntry} (hs : s.StoriesOk (x.hold l [d.handle])) (hHeld : x.held l = [])
    (hRetained : x.retained d.handle.index) : (s.withdrawn l d).StoriesOk x := by
  have hLeft : (s.leavePending d.handle l).StoriesOk x := by
    refine hs.leavePending.weaken (fun i => ?_) (fun _ => id) ?_ fun _ => id
    · rintro (hi | rfl)
      · exact hi
      · exact hRetained
    · rw [← hHeld, Slack.hold_self]
      rfl
  have hTold := hLeft.postSubmitter d.submitter (.distributionEnd l d.handle .withdrawn d.substitutions)
  unfold State.withdrawn
  dsimp only
  split
  · exact hTold
  · exact sends (.workRunsOut _) hHeld hTold

theorem withdrawLine (hs : s.StoriesOk x) (l : LineNo) {h : Handle} (hHeld : x.held l = []) (hRetained : x.retained h.index) :
    (s.withdrawLine l h).2.StoriesOk x := by
  unfold State.withdrawLine
  dsimp only
  split
  · rename_i e queue hTake
    obtain ⟨hHandle, hPerm⟩ := takeEntry_perm hTake
    refine withdrawn (hs.holding hHeld ?_ rfl rfl) hHeld (hHandle ▸ hRetained)
    simp only [Distribution.handles_eq, Distribution.currentHandles, List.append_assoc]
    exact ((hPerm.map DistEntry.handle).trans (List.perm_append_singleton ..).symm).append_left _ |>.append_left _
  · split
    · rename_i e stack hTake
      obtain ⟨hHandle, hPerm⟩ := takeEntry_perm hTake
      refine withdrawn (hs.holding hHeld ?_ rfl rfl) hHeld (hHandle ▸ hRetained)
      simp only [Distribution.handles_eq, Distribution.currentHandles, List.append_assoc]
      refine ((((hPerm.map DistEntry.handle).append_right _).trans ?_)).append_left _
      rw [List.map_cons, List.cons_append, ← List.append_assoc]
      exact (List.perm_append_singleton ..).symm
    · split
      · exact hs
      · rename_i u hCurrent
        split
        · refine hs.modLine (f := fun x => { x with dist := { x.dist with current := some { u with withdrawn := true } } })
            (.of_eq ?_) rfl rfl
          exact Distribution.handles_current hCurrent rfl
        · exact hs

theorem withdrawLines (hs : s.StoriesOk x) {h : Handle} (ls : List LineNo) (hHeld : ∀ l, x.held l = [])
    (hRetained : x.retained h.index) : (s.withdrawLines h ls).2.StoriesOk x := by
  induction ls generalizing s with
  | nil => exact hs
  | cons l ls ih => exact ih (hs.withdrawLine l (hHeld l) hRetained)

theorem abandonEntries {l : LineNo} (es : List DistEntry) (hHeld : x.held l = [])
    (hs : s.StoriesOk (x.hold l (es.map DistEntry.handle))) : (s.abandonEntries l es).StoriesOk x := by
  induction es generalizing s with
  | nil =>
    rw [List.map_nil, ← hHeld, Slack.hold_self] at hs
    exact hs
  | cons e es ih => exact ih (hs.departs _)

/-- Every story on the line is abandoned; the line then holds none (R130). -/
theorem abandonLine (hs : s.StoriesOk x) (l : LineNo) (hHeld : x.held l = []) : (s.abandonLine l).StoriesOk x :=
  abandonEntries _ hHeld (hs.holding hHeld (.refl _) rfl rfl)

end State.StoriesOk

end Sys2Proof.Machine
end

section
/-! SUPPORT. The operations of the assembler (chapter 5): the steps of a close as equations, and the laws of stories and lines that
they keep (R66, R75 to R81, R91, R96). -/

namespace Sys2Proof.Machine

/-! ## The steps of a close (R77) -/

/-- An undecided priority decided as it stands (R77, step 2). -/
def State.settled (s : State) (l : LineNo) (h : Handle) (st : Story) (decided : Bool) : State :=
  if decided = true then s else s.decidePriority l h st.priority

/-- The open story made COMPLETE, and the assembler BETWEEN (R77, steps 3 and 7). -/
def State.closed (s : State) (l : LineNo) (h : Handle) (truncated unterminated : Bool) : State :=
  (s.modStory h fun st =>
    { st with
      state := .complete
      truncated := truncated
      unterminated := unterminated
      closedStamp := some s.stamp }).modAsm l fun a => { a with state := .between, idleGap := none }

/-- A closed story told, offered and tested (R77, steps 4 to 6). -/
def State.handedOn (s : State) (l : LineNo) (h : Handle) (st : Story) : State :=
  ((s.postSet st.interest (.storyClosed l h st.priority st.truncated st.unterminated st.length)).offerStory l h
    st.priority).freeingTest h.index

/-- Where the assembler goes after a close (R77, step 7). -/
def State.goOn (s : State) (l : LineNo) : AfterClose → State
  | .between => s
  | .skipping => s.enterSkipping l
  | .reopen => s.openInbound l

/-- The story that a close of `st` leaves. -/
def Story.closedAs (st : Story) (truncated unterminated : Bool) (stamp : Stamp) : Story :=
  { st with state := .complete, truncated := truncated, unterminated := unterminated, closedStamp := some stamp }

@[simp] theorem ringFor_stamp (s : State) (p : Priority) : (s.ringFor p).stamp = s.stamp := by
  unfold State.ringFor
  dsimp only
  split <;> rfl

@[simp] theorem modStory_room (s : State) (h : Handle) (f : Story → Story) : (s.modStory h f).room = s.room := by
  obtain e | ⟨st, -, e⟩ := modStory_cases s h f <;> rw [e]
  rfl

theorem storyOf_modAsm (s : State) (l : LineNo) (f : Assembler → Assembler) (h : Handle) :
    (s.modAsm l f).storyOf h = s.storyOf h := rfl

theorem storyOf_ringFor (s : State) (p : Priority) (h : Handle) : (s.ringFor p).storyOf h = s.storyOf h :=
  storyOf_of_records (by rw [(ringFor_lines_records s p).2]) h

/-- The story with its priority decided. -/
theorem storyOf_decidePriority {s : State} {h : Handle} {st : Story} (hNamed : s.storyOf h = some st) (l : LineNo)
    (p : Priority) : (s.decidePriority l h p).storyOf h = some { st with priority := p } := by
  rw [State.decidePriority, storyOf_ringFor, storyOf_modStory, if_pos rfl, storyOf_modAsm, hNamed]
  rfl

theorem settled_storyOf {s : State} {h : Handle} {st : Story} (hNamed : s.storyOf h = some st) (l : LineNo)
    (decided : Bool) : (s.settled l h st decided).storyOf h = some st := by
  unfold State.settled
  split
  · exact hNamed
  · exact storyOf_decidePriority hNamed l st.priority

theorem closed_storyOf {s : State} {h : Handle} {st : Story} (hNamed : s.storyOf h = some st) (l : LineNo)
    (truncated unterminated : Bool) :
    (s.closed l h truncated unterminated).storyOf h = some (st.closedAs truncated unterminated s.stamp) := by
  rw [State.closed, storyOf_modAsm, storyOf_modStory, if_pos rfl, hNamed]
  rfl

/-- The steps of a close, one after the other. -/
theorem finishClose_of_inStory {s : State} {l : LineNo} {h : Handle} {st : Story} {decided : Bool}
    (hState : (s.line l).asm.state = .inStory h decided) (hNamed : s.storyOf h = some st) (truncated unterminated : Bool)
    (next : AfterClose) :
    s.finishClose l truncated unterminated next =
      ((((s.settled l h st decided).closed l h truncated unterminated).handedOn l h
        (st.closedAs truncated unterminated (s.settled l h st decided).stamp)).goOn l next) := by
  have hClosed := closed_storyOf (settled_storyOf hNamed l decided) l truncated unterminated
  unfold State.closed at hClosed
  unfold State.finishClose
  simp only [hState, hNamed]
  change (match next with
    | .between => _
    | .skipping => _
    | .reopen => _) = _
  rw [show (if decided = true then s else s.decidePriority l h st.priority) = s.settled l h st decided from rfl]
  simp only [hClosed]
  cases next <;> rfl

/-- Without an open story a close does nothing. -/
theorem finishClose_of_not_open {s : State} {l : LineNo} (hState : (s.line l).asm.state.story = none)
    (truncated unterminated : Bool) (next : AfterClose) : s.finishClose l truncated unterminated next = s := by
  unfold State.finishClose
  split
  · rename_i h decided hOpen
    rw [hOpen] at hState
    cases hState
  · rfl
  · rfl

/-! ## The laws -/

/-- Nothing waits. -/
abbrev State.StoriesKept (s : State) : Prop := s.StoriesOk .nothing

namespace State.StoriesOk

variable {x y : Slack} {s : State}

/-- An assembler changed: an open story it then names is ASSEMBLING, and no other line's. -/
theorem setAsm (hs : s.StoriesOk x) {l : LineNo} {f : Assembler → Assembler}
    (hOpen : ∀ h, (f (s.line l).asm).state.story = some h →
      (∃ st, s.storyOf h = some st ∧ st.state = .assembling) ∧ ∀ m, (s.line m).asm.state.story = some h → m = l) :
    (s.modAsm l f).StoriesOk x := by
  have hLine : ∀ m, ((s.modAsm l f).line m).dist = (s.line m).dist ∧ ((s.modAsm l f).line m).record = (s.line m).record := by
    intro m
    rw [State.modAsm, line_modLine]
    split
    · subst m; exact ⟨rfl, rfl⟩
    · exact ⟨rfl, rfl⟩
  have hAsm : ∀ m, ((s.modAsm l f).line m).asm = if m = l then f (s.line l).asm else (s.line m).asm := by
    intro m
    rw [State.modAsm, line_modLine]
    split <;> rfl
  refine ⟨hs.story, fun m => by rw [(hLine m).1]; exact hs.once m, fun m k => by rw [(hLine m).1]; exact hs.pending m k,
    fun m => by rw [(hLine m).1, (hLine m).2]; exact hs.sendless m, fun m k hk => ?_, fun m n k hm hn => ?_⟩
  · rw [hAsm] at hk
    split at hk
    · exact (hOpen k hk).1
    · exact hs.assembling m k hk
  · rw [hAsm] at hm hn
    split at hm <;> split at hn
    · simp_all
    · rename_i hml hnl
      exact absurd ((hOpen k hm).2 n hn) hnl
    · rename_i hml hnl
      exact absurd ((hOpen k hn).2 m hm) hml
    · exact hs.alone m n k hm hn

/-- An assembler that names no open story any more. -/
theorem shutAsm (hs : s.StoriesOk x) {l : LineNo} {f : Assembler → Assembler}
    (hShut : (f (s.line l).asm).state.story = none) : (s.modAsm l f).StoriesOk x :=
  hs.setAsm fun h hOpen => by rw [hShut] at hOpen; cases hOpen

theorem setHeld (hs : s.StoriesOk x) (l : LineNo) (held : List Held) : (s.setHeld l held).StoriesOk x := hs.modAsm rfl

theorem loadIdleGap (hs : s.StoriesOk x) (l : LineNo) : (s.loadIdleGap l).StoriesOk x := hs.modAsm rfl

theorem enterSkipping (hs : s.StoriesOk x) (l : LineNo) : (s.enterSkipping l).StoriesOk x := (hs.shutAsm rfl).loadIdleGap l

theorem decidePriority (hs : s.StoriesOk x) {l : LineNo} {h : Handle} (hOpen : (s.line l).asm.state.story = some h)
    (p : Priority) : (s.decidePriority l h p).StoriesOk x := by
  refine ((hs.modAsm (f := fun a => { a with state := .inStory h true }) hOpen.symm).modStory h fun st _ => ?_).ringFor p
  exact ⟨rfl, id, fun k => ⟨k.holder, k.interest, k.closed, k.length, k.doubtful, k.cells, k.pending, k.retained⟩⟩

/-! ## Storing (R73, R78, R79) -/

/-- A character put at the end of a story: with it the story has the cells of its length. -/
theorem putChar (hs : s.StoriesOk x) {h : Handle} {st : Story} (hNamed : s.storyOf h = some st)
    (hState : st.state = .assembling) (hCap : st.length < Config.storyCap) (c : Held)
    (hChain : st.chain.length = cellsFor (st.length + 1)) (hRetained : ∀ i, x.retained i → y.retained i)
    (hCells : ∀ i, i ≠ h.index → x.cells i → y.cells i) (hHeld : y.held = x.held) (hMode : ∀ l, x.mode l → y.mode l) :
    (s.putChar h c).StoriesOk y := by
  unfold State.putChar
  rw [hNamed]
  obtain ⟨hGen, hRecord⟩ := storyOf_eq_some hNamed
  have hText : (s.modStore fun x => { x with text := x.text.write (textAddress st.chain st.length) c.char }).StoriesOk x :=
    hs.apart rfl rfl
  have hNamedStill : (s.modStore fun x => { x with text := x.text.write (textAddress st.chain st.length) c.char }).storyOf h =
      some st := hNamed
  dsimp only
  rw [modStory_some hNamedStill]
  have hSet := hText.setStory (i := h.index) (y := y)
    (st' := { st with length := st.length + 1, doubtful := st.doubtful + (if c.doubtful then 1 else 0) }) hRecord rfl id
    (fun k => ⟨k.holder, k.interest, k.closed, hCap, ?_, fun _ => hChain, k.pending, fun _ hc => ?_⟩)
    (fun j _ => hRetained j) hCells hHeld hMode
  · rw [← hGen]
    exact hSet
  · have := k.doubtful
    dsimp only
    split <;> omega
  · dsimp only at hc
    rw [hState] at hc
    cases hc

theorem putChar_lines (s : State) (h : Handle) (c : Held) : (s.putChar h c).lines = s.lines := by
  unfold State.putChar
  split <;> simp

theorem storeChar_lines (s : State) (h : Handle) (c : Held) : (s.storeChar h c).2.lines = s.lines := by
  have hCell := requestCell_lines s h.index
  unfold State.storeChar
  split
  · rfl
  · split
    · split
      · rename_i t e
        rw [e] at hCell
        exact (putChar_lines t h c).trans hCell
      · rename_i t e
        rw [e] at hCell
        exact hCell
    · exact putChar_lines s h c

theorem storeChar (hs : s.StoriesKept) {h : Handle} {st : Story} (hNamed : s.storyOf h = some st)
    (hState : st.state = .assembling) (c : Held) : (s.storeChar h c).2.StoriesKept := by
  obtain ⟨hGen, hRecord⟩ := storyOf_eq_some hNamed
  have hChain := (hs.story _ _ hRecord).cells id
  have hLength : s.lengthOf h = st.length := by unfold State.lengthOf; rw [hNamed]
  unfold State.storeChar
  rw [hLength]
  split
  · exact hs
  · rename_i hCap
    have hBelow : st.length < Config.storyCap := by omega
    split
    · rename_i hFull
      have hCell := hs.requestCell hRecord (by rw [hState]; decide)
      split
      · rename_i t e
        rw [e] at hCell
        obtain ⟨hGrown, cell, hGrownRecord⟩ := hCell.2 rfl
        have hGrownNamed : t.storyOf h = some { st with chain := st.chain ++ [cell] } := by
          simp [State.storyOf, hGrownRecord, hGen]
        refine hGrown.putChar hGrownNamed hState hBelow c ?_ (fun _ => id) (fun i hi hWaits => ?_) rfl fun _ => id
        · rw [List.length_append, hChain, List.length_singleton]
          unfold cellsFor
          simp only [Config.cellPlaces] at hFull ⊢
          omega
        · exact hWaits.resolve_right hi
      · rename_i t e
        rw [e] at hCell
        exact (hCell.1 rfl).1
    · rename_i hRoom
      refine hs.putChar hNamed hState hBelow c ?_ (fun _ => id) (fun _ _ => id) rfl fun _ => id
      rw [hChain]
      unfold cellsFor
      simp only [Config.cellPlaces] at hRoom ⊢
      omega

theorem considerPriority (hs : s.StoriesOk x) {l : LineNo} {h : Handle} (hOpen : (s.line l).asm.state.story = some h)
    (decided : Bool) (c : Byte) : (s.considerPriority l h decided c).StoriesOk x := by
  unfold State.considerPriority
  split
  · exact hs
  · split
    · exact hs
    · exact hs.decidePriority hOpen _

theorem commit (hs : s.StoriesKept) (l : LineNo) (c : Held) : (s.commit l c).2.StoriesKept := by
  unfold State.commit
  split
  · rename_i h decided hInStory
    have hOpen : (s.line l).asm.state.story = some h := by rw [hInStory]; rfl
    obtain ⟨st, hNamed, hState⟩ := hs.assembling l h hOpen
    have hStored := hs.storeChar hNamed hState c
    have hLines := storeChar_lines s h c
    split
    · rename_i t e
      rw [e] at hStored hLines
      exact hStored.considerPriority (by rw [line_of_lines hLines]; exact hOpen) _ _
    · rename_i e
      rw [e] at hStored
      exact hStored
    · rename_i e
      rw [e] at hStored
      exact hStored
  · exact hs
  · exact hs

theorem commitAll (hs : s.StoriesKept) (l : LineNo) (cs : List Held) : (s.commitAll l cs).2.StoriesKept := by
  induction cs generalizing s with
  | nil => exact hs
  | cons c cs ih =>
    have hCommit := hs.commit l c
    unfold State.commitAll
    split
    · rename_i e; rw [e] at hCommit; exact ih hCommit
    · rename_i e; rw [e] at hCommit; exact hCommit
    · rename_i e; rw [e] at hCommit; exact hCommit

/-! ## Opening (R75, R94, R104) -/

/-- A handle of a FREE record names nothing. -/
theorem storyOf_of_free {s : State} {h : Handle} (hFree : (s.record h.index).story = none) : s.storyOf h = none := by
  unfold State.storyOf
  split
  · exact hFree
  · rfl

theorem storyOf_makeStory {s : State} {i : Fin 256} (hFree : (s.record i).story = none) (st : Story) (k : Handle) :
    (s.makeStory i st).storyOf k = if k = s.handleAt i then some st else s.storyOf k := by
  have hRecords : (s.makeStory i st).store.records =
      (s.setRecord i { generation := (s.record i).generation, story := some st }).store.records := by
    rw [State.makeStory, judgeExhausted_records]
  rw [storyOf_of_records hRecords]
  by_cases hi : k.index = i
  · subst hi
    rw [storyOf_of_free hFree]
    unfold State.storyOf
    rw [record_setRecord_same]
    by_cases hk : k = s.handleAt k.index
    · rw [if_pos hk]
      have hGen := congrArg Handle.generation hk
      exact if_pos hGen.symm
    · rw [if_neg hk]
      exact if_neg fun hGen => hk (by cases k; exact congrArg (Handle.mk _) hGen.symm)
  · rw [if_neg fun hk : k = s.handleAt i => hi (by rw [hk]; rfl)]
    unfold State.storyOf
    rw [record_setRecord_ne _ _ _ _ hi]

/-- A new story, on no line yet, in a FREE record. -/
theorem makeStory (hs : s.StoriesOk x) {i : Fin 256} (hFree : (s.record i).story = none) {st : Story}
    (hStory : st.Ok (x.retained i) (x.cells i)) (hPending : st.pending = 0) : (s.makeStory i st).StoriesOk x := by
  have hNone : s.storyOf (s.handleAt i) = none := storyOf_of_free hFree
  have hLine : ∀ l, (s.makeStory i st).line l = s.line l := fun l => line_of_lines (makeStory_lines ..) l
  refine ⟨fun j z hz => ?_, fun l => by rw [hLine]; exact hs.once l, fun l k => ?_, fun l => by rw [hLine]; exact hs.sendless l,
    fun l k hk => ?_, fun l m k => by rw [hLine, hLine]; exact hs.alone l m k⟩
  · have hRecord : (s.makeStory i st).record j =
        (s.setRecord i { generation := (s.record i).generation, story := some st }).record j :=
      record_of_records (by rw [State.makeStory, judgeExhausted_records]) j
    rw [hRecord] at hz
    by_cases hj : j = i
    · subst hj
      rw [record_setRecord_same] at hz
      cases hz
      exact hStory
    · rw [record_setRecord_ne _ _ _ _ hj] at hz
      exact hs.story j z hz
  · rw [hLine, hs.pending l k, storyOf_makeStory hFree]
    split
    · rename_i hk
      subst hk
      rw [hNone]
      simp [hPending, lineIn]
    · rfl
  · rw [hLine] at hk
    obtain ⟨z, hz, hState⟩ := hs.assembling l k hk
    rw [storyOf_makeStory hFree]
    split
    · rename_i e
      subst e
      rw [hNone] at hz
      cases hz
    · exact ⟨z, hz, hState⟩

theorem newInbound_ok (s : State) (l : LineNo) (w g : Prop) : (s.newInbound l).Ok w g where
  holder := by simp [State.newInbound]
  interest := nofun
  closed := by simp [State.newInbound]
  length := Nat.zero_le _
  doubtful := Nat.zero_le _
  cells := fun _ => by simp [State.newInbound, cellsFor, Config.cellPlaces]
  pending := fun h => absurd rfl h
  retained := fun _ h => nomatch h

theorem openInbound (hs : s.StoriesOk x) (l : LineNo) : (s.openInbound l).StoriesOk x := by
  have hRequested := hs.requestRecord
  unfold State.openInbound
  split
  · rename_i t e
    rw [e] at hRequested
    exact ((hRequested.postSet _ _).raiseExhausted).enterSkipping l
  · rename_i i t e
    rw [e] at hRequested
    have hFree := requestRecord_free e
    have hOpened : ((t.makeStory i (t.newInbound l)).modAsm l fun a => { a with state := .inStory (t.handleAt i) false }).StoriesOk
        x := by
      refine (hRequested.makeStory hFree (newInbound_ok ..) rfl).setAsm fun h hOpen => ?_
      cases hOpen
      refine ⟨⟨t.newInbound l, by rw [storyOf_makeStory hFree, if_pos rfl], rfl⟩, fun m hm => ?_⟩
      rw [line_of_lines (makeStory_lines ..)] at hm
      obtain ⟨z, hz, -⟩ := hRequested.assembling m _ hm
      rw [storyOf_of_free (h := t.handleAt i) hFree] at hz
      cases hz
    dsimp only
    split
    · exact ((hOpened.decidePriority (by simp [AsmState.story]) _).loadIdleGap l).postSet _ _
    · exact (hOpened.loadIdleGap l).postSet _ _

/-! ## Closing (R77) -/

theorem settled (hs : s.StoriesOk x) {l : LineNo} {h : Handle} (hOpen : (s.line l).asm.state.story = some h) (st : Story)
    (decided : Bool) : (s.settled l h st decided).StoriesOk x := by
  unfold State.settled
  split
  · exact hs
  · exact hs.decidePriority hOpen _

theorem settled_open {s : State} {l : LineNo} {h : Handle} (hOpen : (s.line l).asm.state.story = some h) (st : Story)
    (decided : Bool) : ((s.settled l h st decided).line l).asm.state.story = some h := by
  unfold State.settled
  split
  · exact hOpen
  · rw [State.decidePriority, line_of_lines (ringFor_lines ..), line_of_lines (modStory_lines' ..)]
    simp [AsmState.story]

/-- The open story closes: its retention waits for the freeing test (R96). -/
theorem closed (hs : s.StoriesOk x) {l : LineNo} {h : Handle} {st : Story} (hOpen : (s.line l).asm.state.story = some h)
    (hNamed : s.storyOf h = some st) (hState : st.state = .assembling) (truncated unterminated : Bool) :
    (s.closed l h truncated unterminated).StoriesOk (x.retain h.index) := by
  have hAsm : ∀ m, ((s.closed l h truncated unterminated).line m).asm =
      if m = l then { (s.line l).asm with state := .between, idleGap := none } else (s.line m).asm := by
    intro m
    rw [State.closed, State.modAsm, line_modLine]
    split <;> rw [line_of_lines (modStory_lines' ..)]
  have hLine : ∀ m, ((s.closed l h truncated unterminated).line m).dist = (s.line m).dist ∧
      ((s.closed l h truncated unterminated).line m).record = (s.line m).record := by
    intro m
    rw [State.closed, State.modAsm, line_modLine]
    split
    · subst m; rw [line_of_lines (modStory_lines' ..)]; exact ⟨rfl, rfl⟩
    · rw [line_of_lines (modStory_lines' ..)]; exact ⟨rfl, rfl⟩
  refine hs.update (f := (·.closedAs truncated unterminated s.stamp)) hNamed rfl (fun k => ?_) (fun _ _ => .inl)
    (fun _ _ => id) (fun m => by rw [(hLine m).1]; exact hs.once m) (fun m k => ?_)
    (fun m => by rw [(hLine m).1, (hLine m).2]; exact hs.sendless m) fun m k hk => ?_
  · refine ⟨?_, ?_, by simp [Story.closedAs], k.length, k.doubtful, k.cells, fun _ => rfl, fun hw => absurd (.inr rfl) hw⟩
    · have hHolder : st.holder = none := k.holder.mpr (by rw [hState]; decide)
      simp [Story.closedAs, hHolder]
    · exact k.interest
  · rw [(hLine m).1]
    split
    · rename_i e
      subst e
      have hLaw := hs.pending m k
      rw [hNamed] at hLaw
      simpa [Slack.retain, Story.closedAs] using hLaw
    · rfl
  · rw [hAsm] at hk
    split at hk
    · cases hk
    · rename_i hm
      refine ⟨hk, fun e => ?_⟩
      subst e
      exact absurd (hs.alone m l k hk hOpen) hm

theorem finishClose (hs : s.StoriesKept) (l : LineNo) (truncated unterminated : Bool) (next : AfterClose) :
    (s.finishClose l truncated unterminated next).StoriesKept := by
  cases hState : (s.line l).asm.state with
  | between => rw [finishClose_of_not_open (by rw [hState]; rfl)]; exact hs
  | skipping => rw [finishClose_of_not_open (by rw [hState]; rfl)]; exact hs
  | inStory h decided =>
    have hOpen : (s.line l).asm.state.story = some h := by rw [hState]; rfl
    obtain ⟨st, hNamed, hAssembling⟩ := hs.assembling l h hOpen
    rw [finishClose_of_inStory hState hNamed]
    have hSettled := settled_storyOf hNamed l decided
    have hClosed := (hs.settled hOpen st decided).closed (settled_open hOpen st decided) hSettled hAssembling
      truncated unterminated
    have hDone : ((((s.settled l h st decided).closed l h truncated unterminated).handedOn l h
        (st.closedAs truncated unterminated (s.settled l h st decided).stamp))).StoriesKept := by
      refine (StoriesOk.offerStory (hClosed.postSet _ _) (st := st.closedAs truncated unterminated (s.settled l h st decided).stamp)
        ?_ rfl (.inr rfl) (fun _ => rfl) l _).freeingTest
      exact (storyOf_of_records (by rw [postSet_store]) h).trans (closed_storyOf hSettled l truncated unterminated)
    cases next with
    | between => exact hDone
    | skipping => exact hDone.enterSkipping l
    | reopen => exact hDone.openInbound l

theorem cutShort (hs : s.StoriesKept) (l : LineNo) (why : Stored) : (s.cutShort l why).StoriesKept := by
  unfold State.cutShort
  dsimp only
  split
  · exact (hs.raiseExhausted.setHeld l []).finishClose ..
  · exact (hs.setHeld l []).finishClose ..

theorem closeCommitting (hs : s.StoriesKept) (l : LineNo) (truncated unterminated : Bool) :
    (s.closeCommitting l truncated unterminated).StoriesKept := by
  have hCommitted := (hs.setHeld l []).commitAll l (s.line l).asm.held
  unfold State.closeCommitting
  dsimp only
  split
  · exact hCommitted.raiseExhausted.finishClose ..
  · exact hCommitted.finishClose ..

/-! ## Matching, decoding, idle gap, reset -/

theorem sequenceFound (hs : s.StoriesKept) (l : LineNo) (f : Found) : (s.sequenceFound l f).StoriesKept := by
  unfold State.sequenceFound
  split
  · exact hs.openInbound l
  · exact hs
  · exact hs.finishClose ..
  · exact hs.finishClose ..
  · exact hs.openInbound l
  · exact hs.shutAsm rfl

theorem arrive (hs : s.StoriesKept) (l : LineNo) (cs : List Held) : (s.arrive l cs).StoriesKept := by
  induction cs generalizing s with
  | nil => exact hs
  | cons c cs ih =>
    have hCommit := hs.commit l c
    unfold State.arrive
    dsimp only
    split
    · exact hs.sequenceFound l _
    · split
      · exact hs.setHeld l _
      · split
        · rename_i e; rw [e] at hCommit; exact ih hCommit
        · rename_i e; rw [e] at hCommit; exact hCommit.cutShort ..
        · rename_i e; rw [e] at hCommit; exact hCommit.cutShort ..

theorem storeContinuous (hs : s.StoriesKept) (l : LineNo) (c : Held) : (s.storeContinuous l c).StoriesKept := by
  have hCommit := hs.commit l c
  unfold State.storeContinuous
  split
  · rename_i e; rw [e] at hCommit; exact hCommit
  · rename_i e; rw [e] at hCommit; exact hCommit.cutShort ..
  · rename_i e; rw [e] at hCommit; exact hCommit.cutShort ..

theorem restartIdleGap (hs : s.StoriesOk x) (l : LineNo) : (s.restartIdleGap l).StoriesOk x := by
  unfold State.restartIdleGap
  split
  · exact hs
  · exact hs.loadIdleGap l
  · exact hs.loadIdleGap l

theorem decodeCode (hs : s.StoriesKept) (l : LineNo) (k : Code) (doubtful : Bool) :
    (s.decodeCode l k doubtful).StoriesKept := by
  have hCased : ∀ c : Case → Case, (s.modAsm l fun a => { a with decoderCase := c a.decoderCase }).StoriesKept := fun _ => hs.modAsm rfl
  unfold State.decodeCode
  dsimp only
  split
  · exact hCased _
  · have hTimed := (hCased ((s.line l).record.caseAfter
      (((s.tables.get (s.line l).record.slot)).entry (s.line l).asm.decoderCase k))).restartIdleGap l
    split
    · exact (hTimed.setHeld l []).arrive l _
    · unfold State.continuousChar
      split
      · exact (hTimed.openInbound l).storeContinuous l _
      · exact hTimed.storeContinuous l _
      · exact hTimed

theorem idleGapOver (hs : s.StoriesKept) (l : LineNo) : (s.idleGapOver l).StoriesKept := by
  have hStopped : (s.modAsm l fun a => { a with idleGap := none }).StoriesKept := hs.modAsm rfl
  unfold State.idleGapOver
  dsimp only
  split
  · split
    · exact hStopped.closeCommitting ..
    · exact hStopped.closeCommitting ..
  · exact hStopped.shutAsm rfl
  · exact hStopped

theorem assemblerOpen (hs : s.StoriesKept) (l : LineNo) : (s.assemblerOpen l).StoriesKept := by
  unfold State.assemblerOpen
  dsimp only
  split
  · exact (hs.closeCommitting l false true).modAsm rfl
  · exact (hs.setHeld l []).modAsm rfl
  · exact (hs.setHeld l []).modAsm rfl

theorem resetAssembler (hs : s.StoriesKept) (l : LineNo) : (s.resetAssembler l).StoriesKept := by
  unfold State.resetAssembler
  dsimp only
  split
  · exact (hs.closeCommitting l true false).shutAsm rfl
  · exact hs.shutAsm rfl
  · exact hs.shutAsm rfl

theorem commitHeld (hs : s.StoriesKept) (l : LineNo) : (s.commitHeld l).StoriesKept := by
  have hCommitted := (hs.setHeld l []).commitAll l (s.line l).asm.held
  unfold State.commitHeld
  dsimp only
  split
  · rename_i e; rw [e] at hCommitted; exact hCommitted
  · rename_i e; rw [e] at hCommitted; exact hCommitted.cutShort ..
  · rename_i e; rw [e] at hCommitted; exact hCommitted.cutShort ..

end State.StoriesOk

end Sys2Proof.Machine
end

section
/-! SUPPORT. Every step keeps the laws of the stories and of the lines that hold them (R91, R96, R114). -/

namespace Sys2Proof.Machine

/-! ## Reception and sensing -/

namespace Inert

/-- The last operation of a chain first. -/
theorem after {s t u : State} (b : Inert t u) (a : Inert s t) : Inert s u := a.trans b

theorem modRxLine (s : State) (l : LineNo) (f : Line → Receiver) : Inert s (s.modLine l fun x => { x with rx := f x }) :=
  modLine (.refl _) rfl rfl

theorem setFilter (s : State) (l : LineNo) (f : Line → Option InputFilter) :
    Inert s (s.modLine l fun x => { x with filter := f x }) := modLine (.refl _) rfl rfl

theorem report (s : State) (l : LineNo) (v : Level) (t : Nat) : Inert s (s.report l v t) := by
  unfold State.report
  dsimp only
  split
  · exact after (postLine ..) (modRxLine s l fun x => x.reported v t)
  · exact modRxLine s l fun x => x.reported v t

theorem completeChange (s : State) (l : LineNo) : Inert s (s.completeChange l) := by
  unfold State.completeChange
  split
  · exact refl s
  · split
    · exact refl s
    · exact after (report ..) (setFilter s l fun _ => some _)

theorem rawChanged (s : State) (l : LineNo) : Inert s (s.rawChanged l) := by
  unfold State.rawChanged
  split
  · exact refl s
  · dsimp only
    split
    · split
      · exact setFilter s l fun _ => some _
      · exact refl s
    · split
      · exact refl s
      · split
        · exact after (completeChange ..) (setFilter s l fun _ => some _)
        · exact setFilter s l fun _ => some _

theorem feedFilter (s : State) (l : LineNo) (before : Level) : Inert s (s.feedFilter l before) := by
  unfold State.feedFilter
  split
  · exact refl s
  · exact rawChanged s l

theorem searchConverter (s : State) : Inert s s.searchConverter := by
  unfold State.searchConverter
  split <;> exact apart rfl rfl

theorem wakeConverter (s : State) : Inert s s.wakeConverter := by
  unfold State.wakeConverter
  split
  · exact refl s
  · exact searchConverter s

theorem voidConversion (s : State) (l : LineNo) (hit : Side → Bool) : Inert s (s.voidConversion l hit) := by
  unfold State.voidConversion
  split
  · exact refl s
  · split
    · exact apart rfl rfl
    · exact refl s

theorem setChannel (s : State) (l : LineNo) (side : Side) (c : LoopChannel) :
    Inert s (s.modLine l fun x => x.setChannel side c) := by
  cases side <;> exact modLine (.refl _) rfl rfl

theorem unmeasure (s : State) (l : LineNo) (side : Side) : Inert s (s.unmeasure l side) := by
  unfold State.unmeasure
  dsimp only
  split
  · exact setChannel ..
  · exact after (postLine ..) (setChannel ..)

theorem resetChannel (s : State) (l : LineNo) (side : Side) : Inert s (s.resetChannel l side) :=
  after (unmeasure ..) (voidConversion ..)

theorem postReceiverReset (s : State) (l : LineNo) (was : Receiver) (now : RxReport) :
    Inert s (s.postReceiverReset l was now) := by
  unfold State.postReceiverReset
  dsimp only
  split <;> split
  · exact after (postLine ..) (postLine ..)
  · exact postLine ..
  · exact postLine ..
  · exact refl s

theorem resetReceiver (s : State) (l : LineNo) : Inert s (s.resetReceiver l) :=
  after (postReceiverReset ..) (modLine (.refl _) rfl rfl)

theorem disableReceiver (s : State) (l : LineNo) : Inert s (s.disableReceiver l) :=
  after (postReceiverReset ..) (modLine (.refl _) rfl rfl)

theorem stopSendSide (s : State) (l : LineNo) (state : SendState) : Inert s (s.stopSendSide l state) := by
  unfold State.stopSendSide
  dsimp only
  split
  · exact after (postLine ..) (modSend ..)
  · exact modSend ..

theorem setCurrent (s : State) (c : ChannelNo) (i : Int) : Inert s (s.setCurrent c i) := by
  unfold State.setCurrent
  dsimp only
  split
  · exact after (wakeConverter _) (after (feedFilter ..) (modLine (.refl _) rfl rfl))
  · exact modLine (.refl _) rfl rfl

end Inert

theorem Sends.stories {l : LineNo} {s t : State} (h : Sends l s t) (hs : s.StoriesKept) : t.StoriesKept :=
  State.StoriesOk.sends h rfl hs

namespace State.StoriesOk

variable {x y : Slack} {s : State}

theorem classify (hs : s.StoriesKept) (l : LineNo) (side : Side) (value : Nat) : (s.classify l side value).StoriesKept := by
  have hSet := fun c => (Inert.setChannel s l side c).stories hs
  unfold State.classify
  dsimp only
  split
  · exact hSet _
  · cases side with
    | receive => exact (hSet _).postLine ..
    | send => exact (Sends.sendLoopChanged _ _ _).stories ((hSet _).postLine ..)

theorem endConversion (hs : s.StoriesKept) : s.endConversion.StoriesKept := by
  unfold State.endConversion
  split
  · exact hs
  · have hResting : State.StoriesKept { s with converter := { s.converter with conversion := none } } := hs.apart rfl rfl
    dsimp only
    split
    · exact (Inert.searchConverter _).stories hResting
    · exact (Inert.searchConverter _).stories (hResting.classify ..)

theorem deliver (hs : s.StoriesKept) (l : LineNo) (c : Character) (framingGood : Bool) :
    (s.deliver l c framingGood).StoriesKept := by
  have hRx := fun f => (Inert.modRx s l f).stories hs
  unfold State.deliver
  dsimp only
  split
  · exact (hRx _).decodeCode ..
  · exact ((hRx _).postLine ..).decodeCode ..

theorem sampleStop (hs : s.StoriesKept) (l : LineNo) : (s.sampleStop l).StoriesKept := by
  unfold State.sampleStop
  split
  · split
    · exact ((Inert.modRx s l _).stories hs).deliver ..
    · exact ((Inert.modRx s l _).stories hs).deliver ..
  all_goals exact hs

theorem openLine (hs : s.StoriesKept) (l : LineNo) : (s.openLine l).StoriesKept :=
  (((Inert.modRx s l _).stories hs).postLine ..).assemblerOpen l

/-! ## Line reset and mode changes (chapter 2) -/

theorem clearSending (hs : s.StoriesOk x) (l : LineNo) (hHeld : x.held l = []) (state : SendState) :
    (s.clearSending l state).StoriesOk x :=
  (((Inert.stopSendSide s l state).stories hs).abandonLine l hHeld).modEnc l _

theorem abandonEntries_lines (s : State) (l : LineNo) (es : List DistEntry) : (s.abandonEntries l es).lines = s.lines := by
  induction es generalizing s with
  | nil => rfl
  | cons e es ih => exact (ih _).trans (departs_lines ..)

/-- A send side that has been cleared holds no story. -/
theorem clearSending_handles (s : State) (l : LineNo) (state : SendState) :
    ((s.clearSending l state).line l).dist.handles = [] := by
  unfold State.clearSending State.abandonLine
  rw [State.modEnc, line_modLine, if_pos rfl, line_of_lines (abandonEntries_lines ..), line_modLine, if_pos rfl]
  rfl

theorem resetLine (hs : s.StoriesKept) (l : LineNo) : (s.resetLine l).StoriesKept := by
  have whenOk : ∀ {t u : State} (c : Prop) [Decidable c], t.StoriesKept → (t.StoriesKept → u.StoriesKept) →
      State.StoriesKept (if c then u else t) := by
    intro t u c _ ht hu
    split
    · exact hu ht
    · exact ht
  unfold State.resetLine
  dsimp only
  refine (Inert.wakeConverter _).stories ?_
  refine whenOk _ ?_ fun h => (Inert.resetChannel ..).stories h
  refine whenOk _ ?_ fun h => (Inert.resetChannel ..).stories h
  refine whenOk _ ?_ fun h => ((Inert.resetReceiver ..).stories h).resetAssembler l
  exact whenOk _ hs fun h => h.clearSending l rfl _

/-- A record replaced: a line that is to be without a send side holds nothing, or waits. -/
theorem setLineRecord (hs : s.StoriesOk x) {l : LineNo} {r : LineRecord} (hRetained : y.retained = x.retained)
    (hCells : y.cells = x.cells) (hHeld : y.held = x.held) (hMode : ∀ m, x.mode m → y.mode m)
    (hEmpty : ¬y.mode l → r.mode.hasSend = false → (s.line l).dist.handles = []) : (s.setLineRecord l r).StoriesOk y := by
  have hLine : ∀ m, ((s.setLineRecord l r).line m).dist = (s.line m).dist ∧
      ((s.setLineRecord l r).line m).asm = (s.line m).asm := by
    intro m
    rw [State.setLineRecord, line_modLine]
    split
    · subst m; exact ⟨rfl, rfl⟩
    · exact ⟨rfl, rfl⟩
  refine ⟨fun i st h => ?_, fun m => by rw [(hLine m).1, hHeld]; exact hs.once m,
    fun m k => by rw [(hLine m).1, hHeld]; exact hs.pending m k, fun m hm hNoSend => ?_,
    fun m k => by rw [(hLine m).2]; exact hs.assembling m k, fun m n k => by rw [(hLine m).2, (hLine n).2]; exact hs.alone m n k⟩
  · rw [hRetained, hCells]
    exact hs.story i st h
  · rw [(hLine m).1]
    rw [State.setLineRecord, line_modLine] at hNoSend
    split at hNoSend
    · subst m
      exact hEmpty hm hNoSend
    · exact hs.sendless m (fun hx => hm (hMode m hx)) hNoSend

/-- A line that holds nothing need not wait. -/
theorem settleMode {l : LineNo} (hs : s.StoriesOk (x.remove l)) (hEmpty : (s.line l).dist.handles = []) : s.StoriesOk x := by
  refine ⟨hs.story, hs.once, hs.pending, fun m hm hNoSend => ?_, hs.assembling, hs.alone⟩
  by_cases e : m = l
  · subst m
    exact hEmpty
  · exact hs.sendless m (fun h => h.elim hm e) hNoSend

theorem removeReceive (hs : s.StoriesKept) (l : LineNo) : (s.removeReceive l).StoriesKept :=
  (Inert.resetChannel ..).stories (((Inert.disableReceiver s l).stories hs).resetAssembler l)

theorem addReceive (hs : s.StoriesKept) (l : LineNo) : (s.addReceive l).StoriesKept := by
  have hAdded : s.addReceive l = (s.modAsm l fun _ => freshAssembler).modLine l fun x =>
      { x with rxLoop := unmeasuredChannel, filter := some x.freshFilter, rx := x.startedReceiver s.tick } := by
    rw [State.modAsm, modLine_modLine]
    rfl
  rw [hAdded]
  exact (hs.shutAsm (l := l) (f := fun _ => freshAssembler) rfl).modLine (.refl _) rfl rfl

/-- A record taken: sides go and come (R20, R28, R29). -/
theorem takeRecord (hs : s.StoriesKept) (l : LineNo) (r : LineRecord) : (s.takeRecord l r).StoriesKept := by
  unfold State.takeRecord
  dsimp only
  have hMeet := (State.SendAll.meet_sides (s.line l).record.mode r.mode).1
  generalize hOld : (s.line l).record.mode.hasSend = old at hMeet ⊢
  generalize hNew : r.mode.hasSend = new at hMeet ⊢
  -- the sides that both modes share
  generalize hs0 : s.setLineRecord l { r with mode := (s.line l).record.mode.meet r.mode } = s0
  have hMode0 : (s0.line l).record.mode.hasSend = (old && new) := by
    rw [← hs0, State.setLineRecord, line_modLine, if_pos rfl]
    exact hMeet
  -- the send side removed
  generalize hs1 : (if (old && !new) = true then s0.removeSend l else s0) = s1
  have hKept1 : s1.StoriesKept := by
    rw [← hs1]
    split
    · have hWaits : s0.StoriesOk (Slack.nothing.remove l) := by
        rw [← hs0]
        exact hs.setLineRecord rfl rfl rfl (fun _ => .inl) fun hOut => absurd (.inr rfl) hOut
      exact (Inert.resetChannel ..).stories ((hWaits.clearSending l rfl .off).settleMode (clearSending_handles ..))
    · rename_i hStays
      rw [← hs0]
      refine hs.setLineRecord rfl rfl rfl (fun _ => id) fun _ hNoSend => ?_
      have hBoth : (old && new) = false := hMeet.symm.trans hNoSend
      refine hs.sendless l id ?_
      rw [hOld]
      revert hBoth hStays
      cases old <;> cases new <;> simp
  have hMode1 : (s1.line l).record.mode.hasSend = (old && new) := by
    rw [← hs1, record_when (Kept.removeSend ..)]
    exact hMode0
  -- the receive side removed
  generalize hs2 : (if ((s.line l).record.mode.hasReceive && !r.mode.hasReceive) = true then s1.removeReceive l else s1) = s2
  have hKept2 : s2.StoriesKept := by
    rw [← hs2]
    split
    · exact hKept1.removeReceive l
    · exact hKept1
  have hMode2 : (s2.line l).record.mode.hasSend = (old && new) := by
    rw [← hs2, record_when (Kept.removeReceive ..)]
    exact hMode1
  -- the record taken, and the sides added
  have hEmpty2 : (old && new) = false → (s2.line l).dist.handles = [] := fun h =>
    hKept2.sendless l id (hMode2.trans h)
  have hKept3 : (s2.setLineRecord l r).StoriesKept :=
    hKept2.setLineRecord rfl rfl rfl (fun _ => id) fun _ hNoSend => hEmpty2 (by rw [← hNew, hNoSend, Bool.and_false])
  generalize hs4 : (if (!(s.line l).record.mode.hasReceive && r.mode.hasReceive) = true
    then (s2.setLineRecord l r).addReceive l else s2.setLineRecord l r) = s4
  have hKept4 : s4.StoriesKept := by
    rw [← hs4]
    split
    · exact hKept3.addReceive l
    · exact hKept3
  have hDist4 : (s4.line l).dist = (s2.line l).dist := by
    rw [← hs4]
    split <;> simp [State.addReceive, State.setLineRecord]
  have hKept5 : State.StoriesKept (if (!old && new) = true then s4.addSend l else s4) := by
    split
    · rename_i hAdds
      refine hKept4.modLine ?_ rfl rfl
      have hNone : (old && new) = false := by
        revert hAdds
        cases old <;> cases new <;> simp
      rw [hDist4, hEmpty2 hNone]
      exact .refl _
    · exact hKept4
  -- what a kept side does
  generalize (if (!old && new) = true then s4.addSend l else s4) = s5 at hKept5 ⊢
  have hKept6 : State.StoriesKept (if (old && new) = true then
      s5.changeMotorControl l (s.line l).record.motorControl r.motorControl else s5) := by
    split
    · exact (Sends.changeMotorControl ..).stories hKept5
    · exact hKept5
  generalize (if (old && new) = true then s5.changeMotorControl l (s.line l).record.motorControl r.motorControl else s5) = s6
    at hKept6 ⊢
  refine (Inert.wakeConverter _).stories ?_
  split <;> split
  · exact (Inert.feedFilter ..).stories (hKept6.commitHeld l)
  · exact (Inert.feedFilter ..).stories hKept6
  · exact hKept6.commitHeld l
  · exact hKept6

/-! ## Desk commands -/

theorem newComposed_ok (s : State) (p : Port) (priority : Priority) (w g : Prop) : (s.newComposed p priority).Ok w g where
  holder := by simp [State.newComposed]
  interest := fun q h => by cases h; cases p <;> rfl
  closed := by simp [State.newComposed]
  length := Nat.zero_le _
  doubtful := Nat.zero_le _
  cells := fun _ => by simp [State.newComposed, cellsFor, Config.cellPlaces]
  pending := fun h => absurd rfl h
  retained := fun _ h => nomatch h

/-- Characters appended to a COMPOSING story, with the cells they need. -/
theorem appendChars (hs : s.StoriesKept) {h : Handle} {st : Story} (hNamed : s.storyOf h = some st)
    (hComposing : st.state = .composing) (n : Nat) (cs : List Byte) (hCap : st.length + cs.length ≤ Config.storyCap)
    (hCells : cellsFor st.length + (s.store.freeList.take n).length = cellsFor (st.length + cs.length)) :
    (s.appendChars h n cs).StoriesKept := by
  obtain ⟨hGen, hRecord⟩ := storyOf_eq_some hNamed
  have hLaw := hs.story _ _ hRecord
  have hGrown := hs.allocate hRecord n
  have hGrownRecord : (s.modStore fun x => x.allocate h.index n).record h.index =
      { generation := (s.record h.index).generation, story := some { st with chain := st.chain ++ s.store.freeList.take n } } := by
    rw [record_set (allocate_records hRecord n), if_pos rfl]
  have hGrownNamed : (s.modStore fun x => x.allocate h.index n).storyOf h =
      some { st with chain := st.chain ++ s.store.freeList.take n } := by
    simp [State.storyOf, hGrownRecord, hGen]
  unfold State.appendChars
  dsimp only
  generalize (s.modStore fun x => x.allocate h.index n) = u at hGrown hGrownRecord hGrownNamed ⊢
  rw [hGrownNamed]
  dsimp only
  generalize ht :
    (u.modStore fun x => { x with text := x.text.putChars (st.chain ++ s.store.freeList.take n) st.length cs }) = t
  have hText : t.StoriesOk (Slack.nothing.grow h.index) := by
    rw [← ht]
    exact hGrown.apart rfl rfl
  have hTextNamed : t.storyOf h = some { st with chain := st.chain ++ s.store.freeList.take n } := by
    rw [← ht]
    exact hGrownNamed
  obtain ⟨hGen', hRecord'⟩ := storyOf_eq_some hTextNamed
  rw [modStory_some hTextNamed, ← hGen']
  refine hText.setStory (y := .nothing) hRecord' rfl id (fun k => ?_) (fun _ _ => id) (fun j hj hWaits => hWaits.elim id hj) rfl
    fun _ => id
  refine ⟨k.holder, k.interest, k.closed, hCap, k.doubtful.trans (Nat.le_add_right ..), fun _ => ?_, k.pending, fun _ hc => ?_⟩
  · dsimp only
    rw [List.length_append, hLaw.cells id, hCells]
  · dsimp only at hc
    rw [hComposing] at hc
    cases hc

theorem completed_ok {st : Story} {stamp : Stamp} (hs : st.Ok False False) : (st.completed stamp).Ok False False := by
  unfold Story.completed
  split
  · rename_i hState
    refine ⟨by simp, nofun, by simp, hs.length, hs.doubtful, hs.cells, fun _ => rfl, fun _ _ => ?_⟩
    cases hHolder : st.holder with
    | none =>
      have := hs.holder.mp hHolder
      exact absurd hState this
    | some p =>
      have := hs.interest p hHolder
      cases p with
      | a => exact .inl this
      | b => exact .inr (.inl this)
  · exact hs
  · exact hs

theorem submitted (hs : s.StoriesKept) {h : Handle} {st : Story} (hNamed : s.storyOf h = some st)
    (hState : st.state ≠ .assembling) (p : Priority) (w : Submitter) (ls : List LineNo) :
    (((s.modStory h fun st => st.completed s.stamp).tryLines h p w ls).2.freeingTest h.index).StoriesKept := by
  have hComplete : (st.completed s.stamp).state = .complete := by
    unfold Story.completed
    split
    · rfl
    · rename_i h'; exact absurd h' hState
    · assumption
  have hCompleted : (s.modStory h fun st => st.completed s.stamp).StoriesKept := by
    refine hs.modStory h fun z hz => ?_
    rw [hNamed] at hz
    cases hz
    exact ⟨by unfold Story.completed; split <;> rfl, fun hc => absurd hc hState, completed_ok⟩
  have hNamedNow : (s.modStory h fun st => st.completed s.stamp).storyOf h = some (st.completed s.stamp) :=
    storyOf_modStory_same hNamed _
  have hKept : (st.completed s.stamp).isKept := by
    have hLaw := (hCompleted.story _ _ (storyOf_eq_some hNamedNow).2).retained id hComplete
    exact .inr hLaw
  have hTried := ((hCompleted.retain h.index).offered hNamedNow hComplete hKept).tryLines (.inr rfl) (fun _ => rfl) p w ls
  refine State.StoriesOk.freeingTest ?_
  obtain ⟨z, hz, hzState, -⟩ := hTried.names
  have hSame := hTried.ok
  rwa [State.setStoryState, modStory_self] at hSame
  intro y hy
  rw [hz] at hy
  cases hy
  rw [← hzState]

/-- A port dropped from the interest set of a story that it does not hold. -/
theorem released (hs : s.StoriesKept) {h : Handle} {st : Story} {p : Port} (hNamed : s.storyOf h = some st)
    (hHolds : ¬(st.state = .composing ∧ st.holder = some p)) :
    ((s.modStory h fun st => { st with interest := st.interest.drop p }).freeingTest h.index).StoriesKept := by
  refine ((hs.retain h.index).modStory h fun z hz => ?_).freeingTest
  rw [hNamed] at hz
  cases hz
  refine ⟨rfl, id, fun k => ⟨k.holder, fun q hq => ?_, k.closed, k.length, k.doubtful, k.cells, k.pending,
    fun hw => absurd (.inr rfl) hw⟩⟩
  have hIn := k.interest q hq
  have hComposing : st.state = .composing := by
    by_contra hc
    rw [k.holder.mpr hc] at hq
    cases hq
  have hOther : q ≠ p := fun e => hHolds ⟨hComposing, e ▸ hq⟩
  cases q <;> cases p
  · exact absurd rfl hOther
  · exact hIn
  · exact hIn
  · exact absurd rfl hOther

end State.StoriesOk

theorem cellsFor_mono {m n : Nat} (h : m ≤ n) : cellsFor m ≤ cellsFor n := by
  unfold cellsFor
  simp only [Config.cellPlaces]
  omega

theorem WorkEffect.stories {p : Port} {s t : State} (hLaw : s.Lawful) (hs : s.StoriesKept) (h : WorkEffect p s t) :
    t.StoriesKept := by
  cases h with
  | configured l r => exact hs.takeRecord l r
  | reset l _ => exact hs.resetLine l
  | held l _ => exact (Sends.holdLine _).stories hs
  | resumed l _ => exact (Sends.resumeLine _).stories hs
  | opened i priority hFree => exact hs.makeStory (lowestFree_free hFree) (State.StoriesOk.newComposed_ok ..) rfl
  | appended h st cs hNamed hComposing hCap hNoCell =>
    have := cellsFor_mono (Nat.le_add_right st.length cs.length)
    exact hs.appendChars hNamed hComposing 0 cs hCap (by rw [List.take_zero, List.length_nil]; omega)
  | appendedCells h st cs hNamed hComposing hCap hFree =>
    have := cellsFor_mono (Nat.le_add_right st.length cs.length)
    have := hLaw.store.count
    refine (hs.appendChars hNamed hComposing _ cs hCap ?_).afterAllocation
    rw [List.length_take]
    omega
  | submitted h st ls hNamed hState => exact hs.submitted hNamed hState _ _ ls
  | withdrawn h st ls _ => exact ((hs.retain h.index).withdrawLines ls (fun _ => rfl) (.inr rfl)).freeingTest
  | retained h st _ =>
    refine hs.modStory h fun z _ => ⟨rfl, id, fun k => ⟨k.holder, fun q hq => ?_, k.closed, k.length, k.doubtful, k.cells,
      k.pending, fun hw hc => ?_⟩⟩
    · have hIn := k.interest q hq
      cases q <;> cases p
      exacts [rfl, hIn, hIn, rfl]
    · obtain ha | hb | hp := k.retained hw hc
      · cases p
        · exact .inl rfl
        · exact .inl ha
      · cases p
        · exact .inr (.inl hb)
        · exact .inr (.inl rfl)
      · exact .inr (.inr hp)
  | released h st hNamed hHolds => exact hs.released hNamed hHolds
  | discarded h st hNamed hComposing =>
    have hRecord := (storyOf_eq_some hNamed).2
    have hPending : st.pending = 0 := by
      by_contra hp
      have := (hs.story _ _ hRecord).pending hp
      rw [hComposing] at this
      cases this
    refine hs.freeStory hRecord hPending (by rw [hComposing]; decide) (fun t => ?_) (fun t => ?_) (fun _ _ => id) (fun _ _ => id)
      rfl fun _ => id
    · split
      · rw [post_store]
      · rfl
    · split
      · exact post_lines ..
      · rfl

theorem CommandEffect.stories {p : Port} {s t : State} (hLaw : s.Lawful) (hs : s.StoriesKept) (h : CommandEffect p s t) :
    t.StoriesKept := by
  obtain h | h := h
  · exact hs.apart h.apart.lines h.apart.records
  · exact h.stories hLaw hs

/-! ## Rows and steps -/

theorem LineEffect.stories {s t : State} (hs : s.StoriesKept) (h : LineEffect s t) : t.StoriesKept := by
  cases h with
  | current c i => exact (Inert.setCurrent s c i).stories hs
  | change l => exact (Inert.completeChange s l).stories hs
  | conversion => exact hs.endConversion
  | startCheck l => exact (Inert.modRx s l _).stories hs
  | element l _ => exact (Inert.modRx s l _).stories hs
  | stop l => exact hs.sampleStop l
  | space l _ => exact hs.openLine l
  | idleGap l => exact hs.idleGapOver l
  | frameEnd l => exact (Sends.endFrame s).stories hs
  | key l _ => exact (Inert.wakeConverter _).stories (hs.modSend l _)
  | startDelay l => exact (Sends.startDelayOver s).stories hs
  | stopDelay l _ _ => exact hs.modSend l _
  | guard l => exact (Sends.guardOver s).stories hs

theorem RowEffect.stories {s t : State} (hLaw : s.Lawful) (hs : s.StoriesKept) (h : RowEffect s t) : t.StoriesKept := by
  cases h with
  | still => exact hs
  | tone timer _ => exact hs.apart rfl rfl
  | gap => exact hs.apart rfl rfl
  | line h => exact h.stories hs
  | link h =>
    obtain h | ⟨p, u, v, hBefore, hLawful, hCommand, hAfter⟩ := h.apart_or_command
    · exact hs.apart h.lines h.records
    · exact (hCommand.stories (hLawful hLaw) (hs.apart hBefore.lines hBefore.records)).apart hAfter.lines hAfter.records

/-- No story and no line that holds one. -/
theorem poweredOn_stories (s : State) : s.poweredOn.StoriesKept where
  story := fun i st h => by simp at h
  once := fun l => by rw [poweredOn_line]; exact List.nodup_nil
  pending := fun l h => by
    rw [poweredOn_line]
    refine ⟨fun hHeld => (nomatch hHeld), fun ⟨st, hStory, _⟩ => ?_⟩
    obtain ⟨-, hRecord⟩ := storyOf_eq_some hStory
    simp at hRecord
  sendless := fun l _ _ => by rw [poweredOn_line]; rfl
  assembling := fun l h hOpen => by
    rw [poweredOn_line] at hOpen
    cases hOpen
  alone := fun l m h hOpen => by
    rw [poweredOn_line] at hOpen
    cases hOpen

/-- Settles O58: time, queue, POWER_ON and every effect of a row keep the laws, the laws of the shared blocks going along. -/
theorem everyStepKeepsTheStoryLaws : Obligations.EveryStepKeepsTheStoryLaws := fun s t hLaw hs hStep => by
  have hKept := step_keeps (P := fun s => s.Lawful ∧ s.StoriesKept)
    (fun _ q h => ⟨lawful_setPending h.1 q, h.2.apart rfl rfl⟩)
    (fun s d h => ⟨lawful_advanceTo h.1 d, h.2.apart (advanceTo_lines s d) (by rw [advanceTo_store])⟩)
    (fun s _ => ⟨poweredOn_isLawful s, poweredOn_stories s⟩) (fun _ _ h e => ⟨e.lawful h.1, e.stories h.1 h.2⟩)
    ⟨hLaw, (State.storiesLawful_iff s).mp hs⟩ hStep
  exact (State.storiesLawful_iff t).mpr hKept.2

end Sys2Proof.Machine
end

section
/-! SUPPORT. When each event of the part's own is due, and each timed row at its moment (R1, R36 to R61, R82, R154 to R176, R189);
steps, power-on, the day clock and the bell. -/

namespace Sys2Proof.Machine

/-! ## Due ticks -/

/-- A timed row at its moment. -/
theorem whenDue_of_eq_some {s : State} {due : Option Nat} {d : Nat} (h : due = some d) (act : State → State) :
    s.whenDue due act = act (s.advanceTo d) := by
  rw [h]
  rfl

section
variable (x : Line) (d : Nat)

theorem pendingDue_eq_some_iff : x.pendingDue = some d ↔
    ∃ f p, x.filter = some f ∧ f.pending = some p ∧ x.firstAt p.since = true ∧ d = p.since + p.filter := by
  unfold Line.pendingDue
  cases hf : x.filter with
  | none => simp
  | some f => cases hp : f.pending <;> simp [hp, @eq_comm Nat d]

theorem startCheckDue_eq_some_iff : x.startCheckDue = some d ↔
    ∃ c, x.rx.state = .inCharacter c ∧ c.confirmed = false ∧ d = c.startCheckTick ∧ x.settled d = true ∧ x.firstAt d = true := by
  unfold Line.startCheckDue
  cases hs : x.rx.state with
  | inCharacter c => cases hc : c.confirmed <;> simp [RxState.char, hc, Line.onceSettled_eq_some]
  | _ => simp [RxState.char]

theorem elementDue_eq_some_iff : x.elementDue = some d ↔
    ∃ c, x.rx.state = .inCharacter c ∧ c.confirmed = true ∧ c.elements.length < 5 ∧
      d = c.elementTick (c.elements.length + 1) ∧ x.settled d = true ∧ x.firstAt d = true := by
  unfold Line.elementDue
  cases hs : x.rx.state with
  | inCharacter c => simp [RxState.char, Line.onceSettled_eq_some, and_assoc]
  | _ => simp [RxState.char]

theorem stopDue_eq_some_iff : x.stopDue = some d ↔
    ∃ c, x.rx.state = .inCharacter c ∧ c.confirmed = true ∧ 5 ≤ c.elements.length ∧ d = c.stopTick ∧
      x.settled d = true ∧ x.firstAt d = true := by
  unfold Line.stopDue
  cases hs : x.rx.state with
  | inCharacter c => simp [RxState.char, Line.onceSettled_eq_some, and_assoc]
  | _ => simp [RxState.char]

theorem spaceDue_eq_some_iff : x.spaceDue = some d ↔
    ∃ k, x.rx.space = some k ∧ d = k.begun + k.openTime ∧ x.settled d = true ∧ x.firstAt d = true := by
  unfold Line.spaceDue
  cases x.rx.space <;> simp [Line.onceSettled_eq_some]

theorem idleGapDue_eq_some_iff : x.idleGapDue = some d ↔ ∃ t, x.asm.idleGap = some t ∧ d = t.due := by
  unfold Line.idleGapDue
  cases x.asm.idleGap <;> simp [eq_comm]

theorem keyDue_eq_some_iff : x.keyDue = some d ↔
    ∃ f, x.send.frame = some f ∧ f.element < 6 ∧ d = f.start + (f.element + 1) * f.unit := by
  unfold Line.keyDue
  cases x.send.frame <;> simp [eq_comm]

theorem frameEndDue_eq_some_iff : x.frameEndDue = some d ↔ ∃ f, x.send.frame = some f ∧ d = f.endTick := by
  unfold Line.frameEndDue
  cases x.send.frame <;> simp [eq_comm]

theorem startDelayDue_eq_some_iff : x.startDelayDue = some d ↔ ∃ t, x.send.startDelay = some t ∧ d = t.due := by
  unfold Line.startDelayDue
  cases x.send.startDelay <;> simp [eq_comm]

theorem stopDelayDue_eq_some_iff : x.stopDelayDue = some d ↔
    x.send.state = .idle ∧ ∃ t, x.send.stopDelay = some t ∧ d = t.due := by
  unfold Line.stopDelayDue
  cases x.send.state <;> cases x.send.stopDelay <;> simp [eq_comm]

theorem guardDue_eq_some_iff : x.guardDue = some d ↔ ∃ t, x.send.guard = some t ∧ d = t.due := by
  unfold Line.guardDue
  cases x.send.guard <;> simp [eq_comm]

end

theorem conversionDue_eq_some_iff (s : State) (d : Nat) :
    s.conversionDue = some d ↔ ∃ k, s.converter.conversion = some k ∧ d = k.start + 512 := by
  unfold State.conversionDue Config.conversionTicks
  cases s.converter.conversion <;> simp [eq_comm]

theorem toneDue_eq_some_iff (b : Bell) (d : Nat) : b.toneDue = some d ↔ ∃ t, b.phase = .tone t ∧ d = t.due := by
  unfold Bell.toneDue
  cases b.phase <;> simp [eq_comm]

theorem bellGapDue_eq_some_iff (b : Bell) (d : Nat) : b.gapDue = some d ↔ ∃ t, b.phase = .gap t ∧ d = t.due := by
  unfold Bell.gapDue
  cases b.phase <;> simp [eq_comm]

theorem linkGapDue_eq_some_iff (q : DeskPort) (d : Nat) : q.gapDue = some d ↔ ∃ g, q.gapFrom = some g ∧ d = g + 40960 := by
  unfold DeskPort.gapDue Config.gapTicks
  cases q.gapFrom <;> simp [eq_comm]

theorem responseDue_eq_some_iff (q : DeskPort) (d : Nat) :
    q.responseDue = some d ↔ ∃ y, q.response = some y ∧ d = y.start + y.bytes.length * (10 * y.rate / 8) := by
  unfold DeskPort.responseDue
  cases q.response <;> simp [eq_comm, Response.endTick, byteTicks]

theorem silenceDue_eq_some_iff (q : DeskPort) (d : Nat) :
    q.silenceDue = some d ↔ q.silence = .active ∧ ∃ t, q.silenceTimer = some t ∧ d = t.due := by
  unfold DeskPort.silenceDue
  cases q.silence <;> cases q.silenceTimer <;> simp [eq_comm]

/-! ## Steps -/

/-- Settles O1. -/
theorem stepRunsTheFrontCommand : Obligations.StepRunsTheFrontCommand := by
  intro s c rest hPending
  unfold step
  rw [hPending]

theorem step_of_empty {s : State} (h : s.pending = []) : step s = .next s.idle := by
  unfold step
  rw [h]

theorem allLines_eq_finRange : allLines = List.finRange 16 := by decide

theorem ownEvents_eq : ownEvents =
    (List.finRange 16).flatMap lineEvents ++
      [.conversionEnd, .bellToneEnd, .bellGapEnd, .gapTimerExpiry .a, .responseEnd .a, .silenceTimerExpiry .a,
        .gapTimerExpiry .b, .responseEnd .b, .silenceTimerExpiry .b] := by
  rw [ownEvents, allLines_eq_finRange, List.append_assoc, List.append_assoc]
  rfl

theorem lineEvents_subset {l : LineNo} {c : Instr} (h : c ∈ lineEvents l) : c ∈ ownEvents := by
  rw [ownEvents_eq]
  exact List.mem_append_left _ (List.mem_flatMap.mpr ⟨l, List.mem_finRange l, h⟩)

theorem mem_ownEvents_of_due {s : State} {c : Instr} {d : Nat} (h : s.dueTick c = some d) : c ∈ ownEvents := by
  have ofPort : ∀ p, portEvents p ⊆ ownEvents := by
    intro p e he
    rw [ownEvents_eq]
    refine List.mem_append_right _ ?_
    cases p <;> simp only [portEvents, List.mem_cons, List.not_mem_nil, or_false] at he ⊢ <;> tauto
  cases c with
  | pendingChangeComplete l => exact lineEvents_subset (l := l) (by simp [lineEvents])
  | startCheck l => exact lineEvents_subset (l := l) (by simp [lineEvents])
  | elementSample l => exact lineEvents_subset (l := l) (by simp [lineEvents])
  | stopSample l => exact lineEvents_subset (l := l) (by simp [lineEvents])
  | spaceCountExpiry l => exact lineEvents_subset (l := l) (by simp [lineEvents])
  | idleGapExpiry l => exact lineEvents_subset (l := l) (by simp [lineEvents])
  | keyLevelChange l => exact lineEvents_subset (l := l) (by simp [lineEvents])
  | frameEnd l => exact lineEvents_subset (l := l) (by simp [lineEvents])
  | startDelayExpiry l => exact lineEvents_subset (l := l) (by simp [lineEvents])
  | stopDelayExpiry l => exact lineEvents_subset (l := l) (by simp [lineEvents])
  | guardTimerExpiry l => exact lineEvents_subset (l := l) (by simp [lineEvents])
  | conversionEnd => rw [ownEvents_eq]; simp
  | bellToneEnd => rw [ownEvents_eq]; simp
  | bellGapEnd => rw [ownEvents_eq]; simp
  | gapTimerExpiry p => exact ofPort p (by simp [portEvents])
  | responseEnd p => exact ofPort p (by simp [portEvents])
  | silenceTimerExpiry p => exact ofPort p (by simp [portEvents])
  | _ => cases h

/-- With no event due the clock ticks. -/
theorem idle_of_none_due {s : State} (h : ∀ c ∈ ownEvents, ∀ d, s.dueTick c = some d → s.tick < d) :
    s.idle = s.advanceTo (s.tick + 1) := by
  have hNone : s.dueEvents = [] := by
    rw [State.dueEvents, List.filter_eq_nil_iff]
    intro c hc hDue
    obtain ⟨d, hd, hLate⟩ := (isDue_iff s c).mp hDue
    exact absurd (h c hc d hd) (by omega)
  rw [State.idle, hNone]
  rfl

/-- The event due first joins the queue; of two due at one tick, the first of the list. -/
theorem idle_of_due {s : State} {before after : List Instr} {c : Instr} {d : Nat} (hEvents : ownEvents = before ++ c :: after)
    (hDue : s.dueTick c = some d) (hLate : d ≤ s.tick) (hBefore : ∀ e ∈ before, ∀ k, s.dueTick e = some k → d < k)
    (hAfter : ∀ e ∈ after, ∀ k, s.dueTick e = some k → d ≤ k) : s.idle = { s with pending := [c] } := by
  have hSplit : s.dueEvents = before.filter s.isDue ++ c :: after.filter s.isDue := by
    rw [State.dueEvents, hEvents, List.filter_append, List.filter_cons_of_pos ((isDue_iff s c).mpr ⟨d, hDue, hLate⟩)]
  have hSoonest : s.soonest s.dueEvents = some c := by
    rw [hSplit]
    refine soonest_eq s c _ (fun e he => ?_) _ fun e he => ?_
    · obtain ⟨hMem, hIs⟩ := List.mem_filter.mp he
      obtain ⟨k, hk, -⟩ := (isDue_iff s e).mp hIs
      simpa [hDue, hk] using hAfter e hMem k hk
    · obtain ⟨hMem, hIs⟩ := List.mem_filter.mp he
      obtain ⟨k, hk, -⟩ := (isDue_iff s e).mp hIs
      simpa [hDue, hk] using hBefore e hMem k hk
  rw [State.idle, hSoonest]

/-- Settles O2: the list, the due ticks, and the choice among the events that have come due. -/
theorem stepOnTheEmptyQueue : Obligations.StepOnTheEmptyQueue := by
  refine ⟨ownEvents_eq, fun s l d => ?_, fun s p d => ?_, fun s hEmpty => ⟨fun h => ?_, fun before c after d hEvents hDue hLate
    hBefore hAfter => ?_, fun c d => mem_ownEvents_of_due⟩⟩
  · exact ⟨pendingDue_eq_some_iff _ d, startCheckDue_eq_some_iff _ d, elementDue_eq_some_iff _ d, stopDue_eq_some_iff _ d,
      spaceDue_eq_some_iff _ d, idleGapDue_eq_some_iff _ d, keyDue_eq_some_iff _ d, frameEndDue_eq_some_iff _ d,
      startDelayDue_eq_some_iff _ d, stopDelayDue_eq_some_iff _ d, guardDue_eq_some_iff _ d⟩
  · exact ⟨conversionDue_eq_some_iff s d, toneDue_eq_some_iff _ d, bellGapDue_eq_some_iff _ d, linkGapDue_eq_some_iff _ d,
      responseDue_eq_some_iff _ d, silenceDue_eq_some_iff _ d⟩
  · rw [step_of_empty hEmpty, idle_of_none_due h]
  · rw [step_of_empty hEmpty, idle_of_due hEvents hDue hLate hBefore hAfter]

/-! ## Time -/

theorem advanceTo_of_lt {s : State} {t : Nat} (h : s.tick < t) :
    s.advanceTo t =
      { s with tick := t, room := { s.room with clock := s.room.clock.run (t / 4096 - s.tick / 4096) } } :=
  if_neg (by omega)

theorem DayClock.run_lawful (c : DayClock) (edges : Nat) : (c.run edges).Lawful :=
  ⟨Nat.mod_lt _ (by decide), Nat.mod_lt _ (by decide), Nat.mod_lt _ (by decide)⟩

/-- Each edge is a millisecond, and the days that pass carry into the day number. -/
theorem DayClock.run_counts (c : DayClock) (edges : Nat) :
    ∃ days, (c.run edges).second * 1000 + (c.run edges).millis + days * 86400000 = c.second * 1000 + c.millis + edges ∧
      (c.run edges).day = (c.day + days) % 65536 := by
  refine ⟨(c.second + (c.millis + edges) / 1000) / 86400, ?_, rfl⟩
  simp only [run, Config.msPerSecond, Config.secondsPerDay]
  omega

/-- The edges that complete the second in progress. -/
theorem DayClock.run_second {c : DayClock} (h : c.Lawful) :
    c.run (1000 - c.millis) =
      { day := if c.second = 86399 then (if c.day = 65535 then 0 else c.day + 1) else c.day
        second := if c.second = 86399 then 0 else c.second + 1
        millis := 0
        isSet := c.isSet } := by
  obtain ⟨hDay, hSecond, hMillis⟩ := h
  simp only [Config.dayNumbers, Config.secondsPerDay, Config.msPerSecond] at hDay hSecond hMillis
  have hWhole : c.millis + (1000 - c.millis) = 1000 := by omega
  simp only [run, Config.dayNumbers, Config.secondsPerDay, Config.msPerSecond, hWhole, DayClock.mk.injEq, and_true]
  refine ⟨?_, ?_⟩
  · split
    · split <;> omega
    · omega
  · split <;> omega

/-- Settles O3. -/
theorem clockSecondAndTimeResult : Obligations.ClockSecondAndTimeResult := by
  refine ⟨fun s t _ => ⟨fun h => advanceTo_of_le s h, fun h => ?_⟩, fun s h => ?_⟩
  · rw [advanceTo_of_lt h]
    exact ⟨rfl, ⟨rfl, DayClock.run_lawful _ _⟩, DayClock.run_counts _ _⟩
  · have hMillis : s.room.clock.millis < 1000 := h.millis
    have hLater : s.tick < (s.tick / 4096 + (1000 - s.room.clock.millis)) * 4096 := by omega
    have hEdges : (s.tick / 4096 + (1000 - s.room.clock.millis)) * 4096 / 4096 - s.tick / 4096 =
        1000 - s.room.clock.millis := by omega
    have hExec : exec .clockSecond s = .next (s.advanceTo ((s.tick / 4096 + (1000 - s.room.clock.millis)) * 4096)) := rfl
    dsimp only
    rw [hExec, advanceTo_of_lt hLater, hEdges, DayClock.run_second h]

/-! ## Power-on -/

/-- Settles O6: the power-on values, and POWER_ON putting them. -/
theorem powerOnResult : Obligations.PowerOnResult := by
  refine ⟨⟨fun l => ?_, rfl, fun k => ?_, reset_record, ⟨rfl, rfl, rfl, rfl, rfl, rfl⟩, fun p => ?_, rfl⟩,
    fun s => ⟨s.poweredOn, rfl, rfl, rfl, rfl, rfl, rfl, rfl, rfl, rfl, fun l => ?_⟩⟩
  · rw [reset_line]
    exact ⟨rfl, rfl, rfl, rfl, rfl, rfl, rfl, rfl, rfl⟩
  · have hFixed : State.reset.tables.get k = fixedTable := by simp [State.reset, Vector.get_eq_getElem]
    rw [hFixed]
    rfl
  · rw [reset_port]
    rfl
  · rw [poweredOn_line, reset_line]

/-! ## The bell -/

theorem ringFor_of_zero {s : State} {p : Priority} (h : s.room.options.bellCounts.get p.index = 0) : s.ringFor p = s :=
  if_pos h

theorem exec_bellToneEnd_of_tone {s : State} {t : Timer} (h : s.room.bell.phase = .tone t) :
    exec .bellToneEnd s = .next (s.advanceTo t.due).endTone :=
  congrArg Host.Outcome.next (whenDue_of_eq_some ((toneDue_eq_some_iff _ _).mpr ⟨t, h, rfl⟩) State.endTone)

theorem exec_bellGapEnd_of_gap {s : State} {t : Timer} (h : s.room.bell.phase = .gap t) :
    exec .bellGapEnd s = .next (s.advanceTo t.due).endGap :=
  congrArg Host.Outcome.next (whenDue_of_eq_some ((bellGapDue_eq_some_iff _ _).mpr ⟨t, h, rfl⟩) State.endGap)

/-- Settles O7. -/
theorem bellUnitResult : Obligations.BellUnitResult := by
  refine ⟨fun b => ⟨fun t h => ?_, fun h => ?_⟩, fun s p => ⟨ringFor_of_zero, fun hCount hQuiet => ?_, fun hCount hRings => ?_⟩,
    fun s t => ⟨fun h => ?_, fun h hMore => ?_, fun h hLast => ?_⟩⟩
  · simp [Bell.output, h]
  · cases hPhase : b.phase with
    | tone t => exact absurd hPhase (h t)
    | _ => simp [Bell.output, hPhase]
  · simp [State.ringFor, hCount, hQuiet, State.modRoom, State.timerMs, Config.bellMs]
  · cases hPhase : s.room.bell.phase with
    | quiet => exact absurd hPhase hRings
    | _ => simp [State.ringFor, hCount, hPhase, State.modRoom]
  · rw [exec_bellToneEnd_of_tone h]
    simp [State.endTone, State.modRoom, State.timerMs, Config.bellMs]
  · rw [exec_bellGapEnd_of_gap h]
    have hLeft : ¬s.room.bell.remaining - 1 = 0 := by omega
    simp [State.endGap, State.modRoom, State.timerMs, Config.bellMs, hLeft]
  · rw [exec_bellGapEnd_of_gap h]
    have hNone : s.room.bell.remaining - 1 = 0 := by omega
    simp [State.endGap, State.modRoom, hNone]

end Sys2Proof.Machine
end

section
/-! SUPPORT. The sensing and reception rows at their moments: the filter (R36), the report (R55), the converter (R38 to R44), the
sample decisions (R51 to R53) and the open line (R61). -/

namespace Sys2Proof.Machine

/-! ## Raw levels and the filter -/

theorem rawLevel_neutral {r : LineRecord} (h : r.keying = .neutral) (i : Int) :
    r.rawLevel i = .mark ↔ (r.markThreshold : Int) * 100000 ≤ i * 256 := by
  simp [LineRecord.rawLevel, h]

theorem rawLevel_polar {r : LineRecord} (h : r.keying = .polar) (i : Int) : r.rawLevel i = .mark ↔ 0 < i := by
  simp [LineRecord.rawLevel, h]

theorem FilterTime.ticks_eq_zero (f : FilterTime) : f.ticks = 0 ↔ f = .none := by
  cases f <;> simp [FilterTime.ticks]

section
variable {v : State} {l : LineNo} {f : InputFilter}

theorem rawChanged_of_no_filter (h : (v.line l).filter = none) : v.rawChanged l = v := by
  simp [State.rawChanged, h]

/-- A level that is neither the filter's own while nothing is pending nor a return to it while something is. -/
theorem rawChanged_of_same (hf : (v.line l).filter = some f) (h : f.pending = none ↔ (v.line l).rawLevel = f.level) :
    v.rawChanged l = v := by
  cases hp : f.pending with
  | none => simp [State.rawChanged, hf, hp, h.mp hp]
  | some p =>
    have hOther : (v.line l).rawLevel ≠ f.level := fun e => absurd (h.mpr e) (by simp [hp])
    simp [State.rawChanged, hf, hp, hOther]

theorem rawChanged_discards (hf : (v.line l).filter = some f) (hp : f.pending ≠ none) (h : (v.line l).rawLevel = f.level) :
    v.rawChanged l = v.modLine l fun x => { x with filter := some { level := f.level, pending := none } } := by
  obtain ⟨p, hp⟩ := Option.ne_none_iff_exists'.mp hp
  simp [State.rawChanged, hf, hp, h]

theorem rawChanged_begins (hf : (v.line l).filter = some f) (hp : f.pending = none) (h : (v.line l).rawLevel ≠ f.level)
    (hWait : (v.line l).record.inputFilter ≠ .none) :
    v.rawChanged l = v.modLine l fun x =>
      { x with
        filter := some
          { level := f.level
            pending := some
              { level := (v.line l).rawLevel, since := v.tick, filter := (v.line l).record.inputFilter.ticks } } } := by
  simp [State.rawChanged, hf, hp, h, (FilterTime.ticks_eq_zero _).not.mpr hWait]

theorem completeChange_of_pending {p : PendingChange} (hf : (v.line l).filter = some f) (hp : f.pending = some p) :
    v.completeChange l =
      (v.modLine l fun x => { x with filter := some { level := p.level, pending := none } }).report l p.level p.since := by
  simp [State.completeChange, hf, hp]

theorem rawChanged_completes (hf : (v.line l).filter = some f) (hp : f.pending = none) (h : (v.line l).rawLevel ≠ f.level)
    (hWait : (v.line l).record.inputFilter = .none) :
    v.rawChanged l =
      (v.modLine l fun x => { x with filter := some { level := (v.line l).rawLevel, pending := none } }).report l
        (v.line l).rawLevel v.tick := by
  have hTicks := (FilterTime.ticks_eq_zero _).mpr hWait
  simp only [State.rawChanged, hf, hp, if_neg h, if_pos hTicks]
  rw [completeChange_of_pending (congrArg Line.filter (line_modLine_same ..)) rfl, modLine_modLine]

end

theorem channelSide_receive {c : ChannelNo} (h : c.val < 16) : channelSide c = .receive := if_pos h

theorem channelSide_send {c : ChannelNo} (h : 16 ≤ c.val) : channelSide c = .send := if_neg (by omega)

theorem setCurrent_receive {s : State} {c : ChannelNo} (h : c.val < 16) (i : Int) :
    s.setCurrent c i =
      ((s.modLine (channelLine c) fun x => { x with rxCurrent := i }).feedFilter (channelLine c)
        (s.line (channelLine c)).rawLevel).wakeConverter := by
  simp [State.setCurrent, channelSide_receive h]

theorem setCurrent_send {s : State} {c : ChannelNo} (h : 16 ≤ c.val) (i : Int) :
    s.setCurrent c i = s.modLine (channelLine c) fun x => { x with txCurrent := i } := by
  simp [State.setCurrent, channelSide_send h]

theorem feedFilter_of_same {v : State} {l : LineNo} {before : Level} (h : (v.line l).rawLevel = before) :
    v.feedFilter l before = v := if_pos h

theorem feedFilter_of_changed {v : State} {l : LineNo} {before : Level} (h : (v.line l).rawLevel ≠ before) :
    v.feedFilter l before = v.rawChanged l := if_neg h

/-- Settles O8: with the new current on the pin, the row is the filter told of its raw level. -/
theorem rawLevelChangeResult : Obligations.RawLevelChangeResult := by
  refine ⟨fun r i => ⟨fun h => rawLevel_neutral h i, fun h => rawLevel_polar h i⟩, fun s c i t => ?_⟩
  intro u l x done
  have hBefore : (s.line l).rawLevel = (u.line l).rawLevel := by simp [u]
  have hDone : done = .next (u.setCurrent c i) := rfl
  generalize hv : (u.modLine l fun x => { x with rxCurrent := i }) = v
  have hConst : v = u.modLine l fun _ => x := by rw [← hv]; exact modLine_congr rfl
  have hLine : v.line l = x := by rw [hConst, line_modLine_same]
  have hTick : v.tick = u.tick := by rw [← hv]; rfl
  have hRow : c.val < 16 → done = .next (v.feedFilter l (s.line l).rawLevel).wakeConverter := by
    intro hc
    rw [hDone, setCurrent_receive hc, hBefore, hv]
  refine ⟨fun hc => by rw [hDone, setCurrent_send hc], fun hc hSame => ?_, fun hc hChanged f hf => ?_⟩
  · rw [hRow hc, ← hConst]
    by_cases hLevel : x.rawLevel = (s.line l).rawLevel
    · rw [feedFilter_of_same (by rw [hLine, hLevel])]
    · rw [feedFilter_of_changed (by rwa [hLine]), rawChanged_of_no_filter (by rw [hLine]; exact hSame.resolve_right hLevel)]
  · have hFilter : (v.line l).filter = some f := by rw [hLine, hf]
    rw [hRow hc, feedFilter_of_changed (by rwa [hLine])]
    refine ⟨fun hp h hWait => ?_, fun hp h hWait => ?_, fun hp h => ?_, fun h => ?_⟩
    · rw [rawChanged_begins hFilter hp (by rwa [hLine]) (by rwa [hLine]), hConst, modLine_modLine, line_modLine_same]
      rfl
    · rw [rawChanged_completes hFilter hp (by rwa [hLine]) (by rwa [hLine]), hLine, hTick, hConst, modLine_modLine]
    · rw [rawChanged_discards hFilter hp (by rwa [hLine]), hConst, modLine_modLine]
    · rw [rawChanged_of_same hFilter (by rwa [hLine]), hConst]

/-! ## Reports -/

/-- A report on a receiver that is not OPEN, or of SPACE, changes the receiver alone. -/
theorem report_quiet {s : State} {l : LineNo} {v : Level} (h : (s.line l).rx.state ≠ .opened ∨ v = .space) (t : Nat) :
    s.report l v t = s.modLine l fun x => { x with rx := x.reported v t } := by
  rcases h with h | rfl <;> simp [State.report, *]

/-- Settles O9. -/
theorem pendingChangeCompleteResult : Obligations.PendingChangeCompleteResult := by
  refine ⟨fun s l f p hf hp hFirst => ?_, fun s l t => ⟨fun v h => ?_, fun h => ⟨?_, ?_⟩, fun c h => ⟨?_, ?_⟩, fun h => ?_,
    fun h => ?_⟩⟩
  · have hDue := (pendingDue_eq_some_iff (s.line l) _).mpr ⟨f, p, hf, hp, hFirst, rfl⟩
    refine congrArg Host.Outcome.next ((whenDue_of_eq_some hDue fun t => t.completeChange l).trans ?_)
    exact completeChange_of_pending (by rwa [advanceTo_line]) hp
  · rw [report_quiet (.inl (by simp [h]))]
    exact modLine_self (by simp [Line.reported, h])
  · rw [report_quiet (.inl (by simp [h]))]
    exact modLine_congr (by simp [Line.reported, h])
  · rw [report_quiet (.inl (by simp [h]))]
    exact modLine_congr (by simp only [Line.reported, h]; rfl)
  · rw [report_quiet (.inl (by simp [h]))]
    exact modLine_congr (by simp only [Line.reported, h]; rfl)
  · rw [report_quiet (.inl (by simp [h]))]
    exact modLine_congr (by simp only [Line.reported, h]; rfl)
  · rw [report_quiet (.inl (by simp [h]))]
    exact modLine_congr (by simp [Line.reported, h])
  · have hReported : (s.modLine l fun x => { x with rx := x.reported .mark t }) =
        s.modRx l fun x => { x with level := some { level := .mark, since := t }, state := .idleMark, space := none } :=
      modLine_congr (by simp [Line.reported, h])
    simp only [State.report, h, hReported]
    rfl

/-! ## The converter -/

section
variable {s : State} {l : LineNo} {was now : LoopState}

theorem sendLoopChanged_of_opened_running (h : now = .opened) (hOff : (s.line l).send.state ≠ .off)
    (hStopped : (s.line l).send.state ≠ .stopped) : s.sendLoopChanged l was now = s.takeBreakIn l := by
  simp only [State.sendLoopChanged, if_pos h]
  cases hs : (s.line l).send.state with
  | off => exact absurd hs hOff
  | stopped => exact absurd hs hStopped
  | _ => rfl

theorem sendLoopChanged_of_opened_resting (h : now = .opened)
    (hRest : (s.line l).send.state = .off ∨ (s.line l).send.state = .stopped) : s.sendLoopChanged l was now = s := by
  rcases hRest with hRest | hRest <;> simp [State.sendLoopChanged, h, hRest]

end

theorem endConversion_of_conversion {s : State} {k : Conversion} (h : s.converter.conversion = some k) :
    s.endConversion =
      (if k.void then { s with converter := { s.converter with conversion := none } }
        else State.classify { s with converter := { s.converter with conversion := none } } (channelLine k.channel)
          (channelSide k.channel) (reading k.current)).searchConverter := by
  simp only [State.endConversion, h]

theorem exec_conversionEnd_of_conversion {s : State} {k : Conversion} (h : s.converter.conversion = some k) :
    exec .conversionEnd s = .next
      (if k.void then { s.advanceTo (k.start + 512) with converter := { s.converter with conversion := none } }
        else State.classify { s.advanceTo (k.start + 512) with converter := { s.converter with conversion := none } }
          (channelLine k.channel) (channelSide k.channel) (reading k.current)).searchConverter := by
  refine congrArg Host.Outcome.next ((whenDue_of_eq_some ((conversionDue_eq_some_iff s _).mpr ⟨k, h, rfl⟩) _).trans ?_)
  rw [endConversion_of_conversion (k := k) (by rw [advanceTo_converter, h]), advanceTo_converter]

section
variable {u : State} {l : LineNo} {side : Side} {value : Nat}

theorem classify_of_same
    (h : (((u.line l).channel side).classified ((u.line l).record.classOf side value)).loop = ((u.line l).channel side).loop) :
    u.classify l side value =
      u.modLine l fun x => x.setChannel side (((u.line l).channel side).classified ((u.line l).record.classOf side value)) :=
  if_pos h

theorem classify_receive (h : (((u.line l).channel .receive).classified ((u.line l).record.classOf .receive value)).loop ≠
      ((u.line l).channel .receive).loop) :
    u.classify l .receive value =
      (u.modLine l fun x =>
        x.setChannel .receive (((u.line l).channel .receive).classified ((u.line l).record.classOf .receive value))).postLine l
          .receive (.loop (((u.line l).channel .receive).classified ((u.line l).record.classOf .receive value)).loop) :=
  if_neg h

theorem classify_send (h : (((u.line l).channel .send).classified ((u.line l).record.classOf .send value)).loop ≠
      ((u.line l).channel .send).loop) :
    u.classify l .send value =
      ((u.modLine l fun x =>
        x.setChannel .send (((u.line l).channel .send).classified ((u.line l).record.classOf .send value))).postLine l
          .send (.loop (((u.line l).channel .send).classified ((u.line l).record.classOf .send value)).loop)).sendLoopChanged l
        ((u.line l).channel .send).loop
        (((u.line l).channel .send).classified ((u.line l).record.classOf .send value)).loop :=
  if_neg h

end

/-- Settles O10. -/
theorem conversionEndResult : Obligations.ConversionEndResult := by
  refine ⟨fun s l was now => ⟨fun h hRest => sendLoopChanged_of_opened_resting h hRest,
    fun h hOff hStopped => sendLoopChanged_of_opened_running h hOff hStopped, fun hWas hNow hBreak => ?_,
    fun hWas hNow hBreak => ?_, fun hNow hWas => ?_⟩, fun s k hk => ?_⟩
  · rcases hNow with rfl | rfl <;> simp [State.sendLoopChanged, hWas, hBreak, State.timerS, State.timerMs, Config.msPerSecond]
  · rcases hNow with rfl | rfl <;> simp [State.sendLoopChanged, hBreak]
  · rcases hWas with hWas | rfl
    · simp [State.sendLoopChanged, hNow, hWas]
    · simp [State.sendLoopChanged]
  · dsimp only
    rw [exec_conversionEnd_of_conversion hk]
    generalize hu : ({ s.advanceTo (k.start + 512) with converter := { s.converter with conversion := none } } : State) = u
    have hLine : s.line (channelLine k.channel) = u.line (channelLine k.channel) := by simp [← hu, State.line]
    rw [hLine, reading]
    refine ⟨fun hVoid => by rw [if_pos hVoid], fun hVoid hSame => ?_, fun hVoid hOther hSide => ?_,
      fun hVoid hOther hSide => ?_⟩
    · rw [if_neg (by simp [hVoid]), classify_of_same hSame]
    · rw [if_neg (by simp [hVoid])]
      rw [hSide] at hOther ⊢
      rw [classify_receive hOther, State.postLine, State.postBoth]
    · rw [if_neg (by simp [hVoid])]
      rw [hSide] at hOther ⊢
      rw [classify_send hOther, State.postLine, State.postBoth]

/-! ## The search -/

theorem channelLine_of_receive {c : ChannelNo} {l : LineNo} (h : c.val = l.val) : channelLine c = l :=
  Fin.ext (by simp [channelLine, h])

theorem channelLine_of_send {c : ChannelNo} {l : LineNo} (h : c.val = 16 + l.val) : channelLine c = l :=
  Fin.ext (by simp [channelLine, h])

/-- The keying a send side keys with, as the choice of R23 and R26. -/
theorem sendKeying_eq_of {x : Line} {keying : Keying}
    (h : (∃ f, x.send.frame = some f ∧ keying = f.keying) ∨
      (x.send.frame = none ∧ ∃ y, x.enc.copy = some y ∧ keying = y.keying) ∨
      (x.send.frame = none ∧ x.enc.copy = none ∧ keying = x.record.keying)) : x.sendKeying = keying := by
  unfold Line.sendKeying
  rcases h with ⟨f, hf, rfl⟩ | ⟨hf, y, hy, rfl⟩ | ⟨hf, hy, rfl⟩
  · simp only [hf]
  · simp only [hf, hy]
  · simp only [hf, hy]

theorem Mode.hasReceive_iff (m : Mode) : m.hasReceive = true ↔ m = .inbound ∨ m = .both := by
  cases m <;> simp [Mode.hasReceive]

theorem Mode.hasSend_iff (m : Mode) : m.hasSend = true ↔ m = .outbound ∨ m = .both := by
  cases m <;> simp [Mode.hasSend]

theorem searchConverter_of_none {s : State} (h : ∀ c, s.eligible c = false) :
    s.searchConverter = { s with converter := { s.converter with conversion := none } } := by
  have hNone : (searchOrder s.converter.position).find? s.eligible = none :=
    List.find?_eq_none.mpr fun c _ => by simp [h c]
  unfold State.searchConverter
  rw [hNone]

/-- The channel k places above the position is the first eligible one of the search order. -/
theorem find?_searchOrder {p : ChannelNo} {f : ChannelNo → Bool} {k : Nat} (h1 : 1 ≤ k) (h32 : k ≤ 32)
    (hk : f (Fin.ofNat 32 (p.val + k)) = true) (hBefore : ∀ j, 1 ≤ j → j < k → f (Fin.ofNat 32 (p.val + j)) = false) :
    (searchOrder p).find? f = some (Fin.ofNat 32 (p.val + k)) := by
  have hSplit : List.range' 1 32 = List.range' 1 (k - 1) ++ k :: List.range' (k + 1) (32 - k) := by
    have hLen : 32 = (k - 1) + ((32 - k) + 1) := by omega
    rw [hLen, ← List.range'_append_1, List.range'_succ]
    congr 2
    · omega
    · congr 1
      · omega
      · omega
  rw [searchOrder, hSplit, List.map_append, List.map_cons, List.find?_append, List.find?_cons_of_pos hk]
  have hNone : (List.map (fun k => (Fin.ofNat 32 (p.val + k))) (List.range' 1 (k - 1))).find? f = none := by
    refine List.find?_eq_none.mpr fun c hc => ?_
    obtain ⟨j, hj, rfl⟩ := List.mem_map.mp hc
    obtain ⟨hLow, hHigh⟩ := List.mem_range'_1.mp hj
    exact Bool.not_eq_true _ ▸ hBefore j hLow (by omega)
  rw [hNone]
  rfl

/-- Settles O11. -/
theorem converterSearchResult : Obligations.ConverterSearchResult := by
  refine ⟨fun s l c => ⟨fun hc => ?_, fun hc keying hKeying => ?_⟩, fun s => ⟨searchConverter_of_none,
    fun k h1 h32 hk hBefore => ?_⟩⟩
  · have hSide : channelSide c = .receive := channelSide_receive (by omega)
    simp [State.eligible, channelLine_of_receive hc, hSide, Line.eligible, Line.active, Mode.hasReceive_iff]
  · have hSide : channelSide c = .send := channelSide_send (by omega)
    simp [State.eligible, channelLine_of_send hc, hSide, Line.eligible, Line.active, Mode.hasSend_iff, sendKeying_eq_of hKeying]
  · unfold State.searchConverter
    rw [find?_searchOrder h1 h32 hk hBefore]

end Sys2Proof.Machine
end

section
/-! SUPPORT. The decisions of a character and the open line at their moments (R49 to R61, R84). -/

namespace Sys2Proof.Machine

/-! ## Levels and decisions -/

theorem levelAt_of_since {x : Receiver} {v : LevelSince} {t : Nat} (h : x.level = some v) (ht : v.since ≤ t) :
    x.levelAt t = v.level := by
  simp [Receiver.levelAt, h, ht]

theorem levelAt_of_before {x : Receiver} {v : LevelSince} {t : Nat} (h : x.level = some v) (ht : t < v.since) :
    x.levelAt t = v.level.other := by
  simp [Receiver.levelAt, h, Nat.not_le.mpr ht]

theorem nextTick_of_unconfirmed {c : Character} (h : c.confirmed = false) : c.nextTick = c.startCheckTick := if_pos h

theorem nextTick_of_sampling {c : Character} (h : c.confirmed = true) (hk : c.elements.length < 5) :
    c.nextTick = c.elementTick (c.elements.length + 1) := by
  simp [Character.nextTick, h, hk]

theorem nextTick_of_sampled {c : Character} (h : c.confirmed = true) (hk : 5 ≤ c.elements.length) :
    c.nextTick = c.stopTick := by
  simp [Character.nextTick, h, Nat.not_lt.mpr hk]

/-- A change of the receiver counts only by what it makes of that receiver. -/
theorem modRx_congr {s : State} {l : LineNo} {f g : Receiver → Receiver} (h : f (s.line l).rx = g (s.line l).rx) :
    s.modRx l f = s.modRx l g :=
  modLine_congr (congrArg (fun r => { s.line l with rx := r }) h)

theorem modRx_modRx (s : State) (l : LineNo) (f g : Receiver → Receiver) :
    (s.modRx l f).modRx l g = s.modRx l fun x => g (f x) :=
  modLine_modLine ..

/-- Settles O13. -/
theorem startCheckResult : Obligations.StartCheckResult := by
  refine ⟨⟨fun x t => ⟨settled_iff x t, firstAt_iff x t, fun v hv => ⟨levelAt_of_since hv, fun h hMark => ?_,
    fun h hSpace => ?_⟩⟩, fun c => ⟨nextTick_of_unconfirmed, nextTick_of_sampling, nextTick_of_sampled⟩⟩,
    fun s l c hState hConfirmed hSettled hFirst => ?_⟩
  · rw [levelAt_of_before hv h, hMark]
    rfl
  · rw [levelAt_of_before hv h, hSpace]
    rfl
  · have hRow : exec (.startCheck l) s = .next ((s.advanceTo c.startCheckTick).checkStart l) :=
      congrArg Host.Outcome.next (whenDue_of_eq_some
        ((startCheckDue_eq_some_iff _ _).mpr ⟨c, hState, hConfirmed, rfl, hSettled, hFirst⟩) fun t => t.checkStart l)
    refine ⟨fun hLevel => ?_, fun hLevel => ?_⟩ <;>
    · rw [hRow]
      refine congrArg Host.Outcome.next (modRx_congr ?_)
      rw [advanceTo_line]
      have hAt : (s.line l).rx.levelAt c.startCheckTick = _ := hLevel
      simp [hState, hAt]

/-- Settles O14; the sum is `codeElements`'s. -/
theorem elementSampleResult : Obligations.ElementSampleResult := by
  refine ⟨fun s l c k hState hConfirmed hk hLe hSettled hFirst => ?_, codeElements.1⟩
  subst hk
  have hRow : exec (.elementSample l) s = .next ((s.advanceTo (c.elementTick (c.elements.length + 1))).sampleElement l) :=
    congrArg Host.Outcome.next (whenDue_of_eq_some
      ((elementDue_eq_some_iff _ _).mpr ⟨c, hState, hConfirmed, by omega, rfl, hSettled, hFirst⟩) fun t => t.sampleElement l)
  rw [hRow]
  refine congrArg Host.Outcome.next (modRx_congr ?_)
  rw [advanceTo_line]
  simp only [hState]
  rfl

/-! ## The stop sample -/

/-- A deviation is at most the distance to any multiple of the unit. -/
theorem deviationOf_le_distance (x u k : Nat) (hu : 0 < u) : deviationOf x u ≤ (x - k * u) + (k * u - x) := by
  have hDiv := Nat.div_add_mod x u
  have hMod := Nat.mod_lt x hu
  unfold deviationOf
  rcases Nat.lt_or_ge (x / u) k with h | h
  · have hMul : u * (x / u + 1) ≤ k * u := by rw [Nat.mul_comm k]; exact Nat.mul_le_mul_left u h
    rw [Nat.mul_add, Nat.mul_one] at hMul
    omega
  · have hMul : k * u ≤ u * (x / u) := by rw [Nat.mul_comm k]; exact Nat.mul_le_mul_left u h
    omega

theorem judged_eq (x : Quality) (q poor good : Nat) :
    x.judged q poor good = if x = .good then (if poor ≤ q then .poor else .good) else if q < good then .good else .poor := by
  cases x <;> rfl

/-- A stop sample, its framing judged by its level. -/
theorem sampleStop_of_inCharacter {s : State} {l : LineNo} {c : Character} (h : (s.line l).rx.state = .inCharacter c) :
    s.sampleStop l =
      (s.modRx l fun x =>
        { x with state := if decide ((s.line l).rx.levelAt c.stopTick = .mark) then .idleMark else .spaceHold }).deliver l c
          (decide ((s.line l).rx.levelAt c.stopTick = .mark)) := by
  simp only [State.sampleStop, h]
  cases (s.line l).rx.levelAt c.stopTick <;> rfl

/-- Settles O15. -/
theorem stopSampleResult : Obligations.StopSampleResult := by
  refine ⟨⟨fun q b => Nat.min_le_right .., fun q hq => ?_, fun q hq => ?_, rfl, deviationOf_le,
    fun x u k hu => deviationOf_le_distance x u k hu, fun c t h => ⟨h.transition t, h.distortion⟩⟩, fun s l c => ?_⟩
  · simp only [qualityAfter, Bool.false_eq_true, if_false]
    omega
  · simp only [qualityAfter, if_true]
    omega
  · intro t x good d doubtful q state u v hState hConfirmed hLength hSettled hFirst
    have hRow : exec (.stopSample l) s = .next ((s.advanceTo t).sampleStop l) :=
      congrArg Host.Outcome.next (whenDue_of_eq_some
        ((stopDue_eq_some_iff _ _).mpr ⟨c, hState, hConfirmed, hLength.ge, rfl, hSettled, hFirst⟩) fun t => t.sampleStop l)
    have hLine : (s.advanceTo t).line l = s.line l := advanceTo_line ..
    have hState' : ((s.advanceTo t).line l).rx.state = .inCharacter c := by rw [hLine]; exact hState
    rw [hRow, sampleStop_of_inCharacter hState', hLine, State.deliver]
    simp only [modRx_modRx, line_modRx_same, hLine]
    simp only [judged_eq]
    rfl

/-! ## The open line -/

theorem modAsm_modAsm (s : State) (l : LineNo) (f g : Assembler → Assembler) :
    (s.modAsm l f).modAsm l g = s.modAsm l fun a => g (f a) :=
  modLine_modLine ..

theorem setHeld_modAsm (s : State) (l : LineNo) (held : List Held) (f : Assembler → Assembler) :
    (s.setHeld l held).modAsm l f = s.modAsm l fun a => f { a with held := held } :=
  modAsm_modAsm ..

section
variable {s : State} {l : LineNo}

theorem assemblerOpen_of_inStory {h : Handle} {decided : Bool} (hs : (s.line l).asm.state = .inStory h decided) :
    s.assemblerOpen l = (s.closeCommitting l false true).modAsm l fun a => { a with decoderCase := .letters } := by
  simp only [State.assemblerOpen, hs]

theorem assemblerOpen_of_no_story (hs : (s.line l).asm.state = .between ∨ (s.line l).asm.state = .skipping) :
    s.assemblerOpen l = s.modAsm l fun a => { a with held := [], decoderCase := .letters } := by
  rcases hs with hs | hs <;> simp only [State.assemblerOpen, hs, setHeld_modAsm]

end

/-- Settles O16. -/
theorem spaceCountExpiryResult : Obligations.SpaceCountExpiryResult := by
  intro s l k t u hSpace hSettled hFirst
  have hRow : exec (.spaceCountExpiry l) s = .next (u.assemblerOpen l) :=
    congrArg Host.Outcome.next (whenDue_of_eq_some
      ((spaceDue_eq_some_iff _ _).mpr ⟨k, hSpace, rfl, hSettled, hFirst⟩) fun t => t.openLine l)
  have hAsm : (u.line l).asm = (s.line l).asm := by simp [u, State.post]
  rw [hRow]
  refine ⟨fun hState => ?_, fun h decided hState => ?_⟩
  · rw [assemblerOpen_of_no_story (by rwa [hAsm])]
  · rw [assemblerOpen_of_inStory (by rwa [hAsm])]

end Sys2Proof.Machine
end

section
/-! SUPPORT. A close step by step: the offer to the monitor lines, the freeing test, the commit that comes first, and the expiry
of the idle gap (R77, R83, R96, R118, R193). -/

namespace Sys2Proof.Machine

/-! ## The freeing test (R96) -/

theorem unretained_iff (st : Story) :
    st.unretained = true ↔ st.state = .complete ∧ st.interest.a = false ∧ st.interest.b = false ∧ st.pending = 0 := by
  simp [Story.unretained, and_assoc]

theorem freeingTest_of_free {s : State} {i : Fin 256} (h : (s.record i).story = none) : s.freeingTest i = s := by
  simp only [State.freeingTest, h]

theorem freeingTest_of_story {s : State} {i : Fin 256} {st : Story} (h : (s.record i).story = some st) :
    s.freeingTest i = if st.unretained then s.freeStory i id else s := by
  simp only [State.freeingTest, h]

/-! ## The offer (R118, R193) -/

theorem linesOf_eq (lines : LineSet) : linesOf lines = (List.finRange 16).filter fun k => lines.getLsbD k.val := by
  rw [linesOf, allLines_eq_finRange]
  rfl

/-- One line tried for ROOM, with NOT_QUEUED where it refuses. -/
def State.offerLine (h : Handle) (p : Priority) (t : State) (k : LineNo) : State :=
  if (t.tryLine k h p .room).1 = .queued then (t.tryLine k h p .room).2
  else (t.tryLine k h p .room).2.postBoth (.distributionEnd k h .notQueued 0)

theorem roomSubmit_eq_foldl (h : Handle) (p : Priority) (ks : List LineNo) (s : State) :
    s.roomSubmit h p ks = ks.foldl (State.offerLine h p) s := by
  induction ks generalizing s with
  | nil => rfl
  | cons k ks ih =>
    rw [List.foldl_cons, ← ih]
    rfl

theorem routed_iff (s : State) (l : LineNo) (p : Priority) :
    (s.room.unattended && lineIn s.room.options.sources l && decide (p.number ≤ s.room.options.bound.number)) = true ↔
      s.room.unattended = true ∧ s.room.options.sources.getLsbD l.val = true ∧ p.number ≤ s.room.options.bound.number := by
  simp [lineIn, and_assoc]

theorem offerStory_of_not_routed {s : State} {l : LineNo} {p : Priority}
    (h : ¬(s.room.unattended = true ∧ s.room.options.sources.getLsbD l.val = true ∧
      p.number ≤ s.room.options.bound.number)) (g : Handle) : s.offerStory l g p = s :=
  if_neg ((routed_iff s l p).not.mpr h)

theorem offerStory_of_routed {s : State} {l : LineNo} {p : Priority}
    (h : s.room.unattended = true ∧ s.room.options.sources.getLsbD l.val = true ∧
      p.number ≤ s.room.options.bound.number) (g : Handle) :
    s.offerStory l g p =
      (((List.finRange 16).filter fun k => s.room.options.monitors.getLsbD k.val).foldl (State.offerLine g p)
        (s.setStoryState g .assembling)).setStoryState g .complete := by
  rw [← linesOf_eq, ← roomSubmit_eq_foldl]
  exact if_pos ((routed_iff s l p).mpr h)

/-! ## Closes (R77) -/

theorem settled_stamp (s : State) (l : LineNo) (h : Handle) (st : Story) (decided : Bool) :
    (s.settled l h st decided).stamp = s.stamp := by
  unfold State.settled
  split
  · rfl
  · rw [State.decidePriority, ringFor_stamp]
    simp [State.stamp]

/-- A close up to its notices is work of the assembler. -/
theorem toldClosed_works (s : State) (l : LineNo) (h : Handle) (st : Story) (decided truncated unterminated : Bool)
    (ports : PortSet) (n : Notice) :
    Works s (((s.settled l h st decided).closed l h truncated unterminated).postSet ports n) := by
  have hSettled : Works s (s.settled l h st decided) := by
    unfold State.settled
    split
    · exact .refl s
    · exact .decidePriority ..
  exact .after (.postSet ..) (.after (.modAsm ..) (.after (.modStory _ _ fun _ => rfl) hSettled))

section
variable {s : State} {l : LineNo} {c : Held}

theorem commitAll_of_stored (h : (s.commit l c).1 = .stored) (cs : List Held) :
    s.commitAll l (c :: cs) = (s.commit l c).2.commitAll l cs := by
  rw [State.commitAll]
  split <;> simp_all

theorem commitAll_of_refused (h : (s.commit l c).1 ≠ .stored) (cs : List Held) : s.commitAll l (c :: cs) = s.commit l c := by
  rw [State.commitAll]
  split <;> simp_all

end

/-! ## The idle gap (R83) -/

section
variable {s : State} {l : LineNo}

theorem idleGapOver_of_between (h : (s.line l).asm.state = .between) :
    s.idleGapOver l = s.modAsm l fun a => { a with idleGap := none } := by
  simp only [State.idleGapOver, line_modAsm_same, h]

theorem idleGapOver_of_skipping (h : (s.line l).asm.state = .skipping) :
    s.idleGapOver l = s.modAsm l fun a => { a with state := .between, held := [], idleGap := none } := by
  simp only [State.idleGapOver, line_modAsm_same, h, modAsm_modAsm]

theorem idleGapOver_of_inStory {h : Handle} {decided : Bool} (hs : (s.line l).asm.state = .inStory h decided) :
    s.idleGapOver l =
      (s.modAsm l fun a => { a with idleGap := none }).closeCommitting l false
        (decide ((s.line l).record.framing = .framed)) := by
  simp only [State.idleGapOver, line_modAsm_same, hs]
  cases (s.line l).record.framing <;> rfl

end

/-- A told story with an interested port survives the freeing test. -/
theorem freeingTest_of_interested {s : State} {h : Handle} {st : Story} (hNamed : s.storyOf h = some st)
    (hInterest : st.interest.a = true ∨ st.interest.b = true) : s.freeingTest h.index = s := by
  rw [freeingTest_of_story (storyOf_eq_some hNamed).2, if_neg]
  rw [unretained_iff]
  rintro ⟨-, hA, hB, -⟩
  simp [hA, hB] at hInterest

theorem exec_idleGapExpiry_of_timer {s : State} {l : LineNo} {t : Timer} (h : (s.line l).asm.idleGap = some t) :
    exec (.idleGapExpiry l) s = .next ((s.advanceTo t.due).idleGapOver l) :=
  congrArg Host.Outcome.next (whenDue_of_eq_some ((idleGapDue_eq_some_iff _ _).mpr ⟨t, h, rfl⟩) fun t => t.idleGapOver l)

/-- Settles O17. -/
theorem idleGapExpiryResult : Obligations.IdleGapExpiryResult := by
  refine ⟨fun s l h st decided truncated unterminated hState hNamed => ?_,
    fun s l h p => ⟨fun hNot => offerStory_of_not_routed hNot h, fun hRouted => offerStory_of_routed hRouted h⟩,
    fun s i => ⟨freeingTest_of_free, fun st hSt => ⟨fun hGoes => ?_, fun hStays => ?_⟩⟩,
    fun s l => ⟨⟨rfl, rfl⟩, fun truncated unterminated => ?_⟩,
    fun s l c cs => ⟨rfl, fun h => commitAll_of_stored h cs, fun h => commitAll_of_refused h cs⟩,
    fun s l t hTimer => ⟨fun h decided hState hFraming => ?_, fun h decided hState hFraming => ?_, fun hState => ?_,
      fun hState => ?_⟩⟩
  · intro u closed told done
    have hTold : ((s.settled l h st decided).closed l h truncated unterminated).postSet st.interest
        (.storyClosed l h st.priority truncated unterminated st.length) = told := by
      simp only [State.closed, settled_stamp]
      rfl
    have hClose : ∀ next, s.finishClose l truncated unterminated next = done.goOn l next := by
      intro next
      rw [finishClose_of_inStory hState hNamed, settled_stamp, State.handedOn]
      exact congrArg (fun t : State => ((t.offerStory l h st.priority).freeingTest h.index).goOn l next) hTold
    refine ⟨⟨hClose .between, (hClose .skipping).trans ?_⟩, hClose .reopen, fun hAttended hInterest => ?_⟩
    · rw [State.goOn, State.enterSkipping, State.loadIdleGap, modAsm_modAsm]
      simp [State.timerS, State.timerMs, Config.msPerSecond]
    · have hNamedTold : told.storyOf h = some (st.closedAs truncated unterminated s.stamp) := by
        rw [← hTold, ← settled_stamp s l h st decided, ← closed_storyOf (settled_storyOf hNamed l decided) l]
        exact storyOf_of_records (by rw [postSet_store]) h
      have hOffer : told.offerStory l h st.priority = told := by
        have hStill : told.room.unattended = false := by
          rw [← hTold, (toldClosed_works ..).kept.unattended, hAttended]
        exact offerStory_of_not_routed (fun hRouted => absurd hRouted.1 (by simp [hStill])) h
      rw [show done = (told.offerStory l h st.priority).freeingTest h.index from rfl, hOffer,
        freeingTest_of_interested hNamedTold hInterest]
  · rw [freeingTest_of_story hSt, if_pos ((unretained_iff st).mpr hGoes)]
  · rw [freeingTest_of_story hSt, if_neg ((unretained_iff st).not.mpr hStays)]
  · intro r close
    have hClose : close = (if r.1 = .noCell then r.2.raiseExhausted else r.2).finishClose l
        (truncated || decide (r.1 ≠ .stored)) unterminated .between := rfl
    refine ⟨fun h => ?_, fun h => ?_, fun h => ?_⟩ <;> simp [hClose, h]
    rfl
  · rw [exec_idleGapExpiry_of_timer hTimer, idleGapOver_of_inStory (by rwa [advanceTo_line]), advanceTo_line, hFraming]
    rfl
  · rw [exec_idleGapExpiry_of_timer hTimer, idleGapOver_of_inStory (by rwa [advanceTo_line]), advanceTo_line, hFraming]
    rfl
  · rw [exec_idleGapExpiry_of_timer hTimer, idleGapOver_of_skipping (by rwa [advanceTo_line])]
  · rw [exec_idleGapExpiry_of_timer hTimer, idleGapOver_of_between (by rwa [advanceTo_line])]

end Sys2Proof.Machine
end

section
/-! SUPPORT. What a delivered code yields, how it is matched, committed and stored, and how a story opens (R67 to R81). -/

namespace Sys2Proof.Machine

/-! ## The idle gap -/

theorem loadIdleGap_eq (s : State) (l : LineNo) :
    s.loadIdleGap l =
      s.modAsm l fun a => { a with idleGap := some { loadedAt := s.tick, ms := (s.line l).record.idleGap * 1000 } } := rfl

/-- Work done on a line moves neither the time nor the record a timer is loaded by. -/
theorem Works.loadIdleGap_eq {s t : State} (h : Works s t) (l : LineNo) :
    t.loadIdleGap l =
      t.modAsm l fun a => { a with idleGap := some { loadedAt := s.tick, ms := (s.line l).record.idleGap * 1000 } } := by
  rw [Machine.loadIdleGap_eq, h.kept.tick, h.kept.record]

/-- A change of the assembler counts only by what it makes of that assembler. -/
theorem modAsm_congr {s : State} {l : LineNo} {f g : Assembler → Assembler} (h : f (s.line l).asm = g (s.line l).asm) :
    s.modAsm l f = s.modAsm l g :=
  modLine_congr (congrArg (fun a => { s.line l with asm := a }) h)

theorem modAsm_self {s : State} {l : LineNo} {f : Assembler → Assembler} (h : f (s.line l).asm = (s.line l).asm) :
    s.modAsm l f = s :=
  modLine_self (congrArg (fun a => { s.line l with asm := a }) h)

theorem restartIdleGap_eq (s : State) (l : LineNo) :
    s.restartIdleGap l = s.modAsm l fun a =>
      { a with
        idleGap := if a.state = .between then a.idleGap
          else some { loadedAt := s.tick, ms := (s.line l).record.idleGap * 1000 } } := by
  unfold State.restartIdleGap
  cases hs : (s.line l).asm.state with
  | between => exact (modAsm_self (by simp only [hs, if_true]; rw [← hs])).symm
  | _ => exact modAsm_congr (by simp only [hs, reduceCtorEq, if_false]; rfl)

/-! ## Decoding (R67, R68) -/

/-- The entry a code reads on a line. -/
def State.entryRead (s : State) (l : LineNo) (k : Code) : Entry :=
  (s.tables.get (s.line l).record.slot).entry (s.line l).asm.decoderCase k

section
variable {s : State} {l : LineNo} {k : Code} {doubtful : Bool}

theorem decodeCode_of_none (h : (s.line l).record.yields (s.entryRead l k) doubtful = none) :
    s.decodeCode l k doubtful =
      s.modAsm l fun a => { a with decoderCase := (s.line l).record.caseAfter (s.entryRead l k) a.decoderCase } := by
  rw [State.entryRead] at h ⊢
  simp only [State.decodeCode, h]

theorem decodeCode_of_some {x : Byte} (h : (s.line l).record.yields (s.entryRead l k) doubtful = some x) :
    s.decodeCode l k doubtful =
      match (s.line l).record.framing with
      | .framed =>
        ((s.modAsm l fun a =>
          { a with decoderCase := (s.line l).record.caseAfter (s.entryRead l k) a.decoderCase }).restartIdleGap l).framedChar l
            { char := x, doubtful := doubtful }
      | .continuous =>
        ((s.modAsm l fun a =>
          { a with
            decoderCase := (s.line l).record.caseAfter (s.entryRead l k) a.decoderCase }).restartIdleGap l).continuousChar l
            { char := x, doubtful := doubtful } := by
  rw [State.entryRead] at h ⊢
  cases hFraming : (s.line l).record.framing <;> simp only [State.decodeCode, h, hFraming]

/-- The decoder case and the idle gap after a code that stores. -/
theorem restart_after_case {e : Entry} (hLtrs : e.kind ≠ .ltrs) (hFigs : e.kind ≠ .figs) :
    (s.modAsm l fun a => { a with decoderCase := (s.line l).record.caseAfter e a.decoderCase }).restartIdleGap l =
      s.modAsm l fun a =>
        { a with
          decoderCase := if e.kind = .space ∧ (s.line l).record.rxUnshift = true then .letters else a.decoderCase
          idleGap := if a.state = .between then a.idleGap
            else some { loadedAt := s.tick, ms := (s.line l).record.idleGap * 1000 } } := by
  rw [restartIdleGap_eq, modAsm_modAsm]
  refine modAsm_congr ?_
  have hCase : ∀ c, (s.line l).record.caseAfter e c =
      if e.kind = .space ∧ (s.line l).record.rxUnshift = true then .letters else c := by
    intro c
    cases hk : e.kind with
    | ltrs => exact absurd hk hLtrs
    | figs => exact absurd hk hFigs
    | space => simp [LineRecord.caseAfter, hk]
    | _ => simp [LineRecord.caseAfter, hk]
  simp [hCase]

end

/-- What a storing kind yields. -/
theorem yields_of_storing {r : LineRecord} {e : Entry} (h : e.kind = .print ∨ e.kind = .space ∨ e.kind = .lf ∨ e.kind = .bell)
    (doubtful : Bool) :
    r.yields e doubtful = some
      (if e.kind = .lf then 0x0A
      else if e.kind = .bell then 0x07
      else if doubtful = true ∧ r.markDoubtful = true then r.doubtfulSubstitute
      else if e.kind = .space then 0x20
      else e.char) := by
  rcases h with h | h | h | h <;> simp [LineRecord.yields, h]

/-! ## Matching (R70 to R72) -/

theorem isProperStart_iff (xs seq : List Byte) :
    isProperStart xs seq = true ↔ xs ≠ [] ∧ ∃ more, more ≠ [] ∧ seq = xs ++ more := by
  rw [isProperStart, Bool.and_eq_true, Bool.and_eq_true, decide_eq_true_iff, decide_eq_true_iff, List.isPrefixOf_iff_prefix]
  constructor
  · rintro ⟨⟨⟨more, rfl⟩, hSome⟩, hShort⟩
    refine ⟨fun e => by simp [e] at hSome, more, fun e => by simp [e] at hShort, rfl⟩
  · rintro ⟨hSome, more, hMore, rfl⟩
    have hXs := List.length_pos_iff.mpr hSome
    have hTail := List.length_pos_iff.mpr hMore
    exact ⟨⟨List.prefix_append .., hXs⟩, by simp; omega⟩

section
variable {s : State} {l : LineNo} {c : Held} {cs : List Held}

theorem arrive_of_found {f : Found}
    (h : (s.line l).asm.state.found (s.line l).record ((c :: cs).map Held.char) = some f) :
    s.arrive l (c :: cs) = s.sequenceFound l f := by
  rw [State.arrive]
  simp only [h]

theorem arrive_of_begun (h : (s.line l).asm.state.found (s.line l).record ((c :: cs).map Held.char) = none)
    (hBegun : ((s.line l).asm.state.watched (s.line l).record).any (isProperStart ((c :: cs).map Held.char)) = true) :
    s.arrive l (c :: cs) = s.setHeld l (c :: cs) := by
  rw [State.arrive]
  simp only [h, hBegun, if_true]

theorem arrive_of_stored (h : (s.line l).asm.state.found (s.line l).record ((c :: cs).map Held.char) = none)
    (hBegun : ((s.line l).asm.state.watched (s.line l).record).any (isProperStart ((c :: cs).map Held.char)) = false)
    (hStored : (s.commit l c).1 = .stored) : s.arrive l (c :: cs) = (s.commit l c).2.arrive l cs := by
  rw [State.arrive]
  simp only [h, hBegun, Bool.false_eq_true, if_false]
  split <;> simp_all

theorem arrive_of_refused (h : (s.line l).asm.state.found (s.line l).record ((c :: cs).map Held.char) = none)
    (hBegun : ((s.line l).asm.state.watched (s.line l).record).any (isProperStart ((c :: cs).map Held.char)) = false)
    (hRefused : (s.commit l c).1 ≠ .stored) : s.arrive l (c :: cs) = (s.commit l c).2.cutShort l (s.commit l c).1 := by
  rw [State.arrive]
  simp only [h, hBegun, Bool.false_eq_true, if_false]
  split <;> simp_all

end

theorem found_eq_none_iff (a : AsmState) (r : LineRecord) (xs : List Byte) :
    a.found r xs = none ↔ ¬(xs = r.opening ∨ (a ≠ .between ∧ xs = r.closing)) := by
  cases a with
  | between => simp [AsmState.found]
  | inStory h d =>
    simp only [AsmState.found]
    split <;> simp_all
  | skipping =>
    simp only [AsmState.found]
    split <;> simp_all

theorem watched_begun_iff (a : AsmState) (r : LineRecord) (c : Byte) (cs : List Byte) :
    (a.watched r).any (isProperStart (c :: cs)) = true ↔
      (∃ more, more ≠ [] ∧ r.opening = c :: cs ++ more) ∨ (a ≠ .between ∧ ∃ more, more ≠ [] ∧ r.closing = c :: cs ++ more) := by
  cases a <;> simp [AsmState.watched, isProperStart_iff]

/-! ## Storing (R73, R78 to R81) -/

section
variable {s : State} {h : Handle} {c : Held} {st : Story}

theorem lengthOf_of_named (hNamed : s.storyOf h = some st) : s.lengthOf h = st.length := by
  simp only [State.lengthOf, hNamed]

/-- The cap, then the cell where the text fills its chain, then the place. -/
theorem storeChar_of_named (hNamed : s.storyOf h = some st) (c : Held) :
    s.storeChar h c =
      if 16384 ≤ st.length then (.capped, s)
      else if st.length % 32 = 0 then
        (if (s.requestCell h.index).1 = true then (.stored, (s.requestCell h.index).2.putChar h c)
          else (.noCell, (s.requestCell h.index).2))
      else (.stored, s.putChar h c) := by
  rw [State.storeChar, lengthOf_of_named hNamed]
  rcases s.requestCell h.index with ⟨_ | _, t⟩ <;> rfl

theorem putChar_of_named (hNamed : s.storyOf h = some st) :
    s.putChar h c =
      (s.modStore fun x => { x with text := x.text.write (textAddress st.chain st.length) c.char }).modStory h fun st =>
        { st with length := st.length + 1, doubtful := st.doubtful + if c.doubtful then 1 else 0 } := by
  simp only [State.putChar, hNamed]

end

section
variable {s : State} {h : Handle} {st : Story}

/-- The change a stored character makes of its story. -/
def Story.grown (st : Story) (doubtful : Bool) : Story :=
  { st with length := st.length + 1, doubtful := st.doubtful + if doubtful then 1 else 0 }

theorem putChar_eq_setRecord (hNamed : s.storyOf h = some st) (c : Held) :
    s.putChar h c =
      (s.modStore fun x => { x with text := x.text.write (textAddress st.chain st.length) c.char }).setRecord h.index
        { generation := h.generation, story := some (st.grown c.doubtful) } := by
  rw [putChar_of_named hNamed]
  exact modStory_some
    (s := s.modStore fun x => { x with text := x.text.write (textAddress st.chain st.length) c.char }) hNamed fun st =>
      st.grown c.doubtful

theorem storyOf_putChar (hNamed : s.storyOf h = some st) (c : Held) :
    (s.putChar h c).storyOf h = some (st.grown c.doubtful) := by
  rw [putChar_eq_setRecord hNamed]
  simp [State.storyOf]

theorem putChar_record_ne (hNamed : s.storyOf h = some st) (c : Held) {i : Fin 256} (hi : i ≠ h.index) :
    (s.putChar h c).record i = s.record i := by
  rw [putChar_eq_setRecord hNamed]
  exact record_setRecord_ne _ _ _ _ hi

theorem putChar_alone (hNamed : s.storyOf h = some st) (c : Held) :
    s.putChar h c =
      { s with
        store := { s.store with text := (s.putChar h c).store.text, records := (s.putChar h c).store.records } } := by
  rw [putChar_eq_setRecord hNamed]
  rfl

theorem putChar_reads (hNamed : s.storyOf h = some st) (hText : s.store.text.wf = true) (c : Held) :
    (s.putChar h c).store.text.read (textAddress st.chain st.length) = c.char ∧
      ∀ b, b ≠ textAddress st.chain st.length → (s.putChar h c).store.text.read b = s.store.text.read b := by
  rw [putChar_eq_setRecord hNamed]
  exact ⟨by simp [Memory.read_write, hText], fun b hb => Memory.read_write_ne _ hText hb⟩

end

section
variable {s : State} {l : LineNo} {h : Handle} {decided : Bool} {c : Held}

theorem commit_of_closed (hState : (s.line l).asm.state = .between ∨ (s.line l).asm.state = .skipping) (c : Held) :
    s.commit l c = (.stored, s) := by
  rcases hState with hState | hState <;> simp only [State.commit, hState]

theorem commit_of_stored (hState : (s.line l).asm.state = .inStory h decided) (hStored : (s.storeChar h c).1 = .stored) :
    s.commit l c = (.stored, (s.storeChar h c).2.considerPriority l h decided c.char) := by
  simp only [State.commit, hState]
  split <;> simp_all

theorem commit_of_refused (hState : (s.line l).asm.state = .inStory h decided) (hRefused : (s.storeChar h c).1 ≠ .stored) :
    s.commit l c = s.storeChar h c := by
  simp only [State.commit, hState]
  split <;> simp_all

theorem storeContinuous_eq (s : State) (l : LineNo) (c : Held) :
    s.storeContinuous l c =
      if (s.commit l c).1 = .stored then (s.commit l c).2 else (s.commit l c).2.cutShort l (s.commit l c).1 := by
  unfold State.storeContinuous
  split <;> simp_all

end

theorem priorityOf_eq (r : LineRecord) (default : Priority) (x : Byte) :
    r.priorityOf default x =
      if x = r.priorityLetters[0] then .flash else if x = r.priorityLetters[1] then .bulletin
      else if x = r.priorityLetters[2] then .urgent else if x = r.priorityLetters[3] then .routine
      else if x = r.priorityLetters[4] then .deferred else default := by
  simp only [@eq_comm _ x]
  rfl

theorem considerPriority_of_deciding {s : State} {l : LineNo} {h : Handle} {x : Byte} {st : Story}
    (hNamed : s.storyOf h = some st) (hSpace : x ≠ 0x20) (hNewline : x ≠ 0x0A) :
    s.considerPriority l h false x = s.decidePriority l h ((s.line l).record.priorityOf st.priority x) := by
  rw [State.considerPriority, if_neg (by simpa using ⟨hSpace, hNewline⟩), hNamed]

/-! ## Opening (R75, R76) -/

section
variable {s t : State} {l : LineNo}

theorem openInbound_of_none (h : s.requestRecord = (none, t)) :
    s.openInbound l = ((t.postSet (t.interested l) (.inboundLost l)).raiseExhausted).enterSkipping l := by
  simp only [State.openInbound, h]

theorem openInbound_of_some {i : Fin 256} (h : s.requestRecord = (some i, t)) :
    s.openInbound l =
      ((if (t.line l).record.framing = .continuous then
          ((t.makeStory i (t.newInbound l)).modAsm l fun a => { a with state := .inStory (t.handleAt i) false }).decidePriority l
            (t.handleAt i) (t.line l).record.defaultPriority
        else (t.makeStory i (t.newInbound l)).modAsm l fun a =>
          { a with state := .inStory (t.handleAt i) false }).loadIdleGap l).postSet (t.interested l)
        (.storyArriving l (t.handleAt i) (t.line l).record.defaultPriority) := by
  have hRecord : (((t.makeStory i (t.newInbound l)).modAsm l fun a =>
      { a with state := .inStory (t.handleAt i) false }).line l).record = (t.line l).record := by
    rw [line_modAsm_same, line_of_lines (makeStory_lines ..)]
  simp only [State.openInbound, h, hRecord]
  rfl

end

/-- Settles O18. -/
theorem decodedAndStoredCharacters : Obligations.DecodedAndStoredCharacters := by
  refine ⟨fun s l k doubtful => ?_, fun s l c => ?_, fun s l c cs => ?_, fun s l c => ⟨fun hState => commit_of_closed hState c,
    fun h decided hState => ⟨commit_of_stored hState, commit_of_refused hState⟩⟩, fun s l h x => ?_, fun s h c st hNamed => ?_,
    fun s t l => ?_⟩
  · intro r e x u
    have hRead : s.entryRead l k = e := rfl
    refine ⟨fun h => ?_, fun h => ?_, fun h => ?_, fun h => ?_⟩
    · rw [decodeCode_of_none (by rw [hRead, LineRecord.yields, h]), hRead]
      simp [LineRecord.caseAfter, h]
    · rw [decodeCode_of_none (by rw [hRead, LineRecord.yields, h]), hRead]
      simp [LineRecord.caseAfter, h]
    · rw [decodeCode_of_none (by rcases h with h | h | h <;> rw [hRead, LineRecord.yields, h]), hRead]
      exact modAsm_self (by rcases h with h | h | h <;> simp [LineRecord.caseAfter, h])
    · have hYields : r.yields e doubtful = some x := yields_of_storing h doubtful
      have hU : (s.modAsm l fun a => { a with decoderCase := r.caseAfter e a.decoderCase }).restartIdleGap l = u :=
        restart_after_case (by rcases h with h | h | h | h <;> simp [h]) (by rcases h with h | h | h | h <;> simp [h])
      have hDecode := decodeCode_of_some (doubtful := doubtful) (by rw [hRead]; exact hYields)
      rw [hRead, hU] at hDecode
      refine ⟨fun hFraming => ?_, fun hFraming => ?_⟩ <;>
      · have hIs : (s.line l).record.framing = _ := hFraming
        rw [hDecode, hIs]
  · intro a storing
    refine ⟨rfl, fun hState => ?_, fun h decided hState => ?_, fun hState => ?_⟩
    · have hIs : (s.line l).asm.state = _ := hState
      rw [State.continuousChar, hIs]
      exact storeContinuous_eq ..
    · have hIs : (s.line l).asm.state = _ := hState
      rw [State.continuousChar, hIs]
      exact storeContinuous_eq ..
    · have hIs : (s.line l).asm.state = _ := hState
      rw [State.continuousChar, hIs]
  · intro a r chars begins inside watched matched went
    have hWatched : (a.watched r).any (isProperStart ((c :: cs).map Held.char)) = true ↔ watched := watched_begun_iff a r _ _
    have hFound : a.found r ((c :: cs).map Held.char) = none ↔ ¬matched := found_eq_none_iff a r _
    have hState : (s.line l).asm.state = a := rfl
    refine ⟨?_, ?_, fun hOutside hOpening => ?_, fun hSkipping hOpening hClosing => ?_, fun hNot hHeld => ?_,
      fun hNot hHeld => ?_, fun hNot hHeld => ?_, rfl⟩
    · rintro ⟨h, decided, hIn⟩ hClosing
      refine (arrive_of_found (f := .closing) ?_).trans ?_
      · rw [hState, hIn]
        exact if_pos hClosing
      · simp only [State.sequenceFound, hState, hIn]
    · rintro ⟨h, decided, hIn⟩ hClosing hOpening
      refine (arrive_of_found (f := .opening) ?_).trans ?_
      · rw [hState, hIn]
        exact (if_neg hClosing).trans (if_pos hOpening)
      · simp only [State.sequenceFound, hState, hIn]
    · refine (arrive_of_found (f := .opening) ?_).trans ?_
      · rw [hState]
        cases ha : a with
        | inStory h decided => exact absurd ⟨h, decided, ha⟩ hOutside
        | between => exact if_pos hOpening
        | skipping => exact if_pos hOpening
      · cases ha : a with
        | inStory h decided => exact absurd ⟨h, decided, ha⟩ hOutside
        | between => simp only [State.sequenceFound, hState, ha]
        | skipping => simp only [State.sequenceFound, hState, ha]
    · refine (arrive_of_found (f := .closing) ?_).trans ?_
      · rw [hState, hSkipping]
        exact (if_neg hOpening).trans (if_pos hClosing)
      · simp only [State.sequenceFound, hState, hSkipping]
    · exact arrive_of_begun (hFound.mpr hNot) (hWatched.mpr hHeld)
    · exact arrive_of_stored (hFound.mpr hNot) (by rw [Bool.eq_false_iff]; exact hWatched.not.mpr hHeld)
    · exact arrive_of_refused (hFound.mpr hNot) (by rw [Bool.eq_false_iff]; exact hWatched.not.mpr hHeld)
  · refine ⟨rfl, rfl, rfl, fun st hNamed hSpace hNewline => ?_⟩
    rw [considerPriority_of_deciding hNamed hSpace hNewline, priorityOf_eq]
    rfl
  · intro put r
    have hStore := storeChar_of_named hNamed c
    refine ⟨fun hCap => ?_, fun hCap hWhole hCell => ?_, fun y hCap hWhole hCell hGiven => ?_, fun hText hCap hRoom => ?_⟩
    · rw [hStore, if_pos hCap]
    · rw [hStore, if_neg (Nat.not_le.mpr hCap), if_pos hWhole, if_neg (by simp only [r] at hCell; simp [hCell])]
    · rw [hStore, if_neg (Nat.not_le.mpr hCap), if_pos hWhole, if_pos hCell, putChar_of_named hGiven]
      rfl
    · rw [if_neg (Nat.not_le.mpr hCap), if_neg hRoom] at hStore
      intro a t
      have hT : t = s.putChar h c := congrArg Prod.snd hStore
      obtain ⟨hRead, hElse⟩ := putChar_reads hNamed hText c
      exact ⟨congrArg Prod.fst hStore, by rw [hT]; exact putChar_alone hNamed c, fun i hi => by rw [hT]; exact putChar_record_ne hNamed c hi,
        by rw [hT]; exact storyOf_putChar hNamed c, by rw [hT]; exact hRead, fun b hb => by rw [hT]; exact hElse b hb⟩
  · intro ports r
    refine ⟨fun hRequest => ?_, fun i hRequest => ?_⟩
    · rw [openInbound_of_none hRequest, State.enterSkipping,
        (Works.after (.modAsm ..) (.after (.raiseExhausted _) (.postSet ..))).loadIdleGap_eq, modAsm_modAsm]
      rfl
    · intro h u opened timed
      have hFree := requestRecord_free hRequest
      have hMade : Works t (t.makeStory i (t.newInbound l)) := .makeStory hFree rfl
      refine ⟨fun hFraming => ?_, fun hFraming => ?_⟩
      · rw [openInbound_of_some hRequest, if_neg (by simp only [r] at hFraming; simp [hFraming]),
          (Works.after (.modAsm ..) hMade).loadIdleGap_eq]
        rfl
      · rw [openInbound_of_some hRequest, if_pos hFraming,
          (Works.after (.decidePriority ..) (.after (.modAsm ..) hMade)).loadIdleGap_eq, State.decidePriority, modAsm_modAsm]
        rfl

end Sys2Proof.Machine
end

section
/-! SUPPORT. What a freeing leaves (R90, R97), the order of victims (R101), the end of a reclamation (R100), and the requests for a
cell and a record (R89, R94). -/

namespace Sys2Proof.Machine

/-! ## The order of victims (R101) -/

/-- The story at one index goes before the story at another in the order of victims. -/
def Story.Precedes (i : Nat) (x : Story) (j : Nat) (y : Story) : Prop :=
  y.priority.number < x.priority.number ∨
    (y.priority.number = x.priority.number ∧
      ((x.closedAt.day < y.closedAt.day ∨ (x.closedAt.day = y.closedAt.day ∧ x.closedAt.second < y.closedAt.second)) ∨
        (x.closedAt = y.closedAt ∧ i < j)))

theorem Stamp.eq_iff (x y : Stamp) : x = y ↔ x.day = y.day ∧ x.second = y.second := by
  cases x
  cases y
  simp

theorem victimBefore_iff (x y : Story) :
    x.victimBefore y = true ↔
      y.priority.number < x.priority.number ∨
        (x.priority.number = y.priority.number ∧
          (x.closedAt.day < y.closedAt.day ∨ (x.closedAt.day = y.closedAt.day ∧ x.closedAt.second < y.closedAt.second))) := by
  simp [Story.victimBefore, Stamp.before]

theorem precedes_of_victimBefore {x y : Story} (h : x.victimBefore y = true) (i j : Nat) : x.Precedes i j y := by
  rw [victimBefore_iff] at h
  unfold Story.Precedes
  omega

/-- A story that a later one does not go before goes before it. -/
theorem precedes_of_not_victimBefore {x y : Story} (h : y.victimBefore x = false) {i j : Nat} (hij : i < j) :
    x.Precedes i j y := by
  rw [Bool.eq_false_iff, ne_eq, victimBefore_iff] at h
  rw [Story.Precedes, Stamp.eq_iff]
  omega

theorem Story.Precedes.trans {i j k : Nat} {x y z : Story} (hxy : x.Precedes i j y) (hyz : y.Precedes j k z) :
    x.Precedes i k z := by
  simp only [Story.Precedes, Stamp.eq_iff] at hxy hyz ⊢
  omega

/-- The best so far after one more record. -/
def pickedOf (r : StoryRecord) (i : Nat) (best : Option (Nat × Story)) : Option (Nat × Story) :=
  match r.story, best with
  | none, _ => best
  | some st, none => if st.candidate then some (i, st) else none
  | some st, some (j, y) => if st.candidate && st.victimBefore y then some (i, st) else some (j, y)

theorem pickVictim_cons (r : StoryRecord) (rs : List StoryRecord) (i : Nat) (best : Option (Nat × Story)) :
    pickVictim (r :: rs) i best = pickVictim rs (i + 1) (pickedOf r i best) := by
  cases hr : r.story <;> rcases best with _ | ⟨k, y⟩ <;> simp only [pickVictim, pickedOf, hr]

/-- A story equals the one picked or stands behind it. -/
def Behind (picked : Option (Nat × Story)) (k : Nat) (y : Story) : Prop :=
  ∃ j x, picked = some (j, x) ∧ ((k = j ∧ y = x) ∨ x.Precedes j k y)

theorem Behind.trans {picked last : Option (Nat × Story)} {k : Nat} {y : Story} (h : Behind picked k y)
    (hLast : ∀ j x, picked = some (j, x) → Behind last j x) : Behind last k y := by
  obtain ⟨j, x, hPicked, hy⟩ := h
  obtain ⟨m, z, hz, hx⟩ := hLast j x hPicked
  refine ⟨m, z, hz, ?_⟩
  rcases hy with ⟨rfl, rfl⟩ | hy
  · exact hx
  · rcases hx with ⟨rfl, rfl⟩ | hx
    · exact .inr hy
    · exact .inr (hx.trans hy)

theorem behind_self {k : Nat} {y : Story} : Behind (some (k, y)) k y := ⟨k, y, rfl, .inl ⟨rfl, rfl⟩⟩

theorem behind_pickedOf_best (r : StoryRecord) (i k : Nat) (y : Story) : Behind (pickedOf r i (some (k, y))) k y := by
  unfold pickedOf
  cases hr : r.story with
  | none => exact behind_self
  | some st =>
    dsimp only
    split
    · rename_i h
      exact ⟨i, st, rfl, .inr (precedes_of_victimBefore ((Bool.and_eq_true ..).mp h).2 i k)⟩
    · exact behind_self

theorem behind_pickedOf_record {r : StoryRecord} {i : Nat} {best : Option (Nat × Story)} {y : Story}
    (hBest : ∀ k x, best = some (k, x) → k < i) (hr : r.story = some y) (hy : y.candidate = true) :
    Behind (pickedOf r i best) i y := by
  unfold pickedOf
  rw [hr]
  rcases best with _ | ⟨k, x⟩
  · simp only [hy, if_true]
    exact behind_self
  · by_cases hBefore : y.victimBefore x = true
    · simp only [hy, hBefore, Bool.and_self, if_true]
      exact behind_self
    · simp only [hy, Bool.eq_false_iff.mpr hBefore, Bool.and_false, Bool.false_eq_true, if_false]
      exact ⟨k, x, rfl, .inr (precedes_of_not_victimBefore (Bool.eq_false_iff.mpr hBefore) (hBest k x rfl))⟩

theorem pickedOf_lt {r : StoryRecord} {i : Nat} {best : Option (Nat × Story)} (hBest : ∀ k x, best = some (k, x) → k < i) {k : Nat}
    {x : Story} (h : pickedOf r i best = some (k, x)) : k < i + 1 := by
  unfold pickedOf at h
  split at h
  · exact Nat.lt_succ_of_lt (hBest k x h)
  · split at h <;> cases h
    exact Nat.lt_succ_self i
  · split at h <;> cases h
    · exact Nat.lt_succ_self i
    · exact Nat.lt_succ_of_lt (hBest _ _ rfl)

/-- Behind the victim picked stand the best so far and every candidate of the records. -/
theorem behind_pickVictim (rs : List StoryRecord) : ∀ (i : Nat) (best : Option (Nat × Story)),
    (∀ k x, best = some (k, x) → k < i) →
      (∀ k y, best = some (k, y) → Behind (pickVictim rs i best) k y) ∧
      ∀ k r y, rs[k]? = some r → r.story = some y → y.candidate = true → Behind (pickVictim rs i best) (i + k) y := by
  induction rs with
  | nil =>
    intro i best _
    exact ⟨fun k y hk => by rw [hk]; exact behind_self, by simp⟩
  | cons r rs ih =>
    intro i best hBest
    obtain ⟨hPicked, hRecords⟩ := ih (i + 1) (pickedOf r i best) fun k x => pickedOf_lt hBest
    rw [pickVictim_cons]
    refine ⟨fun k y hk => ?_, fun k q y hq hStory hCandidate => ?_⟩
    · rw [hk] at hPicked ⊢
      exact (behind_pickedOf_best r i k y).trans hPicked
    · cases k with
      | zero =>
        cases hq
        exact (behind_pickedOf_record hBest hStory hCandidate).trans hPicked
      | succ k =>
        rw [show i + (k + 1) = i + 1 + k by omega]
        exact hRecords k q y hq hStory hCandidate

theorem candidate_iff (st : Story) : st.candidate = true ↔ st.state = .complete ∧ st.pending = 0 := by
  simp [Story.candidate]

/-- Every candidate of the store is the next victim or stands behind it. -/
theorem behind_victim {x : Store} {j : Fin 256} {y : Story} (hStory : (x.records.get j).story = some y)
    (hState : y.state = .complete) (hPending : y.pending = 0) :
    ∃ i st, x.victim = some (i, st) ∧ (j = i ∨ st.Precedes i.val j.val y) := by
  have hRecord : x.records.toList[j.val]? = some (x.records.get j) := by simp [Vector.get_eq_getElem]
  obtain ⟨k, st, hPick, hBehind⟩ := (behind_pickVictim x.records.toList 0 none (by simp)).2 j.val _ y hRecord hStory
    ((candidate_iff y).mpr ⟨hState, hPending⟩)
  obtain hNone | ⟨m, r, hr, hk, -⟩ := pickVictim_candidate _ _ _ hPick
  · cases hNone
  · have hm : m < 256 := by simpa using (List.getElem?_eq_some_iff.mp hr).1
    have hVal : (Fin.ofNat 256 k).val = k := by simp; omega
    refine ⟨Fin.ofNat 256 k, st, by rw [Store.victim, hPick]; rfl, ?_⟩
    rw [hVal]
    rcases hBehind with ⟨hj, -⟩ | hBehind
    · exact .inl (Fin.ext (by omega))
    · exact .inr (by rwa [Nat.zero_add] at hBehind)

theorem victim_eq_none_iff (x : Store) :
    x.victim = none ↔
      ∀ (i : Fin 256) (st : Story), (x.records.get i).story = some st → st.state = .complete → st.pending ≠ 0 := by
  refine ⟨fun h i st hStory hState hPending => ?_, fun h => ?_⟩
  · obtain ⟨j, y, hVictim, -⟩ := behind_victim hStory hState hPending
    rw [h] at hVictim
    cases hVictim
  · cases hVictim : x.victim with
    | none => rfl
    | some v =>
      obtain ⟨hStory, hState, hPending⟩ := victim_candidate hVictim
      exact absurd hPending (h _ _ hStory hState)

/-! ## Freeing (R90, R97) -/

theorem freeStory_of_story {s : State} {i : Fin 256} {st : Story} (h : (s.record i).story = some st) (tell : State → State) :
    s.freeStory i tell = (tell (s.modStore fun x => x.release i st)).judgePool.judgeExhausted := by
  simp only [State.freeStory, h]

/-- A victim's record is FREE once it is freed, and no other record changes. -/
theorem record_freeVictim {s : State} {i : Fin 256} {st : Story} (h : (s.record i).story = some st) (j : Fin 256) :
    (s.freeVictim i st).record j =
      if j = i then { generation := (s.record i).generation + 1, story := none } else s.record j :=
  record_set (freeStory_records s h fun t => by rw [postSet_store]) j

/-! ## Reclamation (R100) -/

/-- The records that hold a story. -/
def State.taken (s : State) : Finset (Fin 256) := Finset.univ.filter fun i => (s.record i).story.isSome

theorem taken_freeVictim {s : State} {i : Fin 256} {st : Story} (h : (s.record i).story = some st) :
    (s.freeVictim i st).taken = s.taken.erase i := by
  ext j
  simp only [State.taken, record_freeVictim h, Finset.mem_filter, Finset.mem_univ, true_and, Finset.mem_erase]
  by_cases hj : j = i <;> simp [hj]

section
variable {s : State} {done : Store → Bool}

theorem reclaim_of_done (h : done s.store = true ∨ s.store.victim = none) (n : Nat) : s.reclaim done n = s := by
  cases n with
  | zero => rfl
  | succ n =>
    rw [State.reclaim]
    rcases h with h | h
    · rw [if_pos h]
    · rw [h]
      split <;> rfl

theorem reclaim_of_victim (hDone : done s.store = false) {i : Fin 256} {st : Story} (hVictim : s.store.victim = some (i, st))
    (n : Nat) : s.reclaim done (n + 1) = (s.freeVictim i st).reclaim done n := by
  rw [State.reclaim, hDone, hVictim]
  rfl

end

/-- As many rounds as there are stories reach the end condition or the last candidate. -/
theorem reclaim_ends (done : Store → Bool) (n : Nat) : ∀ s : State, s.taken.card ≤ n →
    done (s.reclaim done n).store = true ∨ (s.reclaim done n).store.victim = none := by
  induction n with
  | zero =>
    intro s hCard
    refine .inr ((victim_eq_none_iff s.store).mpr fun i st hStory => ?_)
    have hMem : i ∈ s.taken := by simp only [State.taken, Finset.mem_filter, Finset.mem_univ, true_and]; rw [State.record, hStory]; rfl
    rw [Finset.card_eq_zero.mp (Nat.le_zero.mp hCard)] at hMem
    exact absurd hMem (Finset.notMem_empty i)
  | succ n ih =>
    intro s hCard
    by_cases hDone : done s.store = true
    · rw [reclaim_of_done (.inl hDone)]
      exact .inl hDone
    · cases hVictim : s.store.victim with
      | none =>
        rw [reclaim_of_done (.inr hVictim)]
        exact .inr hVictim
      | some v =>
        obtain ⟨i, st⟩ := v
        have hStory : (s.record i).story = some st := (victim_candidate hVictim).1
        rw [reclaim_of_victim (Bool.eq_false_iff.mpr hDone) hVictim]
        refine ih _ ?_
        have hMem : i ∈ s.taken := by simp [State.taken, hStory]
        rw [taken_freeVictim hStory, Finset.card_erase_of_mem hMem]
        omega

theorem card_taken_le (s : State) : s.taken.card ≤ 256 := (Finset.card_filter_le _ _).trans (by simp)

/-! ## Requests (R89, R94) -/

theorem markReached_iff (x : Store) : x.markReached = true ↔ x.reclaimMark ≤ x.freeCount := decide_eq_true_iff

theorem cellReady_iff (x : Store) : x.cellReady = true ↔ x.reclaimMark ≤ x.freeCount ∧ x.freeList ≠ [] := by
  simp [Store.cellReady, Store.markReached]

theorem recordReady_iff (x : Store) :
    x.recordReady = true ↔ x.reclaimMark ≤ x.freeCount ∧ ∃ i : Fin 256, (x.records.get i).story = none := by
  rw [Store.recordReady, Bool.and_eq_true, markReached_iff, someFree_iff]

section
variable {s : State} {i : Fin 256}

theorem requestRecord_of_free (h : s.store.lowestFree = some i) : s.requestRecord = (some i, s) := by
  simp only [State.requestRecord, h]

theorem requestRecord_of_full (h : s.store.lowestFree = none) :
    s.requestRecord =
      if (s.reclaim Store.recordReady 256).store.recordReady = true then
        ((s.reclaim Store.recordReady 256).store.lowestFree, s.reclaim Store.recordReady 256)
      else (none, s.reclaim Store.recordReady 256) := by
  simp only [State.requestRecord, h]
  rfl

theorem requestCell_of_cells (h : s.store.freeList ≠ []) (i : Fin 256) :
    s.requestCell i = (true, (s.modStore fun x => x.allocate i 1).afterAllocation) :=
  if_neg (by simp [h])

theorem requestCell_of_empty (h : s.store.freeList = []) (i : Fin 256) :
    s.requestCell i =
      if (s.reclaim Store.cellReady 256).store.cellReady = true then
        (true, ((s.reclaim Store.cellReady 256).modStore fun x => x.allocate i 1).afterAllocation)
      else (false, s.reclaim Store.cellReady 256) :=
  if_pos (by simp [h])

theorem allocate_one {x : Store} {st : Story} {c : Nat} {rest : List Nat} (hStory : (x.records.get i).story = some st)
    (hFree : x.freeList = c :: rest) :
    x.allocate i 1 =
      { x with
        freeList := rest
        freeCount := x.freeCount - 1
        records := x.records.set i.val
          { generation := (x.records.get i).generation, story := some { st with chain := st.chain ++ [c] } } } := by
  simp only [Store.allocate, hStory, hFree]
  rfl

end

/-- Settles O19. -/
theorem freeingAndVictims : Obligations.FreeingAndVictims := by
  refine ⟨fun s i st tell hStory => ?_, fun x => ⟨victim_eq_none_iff x, fun i st hVictim => ?_⟩, fun s done => ⟨fun h =>
    reclaim_of_done h 256, fun n i st hDone hVictim => reclaim_of_victim hDone hVictim n, reclaim_ends done 256 s (card_taken_le s)⟩,
    fun x => ⟨markReached_iff x, cellReady_iff x, recordReady_iff x, lowestFree_eq_none_iff x, lowestFree_eq_some_iff x⟩,
    fun s => ?_⟩
  · intro u
    have hGen : Fin.ofNat 16 ((s.record i).generation.val + 1) = (s.record i).generation + 1 := by
      apply Fin.ext
      simp [Fin.val_add]
    have hNames := fun k => storyOf_freed (s := s) (t := u) (i := i) rfl k
    refine ⟨?_, (hNames _).trans (if_pos rfl), fun h hIndex => (hNames h).trans (if_neg hIndex)⟩
    rw [freeStory_of_story hStory]
    simp only [u, hGen]
    rfl
  · obtain ⟨hStory, hState, hPending⟩ := victim_candidate hVictim
    refine ⟨hStory, hState, hPending, fun j y hy hComplete hWaits hj => ?_⟩
    obtain ⟨k, z, hz, hBehind⟩ := behind_victim hy hComplete hWaits
    rw [hVictim] at hz
    cases hz
    exact hBehind.resolve_left hj
  · intro emptied vacated
    refine ⟨fun i => requestRecord_of_free, fun hNone hReady => ?_, fun hNone hReady => ?_, fun i st c rest hStory hFree => ?_,
      fun i hFree hReady => ?_, fun i hFree hReady => ?_⟩
    · rw [requestRecord_of_full hNone]
      exact if_pos hReady
    · rw [requestRecord_of_full hNone]
      exact if_neg (by rw [Bool.not_eq_true]; exact hReady)
    · rw [requestCell_of_cells (by rw [hFree]; simp), State.modStore, allocate_one hStory hFree]
      rfl
    · rw [requestCell_of_empty hFree]
      exact if_neg (by rw [Bool.not_eq_true]; exact hReady)
    · rw [requestCell_of_empty hFree, requestCell_of_cells ((cellReady_iff _).mp hReady).2]
      exact if_pos hReady

end Sys2Proof.Machine
end

section
/-! SUPPORT. The text that an append leaves (R88, R105, R109), and the commands APPEND_TEXT, SET_CLOCK and SET_PORT. -/

namespace Sys2Proof.Machine

/-! ## The text of an append -/

/-- The story after `n` cells and the characters of an append. -/
def Store.appendedStory (x : Store) (st : Story) (n count : Nat) : Story :=
  { st with chain := st.chain ++ x.freeList.take n, length := st.length + count }

section
variable {s : State} {h : Handle} {st : Story}

theorem appendChars_of_named (hNamed : s.storyOf h = some st) (n : Nat) (cs : List Byte) :
    s.appendChars h n cs =
      { s with
        store :=
          { s.store with
            text := s.store.text.putChars (st.chain ++ s.store.freeList.take n) st.length cs
            freeList := s.store.freeList.drop n
            freeCount := s.store.freeCount - (s.store.freeList.take n).length
            records := s.store.records.set h.index.val
              { generation := h.generation, story := some (s.store.appendedStory st n cs.length) } } } := by
  obtain ⟨hGen, hStory⟩ := storyOf_eq_some hNamed
  have hGen' : (s.store.records.get h.index).generation = h.generation := hGen
  have hStory' : (s.store.records.get h.index).story = some st := hStory
  have hRead : ∀ r : StoryRecord, (s.store.records.set h.index.val r).get h.index = r := by simp [Vector.get_eq_getElem]
  simp [State.appendChars, Store.allocate, hStory', hGen', State.modStory, State.storyOf, State.record, State.modStore, hRead,
    State.setRecord, Store.appendedStory]

theorem allocate_get (hNamed : s.storyOf h = some st) (n : Nat) (j : Fin 256) :
    ((s.store.allocate h.index n).records.get j).story =
      if j = h.index then some { st with chain := st.chain ++ s.store.freeList.take n } else (s.store.records.get j).story := by
  have hStory : (s.store.records.get h.index).story = some st := (storyOf_eq_some hNamed).2
  have hRecord := record_set (s := s) (t := s.modStore fun x => x.allocate h.index n) (i := h.index)
    (r := { generation := (s.store.records.get h.index).generation
            story := some { st with chain := st.chain ++ s.store.freeList.take n } })
    (by simp only [modStore_store, Store.allocate, hStory]) j
  calc ((s.store.allocate h.index n).records.get j).story = ((s.modStore fun x => x.allocate h.index n).record j).story := rfl
    _ = _ := by
      rw [hRecord]
      split <;> rfl

end

/-- Settles O21. -/
theorem appendedTextReadsBack : Obligations.AppendedTextReadsBack := by
  refine ⟨fun x i j st z p q hLaw hi hj hp hq hAddress => ?_, fun s h st cs => ?_⟩
  · by_cases hij : i = j
    · subst hij
      rw [hi] at hj
      cases hj
      exact ⟨rfl, textAddress_inj (hLaw.chain hi).1 hp hq hAddress⟩
    · exact absurd hAddress (textAddress_ne (hLaw.disjoint hij hi hj) hp hq)
  · intro n hLaw hNamed hCells hn t
    have hAppended := appendChars_of_named hNamed n cs
    have hTaken : (s.store.freeList.take n).length = n := by rw [List.length_take, ← hLaw.count]; omega
    have hLawNew := hLaw.allocate h.index n
    have hStoryNew := (allocate_get hNamed n h.index).trans (if_pos rfl)
    have hNodup : (st.chain ++ s.store.freeList.take n).Nodup := (hLawNew.chain hStoryNew).1
    have hRoom : st.length + cs.length ≤ 32 * (st.chain ++ s.store.freeList.take n).length := by
      rw [List.length_append, hTaken, hCells]
      omega
    have hText : t.store.text = s.store.text.putChars (st.chain ++ s.store.freeList.take n) st.length cs :=
      congrArg (fun u : State => u.store.text) hAppended
    refine ⟨s.store.appendedStory st n cs.length, ?_, rfl, rfl, ?_, ?_, fun p hp => ?_, fun p hp => ?_, fun g z hg hz hzCells => ⟨?_,
      fun p hp => ?_⟩⟩
    · rw [show t = _ from hAppended]
      simp [State.storyOf, State.record, Vector.get_eq_getElem]
    · rw [show t = _ from hAppended]
    · rw [show t = _ from hAppended, hTaken]
    · have hOld : textAddress (st.chain ++ s.store.freeList.take n) p = textAddress st.chain p :=
        textAddress_append _ _ (by omega)
      rw [Memory.charAt, Memory.charAt, hText, ← hOld]
      refine Memory.read_putChars_ne _ _ _ _ hLaw.text fun i hi hSame => ?_
      have := textAddress_inj hNodup (by omega) (by omega) hSame
      omega
    · rw [Memory.charAt, hText]
      refine Memory.read_putChars _ _ _ hLaw.text (fun i j hi hj hSame => ?_) p hp
      have := textAddress_inj hNodup (by omega) (by omega) hSame
      omega
    · rw [show t = _ from hAppended]
      have hRecord : (s.store.records.set h.index.val
          { generation := h.generation, story := some (s.store.appendedStory st n cs.length) }).get g.index =
          s.store.records.get g.index := by
        rw [Vector.get_eq_getElem, Vector.get_eq_getElem]
        exact Vector.getElem_set_ne _ _ fun e => hg (Fin.ext e.symm)
      simp only [State.storyOf, State.record, hRecord]
      exact hz
    · rw [Memory.charAt, Memory.charAt, hText]
      have hzStory := (allocate_get hNamed n g.index).trans (if_neg hg)
      rw [show (s.store.records.get g.index).story = some z from (storyOf_eq_some hz).2] at hzStory
      have hDisjoint : (st.chain ++ s.store.freeList.take n).Disjoint z.chain :=
        hLawNew.disjoint (fun e => hg e.symm) hStoryNew hzStory
      exact Memory.read_putChars_ne _ _ _ _ hLaw.text fun i hi => textAddress_ne hDisjoint (by omega) (by omega)

/-! ## APPEND_TEXT (R105) -/

section
variable {s : State} {p : Port}

theorem appendTextCommand_badLength {xs : List Byte} (h : xs.length < 3 ∨ 242 < xs.length) :
    appendTextCommand p xs s = s.refuse .badLength := if_pos h

variable {i g : Byte} {cs : List Byte} (hSome : 1 ≤ cs.length) (hFits : cs.length ≤ 240)
include hSome hFits

theorem appendTextCommand_stale (hNone : s.namedStory (i :: g :: cs) = none) :
    appendTextCommand p (i :: g :: cs) s = s.refuse .stale := by
  rw [appendTextCommand, if_neg (by simp; omega), hNone]

theorem appendTextCommand_named {h : Handle} {st : Story} (hNamed : s.namedStory (i :: g :: cs) = some (h, st)) :
    appendTextCommand p (i :: g :: cs) s =
      if st.state ≠ .composing then s.refuse .wrongState
      else if st.holder ≠ some p then s.refuse .notHolder
      else if 16384 < st.length + cs.length then s.refuse .tooLong
      else if (st.length + cs.length + 31) / 32 - (st.length + 31) / 32 ≠ 0 ∧
          s.store.freeCount < s.store.deskReserve + ((st.length + cs.length + 31) / 32 - (st.length + 31) / 32) then
        s.refuse .poolLow
      else
        (if (st.length + cs.length + 31) / 32 - (st.length + 31) / 32 = 0 then
            s.appendChars h ((st.length + cs.length + 31) / 32 - (st.length + 31) / 32) cs
          else (s.appendChars h ((st.length + cs.length + 31) / 32 - (st.length + 31) / 32) cs).afterAllocation).done
            [byte1 (st.length + cs.length), byte1 ((st.length + cs.length) / 256)] := by
  rw [appendTextCommand, if_neg (by simp; omega), hNamed]
  rfl

end

/-- Settles O54. -/
theorem appendTextResult : Obligations.AppendTextResult := by
  refine ⟨fun s p f hp hLength => exec_of_ready rfl hp (appendTextCommand_badLength hLength),
    fun s p rate i g cs hp hSome hFits hStale =>
      exec_of_ready rfl hp (appendTextCommand_stale hSome hFits (namedStory_eq_none hStale)),
    fun s p rate i g cs h st hp hSome hFits hi hg hNamed => ?_⟩
  intro f n length done
  have hReply := appendTextCommand_named (p := p) hSome hFits (namedStory_eq_some (xs := cs) hi hg hNamed)
  have hDone : ∀ t status payload, appendTextCommand p (i :: g :: cs) s = ⟨status, payload, t⟩ →
      done = .next (t.answer p 0x23 f status payload) := fun t status payload e => exec_of_ready rfl hp e
  refine ⟨fun hState => hDone _ _ _ ?_, fun hState hHolder => hDone _ _ _ ?_, fun hState hHolder hLong => hDone _ _ _ ?_,
    fun hState hHolder hLength hn hLow => hDone _ _ _ ?_, fun hState hHolder hLength hn => hDone _ _ _ ?_,
    fun hState hHolder hLength hn hFree => hDone _ _ _ ?_⟩
  · rw [hReply, if_pos hState]
    rfl
  · rw [hReply, if_neg (not_not.mpr hState), if_pos hHolder]
    rfl
  · rw [hReply, if_neg (not_not.mpr hState), if_neg (not_not.mpr hHolder), if_pos hLong]
    rfl
  · rw [hReply, if_neg (not_not.mpr hState), if_neg (not_not.mpr hHolder), if_neg (Nat.not_lt.mpr hLength), if_pos ⟨hn, hLow⟩]
    rfl
  · rw [hReply, if_neg (not_not.mpr hState), if_neg (not_not.mpr hHolder), if_neg (Nat.not_lt.mpr hLength),
      if_neg fun h => h.1 hn, if_pos hn]
    exact congrArg (fun k => (s.appendChars h k cs).done _) hn
  · rw [hReply, if_neg (not_not.mpr hState), if_neg (not_not.mpr hHolder), if_neg (Nat.not_lt.mpr hLength),
      if_neg fun h => absurd h.2 (Nat.not_lt.mpr hFree), if_neg hn]
    rfl

/-! ## SET_CLOCK (R188) and SET_PORT (R175) -/

theorem setClockCommand_badLength {s : State} {xs : List Byte} (h : xs.length ≠ 6) :
    setClockCommand xs s = s.refuse .badLength := if_pos h

theorem setClockCommand_of_bytes (s : State) (d0 d1 c0 c1 c2 c3 : Byte) :
    setClockCommand [d0, d1, c0, c1, c2, c3] s =
      if 86400 ≤ c0.toNat + 256 * c1.toNat + 65536 * c2.toNat + 16777216 * c3.toNat then s.refuse .badValue
      else
        (s.modRoom fun r =>
          { r with
            clock :=
              { day := d0.toNat + 256 * d1.toNat
                second := c0.toNat + 256 * c1.toNat + 65536 * c2.toNat + 16777216 * c3.toNat
                millis := 0
                isSet := true } }).done [] := by
  have hDay : numAt [d0, d1, c0, c1, c2, c3] 0 2 = d0.toNat + 256 * d1.toNat := rfl
  have hSecond : numAt [d0, d1, c0, c1, c2, c3] 2 4 =
      c0.toNat + 256 * c1.toNat + 65536 * c2.toNat + 16777216 * c3.toNat := by
    simp only [numAt, List.drop_succ_cons, List.drop_zero, List.take_succ_cons, List.take_zero, leNat]
    omega
  rw [setClockCommand, if_neg (by simp), hDay, hSecond]
  rfl

/-- Settles O43. -/
theorem setClockResult : Obligations.SetClockResult := by
  refine ⟨fun s p f hp hLength => exec_of_ready rfl hp (setClockCommand_badLength hLength),
    fun s p rate d0 d1 c0 c1 c2 c3 hp => ⟨fun hSecond => exec_of_ready rfl hp ?_, fun hSecond => exec_of_ready rfl hp ?_⟩⟩
  · exact (setClockCommand_of_bytes ..).trans (if_neg (by omega))
  · exact (setClockCommand_of_bytes ..).trans (if_pos (by omega))

theorem setPortCommand_badLength {s : State} {p : Port} {xs : List Byte} (h : xs.length ≠ 5) :
    setPortCommand p xs s = s.refuse .badLength := if_pos h

theorem setPortCommand_of_bytes (s : State) (p : Port) (i0 i1 m0 m1 n : Byte) :
    setPortCommand p [i0, i1, m0, m1, n] s =
      (if (if n.toNat = 0 then Silence.untimed else .active) = (s.port p).silence then
          s.withSettings p (BitVec.ofNat 16 (i0.toNat + 256 * i1.toNat)) (BitVec.ofNat 11 (m0.toNat + 256 * m1.toNat)) n.toNat
        else
          (s.withSettings p (BitVec.ofNat 16 (i0.toNat + 256 * i1.toNat)) (BitVec.ofNat 11 (m0.toNat + 256 * m1.toNat))
            n.toNat).judgeRoom).done
        [i0, i1, m0, byte1 ((BitVec.ofNat 11 (m0.toNat + 256 * m1.toNat)).toNat / 256), n] := by
  have hInterest : lineSetAt [i0, i1, m0, m1, n] 0 = BitVec.ofNat 16 (i0.toNat + 256 * i1.toNat) := by
    rw [lineSetAt, numAt_two (by simp)]
    rfl
  have hMask : numAt [i0, i1, m0, m1, n] 2 2 = m0.toNat + 256 * m1.toNat := numAt_two (by simp)
  have hInterval : byteAt [i0, i1, m0, m1, n] 4 = n.toNat := rfl
  have hMaskBytes : leBytes 2 (BitVec.ofNat 11 (m0.toNat + 256 * m1.toNat)).toNat =
      [m0, byte1 ((BitVec.ofNat 11 (m0.toNat + 256 * m1.toNat)).toNat / 256)] := by
    have hLow : byte1 (BitVec.ofNat 11 (m0.toNat + 256 * m1.toNat)).toNat = m0 := by
      apply BitVec.eq_of_toNat_eq
      simp only [byte1, BitVec.toNat_ofNat]
      omega
    simp only [leBytes, hLow]
  have hLast : byte1 n.toNat = n := byte1_of_toNat rfl
  rw [setPortCommand, if_neg (by simp)]
  simp only [hInterest, hMask, hInterval, leBytes_two_ofNat, hMaskBytes, hLast]
  rfl

/-- Settles O44. -/
theorem setPortResult : Obligations.SetPortResult := by
  refine ⟨fun s p f hp hLength => exec_of_ready rfl hp (setPortCommand_badLength hLength),
    fun s p rate i0 i1 m0 m1 n hp => ?_⟩
  intro f mask t bytes
  have hZero : n.toNat = 0 ↔ n = 0 := by
    rw [BitVec.toNat_eq]
    rfl
  have hTaken : s.withSettings p (BitVec.ofNat 16 (i0.toNat + 256 * i1.toNat)) mask n.toNat = t := by
    simp only [State.withSettings, hZero]
    rfl
  have hReply := setPortCommand_of_bytes s p i0 i1 m0 m1 n
  simp only [hZero] at hReply
  refine ⟨fun hSame => exec_of_ready rfl hp (hReply.trans ?_), fun hOther => exec_of_ready rfl hp (hReply.trans ?_)⟩
  · rw [if_pos hSame.symm, hTaken]
    rfl
  · rw [if_neg (Ne.symm hOther), hTaken]
    rfl

end Sys2Proof.Machine
end

section
/-! SUPPORT. The operations of a send side, case by case: motor delays, halts, break-ins, hold and resume (R157 to R165). -/

namespace Sys2Proof.Machine

/-! ## Changes of one send side -/

theorem modSend_modSend (s : State) (l : LineNo) (f g : SendSide → SendSide) :
    (s.modSend l f).modSend l g = s.modSend l fun x => g (f x) :=
  modLine_modLine ..

/-- A change of the send side counts only by what it makes of that side. -/
theorem modSend_congr {s : State} {l : LineNo} {f g : SendSide → SendSide} (h : f (s.line l).send = g (s.line l).send) :
    s.modSend l f = s.modSend l g :=
  modLine_congr (congrArg (fun x => { s.line l with send := x }) h)

theorem modSend_self {s : State} {l : LineNo} {f : SendSide → SendSide} (h : f (s.line l).send = (s.line l).send) :
    s.modSend l f = s :=
  modLine_self (congrArg (fun x => { s.line l with send := x }) h)

@[simp] theorem modSend_hasWork (s : State) (l m : LineNo) (f : SendSide → SendSide) :
    (s.modSend l f).hasWork m = s.hasWork m := by
  by_cases h : m = l
  · subst h
    simp [State.hasWork]
  · simp [State.hasWork, h]

theorem hasWork_iff (s : State) (l : LineNo) :
    s.hasWork l = true ↔ (s.line l).dist.current ≠ none ∨ (s.line l).dist.queue ≠ [] ∨ (s.line l).dist.stack ≠ [] := by
  simp [State.hasWork, Distribution.hasWork, Option.isSome_iff_ne_none, or_assoc]

/-! ## Timers and resting states (R157, R158) -/

theorem loadStopDelay_eq (s : State) (l : LineNo) :
    s.loadStopDelay l = s.modSend l fun y =>
      { y with
        stopDelay := if (s.line l).record.motorControl then
            some { loadedAt := s.tick, ms := (s.line l).record.stopDelay * 1000 }
          else y.stopDelay } := by
  unfold State.loadStopDelay
  split
  · rfl
  · exact (modSend_self rfl).symm

theorem enterIdle_eq (s : State) (l : LineNo) :
    s.enterIdle l = s.modSend l fun y =>
      { y with
        state := .idle
        startDelay := none
        stopDelay := if (s.line l).record.motorControl then
            some { loadedAt := s.tick, ms := (s.line l).record.stopDelay * 1000 }
          else y.stopDelay } := by
  rw [State.enterIdle, loadStopDelay_eq, modSend_modSend, line_modSend_same]
  rfl

section
variable {s : State} {l : LineNo}

theorem workRunsOut_of_sending (h : (s.line l).send.state = .sending) : s.workRunsOut l = s.enterIdle l := by
  simp only [State.workRunsOut, h]

theorem workRunsOut_of_not_sending (h : (s.line l).send.state ≠ .sending) : s.workRunsOut l = s := by
  unfold State.workRunsOut
  cases hs : (s.line l).send.state with
  | sending => exact absurd hs h
  | _ => rfl

/-! ## Holds and break-ins (R159, R162, R164) -/

theorem takeHold_of_waiting (h : (s.line l).send.holdWaiting = true) :
    s.takeHold l = s.modSend l fun y => { y with state := .halted, stopDelay := none, deskHold := true, holdWaiting := false } := by
  rw [State.takeHold, if_pos h]
  exact modSend_congr (by simp [SendSide.halt, h])

theorem takeHold_of_none (h : (s.line l).send.holdWaiting = false) : s.takeHold l = s := if_neg (by simp [h])

/-- The side after BREAK_IN has joined its halt causes. -/
def SendSide.broken (x : SendSide) : SendSide :=
  if x.state = .halted then { x with breakIn := true } else { x.halt with breakIn := true }

theorem takeBreakIn_of_set (h : (s.line l).send.breakIn = true) :
    s.takeBreakIn l = s.modSend l fun y => { y with guard := none } := if_pos h

theorem takeBreakIn_of_clear (h : (s.line l).send.breakIn = false) :
    s.takeBreakIn l =
      (s.modLine l fun x => { x.broken with send := x.broken.send.broken }).postLine l .send (.breakIn true) := by
  rw [State.takeBreakIn, if_neg (by simp [h])]
  exact congrArg (fun t : State => t.postLine l .send (.breakIn true)) (modLine_modLine ..)

/-! ## Leaving the delays (R157, R160) -/

theorem startDelayOver_of_starting_work (h : (s.line l).send.state = .starting) (hWork : s.hasWork l = true) :
    s.startDelayOver l = (s.modSend l fun y => { y with startDelay := none }).enterSending l := by
  simp [State.startDelayOver, h, hWork]

theorem startDelayOver_of_starting_idle (h : (s.line l).send.state = .starting) (hWork : s.hasWork l = false) :
    s.startDelayOver l = s.enterIdle l := by
  simp only [State.startDelayOver, line_modSend_same, h, modSend_hasWork, hWork, Bool.false_eq_true, if_false]
  rw [enterIdle_eq, enterIdle_eq, modSend_modSend, line_modSend_same]
  rfl

theorem startDelayOver_of_not_starting (h : (s.line l).send.state ≠ .starting) :
    s.startDelayOver l = s.modSend l fun y => { y with startDelay := none } := by
  unfold State.startDelayOver
  dsimp only
  rw [line_modSend_same]
  cases hs : (s.line l).send.state with
  | starting => exact absurd hs h
  | _ => rfl

/-- What a side was before it enters SENDING counts only but for its state. -/
theorem enterSending_congr {f g : SendSide → SendSide}
    (h : { f (s.line l).send with state := .sending } = { g (s.line l).send with state := .sending }) :
    (s.modSend l f).enterSending l = (s.modSend l g).enterSending l := by
  have hSame : ((s.modSend l f).modSend l fun x => { x with state := .sending }) =
      (s.modSend l g).modSend l fun x => { x with state := .sending } := by
    rw [modSend_modSend, modSend_modSend]
    exact modSend_congr h
  rw [State.enterSending, State.enterSending, hSame]

/-! ## Entering STARTING (R157, R161, R164) -/

/-- A side that enters STARTING, its motor on and its start delay loaded. -/
def State.started (s : State) (l : LineNo) : State :=
  s.modSend l fun y =>
    { y with
      state := .starting
      motor := true
      startDelay := some { loadedAt := s.tick, ms := (s.line l).record.startDelay } }

/-- A side whose motor runs without a start delay; on an OPEN loop a break-in already taken stops its guard. -/
def State.running (s : State) (l : LineNo) : State :=
  s.modSend l fun y =>
    { y with motor := true, startDelay := none, guard := if (s.line l).txLoop.loop = .opened then none else y.guard }

theorem enterStarting_eq (s : State) (l : LineNo) :
    s.enterStarting l =
      if (s.line l).record.startDelay = 0 then
        State.startDelayOver (if (s.line l).txLoop.loop = .opened then (s.started l).takeBreakIn l else s.started l) l
      else if (s.line l).txLoop.loop = .opened then (s.started l).takeBreakIn l else s.started l := by
  simp only [State.enterStarting, line_modSend_same]
  rfl

theorem enterStarting_of_delay (h : (s.line l).record.startDelay ≠ 0) :
    s.enterStarting l = if (s.line l).txLoop.loop = .opened then (s.started l).takeBreakIn l else s.started l := by
  rw [enterStarting_eq, if_neg h]

/-- The side with its delay loaded where no break-in is taken. -/
theorem started_unbroken (h : (s.line l).txLoop.loop ≠ .opened ∨ (s.line l).send.breakIn = true) :
    (if (s.line l).txLoop.loop = .opened then (s.started l).takeBreakIn l else s.started l) =
      s.modSend l fun y =>
        { y with
          state := .starting
          motor := true
          startDelay := some { loadedAt := s.tick, ms := (s.line l).record.startDelay }
          guard := if (s.line l).txLoop.loop = .opened then none else y.guard } := by
  by_cases hOpen : (s.line l).txLoop.loop = .opened
  · have hBreak : ((s.started l).line l).send.breakIn = true := by
      simpa [State.started] using h.resolve_left (not_not.mpr hOpen)
    rw [if_pos hOpen, takeBreakIn_of_set hBreak, State.started, modSend_modSend]
    simp [hOpen]
  · rw [if_neg hOpen]
    simp [State.started, hOpen]

theorem enterStarting_of_no_delay_work (hDelay : (s.line l).record.startDelay = 0)
    (h : (s.line l).txLoop.loop ≠ .opened ∨ (s.line l).send.breakIn = true) (hWork : s.hasWork l = true) :
    s.enterStarting l = (s.running l).enterSending l := by
  rw [enterStarting_eq, if_pos hDelay, started_unbroken h, startDelayOver_of_starting_work (by simp) (by simpa using hWork),
    modSend_modSend]
  exact enterSending_congr rfl

theorem enterStarting_of_no_delay_idle (hDelay : (s.line l).record.startDelay = 0)
    (h : (s.line l).txLoop.loop ≠ .opened ∨ (s.line l).send.breakIn = true) (hWork : s.hasWork l = false) :
    s.enterStarting l = (s.running l).enterIdle l := by
  rw [enterStarting_eq, if_pos hDelay, started_unbroken h, startDelayOver_of_starting_idle (by simp) (by simpa using hWork),
    enterIdle_eq, enterIdle_eq, State.running, modSend_modSend, modSend_modSend, line_modSend_same, line_modSend_same]
  rfl

/-- A break-in takes the side out of STARTING, and the delay that expires at once only stops. -/
theorem enterStarting_of_no_delay_break (hDelay : (s.line l).record.startDelay = 0)
    (hOpen : (s.line l).txLoop.loop = .opened) (hBreak : (s.line l).send.breakIn = false) :
    s.enterStarting l = ((s.started l).takeBreakIn l).modSend l fun y => { y with startDelay := none } := by
  have hHalted : (((s.started l).takeBreakIn l).line l).send.state = .halted := by
    rw [takeBreakIn_of_clear (by simpa [State.started] using hBreak), line_of_lines (postLine_lines ..), line_modLine_same]
    simp only [SendSide.broken]
    split
    · assumption
    · rfl
  rw [enterStarting_eq, if_pos hDelay, if_pos hOpen, startDelayOver_of_not_starting (by rw [hHalted]; nofun)]

/-! ## Work arriving (R157) and entering SENDING (R119, R155) -/

theorem workArrives_of_stopped (h : (s.line l).send.state = .stopped) : s.workArrives l = s.enterStarting l := by
  simp only [State.workArrives, h]

theorem workArrives_of_idle (h : (s.line l).send.state = .idle) :
    s.workArrives l = (s.modSend l fun y => { y with stopDelay := none }).enterSending l := by
  simp only [State.workArrives, h]

theorem workArrives_of_other (hStopped : (s.line l).send.state ≠ .stopped) (hIdle : (s.line l).send.state ≠ .idle) :
    s.workArrives l = s := by
  unfold State.workArrives
  cases hs : (s.line l).send.state with
  | stopped => exact absurd hs hStopped
  | idle => exact absurd hs hIdle
  | _ => rfl

theorem enterSending_eq (s : State) (l : LineNo) :
    s.enterSending l =
      if (s.line l).send.frame = none then
        ((s.modSend l fun y => { y with state := .sending }).chooseNext l).request l 40
      else (s.modSend l fun y => { y with state := .sending }).chooseNext l := by
  have hFrame : (((s.modSend l fun y => { y with state := .sending }).chooseNext l).line l).send.frame =
      (s.line l).send.frame := by
    rw [(chooseNext_send _ l l).1, line_modSend_same]
  rw [State.enterSending, hFrame]
  cases (s.line l).send.frame <;> rfl

/-! ## Leaving HALTED (R161) -/

theorem leaveHalted_eq (s : State) (l : LineNo) :
    s.leaveHalted l =
      if (s.line l).record.motorControl = true then
        if (s.line l).send.motor = true then
          if s.hasWork l = true then
            if (s.line l).send.startDelay ≠ none then
              if (s.line l).txLoop.loop = .opened then (s.modSend l fun y => { y with state := .starting }).takeBreakIn l
              else s.modSend l fun y => { y with state := .starting }
            else s.enterSending l
          else s.enterIdle l
        else if s.hasWork l = true then s.enterStarting l
        else s.modSend l fun y => { y with state := .stopped }
      else if s.hasWork l = true then s.enterSending l
      else s.modSend l fun y => { y with state := .idle } := by
  have hOpen : ((s.modSend l fun y => { y with state := .starting }).line l).txLoop.loop = (s.line l).txLoop.loop := by
    rw [line_modSend_same]
  simp only [State.leaveHalted, hOpen]
  cases (s.line l).send.startDelay <;> cases s.hasWork l <;> rfl

end

/-! ## The rows of the delays and of the guard -/

section
variable {s : State} {l : LineNo} {t : Timer}

theorem exec_startDelayExpiry_of_timer (h : (s.line l).send.startDelay = some t) :
    exec (.startDelayExpiry l) s = .next ((s.advanceTo t.due).startDelayOver l) :=
  congrArg Host.Outcome.next (whenDue_of_eq_some ((startDelayDue_eq_some_iff _ _).mpr ⟨t, h, rfl⟩) fun t => t.startDelayOver l)

theorem exec_stopDelayExpiry_of_timer (hIdle : (s.line l).send.state = .idle) (h : (s.line l).send.stopDelay = some t) :
    exec (.stopDelayExpiry l) s =
      .next ((s.advanceTo t.due).modSend l fun x => { x with state := .stopped, motor := false, stopDelay := none }) :=
  congrArg Host.Outcome.next (whenDue_of_eq_some ((stopDelayDue_eq_some_iff _ _).mpr ⟨hIdle, t, h, rfl⟩) fun t =>
    t.modSend l fun x => { x with state := .stopped, motor := false, stopDelay := none })

theorem exec_guardTimerExpiry_of_timer (h : (s.line l).send.guard = some t) :
    exec (.guardTimerExpiry l) s = .next ((s.advanceTo t.due).guardOver l) :=
  congrArg Host.Outcome.next (whenDue_of_eq_some ((guardDue_eq_some_iff _ _).mpr ⟨t, h, rfl⟩) fun t => t.guardOver l)

end

/-- Settles O32. -/
theorem motorDelayResults : Obligations.MotorDelayResults := by
  intro s l t x u
  have hLine : u.line l = s.line l := advanceTo_line ..
  refine ⟨fun hTimer hState hWork => ?_, fun hTimer hState hWork => ?_, fun hTimer hState => ?_, fun hTimer hState =>
    exec_stopDelayExpiry_of_timer hState hTimer⟩
  · rw [exec_startDelayExpiry_of_timer hTimer,
      startDelayOver_of_starting_work (by rw [hLine]; exact hState) (by rw [State.hasWork, hLine]; exact hWork)]
  · rw [exec_startDelayExpiry_of_timer hTimer,
      startDelayOver_of_starting_idle (by rw [hLine]; exact hState) (by rw [State.hasWork, hLine]; exact hWork), enterIdle_eq,
      hLine]
  · rw [exec_startDelayExpiry_of_timer hTimer, startDelayOver_of_not_starting (by rw [hLine]; exact hState)]

/-- Settles O34. -/
theorem breakInResult : Obligations.BreakInResult := by
  intro s l x halted told
  refine ⟨takeBreakIn_of_set, fun hBreak hNone => ?_, fun u hBreak hCurrent => ?_⟩
  · rw [takeBreakIn_of_clear hBreak]
    refine congrArg (fun t : State => t.postLine l .send (.breakIn true)) (modLine_congr ?_)
    have hDist : (s.line l).dist.current = none := hNone
    simp only [Line.broken, hDist, Encoder.brokenIdle]
    rfl
  · rw [takeBreakIn_of_clear hBreak]
    refine congrArg (fun t : State => t.postLine l .send (.breakIn true)) (modLine_congr ?_)
    have hDist : (s.line l).dist.current = some u := hCurrent
    simp only [Line.broken, hDist, Encoder.broken]
    rfl

/-! ## The guard (R165) -/

section
variable {s : State} {l : LineNo}

theorem dropBreakIn_line (s : State) (l : LineNo) :
    (s.dropBreakIn l).line l = { s.line l with send := { (s.line l).send with breakIn := false, guard := none } } := by
  rw [State.dropBreakIn, line_of_lines (postLine_lines ..), line_modSend_same]

theorem leaveIfFree_of_free (hState : (s.line l).send.state = .halted) (hHold : (s.line l).send.deskHold = false)
    (hBreak : (s.line l).send.breakIn = false) : s.leaveIfFree l = s.leaveHalted l :=
  if_pos ⟨hState, by simp [SendSide.noCause, hHold, hBreak]⟩

theorem leaveIfFree_of_bound
    (h : ¬((s.line l).send.state = .halted ∧ (s.line l).send.deskHold = false ∧ (s.line l).send.breakIn = false)) :
    s.leaveIfFree l = s :=
  if_neg fun k => h (by simpa [SendSide.noCause] using k)

theorem guardOver_of_kept (h : (s.line l).record.breakPolicy = .hold ∨ (s.line l).send.breakIn = false) :
    s.guardOver l = s.modSend l fun y => { y with guard := none } := by
  simp only [State.guardOver, line_modSend_same]
  rcases h with h | h
  · rw [h]
  · rw [h]
    cases (s.line l).record.breakPolicy <;> rfl

theorem guardOver_of_dropped (hPolicy : (s.line l).record.breakPolicy = .auto) (hBreak : (s.line l).send.breakIn = true) :
    s.guardOver l = (s.dropBreakIn l).leaveIfFree l := by
  have hGuard : (s.modSend l fun y => { y with guard := none }).dropBreakIn l = s.dropBreakIn l := by
    rw [State.dropBreakIn, modSend_modSend]
    rfl
  simp only [State.guardOver, line_modSend_same, hPolicy, hBreak, hGuard, if_true]

end

/-- Settles O33. -/
theorem guardTimerExpiryAndLeavingHalted : Obligations.GuardTimerExpiryAndLeavingHalted := by
  refine ⟨fun s l => ?_, fun s l t hGuard => ?_⟩
  · intro x work running started ready
    have hLeave := leaveHalted_eq s l
    refine ⟨fun hControl hMotor hDelay (hWork : s.hasWork l = true) => ?_,
      fun (hControl : (s.line l).record.motorControl = true) hMotor (hWork : s.hasWork l = false) => ?_,
      fun hControl hMotor hDelay (hWork : s.hasWork l = true) => ?_,
      fun hControl (hMotor : (s.line l).send.motor = false) (hWork : s.hasWork l = true) hDelay => ?_,
      fun hControl (hMotor : (s.line l).send.motor = false) (hWork : s.hasWork l = true) hDelay hLoop => ?_,
      fun hControl (hMotor : (s.line l).send.motor = false) (hWork : s.hasWork l = true) hDelay hOpen hBreak => ?_,
      fun hControl (hMotor : (s.line l).send.motor = false) (hWork : s.hasWork l = false) => ?_,
      fun (hControl : (s.line l).record.motorControl = false) (hWork : s.hasWork l = true) => ?_,
      fun (hControl : (s.line l).record.motorControl = false) (hWork : s.hasWork l = false) => ?_⟩
    · rw [hLeave, if_pos hControl, if_pos hMotor, if_pos hWork, if_pos hDelay]
    · rw [hLeave, if_pos hControl, if_pos hMotor, if_neg (by simp [hWork]), enterIdle_eq]
      exact modSend_congr (by simp only [hControl, if_true]; rfl)
    · rw [hLeave, if_pos hControl, if_pos hMotor, if_pos hWork, if_neg (not_not.mpr hDelay)]
    · rw [hLeave, if_pos hControl, if_neg (by simp [hMotor]), if_pos hWork, enterStarting_of_delay hDelay]
      rfl
    · rw [hLeave, if_pos hControl, if_neg (by simp [hMotor]), if_pos hWork, enterStarting_of_no_delay_work hDelay hLoop hWork]
      rfl
    · rw [hLeave, if_pos hControl, if_neg (by simp [hMotor]), if_pos hWork, enterStarting_of_no_delay_break hDelay hOpen hBreak]
      rfl
    · rw [hLeave, if_pos hControl, if_neg (by simp [hMotor]), if_neg (by simp [hWork])]
    · rw [hLeave, if_neg (by simp [hControl]), if_pos hWork]
    · rw [hLeave, if_neg (by simp [hControl]), if_neg (by simp [hWork])]
  · intro x u v
    have hLine : u.line l = x := advanceTo_line ..
    have hDropped := dropBreakIn_line u l
    rw [exec_guardTimerExpiry_of_timer hGuard]
    refine ⟨fun hKept => ?_, fun hPolicy hBreak hFree => ?_, fun hPolicy hBreak hBound => ?_⟩
    · rw [guardOver_of_kept (by rw [advanceTo_line]; exact hKept)]
    · rw [guardOver_of_dropped (by rw [hLine, hPolicy]) (by rw [hLine, hBreak]),
        leaveIfFree_of_free (by rw [hDropped, hLine, hFree.1]) (by rw [hDropped, hLine, hFree.2]) (by rw [hDropped])]
      rfl
    · rw [guardOver_of_dropped (by rw [hLine, hPolicy]) (by rw [hLine, hBreak]), leaveIfFree_of_bound]
      · rfl
      · rw [hDropped, hLine]
        exact fun h => hBound ⟨h.1, h.2.1⟩

end Sys2Proof.Machine
end

section
/-! SUPPORT. LINE_CONTROL (R30, R162, R163); the end of a transmission and of a print line (R122 to R126), and the next-story choice
(R119 to R121) on a line. -/

namespace Sys2Proof.Machine

/-! ## LINE_CONTROL (R30) -/

section
variable {s : State} {n : Byte}

theorem lineControlCommand_badValue (h : 15 < n.toNat) (action : Byte) :
    lineControlCommand [n, action] s = s.refuse .badValue := by
  have hNone : lineOf (byteAt [n, action] 0) = none := lineOf_eq_none h
  rw [lineControlCommand, if_neg (by simp), hNone]

variable {l : LineNo} (h : n.toNat = l.val)
include h

theorem lineControlCommand_of_line (action : Byte) :
    lineControlCommand [n, action] s =
      if 2 < action.toNat then s.refuse .badValue
      else if action.toNat = 0 then (if (s.line l).record.mode = .off then s.refuse .lineMode else (s.resetLine l).done [])
      else if (s.line l).record.mode.hasSend = false then s.refuse .lineMode
      else if action.toNat = 1 then (s.holdLine l).done []
      else (s.resumeLine l).done [] := by
  have hLine : lineOf (byteAt [n, action] 0) = some l := (lineOf_eq_some_iff _ l).mpr h
  rw [lineControlCommand, if_neg (by simp), hLine]
  rfl

theorem lineControlCommand_hold :
    lineControlCommand [n, 1] s =
      if (s.line l).record.mode.hasSend = false then s.refuse .lineMode else (s.holdLine l).done [] :=
  lineControlCommand_of_line h 1

theorem lineControlCommand_resume :
    lineControlCommand [n, 2] s =
      if (s.line l).record.mode.hasSend = false then s.refuse .lineMode else (s.resumeLine l).done [] :=
  lineControlCommand_of_line h 2

end

theorem Mode.hasSend_eq_false_iff (m : Mode) : m.hasSend = false ↔ m = .off ∨ m = .inbound := by
  cases m <;> simp [Mode.hasSend]

/-! ## Hold and resume (R162, R163) -/

section
variable {s : State} {l : LineNo}

theorem holdLine_of_sending (h : (s.line l).send.state = .sending) :
    s.holdLine l = s.modSend l fun y => { y with holdWaiting := true } := by
  simp only [State.holdLine, h]

theorem holdLine_of_halted (h : (s.line l).send.state = .halted) :
    s.holdLine l = s.modSend l fun y => { y with deskHold := true } := by
  simp only [State.holdLine, h]

theorem holdLine_of_running
    (h : (s.line l).send.state = .starting ∨ (s.line l).send.state = .idle ∨ (s.line l).send.state = .stopped) :
    s.holdLine l =
      s.modSend l fun y => { y with state := .halted, deskHold := true, holdWaiting := false, stopDelay := none } := by
  rcases h with h | h | h <;> simp only [State.holdLine, h] <;> rfl

/-- The side without a waiting hold and without DESK_HOLD (R163, step 1). -/
def State.unheld (s : State) (l : LineNo) : State := s.modSend l fun x => { x with holdWaiting := false, deskHold := false }

@[simp] theorem unheld_line (s : State) (l : LineNo) :
    (s.unheld l).line l = { s.line l with send := { (s.line l).send with holdWaiting := false, deskHold := false } } :=
  line_modSend_same ..

theorem resumeClearsBreak_iff (x : Line) :
    x.resumeClearsBreak = true ↔ x.txLoop.loop ≠ .opened ∧ (x.record.breakPolicy = .hold ∨ x.send.guard = none) := by
  cases hPolicy : x.record.breakPolicy <;> simp [Line.resumeClearsBreak, hPolicy]

theorem resumeLine_of_kept (h : (s.line l).send.breakIn = false ∨ (s.line l).resumeClearsBreak = false) :
    s.resumeLine l = (s.unheld l).leaveIfFree l := by
  refine congrArg (fun t : State => t.leaveIfFree l) (if_neg ?_)
  have hClears : ((s.unheld l).line l).resumeClearsBreak = (s.line l).resumeClearsBreak := by
    rw [unheld_line]
    rfl
  rw [Bool.and_eq_true]
  rintro ⟨hBreak, hClear⟩
  have hBreak' : (s.line l).send.breakIn = true := by simpa using hBreak
  have hClear' : (s.line l).resumeClearsBreak = true := hClears ▸ hClear
  simp [hBreak', hClear'] at h

theorem resumeLine_of_cleared (hBreak : (s.line l).send.breakIn = true) (hClear : (s.line l).resumeClearsBreak = true) :
    s.resumeLine l = ((s.unheld l).dropBreakIn l).leaveIfFree l := by
  refine congrArg (fun t : State => t.leaveIfFree l) (if_pos ?_)
  have hClears : ((s.unheld l).line l).resumeClearsBreak = (s.line l).resumeClearsBreak := by
    rw [unheld_line]
    rfl
  rw [Bool.and_eq_true]
  exact ⟨by simpa using hBreak, hClears.trans hClear⟩

end

/-- Settles O51. -/
theorem lineHoldAndResumeResult : Obligations.LineHoldAndResumeResult := by
  refine ⟨fun s p rate n hp hn => ⟨exec_of_ready rfl hp (lineControlCommand_badValue hn 1),
    exec_of_ready rfl hp (lineControlCommand_badValue hn 2)⟩, fun s p rate n l hp hn => ?_, fun s p rate n l hp hn => ?_⟩
  · intro x f g done
    have hReply := lineControlCommand_hold (s := s) hn
    refine ⟨fun hMode => exec_of_ready rfl hp (hReply.trans (if_pos ((Mode.hasSend_eq_false_iff _).mpr hMode))), fun hMode => ?_⟩
    have hSend : ¬(s.line l).record.mode.hasSend = false := by
      rw [Bool.not_eq_false]
      exact (Mode.hasSend_iff _).mpr hMode
    have hHeld : ∀ t, s.holdLine l = t → done = .next (t.answer p 0x12 g .done []) := by
      intro t ht
      refine exec_of_ready rfl hp (hReply.trans ((if_neg hSend).trans ?_))
      rw [ht]
      rfl
    exact ⟨fun h => hHeld _ (holdLine_of_sending h), fun h => hHeld _ (holdLine_of_running h),
      fun h => hHeld _ (holdLine_of_halted h)⟩
  · intro x f g done u v goes
    have hReply := lineControlCommand_resume (s := s) hn
    refine ⟨fun hMode => exec_of_ready rfl hp (hReply.trans (if_pos ((Mode.hasSend_eq_false_iff _).mpr hMode))), fun hMode => ?_⟩
    have hSend : ¬(s.line l).record.mode.hasSend = false := by
      rw [Bool.not_eq_false]
      exact (Mode.hasSend_iff _).mpr hMode
    have hResumed : ∀ t, s.resumeLine l = t → done = .next (t.answer p 0x12 g .done []) := by
      intro t ht
      refine exec_of_ready rfl hp (hReply.trans ((if_neg hSend).trans ?_))
      rw [ht]
      rfl
    have hU : u = s.unheld l := rfl
    have hV : v = (s.unheld l).dropBreakIn l := by
      rw [State.dropBreakIn, State.unheld, modSend_modSend]
      rfl
    have hGoes : (s.line l).resumeClearsBreak = true ↔ goes := resumeClearsBreak_iff _
    have hKept : ¬goes → (s.line l).resumeClearsBreak = false := fun h => by rw [Bool.eq_false_iff]; exact hGoes.not.mpr h
    refine ⟨fun (hBreak : (s.line l).send.breakIn = false) hState => hResumed _ ?_,
      fun (hBreak : (s.line l).send.breakIn = false) hState => hResumed _ ?_,
      fun (hBreak : (s.line l).send.breakIn = true) hNot => hResumed _ ?_,
      fun (hBreak : (s.line l).send.breakIn = true) hDoes hState => hResumed _ ?_,
      fun (hBreak : (s.line l).send.breakIn = true) hDoes hState => hResumed _ ?_⟩
    · rw [resumeLine_of_kept (.inl hBreak), hU, leaveIfFree_of_bound]
      rw [unheld_line]
      exact fun h => hState h.1
    · rw [resumeLine_of_kept (.inl hBreak), hU, leaveIfFree_of_free (by rw [unheld_line]; exact hState) (by rw [unheld_line])
        (by rw [unheld_line]; exact hBreak)]
    · rw [resumeLine_of_kept (.inr (hKept hNot)), hU, leaveIfFree_of_bound]
      rw [unheld_line]
      exact fun h => by simp [hBreak] at h
    · rw [resumeLine_of_cleared hBreak (hGoes.mpr hDoes), hV, leaveIfFree_of_bound]
      rw [dropBreakIn_line, unheld_line]
      exact fun h => hState h.1
    · rw [resumeLine_of_cleared hBreak (hGoes.mpr hDoes), hV, leaveIfFree_of_free (by rw [dropBreakIn_line, unheld_line]; exact hState)
        (by rw [dropBreakIn_line, unheld_line]) (by rw [dropBreakIn_line])]

/-! ## The next-story choice on a line (R119 to R121) -/

section
variable {s : State} {l : LineNo}

theorem chooseNext_of_none (h : (s.line l).dist.current ≠ none ∨ (s.line l).dist.choose = none) : s.chooseNext l = s := by
  unfold State.chooseNext
  rcases h with h | h
  · rw [if_pos (Option.isSome_iff_ne_none.mpr h)]
  · rw [h]
    split <;> rfl

theorem chooseNext_of_some {d : Distribution} {resumed : Bool} (hNone : (s.line l).dist.current = none)
    (hChoose : (s.line l).dist.choose = some (d, resumed)) :
    s.chooseNext l =
      s.modLine l fun x =>
        { x with
          dist := d
          enc :=
            { x.enc with
              copy := some x.record.copy
              progress := none
              column := if resumed then 0 else x.enc.column } } := by
  rw [State.chooseNext, if_neg (by simp [hNone]), hChoose]

/-! ## The print-line end (R122 to R124) -/

/-- The preemption test by its three conditions. -/
theorem preempts_iff (x : Line) (u : Transmission) :
    x.preempts u = true ↔
      ∃ q rest, x.dist.queue = q :: rest ∧ q.priority.number < u.entry.priority.number ∧ x.dist.stack.length < 2 ∧
        ((x.record.preempt = .flash ∧ q.priority = .flash) ∨
          (x.record.preempt = .bulletin ∧ (q.priority = .flash ∨ q.priority = .bulletin))) := by
  have hAdmits : ∀ (t : PreemptThreshold) (p : Priority),
      t.admits p = true ↔ (t = .flash ∧ p = .flash) ∨ (t = .bulletin ∧ (p = .flash ∨ p = .bulletin)) := by
    intro t p
    cases t <;> cases p <;> simp [PreemptThreshold.admits, Priority.number]
  cases hQueue : x.dist.queue with
  | nil => simp [Line.preempts, hQueue]
  | cons q rest =>
    simp only [Line.preempts, hQueue, Bool.and_eq_true, Priority.above, decide_eq_true_eq, hAdmits, Config.stackRoom,
      List.cons.injEq]
    constructor
    · rintro ⟨⟨hAbove, hAdmit⟩, hRoom⟩
      exact ⟨q, rest, ⟨rfl, rfl⟩, hAbove, of_decide_eq_true hRoom, hAdmit⟩
    · rintro ⟨_, _, ⟨rfl, rfl⟩, hAbove, hRoom, hAdmit⟩
      exact ⟨⟨hAbove, hAdmit⟩, decide_eq_true hRoom⟩

/-- The story at its print-line end: the print-line start moves to the position. -/
def Transmission.lineEnded (v : Transmission) : Transmission :=
  { v with entry := { v.entry with lineStart := v.entry.resumeOffset } }

variable {v : Transmission}

theorem printLineEnd_of_withdrawn (hCurrent : (s.line l).dist.current = some v) (h : v.withdrawn = true) :
    s.printLineEnd l =
      (s.modLine l fun x =>
        { x with
          dist := { x.dist with current := some (v.lineEnded.beginPostamble (s.lengthOf v.entry.handle)) }
          enc := { x.enc with progress := none } }).takeHold l := by
  simp only [State.printLineEnd, hCurrent]
  exact if_pos h

theorem printLineEnd_of_staying (hCurrent : (s.line l).dist.current = some v) (h : v.withdrawn = false)
    (hStays : (s.line l).preempts v = false) :
    s.printLineEnd l = (s.modDist l fun d => { d with current := some v.lineEnded }).takeHold l := by
  simp only [State.printLineEnd, hCurrent]
  exact (if_neg (by simp [h])).trans (if_neg (by rw [Bool.not_eq_true]; exact hStays))

theorem printLineEnd_of_preempted (hCurrent : (s.line l).dist.current = some v) (h : v.withdrawn = false)
    (hPreempts : (s.line l).preempts v = true) :
    s.printLineEnd l =
      if (((s.modLine l fun x => x.suspend v.lineEnded).takeHold l).line l).send.state = .halted then
        (s.modLine l fun x => x.suspend v.lineEnded).takeHold l
      else ((s.modLine l fun x => x.suspend v.lineEnded).takeHold l).chooseNext l := by
  simp only [State.printLineEnd, hCurrent]
  exact (if_neg (by simp [h])).trans (if_pos hPreempts)

/-! ## The end of a transmission (R126) -/

theorem endTransmission_of_current (hCurrent : (s.line l).dist.current = some v) :
    s.endTransmission l =
      if (s.line l).send.holdWaiting = true then
        ((s.modLine l Line.dropCurrent).departs l v.entry (if v.withdrawn then .withdrawn else .completed)).takeHold l
      else if (s.line l).dist.queue ≠ [] ∨ (s.line l).dist.stack ≠ [] then
        ((s.modLine l Line.dropCurrent).departs l v.entry (if v.withdrawn then .withdrawn else .completed)).chooseNext l
      else ((s.modLine l Line.dropCurrent).departs l v.entry (if v.withdrawn then .withdrawn else .completed)).workRunsOut l := by
  have hLine : ∀ o, (((s.modLine l Line.dropCurrent).departs l v.entry o).line l) = (s.line l).dropCurrent := fun o => by
    rw [line_of_lines (departs_lines ..), line_modLine_same]
  have hWork : ∀ o, ((s.modLine l Line.dropCurrent).departs l v.entry o).hasWork l = true ↔
      (s.line l).dist.queue ≠ [] ∨ (s.line l).dist.stack ≠ [] := by
    intro o
    rw [hasWork_iff, hLine]
    simp [Line.dropCurrent]
  simp only [State.endTransmission, hCurrent, hLine, hWork]
  rfl

end

/-- Settles O24. -/
theorem transmissionEndResult : Obligations.TransmissionEndResult := by
  refine ⟨fun s l => ⟨chooseNext_of_none, fun d resumed hNone hChoose => ?_⟩, fun s l v st => ?_, fun s l u => ?_⟩
  · rw [chooseNext_of_some hNone hChoose]
    rfl
  · intro x e held preempts suspended hCurrent hNamed
    have hPreempts : (s.line l).preempts v = true ↔ preempts := preempts_iff _ _
    have hHeld : ∀ t : State, (t.line l).send = (s.line l).send → t.takeHold l = held t := by
      intro t ht
      cases hWaiting : (s.line l).send.holdWaiting with
      | true => exact (takeHold_of_waiting (by rw [ht, hWaiting])).trans (if_pos hWaiting).symm
      | false => exact (takeHold_of_none (by rw [ht, hWaiting])).trans (if_neg (by simp [x, hWaiting])).symm
    have hSuspended : suspended.takeHold l = held suspended := hHeld _ (by rw [line_modLine_same])
    refine ⟨fun hWithdrawn => ?_, fun hStays hDoes hHalts => ?_, fun hStays hDoes hWaiting hState => ?_, fun hStays hNot => ?_⟩
    · rw [printLineEnd_of_withdrawn hCurrent hWithdrawn, hHeld _ (by rw [line_modLine_same]), lengthOf_of_named hNamed]
      have hPost : v.lineEnded.beginPostamble st.length =
          { entry := { e with lineStart := st.length }, phase := .postamble, withdrawn := true } := by
        rw [← hWithdrawn]
        rfl
      rw [hPost]
    · rw [printLineEnd_of_preempted hCurrent hStays (hPreempts.mpr hDoes)]
      refine (if_pos ?_).trans hSuspended
      refine (congrArg (fun t : State => (t.line l).send.state) hSuspended).trans ?_
      by_cases hWaiting : x.send.holdWaiting = true
      · simp only [held, if_pos hWaiting, line_modSend_same]
      · simp only [held, if_neg hWaiting, suspended, line_modLine_same]
        exact hHalts.resolve_left hWaiting
    · rw [printLineEnd_of_preempted hCurrent hStays (hPreempts.mpr hDoes)]
      have hNoHold : suspended.takeHold l = suspended := hSuspended.trans (if_neg (by simp [hWaiting]))
      refine (if_neg ?_).trans (congrArg (fun t : State => t.chooseNext l) hNoHold)
      rw [show (s.modLine l fun x => x.suspend v.lineEnded).takeHold l = suspended from hNoHold]
      simp only [suspended, line_modLine_same]
      exact hState
    · rw [printLineEnd_of_staying hCurrent hStays (by rw [Bool.eq_false_iff]; exact hPreempts.not.mpr hNot),
        hHeld _ (by rw [line_modDist_same])]
      rfl
  · intro x t v w hCurrent
    have hEnd := endTransmission_of_current hCurrent
    have hW : (s.modLine l Line.dropCurrent).departs l u.entry (if u.withdrawn then .withdrawn else .completed) = w := rfl
    have hLine : w.line l = x.dropCurrent := by rw [← hW, line_of_lines (departs_lines ..), line_modLine_same]
    have hTick : w.tick = s.tick := by rw [← hW, (Works.departs ..).kept.tick, modLine_tick]
    rw [hW] at hEnd
    refine ⟨fun hWaiting => ?_, fun hWaiting hWork => ?_, fun hWaiting hQueue hStack hState => ?_,
      fun hWaiting hQueue hStack hState => ?_⟩
    · rw [hEnd, if_pos hWaiting, takeHold_of_waiting (by rw [hLine]; exact hWaiting)]
    · rw [hEnd, if_neg (by rw [Bool.not_eq_true]; exact hWaiting), if_pos hWork]
    · rw [hEnd, if_neg (by rw [Bool.not_eq_true]; exact hWaiting), if_neg (not_or.mpr ⟨not_not.mpr hQueue, not_not.mpr hStack⟩),
        workRunsOut_of_not_sending (by rw [hLine]; exact hState)]
    · rw [hEnd, if_neg (by rw [Bool.not_eq_true]; exact hWaiting), if_neg (not_or.mpr ⟨not_not.mpr hQueue, not_not.mpr hStack⟩),
        workRunsOut_of_sending (by rw [hLine]; exact hState), enterIdle_eq, hLine, hTick]
      rfl

end Sys2Proof.Machine
end

section
/-! SUPPORT. Submissions and withdrawals line by line, and the commands that make them (R111, R116, R117, R128, R157). -/

namespace Sys2Proof.Machine

/-! ## The lines of a command -/

theorem getLsbD_ofNat_line (n : Nat) (l : LineNo) : (BitVec.ofNat 16 n).getLsbD l.val = n.testBit l.val := by
  rw [BitVec.getLsbD_ofNat, decide_eq_true l.isLt, Bool.true_and]

theorem linesOf_bytes (i g l0 l1 : Byte) :
    linesOf (lineSetAt [i, g, l0, l1] 2) = (List.finRange 16).filter fun l => (l0.toNat + 256 * l1.toNat).testBit l.val := by
  have hNum : numAt [i, g, l0, l1] 2 2 = l0.toNat + 256 * l1.toNat := numAt_two (by simp)
  rw [linesOf_eq, lineSetAt, hNum]
  exact List.filter_congr fun l _ => getLsbD_ofNat_line _ l

/-! ## Trying a line (R117) -/

theorem holds_iff_appears (d : Distribution) (h : Handle) :
    d.holds h = true ↔ (∃ e ∈ d.queue, e.handle = h) ∨ (∃ e ∈ d.stack, e.handle = h) ∨
      ∃ u, d.current = some u ∧ u.entry.handle = h := by
  cases hCurrent : d.current <;> simp [Distribution.holds, hCurrent, or_assoc]

section
variable {x : Line} {h : Handle}

theorem trial_of_no_send (hMode : x.record.mode.hasSend = false) : x.trial h = .lineMode := if_pos hMode

theorem trial_of_holds (hMode : x.record.mode.hasSend = true) (hHolds : x.dist.holds h = true) : x.trial h = .already := by
  simp [Line.trial, hMode, hHolds]

theorem trial_of_full (hMode : x.record.mode.hasSend = true) (hNew : ¬x.dist.holds h = true) (hFull : 32 ≤ x.dist.queue.length) :
    x.trial h = .queueFull := by
  simp [Line.trial, hMode, hNew, Config.queueRoom, hFull]

theorem trial_of_room (hMode : x.record.mode.hasSend = true) (hNew : ¬x.dist.holds h = true)
    (hRoom : x.dist.queue.length < 32) : x.trial h = .queued := by
  simp [Line.trial, hMode, hNew, Config.queueRoom, Nat.not_le.mpr hRoom]

end

theorem tryLine_of_refused {s : State} {l : LineNo} {h : Handle} (p : Priority) (w : Submitter) {r : LineResult}
    (hTrial : (s.line l).trial h = r) (hRefused : r ≠ .queued) : s.tryLine l h p w = (r, s) := by
  subst hTrial
  unfold State.tryLine
  split
  · rename_i hQueued
    exact absurd hQueued hRefused
  · rfl

theorem tryLine_of_queued {s : State} {l : LineNo} {h : Handle} (p : Priority) (w : Submitter)
    (hTrial : (s.line l).trial h = .queued) :
    s.tryLine l h p w =
      (.queued,
        if s.hasWork l then
          (s.modDist l fun d => { d with queue := enqueue (newEntry h p w) d.queue }).joinPending h l
        else ((s.modDist l fun d => { d with queue := enqueue (newEntry h p w) d.queue }).joinPending h l).workArrives l) := by
  simp only [State.tryLine, hTrial]
  cases s.hasWork l <;> rfl

/-! ## SUBMIT_STORY (R111, R116) -/

section
variable {s : State} {p : Port} {xs : List Byte}

theorem submitStoryCommand_badLength (h : xs.length ≠ 4) : submitStoryCommand p xs s = s.refuse .badLength := if_pos h

theorem withdrawStoryCommand_badLength (h : xs.length ≠ 4) : withdrawStoryCommand xs s = s.refuse .badLength := if_pos h

section
variable (hLength : xs.length = 4) (hNone : s.namedStory xs = none)
include hLength hNone

theorem submitStoryCommand_stale : submitStoryCommand p xs s = s.refuse .stale := by
  rw [submitStoryCommand, if_neg (not_not.mpr hLength), hNone]

theorem withdrawStoryCommand_stale : withdrawStoryCommand xs s = s.refuse .stale := by
  rw [withdrawStoryCommand, if_neg (not_not.mpr hLength), hNone]

end

section
variable {h : Handle} {st : Story} (hLength : xs.length = 4) (hNamed : s.namedStory xs = some (h, st))
include hLength hNamed

theorem submitStoryCommand_named :
    submitStoryCommand p xs s =
      if st.state = .assembling then s.refuse .wrongState
      else if st.state = .composing ∧ st.holder ≠ some p then s.refuse .notHolder
      else
        ((((s.modStory h fun y => y.completed s.stamp).tryLines h st.priority (.port p) (linesOf (lineSetAt xs 2))).2.freeingTest
          h.index).done
          (resultBytes ((s.modStory h fun y => y.completed s.stamp).tryLines h st.priority (.port p)
            (linesOf (lineSetAt xs 2))).1)) := by
  rw [submitStoryCommand, if_neg (not_not.mpr hLength), hNamed]

theorem withdrawStoryCommand_named :
    withdrawStoryCommand xs s =
      ((s.withdrawLines h (linesOf (lineSetAt xs 2))).2.freeingTest h.index).done
        (resultBytes (s.withdrawLines h (linesOf (lineSetAt xs 2))).1) := by
  rw [withdrawStoryCommand, if_neg (not_not.mpr hLength), hNamed]

end

end

/-- A change of a current handle's story counts only by what it makes of that story. -/
theorem modStory_congr {s : State} {h : Handle} {st : Story} (hNamed : s.storyOf h = some st) {f g : Story → Story}
    (hfg : f st = g st) : s.modStory h f = s.modStory h g := by
  rw [modStory_some hNamed, modStory_some hNamed, hfg]

/-- Settles O23. -/
theorem submitStoryResult : Obligations.SubmitStoryResult := by
  refine ⟨fun s l h p w => ?_, fun s h p w l ls => ⟨rfl, rfl⟩, fun s l => ?_,
    fun s p f hp hLength => exec_of_ready rfl hp (submitStoryCommand_badLength hLength),
    fun s p rate i g l0 l1 hp hStale => exec_of_ready rfl hp (submitStoryCommand_stale rfl (namedStory_eq_none hStale)),
    fun s p rate i g l0 l1 h st hp hi hg hNamed => ?_⟩
  · intro x appears e t
    have hHolds : (s.line l).dist.holds h = true ↔ appears := holds_iff_appears _ _
    exact ⟨fun hMode => tryLine_of_refused p w (trial_of_no_send hMode) nofun,
      fun hMode hIn => tryLine_of_refused p w (trial_of_holds hMode (hHolds.mpr hIn)) nofun,
      fun hMode hOut hFull => tryLine_of_refused p w (trial_of_full hMode (hHolds.not.mpr hOut) hFull) nofun,
      fun hMode hOut hRoom => tryLine_of_queued p w (trial_of_room hMode (hHolds.not.mpr hOut) hRoom), hasWork_iff s l⟩
  · intro x started running sending
    refine ⟨fun hState hDelay => ?_, fun hState hDelay hLoop hWork => ?_, fun hState hDelay hLoop hWork => ?_,
      fun hState hDelay hOpen hBreak => ?_, workArrives_of_idle, workArrives_of_other, fun hFrame => ?_, fun hFrame => ?_⟩
    · rw [workArrives_of_stopped hState, enterStarting_of_delay hDelay]
      rfl
    · rw [workArrives_of_stopped hState, enterStarting_of_no_delay_work hDelay hLoop hWork]
      rfl
    · rw [workArrives_of_stopped hState, enterStarting_of_no_delay_idle hDelay hLoop hWork, enterIdle_eq, State.running,
        line_modSend_same, modSend_modSend]
      simp only [running, modSend_modSend]
      rfl
    · rw [workArrives_of_stopped hState, enterStarting_of_no_delay_break hDelay hOpen hBreak]
      rfl
    · rw [enterSending_eq]
      exact if_pos hFrame
    · rw [enterSending_eq]
      exact if_neg hFrame
  · intro f lines completed tried answered
    have hReply := submitStoryCommand_named (p := p) (xs := [i, g, l0, l1]) rfl (namedStory_eq_some hi hg hNamed)
    rw [linesOf_bytes] at hReply
    have hTaken : ∀ t, (s.modStory h fun y => y.completed s.stamp) = t → st.state ≠ .assembling →
        ¬(st.state = .composing ∧ st.holder ≠ some p) → exec (.submitStory p f) s = .next (answered (tried t)) := by
      intro t ht hState hHolder
      rw [if_neg hState, if_neg hHolder, ht] at hReply
      exact exec_of_ready rfl hp hReply
    refine ⟨fun hState => exec_of_ready rfl hp (hReply.trans (if_pos hState)),
      fun hState hHolder => exec_of_ready rfl hp (hReply.trans ((if_neg ?_).trans (if_pos ⟨hState, hHolder⟩))),
      fun hState hHolder => hTaken _ (modStory_congr hNamed ?_) ?_ ?_, fun hState => hTaken _ (modStory_self fun y hy => ?_) ?_ ?_⟩
    · simp [hState]
    · simp only [Story.completed, hState]
      rfl
    · simp [hState]
    · simp [hHolder]
    · rw [hNamed] at hy
      cases hy
      simp only [Story.completed, hState]
    · simp [hState]
    · simp [hState]

/-! ## Withdrawing from a line (R128) -/

theorem takeEntry_of_absent {h : Handle} {es : List DistEntry} (hAbsent : ∀ x ∈ es, x.handle ≠ h) : takeEntry h es = none := by
  induction es with
  | nil => rfl
  | cons e es ih =>
    rw [takeEntry, if_neg (hAbsent e (.head _)), ih fun x hx => hAbsent x (.tail _ hx)]

theorem takeEntry_of_first {h : Handle} {before after : List DistEntry} {e : DistEntry} (he : e.handle = h)
    (hBefore : ∀ x ∈ before, x.handle ≠ h) : takeEntry h (before ++ e :: after) = some (e, before ++ after) := by
  induction before with
  | nil => exact if_pos he
  | cons x before ih =>
    rw [List.cons_append, takeEntry, if_neg (hBefore x (.head _)), ih fun y hy => hBefore y (.tail _ hy)]
    rfl

section
variable {s : State} {l : LineNo} {h : Handle} {e : DistEntry} {rest : List DistEntry}

theorem withdrawLine_of_queued (hQueue : takeEntry h (s.line l).dist.queue = some (e, rest)) :
    s.withdrawLine l h = (.withdrawn, (s.modDist l fun d => { d with queue := rest }).withdrawn l e) := by
  simp only [State.withdrawLine, hQueue]

theorem withdrawLine_of_stacked (hQueue : takeEntry h (s.line l).dist.queue = none)
    (hStack : takeEntry h (s.line l).dist.stack = some (e, rest)) :
    s.withdrawLine l h = (.withdrawn, (s.modDist l fun d => { d with stack := rest }).withdrawn l e) := by
  simp only [State.withdrawLine, hQueue, hStack]

theorem withdrawLine_of_current (hQueue : takeEntry h (s.line l).dist.queue = none)
    (hStack : takeEntry h (s.line l).dist.stack = none) {u : Transmission} (hCurrent : (s.line l).dist.current = some u)
    (hu : u.entry.handle = h) :
    s.withdrawLine l h = (.withdrawn, s.modDist l fun d => { d with current := some { u with withdrawn := true } }) := by
  simp only [State.withdrawLine, hQueue, hStack, hCurrent, if_pos hu]

theorem withdrawLine_of_absent (hQueue : takeEntry h (s.line l).dist.queue = none)
    (hStack : takeEntry h (s.line l).dist.stack = none)
    (hCurrent : ∀ u, (s.line l).dist.current = some u → u.entry.handle ≠ h) : s.withdrawLine l h = (.notPending, s) := by
  cases hd : (s.line l).dist.current with
  | none => simp only [State.withdrawLine, hQueue, hStack, hd]
  | some u => simp only [State.withdrawLine, hQueue, hStack, hd, if_neg (hCurrent u hd)]

end

/-- Settles O25. -/
theorem withdrawStoryResult : Obligations.WithdrawStoryResult := by
  refine ⟨fun s l h => ?_, fun s h l ls => ⟨rfl, rfl⟩, fun s l => ⟨workRunsOut_of_not_sending, fun hState => ?_⟩,
    fun s p f hp hLength => exec_of_ready rfl hp (withdrawStoryCommand_badLength hLength),
    fun s p rate i g l0 l1 hp hStale => exec_of_ready rfl hp (withdrawStoryCommand_stale rfl (namedStory_eq_none hStale)),
    fun s p rate i g l0 l1 h hp hi hg hNamed => ?_⟩
  · intro d left
    refine ⟨fun before e after hQueue he hBefore => ?_, fun before e after hQueue hStack he hBefore => ?_,
      fun u hQueue hStack hCurrent hu => ?_, fun hQueue hStack hCurrent => ?_⟩
    · subst he
      exact withdrawLine_of_queued (by rw [show (s.line l).dist.queue = _ from hQueue]; exact takeEntry_of_first rfl hBefore)
    · subst he
      exact withdrawLine_of_stacked (takeEntry_of_absent hQueue)
        (by rw [show (s.line l).dist.stack = _ from hStack]; exact takeEntry_of_first rfl hBefore)
    · exact withdrawLine_of_current (takeEntry_of_absent hQueue) (takeEntry_of_absent hStack) hCurrent hu
    · exact withdrawLine_of_absent (takeEntry_of_absent hQueue) (takeEntry_of_absent hStack) hCurrent
  · rw [workRunsOut_of_sending hState, enterIdle_eq]
  · intro f lines r
    obtain ⟨st, hSt⟩ := Option.ne_none_iff_exists'.mp hNamed
    have hReply := withdrawStoryCommand_named (xs := [i, g, l0, l1]) rfl (namedStory_eq_some hi hg hSt)
    rw [linesOf_bytes] at hReply
    exact exec_of_ready rfl hp hReply

end Sys2Proof.Machine
end

section
/-! SUPPORT. The code choice and the newline sequence (R140, R145), and what a receiving printer makes of the codes chosen. -/

namespace Sys2Proof.Machine

/-! ## Shift codes and common codes (R11) -/

theorem commonOfKind_eq_some_iff (t : Table) (kind : Kind) (j : Code) :
    t.commonOfKind kind = some j ↔
      ((t.entry .letters j).kind = kind ∧ (t.entry .figures j).kind = kind) ∧
        ∀ i : Code, i.val < j.val → ¬((t.entry .letters i).kind = kind ∧ (t.entry .figures i).kind = kind) := by
  simp only [Table.commonOfKind, Table.entry, Table.entries, toList_eq_map_get, List.zip_map', List.findIdx?_map,
    Option.map_eq_some_iff, List.findIdx?_eq_some_iff_getElem, Function.comp_apply, List.getElem_finRange,
    List.length_finRange, Bool.and_eq_true, beq_iff_eq]
  constructor
  · rintro ⟨i, ⟨hi, hKinds, hBelow⟩, rfl⟩
    have hCode : Fin.ofNat 32 i = ⟨i, hi⟩ := Fin.ext (Nat.mod_eq_of_lt hi)
    rw [hCode]
    exact ⟨hKinds, fun j hj => hBelow j.val hj⟩
  · rintro ⟨hKinds, hBelow⟩
    exact ⟨j.val, ⟨j.isLt, hKinds, fun i hi => hBelow ⟨i, hi.trans j.isLt⟩ hi⟩, Fin.ofNat_val_eq_self j⟩

theorem commonOfKind_eq_none_iff (t : Table) (kind : Kind) :
    t.commonOfKind kind = none ↔
      ∀ i : Code, ¬((t.entry .letters i).kind = kind ∧ (t.entry .figures i).kind = kind) := by
  rw [← Option.not_isSome_iff_eq_none, commonOfKind_isSome_iff, not_exists]
  rfl

/-- The kind of a case's shift code. -/
def Case.shiftKind : Case → Kind
  | .letters => .ltrs
  | .figures => .figs

theorem shiftCode_eq (t : Table) (c : Case) : t.shiftCode c = t.commonOfKind c.shiftKind := by
  cases c <;> rfl

/-- A valid table has a shift code for each case (R12, conditions 1 and 2). -/
theorem exists_shiftCode {t : Table} (hValid : t.valid = true) (c : Case) : ∃ z, t.shiftCode c = some z := by
  obtain ⟨hLtrs, hFigs, -⟩ := (valid_iff t).mp hValid
  have hOne : t.oneShift c.shiftKind = true := by cases c <;> assumption
  simp only [Table.oneShift, Bool.and_eq_true] at hOne
  rw [shiftCode_eq]
  exact Option.isSome_iff_exists.mp hOne.2

/-! ## What a printer makes of codes (R5, R11) -/

theorem printed_of_produces {t : Table} {c : Case} {k : Code} {x : Byte} (h : (t.entry c k).produces = some x) :
    t.printed c [k] = ([x], c) := by
  have hShift : (t.entry c k).kind ≠ .ltrs ∧ (t.entry c k).kind ≠ .figs := by
    constructor <;> intro hKind <;> simp [Entry.produces, hKind] at h
  simp [Table.printed, h, hShift]

theorem printed_shiftCode {t : Table} {c d : Case} {z : Code} (h : t.shiftCode d = some z) (ks : List Code) :
    t.printed c (z :: ks) = t.printed d ks := by
  rw [shiftCode_eq, commonOfKind_eq_some_iff] at h
  obtain ⟨⟨hLetters, hFigures⟩, -⟩ := h
  have hKind : (t.entry c z).kind = d.shiftKind := by cases c <;> assumption
  cases d <;> simp [Table.printed, Entry.produces, hKind, Case.shiftKind]

theorem produces_of_reverse {t : Table} {c : Case} {x : Byte} {k : Code} (h : t.reverse c x = some k) :
    (t.entry c k).produces = some (t.folded x) :=
  ((ownCode_eq_some_iff t c (t.folded x) k).mp h).1

/-! ## The codes chosen (R145) -/

/-- The common space is the space code of either case (R11). -/
theorem reverse_of_commonSpace {t : Table} {k : Code} (h : t.commonSpace = some k) (c : Case) :
    t.reverse c 0x20 = some k := by
  cases hL : t.reverse .letters 0x20 with
  | none => simp only [Table.commonSpace, hL, reduceCtorEq] at h
  | some i =>
    cases hF : t.reverse .figures 0x20 with
    | none => simp only [Table.commonSpace, hL, hF, reduceCtorEq] at h
    | some j =>
      simp only [Table.commonSpace, hL, hF, Option.ite_none_right_eq_some, Option.some.injEq] at h
      obtain ⟨rfl, rfl⟩ := h
      cases c <;> assumption

/-- The code choice is the code of the encoder's case, the common space from UNKNOWN, or a shift and the code of its case. -/
theorem chooseCode_cases {t : Table} {x : Byte} (e : Encoder) (hCoded : t.represents x = true) :
    (∃ c k, e.encCase.known = some c ∧ t.reverse c x = some k ∧ e.chooseCode t x = ([k], e)) ∨
    (∃ k, e.encCase = .unknown ∧ (∀ c, t.reverse c x = some k) ∧ e.chooseCode t x = ([k], e)) ∨
    ∃ d k, t.reverse d x = some k ∧ e.chooseCode t x = ((e.shift t d).1 ++ [k], (e.shift t d).2) := by
  have hShift : ∃ d k, t.reverse d x = some k ∧
      (match t.reverse .letters x with
        | some k => ((e.shift t .letters).1 ++ [k], (e.shift t .letters).2)
        | none => ((e.shift t .figures).1 ++ (t.reverse .figures x).toList, (e.shift t .figures).2)) =
      ((e.shift t d).1 ++ [k], (e.shift t d).2) := by
    cases hL : t.reverse .letters x with
    | some k => exact ⟨.letters, k, hL, rfl⟩
    | none =>
      cases hF : t.reverse .figures x with
      | some k => exact ⟨.figures, k, hF, rfl⟩
      | none => simp [Table.represents, hL, hF] at hCoded
  obtain ⟨d, k, hRev, hEq⟩ := hShift
  cases hCase : e.encCase.known with
  | some c =>
    cases hOwn : t.reverse c x with
    | some j => exact .inl ⟨c, j, rfl, hOwn, by simp only [Encoder.chooseCode, hCase, hOwn]⟩
    | none => exact .inr (.inr ⟨d, k, hRev, by simp only [Encoder.chooseCode, hCase, hOwn]; exact hEq⟩)
  | none =>
    have hUnknown : e.encCase = .unknown := by cases h : e.encCase <;> simp_all [EncCase.known]
    cases hCommon : (if x = 0x20 then t.commonSpace else none) with
    | some j =>
      obtain ⟨hx, hSpace⟩ := Option.ite_none_right_eq_some.mp hCommon
      exact .inr (.inl ⟨j, hUnknown, fun c => hx ▸ reverse_of_commonSpace hSpace c,
        by simp only [Encoder.chooseCode, hCase, hCommon]⟩)
    | none => exact .inr (.inr ⟨d, k, hRev, by simp only [Encoder.chooseCode, hCase, hCommon]; exact hEq⟩)

theorem known_enc (c : Case) : c.enc.known = some c := by
  cases c <;> rfl

/-- Settles O28, by the three forms of the code choice. -/
theorem chosenCodesPrintTheCharacter : Obligations.ChosenCodesPrintTheCharacter := by
  intro t e x c hValid hCoded hCase codes after
  rcases chooseCode_cases e hCoded with ⟨d, k, hKnown, hRev, hEq⟩ | ⟨k, hUnknown, hRev, hEq⟩ | ⟨d, k, hRev, hEq⟩
  · have hSame : d = c := by
      rcases hCase with h | h
      · exact Option.some.inj (hKnown.symm.trans h)
      · rw [h] at hKnown
        cases hKnown
    subst hSame
    simp [codes, after, hEq, printed_of_produces (produces_of_reverse hRev), hKnown]
  · simp [codes, after, hEq, printed_of_produces (produces_of_reverse (hRev c)), hUnknown]
  · obtain ⟨z, hz⟩ := exists_shiftCode hValid d
    simp [codes, after, hEq, Encoder.shift, hz, printed_shiftCode hz, printed_of_produces (produces_of_reverse hRev), known_enc]

/-! ## The newline sequence (R140) -/

section
variable {t : Table} {e : Encoder} {kind : Kind} {j : Code}

theorem lowestOfKind_eq_some_iff (c : Case) :
    (t.lowest c fun x => x.kind == kind) = some j ↔
      (t.entry c j).kind = kind ∧ ∀ i : Code, i.val < j.val → (t.entry c i).kind ≠ kind := by
  simp only [lowest_eq_some_iff, beq_iff_eq, beq_eq_false_iff_ne]

theorem carriage_of_known {c : Case} (n : Nat) (hCase : e.encCase.known = some c)
    (hLow : (t.lowest c fun x => x.kind == kind) = some j) : e.carriage t kind n = (List.replicate n j, e) := by
  simp [Encoder.carriage, hCase, hLow]

theorem carriage_of_common (n : Nat) (hCase : e.encCase = .unknown) (hCommon : t.commonOfKind kind = some j) :
    e.carriage t kind n = (List.replicate n j, e) := by
  simp [Encoder.carriage, hCase, EncCase.known, hCommon]

theorem carriage_of_shift {z : Code} (n : Nat) (hCase : e.encCase = .unknown) (hCommon : t.commonOfKind kind = none)
    (hLow : (t.lowest .letters fun x => x.kind == kind) = some j) (hz : t.ltrsCode = some z) :
    e.carriage t kind n = (z :: List.replicate n j, { e with encCase := .letters, refresh := 0 }) := by
  simp [Encoder.carriage, hCase, EncCase.known, hCommon, hLow, Encoder.shift, Table.shiftCode, hz, Case.enc]

theorem newline_of_no_fill {c : SendCopy} (hFill : c.ltrsFill = 0) :
    e.newline t c =
      ((e.carriage t .cr c.crCount).1 ++ ((e.carriage t .cr c.crCount).2.carriage t .lf 1).1,
        { ((e.carriage t .cr c.crCount).2.carriage t .lf 1).2 with column := 0 }) :=
  if_pos hFill

theorem newline_of_fill {c : SendCopy} {z : Code} (hFill : c.ltrsFill ≠ 0) (hz : t.ltrsCode = some z) :
    e.newline t c =
      ((e.carriage t .cr c.crCount).1 ++ ((e.carriage t .cr c.crCount).2.carriage t .lf 1).1 ++ List.replicate c.ltrsFill z,
        { ((e.carriage t .cr c.crCount).2.carriage t .lf 1).2 with column := 0, encCase := .letters, refresh := 0 }) := by
  simp [Encoder.newline, hFill, hz]

end

/-- A kind that one code has in either case of slot 0's table. -/
theorem carriage_fixedTable (e : Encoder) {kind : Kind} {j : Code} (n : Nat)
    (hLow : ∀ c, (fixedTable.lowest c fun x => x.kind == kind) = some j) (hCommon : fixedTable.commonOfKind kind = some j) :
    e.carriage fixedTable kind n = (List.replicate n j, e) := by
  cases hCase : e.encCase with
  | letters => exact carriage_of_known n (c := .letters) (by rw [hCase]; rfl) (hLow _)
  | figures => exact carriage_of_known n (c := .figures) (by rw [hCase]; rfl) (hLow _)
  | unknown => exact carriage_of_common n hCase hCommon

theorem carriage_fixedTable_cr (e : Encoder) (n : Nat) : e.carriage fixedTable .cr n = (List.replicate n 8, e) :=
  carriage_fixedTable e n (fun c => by cases c <;> decide +kernel) (by decide +kernel)

theorem carriage_fixedTable_lf (e : Encoder) (n : Nat) : e.carriage fixedTable .lf n = (List.replicate n 2, e) :=
  carriage_fixedTable e n (fun c => by cases c <;> decide +kernel) (by decide +kernel)

theorem ltrsCode_fixedTable : fixedTable.ltrsCode = some 31 := by
  decide +kernel

/-- Settles O29. -/
theorem newlineSequence : Obligations.NewlineSequence := by
  refine ⟨fun t e kind n j => ⟨fun hCase hLow => ?_, fun hCase hLow => ?_, fun hCase hCommon hFirst => ?_,
    fun z hCase hNone hLow hz => ?_⟩, fun t e c => ⟨newline_of_no_fill, fun z => newline_of_fill⟩, fun e c => ?_⟩
  · exact carriage_of_known n (c := .letters) (by rw [hCase]; rfl) ((lowestOfKind_eq_some_iff _).mpr hLow)
  · exact carriage_of_known n (c := .figures) (by rw [hCase]; rfl) ((lowestOfKind_eq_some_iff _).mpr hLow)
  · exact carriage_of_common n hCase ((commonOfKind_eq_some_iff t kind j).mpr ⟨hCommon, hFirst⟩)
  · exact carriage_of_shift n hCase ((commonOfKind_eq_none_iff t kind).mpr hNone) ((lowestOfKind_eq_some_iff _).mpr hLow) hz
  · by_cases hFill : c.ltrsFill = 0
    · rw [newline_of_no_fill hFill, carriage_fixedTable_cr, carriage_fixedTable_lf]
      simp [hFill]
    · rw [newline_of_fill hFill ltrsCode_fixedTable, carriage_fixedTable_cr, carriage_fixedTable_lf]
      simp [hFill]

end Sys2Proof.Machine
end

section
/-! SUPPORT. The treatment of a character, the forming of a group, and the handing of its codes (R134 to R149). -/

namespace Sys2Proof.Machine

/-! ## The treatment of a character (R138, R141, R142) -/

theorem represents_iff (t : Table) (x : Byte) :
    t.represents x = true ↔ t.reverse .letters x ≠ none ∨ t.reverse .figures x ≠ none := by
  simp only [Table.represents, Bool.or_eq_true, Option.isSome_iff_ne_none]

section
variable {t : Table} {e : Encoder} {c : SendCopy} {x : Byte}

theorem bell_of_uncoded (h : ¬(t.reverse .letters 0x07 ≠ none ∨ t.reverse .figures 0x07 ≠ none)) :
    e.bell t = ⟨[], e, true, true, false⟩ := by
  obtain ⟨hLetters, hFigures⟩ := not_or.mp h
  simp only [Encoder.bell, not_not.mp hLetters, not_not.mp hFigures, Encoder.dropChar]

theorem bell_of_common {k : Code} (hCase : e.encCase = .unknown) (hLetters : t.reverse .letters 0x07 = some k)
    (hFigures : t.reverse .figures 0x07 = some k) : e.bell t = ⟨[k], e, true, false, false⟩ := by
  simp only [Encoder.bell, hLetters, hFigures, hCase, and_self, if_true]

theorem bell_of_coded (h : t.reverse .letters 0x07 ≠ none ∨ t.reverse .figures 0x07 ≠ none)
    (hOwn : e.encCase ≠ .unknown ∨ t.reverse .letters 0x07 ≠ t.reverse .figures 0x07) :
    e.bell t = ⟨(e.chooseCode t 0x07).1, (e.chooseCode t 0x07).2, true, false, false⟩ := by
  cases hLetters : t.reverse .letters 0x07 with
  | none =>
    cases hFigures : t.reverse .figures 0x07 with
    | none => exact absurd h (by simp only [hLetters, hFigures, ne_eq, not_true, or_self, not_false_eq_true])
    | some j => simp only [Encoder.bell, hLetters, hFigures]
  | some k =>
    cases hFigures : t.reverse .figures 0x07 with
    | none => simp only [Encoder.bell, hLetters, hFigures]
    | some j =>
      have hNot : ¬(e.encCase = .unknown ∧ k = j) := fun ⟨hCase, hSame⟩ =>
        hOwn.elim (· hCase) (· (by rw [hLetters, hFigures, hSame]))
      simp only [Encoder.bell, hLetters, hFigures, if_neg hNot]

theorem treat_of_represented (hBare : x ≠ 0x0A ∧ x ≠ 0x0D ∧ x ≠ 0x07) (hCoded : t.represents x = true) :
    e.treat t c x = e.carried t c x false := by
  obtain ⟨hLf, hCr, hBell⟩ := hBare
  rw [Encoder.treat, if_neg hCr, if_neg hLf, if_neg hBell, if_pos hCoded]

theorem treat_of_unrepresented (hBare : x ≠ 0x0A ∧ x ≠ 0x0D ∧ x ≠ 0x07) (hCoded : t.represents x ≠ true) :
    e.treat t c x =
      if c.unrepPolicy = .substitute ∧
          (c.unrepSubstitute ≠ 0x0A ∧ c.unrepSubstitute ≠ 0x0D ∧ c.unrepSubstitute ≠ 0x07) ∧
          t.represents c.unrepSubstitute = true then
        e.carried t c c.unrepSubstitute true
      else e.dropChar true := by
  obtain ⟨hLf, hCr, hBell⟩ := hBare
  rw [Encoder.treat, if_neg hCr, if_neg hLf, if_neg hBell, if_neg hCoded]
  cases c.unrepPolicy with
  | drop => simp
  | substitute => grind

end

/-! ## A carried character (R143 to R146) -/

section
variable {t : Table} {e : Encoder} {c : SendCopy} {x : Byte} {counted : Bool}

theorem carried_of_full_space (hFull : e.column = c.width) (hSpace : x = 0x20) :
    e.carried t c x counted = ⟨(e.newline t c).1, (e.newline t c).2, true, counted, true⟩ := by
  rw [Encoder.carried, if_pos hFull]
  exact if_pos hSpace

theorem carried_of_full_other (hFull : e.column = c.width) (hSpace : x ≠ 0x20) :
    e.carried t c x counted = ⟨(e.newline t c).1, (e.newline t c).2, false, false, true⟩ := by
  rw [Encoder.carried, if_pos hFull]
  exact if_neg hSpace

theorem carried_of_room (hRoom : e.column ≠ c.width) :
    e.carried t c x counted =
      ⟨(e.refreshShift t c).1 ++ ((e.refreshShift t c).2.chooseCode t x).1,
        (((e.refreshShift t c).2.chooseCode t x).2).afterPrinting c x, true, counted, false⟩ :=
  if_neg hRoom

theorem refreshShift_of_not_due (h : e.encCase = .unknown ∨ ¬(c.refreshInterval ≠ 0 ∧ c.refreshInterval ≤ e.refresh)) :
    e.refreshShift t c = ([], e) := by
  rcases h with hCase | hDue
  · simp only [Encoder.refreshShift, hCase, EncCase.known]
  · cases hKnown : e.encCase.known with
    | none => simp only [Encoder.refreshShift, hKnown]
    | some k => simp only [Encoder.refreshShift, hKnown, if_neg hDue]

theorem refreshShift_of_due {k : Case} {z : Code} (hCase : e.encCase = k.enc)
    (hDue : c.refreshInterval ≠ 0 ∧ c.refreshInterval ≤ e.refresh) (hz : t.shiftCode k = some z) :
    e.refreshShift t c = ([z], { e with refresh := 0 }) := by
  simp only [Encoder.refreshShift, hCase, known_enc, if_pos hDue, Encoder.shift, hz, Option.toList_some]

end

/-! ## The rounds of forming (R135 to R137, R147 to R149) -/

section
variable {t : Table} {e : Encoder} {c : SendCopy} {char : Nat → Byte} {length : Nat} {u : Transmission}

theorem formRound_of_owed (hOwed : e.owed = true) :
    e.formRound t c char length u =
      .formed u { (e.newline t c).2 with group := (e.newline t c).1, groupEnd := .nothing, owed := false } :=
  if_pos hOwed

variable (hOwed : e.owed = false)
include hOwed

theorem formRound_of_preamble_unbegun (hPhase : u.phase = .preamble) (hProgress : e.progress = none) :
    e.formRound t c char length u = .formed u { e with progress := some (preambleItems c u.entry.priority) } := by
  simp only [Encoder.formRound, hOwed, hPhase, hProgress, Bool.false_eq_true, if_false]

theorem formRound_of_preamble_over (hPhase : u.phase = .preamble) (hProgress : e.progress = some []) :
    e.formRound t c char length u = .formed { u with phase := .text } { e with progress := none } := by
  simp only [Encoder.formRound, hOwed, hPhase, hProgress, Bool.false_eq_true, if_false]

theorem formRound_of_preamble_item {i : FrameItem} {rest : List FrameItem} (hPhase : u.phase = .preamble)
    (hProgress : e.progress = some (i :: rest)) :
    e.formRound t c char length u =
      .formed { u with entry := u.entry.count (e.treatItem t c i).counted }
        { (e.treatItem t c i).enc with
          group := (e.treatItem t c i).codes
          groupEnd := .nothing
          progress := some (if (e.treatItem t c i).taken then rest else i :: rest) } := by
  simp only [Encoder.formRound, hOwed, hPhase, hProgress, Bool.false_eq_true, if_false]

theorem formRound_of_text_over (hPhase : u.phase = .text) (hOver : length ≤ u.entry.resumeOffset) :
    e.formRound t c char length u = .formed (u.beginPostamble length) { e with progress := none } := by
  simp only [Encoder.formRound, hOwed, hPhase, Bool.false_eq_true, if_false, if_neg (Nat.not_lt.mpr hOver)]

theorem formRound_of_text (hPhase : u.phase = .text) (hMore : u.entry.resumeOffset < length) :
    e.formRound t c char length u =
      .formed (u.advance (e.treat t c (char u.entry.resumeOffset)) length)
        { (e.treat t c (char u.entry.resumeOffset)).enc with
          group := (e.treat t c (char u.entry.resumeOffset)).codes
          groupEnd := if (e.treat t c (char u.entry.resumeOffset)).newline then .printLineEnd else .nothing
          progress := none } := by
  simp only [Encoder.formRound, hOwed, hPhase, Bool.false_eq_true, if_false, if_pos hMore]

theorem formRound_of_postamble_over (hPhase : u.phase = .postamble) (hProgress : e.progress = some []) :
    e.formRound t c char length u = .spent u e := by
  simp only [Encoder.formRound, hOwed, hPhase, hProgress, Bool.false_eq_true, if_false]

theorem formRound_of_postamble_empty (hPhase : u.phase = .postamble) (hProgress : e.progress = none)
    (hEmpty : postambleItems c e.column = []) : e.formRound t c char length u = .spent u e := by
  simp only [Encoder.formRound, hOwed, hPhase, hProgress, hEmpty, Bool.false_eq_true, if_false]

theorem formRound_of_postamble_unbegun (hPhase : u.phase = .postamble) (hProgress : e.progress = none)
    (hItems : postambleItems c e.column ≠ []) :
    e.formRound t c char length u = .formed u { e with progress := some (postambleItems c e.column) } := by
  obtain ⟨i, rest, hEq⟩ := List.exists_cons_of_ne_nil hItems
  simp only [Encoder.formRound, hOwed, hPhase, hProgress, hEq, Bool.false_eq_true, if_false]

theorem formRound_of_postamble_item {i : FrameItem} {rest : List FrameItem} (hPhase : u.phase = .postamble)
    (hProgress : e.progress = some (i :: rest)) :
    e.formRound t c char length u =
      .formed { u with entry := u.entry.count (e.treatItem t c i).counted }
        { (e.treatItem t c i).enc with
          group := (e.treatItem t c i).codes
          groupEnd :=
            if (if (e.treatItem t c i).taken then rest else i :: rest) = [] then .postambleEnd else .nothing
          progress := some (if (e.treatItem t c i).taken then rest else i :: rest) } := by
  simp only [Encoder.formRound, hOwed, hPhase, hProgress, Bool.false_eq_true, if_false, List.isEmpty_iff]

end

theorem count_eq (d : DistEntry) (counted : Bool) :
    d.count counted =
      { d with substitutions := if counted then min (d.substitutions + 1) 65535 else d.substitutions } := by
  cases counted <;> rfl

/-- A text character moves the position when it is taken; the last one begins the postamble unless a newline's print-line end is
to come (R125, R147). -/
theorem advance_eq {u : Transmission} {r : Treated} {length : Nat} (hMore : u.entry.resumeOffset < length) :
    u.advance r length =
      if (u.entry.resumeOffset + if r.taken then 1 else 0) = length ∧ r.newline = false then
        ({ u with
            entry := { u.entry.count r.counted with resumeOffset := u.entry.resumeOffset + if r.taken then 1 else 0 } }
          : Transmission).beginPostamble length
      else
        { u with
          entry := { u.entry.count r.counted with resumeOffset := u.entry.resumeOffset + if r.taken then 1 else 0 } } := by
  have hOffset : (u.entry.count r.counted).resumeOffset = u.entry.resumeOffset := by rw [count_eq]
  have hLast : (length ≤ u.entry.resumeOffset + if r.taken then 1 else 0) ↔
      (u.entry.resumeOffset + if r.taken then 1 else 0) = length := by split <;> omega
  simp only [Transmission.advance, hOffset, hLast]

section
variable {t : Table} {e f : Encoder} {c : SendCopy} {char : Nat → Byte} {length : Nat} {u v : Transmission} (n : Nat)

theorem form_of_spent (h : e.formRound t c char length u = .spent v f) :
    e.form t c char length u (n + 1) = .spent v f := by
  simp only [Encoder.form, h]

theorem form_of_codes (h : e.formRound t c char length u = .formed v f) (hGroup : f.group ≠ []) :
    e.form t c char length u (n + 1) = .formed v f := by
  simp only [Encoder.form, h, List.isEmpty_iff, if_neg hGroup]

theorem form_of_no_code (h : e.formRound t c char length u = .formed v f) (hGroup : f.group = []) :
    e.form t c char length u (n + 1) = f.form t c char length v n := by
  simp only [Encoder.form, h, List.isEmpty_iff, if_pos hGroup]

end

/-! ## Requests and the handing of a code (R134, R135, R154, R155) -/

section
variable {s : State} {l : LineNo} {u : Transmission} {c : SendCopy} {st : Story} (n : Nat)

theorem request_of_nothing (h : (s.line l).dist.current = none ∨ (s.line l).enc.copy = none) :
    s.request l (n + 1) = s := by
  rcases h with hCurrent | hCopy
  · simp only [State.request, hCurrent]
  · cases hCurrent : (s.line l).dist.current <;> simp only [State.request, hCurrent, hCopy]

theorem textAt_of_named {h : Handle} (hNamed : s.storyOf h = some st) : s.textAt h = s.store.text.charAt st.chain := by
  funext p
  simp only [State.textAt, hNamed]

variable (hCurrent : (s.line l).dist.current = some u) (hCopy : (s.line l).enc.copy = some c)
include hCurrent hCopy

theorem request_of_group (hGroup : (s.line l).enc.group ≠ []) : s.request l (n + 1) = s.handCode l c := by
  simp only [State.request, hCurrent, hCopy, List.isEmpty_iff, if_neg hGroup]

variable (hGroup : (s.line l).enc.group = []) (hNamed : s.storyOf u.entry.handle = some st) {v : Transmission} {e : Encoder}
include hGroup hNamed

theorem request_of_formed
    (hForm : (s.line l).enc.form (s.tables.get c.slot) c (s.store.text.charAt st.chain) st.length u formRounds =
      .formed v e) :
    s.request l (n + 1) =
      (s.modLine l fun x => { x with enc := e, dist := { x.dist with current := some v } }).handCode l c := by
  simp only [State.request, hCurrent, hCopy, List.isEmpty_iff, if_pos hGroup, textAt_of_named hNamed,
    lengthOf_of_named hNamed, hForm]

theorem request_of_spent
    (hForm : (s.line l).enc.form (s.tables.get c.slot) c (s.store.text.charAt st.chain) st.length u formRounds =
      .spent v e)
    {w : State}
    (hEnded : (s.modLine l fun x => { x with enc := e, dist := { x.dist with current := some v } }).endTransmission l = w) :
    s.request l (n + 1) = if (w.line l).send.state = .sending then w.request l n else w := by
  simp only [State.request, hCurrent, hCopy, List.isEmpty_iff, if_pos hGroup, textAt_of_named hNamed,
    lengthOf_of_named hNamed, hForm, hEnded]

end

/-- The oldest code of the group handed, its frame begun under the send copy, the stop delay reloaded under motor control. -/
def State.handed (s : State) (l : LineNo) (c : SendCopy) (k : Code) (rest : List Code) : State :=
  s.modLine l fun y =>
    { y with
      enc := { y.enc with group := rest, groupEnd := if rest = [] then .nothing else y.enc.groupEnd }
      send :=
        { y.send with
          frame :=
            some { code := k, start := s.tick, unit := c.unit, stopLength := c.stopLength, keying := c.keying, element := 0 }
          key := .space
          stopDelay :=
            if y.record.motorControl then some { loadedAt := s.tick, ms := y.record.stopDelay * 1000 }
            else y.send.stopDelay } }

section
variable {s : State} {l : LineNo} {c : SendCopy} {k : Code} {rest : List Code}

theorem handed_of_more (hMore : rest ≠ []) :
    (s.modEnc l fun e => { e with group := rest }).beginFrame l k c = s.handed l c k rest := by
  simp only [State.beginFrame, loadStopDelay_eq, State.modEnc, State.modSend, modLine_modLine, line_modLine_same]
  exact modLine_congr (by simp only [if_neg hMore]; rfl)

theorem handed_of_last :
    ((s.modEnc l fun e => { e with group := [] }).beginFrame l k c).modEnc l (fun e => { e with groupEnd := .nothing }) =
      s.handed l c k [] := by
  simp only [State.beginFrame, loadStopDelay_eq, State.modEnc, State.modSend, modLine_modLine, line_modLine_same]
  exact modLine_congr rfl

theorem handCode_of_nothing (hGroup : (s.line l).enc.group = []) : s.handCode l c = s := by
  simp only [State.handCode, hGroup]

theorem handCode_of_more (hGroup : (s.line l).enc.group = k :: rest) (hMore : rest ≠ []) :
    s.handCode l c = s.handed l c k rest := by
  simp only [State.handCode, hGroup, List.isEmpty_iff, if_neg hMore, handed_of_more hMore]

variable (hGroup : (s.line l).enc.group = [k])
include hGroup

theorem handCode_of_last (hEnd : (s.line l).enc.groupEnd = .nothing) : s.handCode l c = s.handed l c k [] := by
  simp only [State.handCode, hGroup, hEnd, List.isEmpty_nil, if_true, handed_of_last]

theorem handCode_of_printLineEnd (hEnd : (s.line l).enc.groupEnd = .printLineEnd) :
    s.handCode l c = (s.handed l c k []).printLineEnd l := by
  simp only [State.handCode, hGroup, hEnd, List.isEmpty_nil, if_true, handed_of_last]

theorem handCode_of_postambleEnd (hEnd : (s.line l).enc.groupEnd = .postambleEnd) :
    s.handCode l c = (s.handed l c k []).endTransmission l := by
  simp only [State.handCode, hGroup, hEnd, List.isEmpty_nil, if_true, handed_of_last]

end

/-- Settles O30. -/
theorem groupForming : Obligations.GroupForming := by
  refine ⟨fun c column => ⟨⟨rfl, rfl, rfl, rfl, rfl⟩, rfl⟩, fun t e c x => ?_, fun t e c x counted => ?_,
    fun t e c char length u => ?_, fun s l n u c st => ?_, fun s l c k rest => ?_⟩
  · intro coded bare line y
    have hCoded (z : Byte) : t.represents z = true ↔ coded z := represents_iff t z
    refine ⟨⟨rfl, rfl⟩, bell_of_uncoded, fun k => bell_of_common, bell_of_coded,
      fun hBare hx => treat_of_represented hBare ((hCoded x).mpr hx), fun hBare hx hy => ?_, fun hBare hx hy => ?_⟩
    · rw [treat_of_unrepresented hBare ((hCoded x).not.mpr hx), if_pos (by simpa only [hCoded] using hy)]
    · rw [treat_of_unrepresented hBare ((hCoded x).not.mpr hx), if_neg (by simpa only [hCoded] using hy)]
      rfl
  · intro line due plain fresh after
    have hAfter (f : Encoder) : f.afterPrinting c x = after f := by simp only [Encoder.afterPrinting, after]
    refine ⟨carried_of_full_space, carried_of_full_other, fun hRoom hDue => ?_, fun z hRoom hCase hDue hz => ?_,
      fun z hRoom hCase hDue hz => ?_⟩
    · rw [carried_of_room hRoom, refreshShift_of_not_due hDue, hAfter]
      rfl
    · rw [carried_of_room hRoom, refreshShift_of_due (k := .letters) hCase hDue hz, hAfter]
      rfl
    · rw [carried_of_room hRoom, refreshShift_of_due (k := .figures) hCase hDue hz, hAfter]
      rfl
  · intro round item counting ending left
    have hItem (i : FrameItem) : item i = e.treatItem t c i := by cases i <;> rfl
    have hCounting (u : Transmission) (r : Treated) : counting u r = { u with entry := u.entry.count r.counted } := by
      rw [count_eq]
    refine ⟨formRound_of_owed, fun hOwed hPhase => ⟨formRound_of_preamble_unbegun hOwed hPhase,
        formRound_of_preamble_over hOwed hPhase, fun i rest hProgress => ?_⟩,
      fun hOwed hPhase => ⟨formRound_of_text_over hOwed hPhase, fun hMore => ?_⟩,
      fun hOwed hPhase => ⟨fun h => ?_, formRound_of_postamble_unbegun hOwed hPhase, fun i rest hProgress => ?_⟩,
      fun n v f => ⟨form_of_spent n, form_of_codes n, form_of_no_code n⟩⟩
    · rw [hItem, hCounting]
      exact formRound_of_preamble_item hOwed hPhase hProgress
    · intro r offset v
      have hEntry : v = { u with entry := { u.entry.count r.counted with resumeOffset := offset } } := by
        simp only [v, hCounting]
      rw [hEntry]
      exact (formRound_of_text hOwed hPhase hMore).trans (by rw [advance_eq hMore]; rfl)
    · rcases h with hOver | ⟨hUnbegun, hEmpty⟩
      · exact formRound_of_postamble_over hOwed hPhase hOver
      · exact formRound_of_postamble_empty hOwed hPhase hUnbegun hEmpty
    · rw [hItem, hCounting]
      exact formRound_of_postamble_item hOwed hPhase hProgress
  · intro x formed put
    refine ⟨request_of_nothing n, request_of_group n, fun hCurrent hCopy hGroup hNamed =>
      ⟨fun v e hForm => request_of_formed n hCurrent hCopy hGroup hNamed hForm, fun v e hForm => ?_⟩⟩
    intro w
    have hSpent := request_of_spent n hCurrent hCopy hGroup hNamed hForm rfl
    exact ⟨fun hSending => hSpent.trans (if_pos hSending), fun hSending => hSpent.trans (if_neg hSending)⟩
  · intro x begun
    refine ⟨handCode_of_nothing, fun hGroup hEnd => ?_, fun hGroup hRest hEnd => ?_, fun hGroup hRest hEnd => ?_⟩
    · by_cases hRest : rest = []
      · subst hRest
        exact handCode_of_last hGroup (hEnd.resolve_left (· rfl))
      · exact handCode_of_more hGroup hRest
    · subst hRest
      exact handCode_of_printLineEnd hGroup hEnd
    · subst hRest
      exact handCode_of_postambleEnd hGroup hEnd

end Sys2Proof.Machine
end

section
/-! SUPPORT. The end of a code frame and the next element of one (R154, R155). -/

namespace Sys2Proof.Machine

theorem line_advanceTo (s : State) (d : Nat) (l : LineNo) : (s.advanceTo d).line l = s.line l :=
  line_of_lines (advanceTo_lines s d) l

/-- A send side after the next of its frame's elements: the code's element, and mark from the stop element on. -/
theorem nextElement_of_frame {x : SendSide} {f : CodeFrame} (hFrame : x.frame = some f) (hLast : f.element + 1 ≤ 6) :
    x.nextElement =
      { x with
        frame := some { f with element := f.element + 1 }
        key := if f.element + 1 = 6 ∨ f.code.val.testBit f.element then .mark else .space } := by
  have hKey : elementLevel f.code (f.element + 1) =
      if f.element + 1 = 6 ∨ f.code.val.testBit f.element then .mark else .space := by
    by_cases hStop : f.element + 1 = 6
    · rw [if_pos (.inl hStop), hStop]
      rfl
    · rw [elementLevel_succ f.code (by omega)]
      simp only [hStop, false_or]
  simp only [SendSide.nextElement, hFrame, hKey]

section
variable {s : State} {l : LineNo} {f : CodeFrame} (hFrame : (s.line l).send.frame = some f)
include hFrame

theorem exec_frameEnd :
    exec (.frameEnd l) s = .next ((s.advanceTo (f.start + 6 * f.unit + f.stopLength * f.unit / 16)).endFrame l) :=
  congrArg Host.Outcome.next (whenDue_of_eq_some ((frameEndDue_eq_some_iff _ _).mpr ⟨f, hFrame, rfl⟩) _)

theorem exec_keyLevelChange (hLast : f.element + 1 ≤ 6) :
    exec (.keyLevelChange l) s =
      .next (((s.advanceTo (f.start + (f.element + 1) * f.unit)).modSend l SendSide.nextElement).wakeConverter) :=
  congrArg Host.Outcome.next (whenDue_of_eq_some ((keyDue_eq_some_iff _ _).mpr ⟨f, hFrame, hLast, rfl⟩) _)

end

/-- Settles O31. -/
theorem frameEndAndKeyLevelResult : Obligations.FrameEndAndKeyLevelResult := by
  refine ⟨fun s l f hFrame => ?_, fun s l f n hFrame hn hLast => ?_⟩
  · intro x u v
    have hLine : u.line l = x := line_advanceTo ..
    have hVLine : v.line l = { x with send := { x.send with frame := none, key := .mark } } := by
      rw [line_modSend_same, hLine]
    have hState : (v.line l).send.state = x.send.state := by rw [hVLine]
    have hSending : x.send.state = .sending →
        exec (.frameEnd l) s = .next (v.request l requestRounds).wakeConverter := fun hState' => by
      rw [exec_frameEnd hFrame, State.endFrame, if_pos (hState.trans hState')]
    refine ⟨fun hOther => ?_, hSending, fun k k2 rest t c hState' hGroup hCurrent hCopy => ?_⟩
    · rw [exec_frameEnd hFrame, State.endFrame, if_neg (hState ▸ hOther)]
    · have hVGroup : (v.line l).enc.group = k :: k2 :: rest := by rw [hVLine]; exact hGroup
      rw [hSending hState', requestRounds, request_of_group 39 (by rw [hVLine]; exact hCurrent) (by rw [hVLine]; exact hCopy)
        (by rw [hVGroup]; exact List.cons_ne_nil _ _), handCode_of_more hVGroup (List.cons_ne_nil _ _), State.handed]
      simp only [v, State.modSend, modLine_modLine]
      refine congrArg (fun w => Host.Outcome.next (State.wakeConverter w)) (modLine_congr ?_)
      rw [hLine]
      rfl
  · subst hn
    rw [exec_keyLevelChange hFrame hLast]
    refine congrArg (fun w => Host.Outcome.next (State.wakeConverter w)) (modSend_congr ?_)
    exact nextElement_of_frame (by rw [line_advanceTo]; exact hFrame) hLast

end Sys2Proof.Machine
end

section
/-! SUPPORT. Silence and the entry to UNATTENDED, the samples of a byte, the taking of a byte, of a whole frame and of a good
frame, and the end of a response (R169 to R172, R176, R192). -/

namespace Sys2Proof.Machine

/-! ## Silence (R176, R192) -/

theorem roomDeserted_iff (s : State) :
    s.roomDeserted = true ↔
      (∃ p, (s.port p).silence ≠ .untimed) ∧ ∀ p, (s.port p).silence ≠ .untimed → (s.port p).silence = .silent := by
  have hAny : (∃ p, (s.port p).silence ≠ .untimed) ↔ s.portA.silence ≠ .untimed ∨ s.portB.silence ≠ .untimed :=
    ⟨fun ⟨p, hp⟩ => by cases p; exacts [.inl hp, .inr hp], fun h => h.elim (⟨.a, ·⟩) (⟨.b, ·⟩)⟩
  have hAll : (∀ p, (s.port p).silence ≠ .untimed → (s.port p).silence = .silent) ↔
      (s.portA.silence ≠ .untimed → s.portA.silence = .silent) ∧ (s.portB.silence ≠ .untimed → s.portB.silence = .silent) :=
    ⟨fun h => ⟨h .a, h .b⟩, fun ⟨ha, hb⟩ p => by cases p; exacts [ha, hb]⟩
  rw [hAny, hAll]
  simp only [State.roomDeserted, DeskPort.timed, Bool.and_eq_true, Bool.or_eq_true, Bool.not_eq_true', decide_eq_true_eq,
    decide_eq_false_iff_not, and_assoc, imp_iff_not_or]

theorem judgeRoom_of_deserted {s : State} (hAttended : s.room.unattended = false) (hDeserted : s.roomDeserted = true) :
    s.judgeRoom = (s.modRoom fun r => { r with unattended := true }).postBoth .unattendedBegin :=
  if_pos ⟨hAttended, hDeserted⟩

theorem judgeRoom_of_not {s : State} (h : ¬(s.room.unattended = false ∧ s.roomDeserted = true)) : s.judgeRoom = s :=
  if_neg h

/-- Settles O38. -/
theorem silenceTimerExpiryResult : Obligations.SilenceTimerExpiryResult := by
  refine ⟨fun s => ⟨fun hAttended hDeserted => ?_, fun hNot => ?_⟩, fun s p t hActive hTimer => ?_⟩
  · exact judgeRoom_of_deserted hAttended ((roomDeserted_iff s).mpr hDeserted)
  · exact judgeRoom_of_not fun h => hNot ⟨h.1, (roomDeserted_iff s).mp h.2⟩
  · exact congrArg Host.Outcome.next (whenDue_of_eq_some ((silenceDue_eq_some_iff _ _).mpr ⟨hActive, t, hTimer, rfl⟩) _)

/-! ## Good frames and responses (R171, R172) -/

section
variable {s : State} {p : Port} {g : GoodFrame} {run : State → Reply}

theorem offerFrame_of_held (h : (s.port p).held ≠ none) : s.offerFrame p g run = s :=
  if_pos (Option.isSome_iff_ne_none.mpr h)

theorem offerFrame_of_busy (hHeld : (s.port p).held = none) (hBusy : (s.port p).response ≠ none) :
    s.offerFrame p g run = s.modPort p fun q => { q with held := some g } := by
  rw [State.offerFrame, hHeld, if_neg (by simp), if_pos (Option.isSome_iff_ne_none.mpr hBusy)]

end

/-- Settles O40. -/
theorem goodFrameTakenHeldOrDiscarded : Obligations.GoodFrameTakenHeldOrDiscarded := by
  intro c s p g hRow
  rw [exec_of_goodFrameOf hRow s]
  exact ⟨fun hHeld => congrArg _ (offerFrame_of_held hHeld), fun hNone hBusy => congrArg _ (offerFrame_of_busy hNone hBusy),
    fun hReady => congrArg _ (offerFrame_of_ready hReady g _)⟩

theorem endResponse_of_none {s : State} {p : Port} (hHeld : (s.port p).held = none) :
    s.endResponse p = s.modPort p fun q => { q with response := none, held := none } := by
  simp only [State.endResponse, hHeld]

theorem endResponse_of_held {s : State} {p : Port} {g : GoodFrame} (hHeld : (s.port p).held = some g) :
    s.endResponse p = (s.modPort p fun q => { q with response := none, held := none }).takeFrame p g (runCommand p g) := by
  simp only [State.endResponse, hHeld]

theorem port_advanceTo (s : State) (d : Nat) (p : Port) : (s.advanceTo d).port p = s.port p := by
  cases p <;> simp

/-- Settles O37. -/
theorem responseEndResult : Obligations.ResponseEndResult := by
  intro s p r hResponse u
  have hRow : exec (.responseEnd p) s =
      .next ((s.advanceTo (r.start + r.bytes.length * (10 * r.rate / 8))).endResponse p) :=
    congrArg Host.Outcome.next (whenDue_of_eq_some ((responseDue_eq_some_iff _ _).mpr ⟨r, hResponse, rfl⟩) _)
  refine ⟨fun hHeld => ?_, fun g hHeld => ?_⟩
  · rw [hRow, endResponse_of_none (by rw [port_advanceTo]; exact hHeld)]
  · rw [hRow, endResponse_of_held (by rw [port_advanceTo]; exact hHeld)]
    rfl

/-! ## The samples of a byte (R170) -/

theorem bitSample_mark (e r : Nat) (level : Level) (changes : List Nat) (n : Nat) :
    bitSample e r level changes n = .mark ↔
      (level = .mark ↔ (changes.filter fun c => decide (e + (2 * n + 1) * r / 16 < c)).length % 2 = 0) :=
  dataLevel_mark ..

/-- A byte with the sampled levels as its bits is the sampled byte. -/
theorem eq_sampledByte {e r : Nat} {level : Level} {changes : List Nat} {x : Byte}
    (hBits : ∀ n, n < 8 → (x.getLsbD n = true ↔
      (level = .mark ↔ (changes.filter fun c => decide (e + (2 * (n + 1) + 1) * r / 16 < c)).length % 2 = 0))) :
    x = sampledByte e r level changes := by
  refine BitVec.eq_of_getLsbD_eq fun n hn => ?_
  rw [sampledByte_getLsbD e r level changes n hn, Bool.eq_iff_iff, decide_eq_true_iff, bitSample_mark]
  exact hBits n hn

section
variable {q : DeskPort} {level : Level} {changes : List Nat}

theorem sampled_of_frame {e r : Nat} {x : Byte} (hLink : q.link = .inFrame) (hByte : q.byteStart = some e)
    (hRate : q.rate = some r) (hx : x = sampledByte e r level changes) :
    q.sampled level changes = some (e + 19 * r / 16, x, bitSample e r level changes 9) := by
  simp only [DeskPort.sampled, hLink, hByte, hRate, hx]
  rfl

theorem sampled_of_no_byte (h : q.link = .hunting ∨ q.byteStart = none) : q.sampled level changes = none := by
  rcases h with hLink | hByte
  · simp only [DeskPort.sampled, hLink]
  · cases hLink : q.link <;> simp only [DeskPort.sampled, hLink, hByte]

theorem isFrameStart_iff {edge run : Nat} :
    q.isFrameStart edge run level changes = true ↔
      q.link = .hunting ∧ q.huntFrom ≤ edge ∧ 64 ≤ run ∧ run ≤ 3840 ∧
        bitSample edge run level changes 8 = .mark ∧ bitSample edge run level changes 9 = .mark := by
  simp only [DeskPort.isFrameStart, Bool.and_eq_true, decide_eq_true_eq, and_assoc]
  rfl

theorem checkNext_iff :
    q.checkNext = true ↔ 3 ≤ q.received.length ∧ q.received.length = 3 + (q.received.getD 2 0).toNat := by
  simp only [DeskPort.checkNext, bodyLength, byteAt, decide_eq_true_eq, Option.ite_none_left_eq_some, not_lt, Option.some.injEq,
    eq_comm (a := q.received.length)]

end

/-! ## The taking of a byte (R170, R171) -/

section
variable {q : DeskPort} {edge g : Nat}

theorem startByte_of_no_gap (h : q.link = .hunting ∨ q.gapFrom = none) : q.startByte edge = q := by
  rcases h with hLink | hGap
  · simp only [DeskPort.startByte, hLink]
  · cases hLink : q.link <;> simp only [DeskPort.startByte, hLink, hGap]

theorem startByte_of_early (hGap : q.gapFrom = some g) (hEdge : edge ≤ g) : q.startByte edge = q := by
  cases hLink : q.link <;> simp only [DeskPort.startByte, hLink, hGap, if_pos hEdge]

variable (hLink : q.link = .inFrame) (hGap : q.gapFrom = some g)
include hLink hGap

theorem startByte_of_inTime (hEdge : g < edge) (hLimit : edge ≤ g + 40960) :
    q.startByte edge = { q with byteStart := some edge, gapFrom := none } := by
  simp only [DeskPort.startByte, hLink, hGap]
  exact (if_neg (Nat.not_le.mpr hEdge)).trans (if_pos hLimit)

theorem startByte_of_late (hEdge : g + 40960 < edge) : q.startByte edge = q.abandonFrame (g + 40960) := by
  simp only [DeskPort.startByte, hLink, hGap]
  exact (if_neg (by omega)).trans (if_neg (Nat.not_le.mpr hEdge))

end

section
variable {q : DeskPort} {x : Byte} {d : Nat}

theorem takeByte_of_bad_length (h : q.received.length = 2 ∧ 250 < x.toNat) : q.takeByte x .mark d = q.abandonFrame d :=
  if_pos h

theorem takeByte_of_good_length (h : ¬(q.received.length = 2 ∧ 250 < x.toNat)) :
    q.takeByte x .mark d = { q with received := q.received ++ [x], byteStart := none, gapFrom := some d } :=
  if_neg h

end

section
variable {s : State} {p : Port} {level : Level} {changes : List Nat}

theorem exec_byteStopSample_of_none (h : (s.port p).sampled level changes = none) :
    exec (.byteStopSample p level changes) s = .next s := by
  simp only [exec, execByteStopSample, h]

theorem exec_byteStopSample_of_check (h : (s.port p).checkNext = true) :
    exec (.byteStopSample p level changes) s = .next s := by
  cases hSampled : (s.port p).sampled level changes <;> simp only [exec, execByteStopSample, hSampled, h, if_true]

theorem exec_frameComplete_of_none (h : (s.port p).sampled level changes = none) :
    exec (.frameComplete p level changes) s = .next s := by
  simp only [exec, execFrameComplete, h]

theorem exec_frameComplete_of_other (h : (s.port p).checkNext = false) :
    exec (.frameComplete p level changes) s = .next s := by
  cases hSampled : (s.port p).sampled level changes <;>
    simp only [exec, execFrameComplete, hSampled, h, Bool.false_eq_true, if_false]

section
variable {d : Nat} {x : Byte} {stop : Level} (hSampled : (s.port p).sampled level changes = some (d, x, stop))
include hSampled

theorem exec_byteStopSample_of_some (h : (s.port p).checkNext = false) :
    exec (.byteStopSample p level changes) s = .next ((s.advanceTo d).modPort p fun q => q.takeByte x stop d) := by
  simp only [exec, execByteStopSample, hSampled, h, Bool.false_eq_true, if_false]

theorem exec_frameComplete_of_some (h : (s.port p).checkNext = true) :
    exec (.frameComplete p level changes) s = .next ((s.advanceTo d).completeFrame p x stop d) := by
  simp only [exec, execFrameComplete, hSampled, h, if_true]

end

theorem exec_gapTimerExpiry {g : Nat} (hGap : (s.port p).gapFrom = some g) :
    exec (.gapTimerExpiry p) s = .next ((s.advanceTo (g + 40960)).modPort p fun q => q.abandonFrame (g + 40960)) := by
  have hDue : (s.port p).gapDue = some (g + 40960) := (linkGapDue_eq_some_iff _ _).mpr ⟨g, hGap, rfl⟩
  simp only [exec, execGapTimerExpiry, hDue]

end

theorem Level.eq_space_of_ne_mark {v : Level} (h : v ≠ .mark) : v = .space := by
  cases v with
  | mark => exact absurd rfl h
  | space => rfl

/-- Settles O35. -/
theorem frameReceptionResult : Obligations.FrameReceptionResult := by
  unfold Obligations.FrameReceptionResult
  intro mark
  refine ⟨fun s p edge run level changes => ?_, fun s p => ?_⟩
  · intro begins sample
    have hBegins : (s.port p).isFrameStart edge run level changes = true ↔ begins := by
      rw [isFrameStart_iff, bitSample_mark, bitSample_mark]
    exact ⟨fun h => congrArg Host.Outcome.next (if_pos (hBegins.mpr h)),
      fun h => congrArg Host.Outcome.next (if_neg (hBegins.not.mpr h))⟩
  · intro q abandoned
    have hPort (d : Nat) : (s.advanceTo d).port p = q := port_advanceTo s d p
    refine ⟨fun edge g hLink hGap hEdge hLimit => ?_, fun edge g hLink hGap hEdge => ?_, fun edge h => ?_, checkNext_iff,
      fun level changes h => ?_, fun level changes x e r hLink hByte hRate hCheck hBits => ?_, fun g hGap => ?_⟩
    · refine congrArg Host.Outcome.next (modPort_congr ?_)
      rw [hPort]
      exact startByte_of_inTime hLink hGap hEdge hLimit
    · refine congrArg Host.Outcome.next (modPort_congr ?_)
      rw [hPort]
      exact startByte_of_late hLink hGap hEdge
    · refine congrArg Host.Outcome.next (modPort_self ?_)
      rw [hPort]
      rcases h with hLink | hGap | ⟨g, hGap, hEdge⟩
      · exact startByte_of_no_gap (.inl hLink)
      · exact startByte_of_no_gap (.inr hGap)
      · exact startByte_of_early hGap hEdge
    · rcases h with hLink | hByte | hCheck
      · exact exec_byteStopSample_of_none (sampled_of_no_byte (.inl hLink))
      · exact exec_byteStopSample_of_none (sampled_of_no_byte (.inr hByte))
      · exact exec_byteStopSample_of_check hCheck
    · intro d done
      have hDone := exec_byteStopSample_of_some
        (sampled_of_frame (level := level) (changes := changes) hLink hByte hRate (eq_sampledByte hBits)) hCheck
      have hStop : bitSample e r level changes 9 = .mark ↔ mark level changes d := bitSample_mark ..
      refine ⟨fun hSpace => ?_, fun hMark hLong => ?_, fun hMark hFits => ?_⟩
      · rw [Level.eq_space_of_ne_mark (hStop.not.mpr hSpace)] at hDone
        exact hDone
      · rw [hStop.mpr hMark] at hDone
        refine hDone.trans (congrArg Host.Outcome.next (modPort_congr ?_))
        rw [hPort]
        exact takeByte_of_bad_length hLong
      · rw [hStop.mpr hMark] at hDone
        refine hDone.trans (congrArg Host.Outcome.next (modPort_congr ?_))
        rw [hPort]
        exact takeByte_of_good_length hFits
    · exact exec_gapTimerExpiry hGap

/-! ## The taking of a whole frame (R170, R171, R176) -/

/-- What a port is told by a good frame, but for its silence: frame held and sender stay. -/
theorem port_judgeRoom (s : State) (p : Port) :
    ∃ ns o, s.judgeRoom.port p = { s.port p with notices := ns, overflow := o } := by
  by_cases h : s.room.unattended = false ∧ s.roomDeserted = true
  · rw [judgeRoom_of_deserted h.1 h.2]
    obtain ⟨ns, o, hPort⟩ := (Works.postBoth (s.modRoom fun r => { r with unattended := true }) .unattendedBegin).kept.port p
    rw [port_modRoom] at hPort
    exact ⟨ns, o, hPort⟩
  · exact ⟨_, _, by rw [judgeRoom_of_not h]⟩

theorem hearFrame_untimed {s : State} {p : Port} (h : (s.port p).silence = .untimed) : s.hearFrame p = s := by
  simp only [State.hearFrame, h]

theorem hearFrame_active {s : State} {p : Port} (h : (s.port p).silence = .active) :
    s.hearFrame p = s.modPort p fun q => { q with silenceTimer := some (s.timerS q.interval) } := by
  simp only [State.hearFrame, h]

theorem hearFrame_silent {s : State} {p : Port} (h : (s.port p).silence = .silent) :
    s.hearFrame p =
      (s.modPort p fun q => { q with silence := .active, silenceTimer := some (s.timerS q.interval) }).judgeRoom := by
  simp only [State.hearFrame, h]

theorem hearFrame_port (s : State) (p : Port) :
    ((s.hearFrame p).port p).held = (s.port p).held ∧ ((s.hearFrame p).port p).response = (s.port p).response := by
  cases h : (s.port p).silence with
  | untimed => rw [hearFrame_untimed h]; exact ⟨rfl, rfl⟩
  | active => rw [hearFrame_active h]; simp
  | silent =>
    rw [hearFrame_silent h]
    obtain ⟨ns, o, hPort⟩ := port_judgeRoom
      (s.modPort p fun q => { q with silence := .active, silenceTimer := some (s.timerS q.interval) }) p
    rw [hPort]
    simp

theorem foldl_add_eq (xs : List Byte) (x : Byte) : xs.foldl (· + ·) x = byteSum xs + x := by
  induction xs generalizing x with
  | nil => simp [byteSum]
  | cons y ys ih => rw [byteSum, List.foldl_cons, List.foldl_cons, ih, ih, zero_add, add_comm x y, add_assoc]

theorem checkGood_iff (q : DeskPort) (check : Byte) :
    q.checkGood check = true ↔ (q.received.drop 1).foldl (· + ·) check = 0 := by
  rw [DeskPort.checkGood, decide_eq_true_iff, foldl_add_eq]

theorem completeFrame_of_bad {s : State} {p : Port} {check : Byte} {stop : Level} {d : Nat}
    (h : stop = .space ∨ (s.port p).checkGood check ≠ true) :
    s.completeFrame p check stop d = s.modPort p fun q => q.abandonFrame d := by
  cases stop with
  | space => rfl
  | mark => exact if_neg (h.resolve_left nofun)

theorem completeFrame_of_good {s : State} {p : Port} {check : Byte} {d : Nat} (h : (s.port p).checkGood check = true) :
    s.completeFrame p check .mark d =
      ((s.modPort p fun q => q.abandonFrame d).hearFrame p).offerFrame p (s.port p).goodFrame
        (runCommand p (s.port p).goodFrame) :=
  if_pos h

/-- Settles O36. -/
theorem frameCompleteResult : Obligations.FrameCompleteResult := by
  unfold Obligations.FrameCompleteResult
  intro mark
  refine ⟨fun s p level changes h => ?_, fun s p level changes check e r => ?_⟩
  · rcases h with hLink | hByte | hCheck
    · exact exec_frameComplete_of_none (sampled_of_no_byte (.inl hLink))
    · exact exec_frameComplete_of_none (sampled_of_no_byte (.inr hByte))
    · exact exec_frameComplete_of_other hCheck
  · intro q d u sum g heard done hLink hByte hRate hCheck hBits
    have hPort : (s.advanceTo d).port p = q := port_advanceTo s d p
    have hDone := exec_frameComplete_of_some
      (sampled_of_frame (level := level) (changes := changes) hLink hByte hRate (eq_sampledByte hBits)) hCheck
    have hStop : bitSample e r level changes 9 = .mark ↔ mark level changes d := bitSample_mark ..
    have hSum : ((s.advanceTo d).port p).checkGood check = true ↔ sum = 0 := by rw [hPort]; exact checkGood_iff q check
    have hFrame : ((s.advanceTo d).port p).goodFrame = g := by
      rw [hPort]
      simp only [DeskPort.goodFrame, g, hRate, q, Option.getD_some]
    have hU : u.port p = q.abandonFrame d := by simp only [u, port_modPort_same, hPort]; rfl
    have hHeard : u.hearFrame p = heard := by
      have hSilence : (u.port p).silence = q.silence := by rw [hU]; rfl
      cases h : q.silence with
      | untimed => rw [hearFrame_untimed (hSilence.trans h)]; simp only [heard, h]
      | active => rw [hearFrame_active (hSilence.trans h)]; simp only [heard, h]; rfl
      | silent => rw [hearFrame_silent (hSilence.trans h)]; simp only [heard, h]; rfl
    have hHeld : (heard.port p).held = q.held := by rw [← hHeard, (hearFrame_port u p).1, hU]; rfl
    have hResponse : (heard.port p).response = q.response := by rw [← hHeard, (hearFrame_port u p).2, hU]; rfl
    have hGood : mark level changes d → sum = 0 → done = .next (heard.offerFrame p g (runCommand p g)) := fun hMark hZero => by
      rw [hStop.mpr hMark, completeFrame_of_good (hSum.mpr hZero), hFrame] at hDone
      rw [← hHeard]
      exact hDone
    refine ⟨fun hSpace => ?_, fun hMark hNonzero => ?_, fun hMark hZero hReady => ?_, fun hMark hZero hBusy hNone => ?_,
      fun hMark hZero hTaken => ?_⟩
    · exact hDone.trans (congrArg _ (completeFrame_of_bad (.inl (Level.eq_space_of_ne_mark (hStop.not.mpr hSpace)))))
    · exact hDone.trans (congrArg _ (completeFrame_of_bad (.inr (hSum.not.mpr hNonzero))))
    · rw [hGood hMark hZero, offerFrame_of_ready ⟨hResponse.trans hReady.1, hHeld.trans hReady.2⟩]
    · rw [hGood hMark hZero, offerFrame_of_busy (hHeld.trans hNone) (hResponse ▸ hBusy)]
    · rw [hGood hMark hZero, offerFrame_of_held (hHeld ▸ hTaken)]

end Sys2Proof.Machine
end

section
/-! SUPPORT. The byte layouts: what a line record says in its 61 bytes, read and written (R19, R182), tables, summaries and STATUS
(R183, R185), and that records and tables read back. -/

namespace Sys2Proof.Machine

/-! ## Numbers and places (R180) -/

theorem leBytes_two (n : Nat) : leBytes 2 n = [byte1 n, byte1 (n / 256)] := rfl

theorem leBytes_three (n : Nat) : leBytes 3 n = [byte1 n, byte1 (n / 256), byte1 (n / 65536)] := by
  simp only [leBytes, Nat.div_div_eq_div_mul]

theorem leBytes_four (n : Nat) : leBytes 4 n = [byte1 n, byte1 (n / 256), byte1 (n / 65536), byte1 (n / 16777216)] := by
  simp only [leBytes, Nat.div_div_eq_div_mul]

theorem toNat_byte1 {n : Nat} (h : n < 256) : (byte1 n).toNat = n := by
  rw [byte1, BitVec.toNat_ofNat, Nat.mod_eq_of_lt h]

theorem toNat_byte1_two {n : Nat} (h : n < 65536) : (byte1 n).toNat + 256 * (byte1 (n / 256)).toNat = n := by
  simp only [byte1, BitVec.toNat_ofNat]
  omega

theorem toNat_byte1_three {n : Nat} (h : n < 16777216) :
    (byte1 n).toNat + 256 * (byte1 (n / 256)).toNat + 65536 * (byte1 (n / 65536)).toNat = n := by
  simp only [byte1, BitVec.toNat_ofNat]
  omega

theorem numAt_three {xs : List Byte} {i : Nat} (h : i + 2 < xs.length) :
    numAt xs i 3 =
      (xs.getD i 0).toNat + 256 * (xs.getD (i + 1) 0).toNat + 65536 * (xs.getD (i + 2) 0).toNat := by
  have hTail := numAt_two (xs := xs) (i := i + 1) h
  unfold numAt at hTail ⊢
  rw [List.drop_eq_getElem_cons (by omega), List.take_succ_cons, leNat, hTail, List.getD_eq_getElem xs 0 (n := i) (by omega),
    show i + 1 + 1 = i + 2 from rfl]
  omega

theorem sequencePlaces_eq (seq : List Byte) : sequencePlaces seq = (List.range 6).map fun k => seq.getD k 0 := by
  refine List.ext_getElem (by simp [sequencePlaces]) fun i hi _ => ?_
  have hSix : i < 6 := by simpa [sequencePlaces] using hi
  by_cases hIn : i < seq.length
  · simp [sequencePlaces, hIn]
  · simp [sequencePlaces, List.getElem_append, hIn, -List.reduceReplicate]

theorem sequencePlaces_length (seq : List Byte) : (sequencePlaces seq).length = 6 := by
  simp [sequencePlaces]

theorem take_sequencePlaces {seq : List Byte} (h : seq.length ≤ 6) (rest : List Byte) :
    (sequencePlaces seq ++ rest).take seq.length = seq := by
  rw [List.take_append_of_le_length (by simpa [sequencePlaces_length] using h), sequencePlaces, List.take_take,
    Nat.min_eq_left h, List.take_left]

theorem toList_five {α : Type} (v : Vector α 5) : v.toList = [v.get 0, v.get 1, v.get 2, v.get 3, v.get 4] := by
  rw [toList_eq_map_get]
  rfl

/-! ## The line record (R19, R182) -/

/-- The bytes after the two sequences of a record. -/
def LineRecord.tailBytes (r : LineRecord) : List Byte :=
  [byte1 r.idleGap, byte1 (r.idleGap / 256), byte1 r.defaultPriority.number, r.priorityLetters.get 0, r.priorityLetters.get 1,
    r.priorityLetters.get 2, r.priorityLetters.get 3, r.priorityLetters.get 4, byte1 r.distortionLimit, byte1 r.poorThreshold,
    byte1 r.goodThreshold, byte1 (boolNum r.markDoubtful), r.doubtfulSubstitute, byte1 r.openTime, byte1 (r.openTime / 256),
    byte1 (boolNum r.txUnshift), byte1 r.width, byte1 r.crCount, byte1 r.ltrsFill, byte1 r.refreshInterval,
    byte1 r.unrepPolicy.number, r.unrepSubstitute, byte1 r.flashBells, byte1 r.bulletinBells, byte1 r.separation,
    byte1 r.preempt.number, byte1 (boolNum r.motorControl), byte1 r.startDelay, byte1 (r.startDelay / 256), byte1 r.stopDelay,
    byte1 (r.stopDelay / 256), byte1 r.breakPolicy.number, byte1 r.breakGuard, byte1 (boolNum r.alarmOnOpen)]

theorem LineRecord.bytes_eq (r : LineRecord) :
    r.bytes =
      [byte1 r.mode.number, byte1 r.keying.number, byte1 r.unit, byte1 (r.unit / 256), byte1 (r.unit / 65536),
        byte1 r.stopLength, byte1 r.inputFilter.number, byte1 r.markThreshold, byte1 r.openThreshold, byte1 r.lowThreshold,
        byte1 r.slot.val, byte1 (boolNum r.rxUnshift), byte1 r.framing.number, byte1 r.opening.length] ++
      (sequencePlaces r.opening ++ (byte1 r.closing.length :: (sequencePlaces r.closing ++ r.tailBytes))) := by
  simp [LineRecord.bytes, LineRecord.tailBytes, leBytes_two, leBytes_three, toList_five]

theorem LineRecord.bytes_length (r : LineRecord) : r.bytes.length = 61 := by
  simp [LineRecord.bytes_eq, sequencePlaces_length, LineRecord.tailBytes]

/-- A record is what its bytes say, field by field (R182). -/
structure LineRecord.ReadFrom (xs : List Byte) (r : LineRecord) : Prop where
  mode : Mode.ofNumber (byteAt xs 0) = some r.mode
  keying : Keying.ofNumber (byteAt xs 1) = some r.keying
  inputFilter : FilterTime.ofNumber (byteAt xs 6) = some r.inputFilter
  rxUnshift : boolOf (byteAt xs 11) = some r.rxUnshift
  framing : Framing.ofNumber (byteAt xs 12) = some r.framing
  opening : sequenceAt xs 13 = some r.opening
  closing : sequenceAt xs 20 = some r.closing
  defaultPriority : Priority.ofNumber (byteAt xs 29) = some r.defaultPriority
  markDoubtful : boolOf (byteAt xs 38) = some r.markDoubtful
  txUnshift : boolOf (byteAt xs 42) = some r.txUnshift
  unrepPolicy : UnrepPolicy.ofNumber (byteAt xs 47) = some r.unrepPolicy
  preempt : PreemptThreshold.ofNumber (byteAt xs 52) = some r.preempt
  motorControl : boolOf (byteAt xs 53) = some r.motorControl
  breakPolicy : BreakPolicy.ofNumber (byteAt xs 58) = some r.breakPolicy
  alarmOnOpen : boolOf (byteAt xs 60) = some r.alarmOnOpen
  unit : r.unit = numAt xs 2 3
  stopLength : r.stopLength = byteAt xs 5
  markThreshold : r.markThreshold = byteAt xs 7
  openThreshold : r.openThreshold = byteAt xs 8
  lowThreshold : r.lowThreshold = byteAt xs 9
  slot : r.slot = clampSlot (byteAt xs 10)
  idleGap : r.idleGap = numAt xs 27 2
  priorityLetters : r.priorityLetters = #v[xs.getD 30 0, xs.getD 31 0, xs.getD 32 0, xs.getD 33 0, xs.getD 34 0]
  distortionLimit : r.distortionLimit = byteAt xs 35
  poorThreshold : r.poorThreshold = byteAt xs 36
  goodThreshold : r.goodThreshold = byteAt xs 37
  doubtfulSubstitute : r.doubtfulSubstitute = xs.getD 39 0
  openTime : r.openTime = numAt xs 40 2
  width : r.width = byteAt xs 43
  crCount : r.crCount = byteAt xs 44
  ltrsFill : r.ltrsFill = byteAt xs 45
  refreshInterval : r.refreshInterval = byteAt xs 46
  unrepSubstitute : r.unrepSubstitute = xs.getD 48 0
  flashBells : r.flashBells = byteAt xs 49
  bulletinBells : r.bulletinBells = byteAt xs 50
  separation : r.separation = byteAt xs 51
  startDelay : r.startDelay = numAt xs 54 2
  stopDelay : r.stopDelay = numAt xs 56 2
  breakGuard : r.breakGuard = byteAt xs 59

theorem readRecord_eq_some_iff (xs : List Byte) (r : LineRecord) : readRecord xs = some r ↔ r.ReadFrom xs := by
  constructor
  · intro h
    obtain ⟨mode, hMode, h⟩ := Option.bind_eq_some_iff.mp h
    obtain ⟨keying, hKeying, h⟩ := Option.bind_eq_some_iff.mp h
    obtain ⟨inputFilter, hFilter, h⟩ := Option.bind_eq_some_iff.mp h
    obtain ⟨rxUnshift, hRx, h⟩ := Option.bind_eq_some_iff.mp h
    obtain ⟨framing, hFraming, h⟩ := Option.bind_eq_some_iff.mp h
    obtain ⟨opening, hOpening, h⟩ := Option.bind_eq_some_iff.mp h
    obtain ⟨closing, hClosing, h⟩ := Option.bind_eq_some_iff.mp h
    obtain ⟨priority, hPriority, h⟩ := Option.bind_eq_some_iff.mp h
    obtain ⟨doubtful, hDoubtful, h⟩ := Option.bind_eq_some_iff.mp h
    obtain ⟨txUnshift, hTx, h⟩ := Option.bind_eq_some_iff.mp h
    obtain ⟨policy, hPolicy, h⟩ := Option.bind_eq_some_iff.mp h
    obtain ⟨preempt, hPreempt, h⟩ := Option.bind_eq_some_iff.mp h
    obtain ⟨motor, hMotor, h⟩ := Option.bind_eq_some_iff.mp h
    obtain ⟨breaks, hBreaks, h⟩ := Option.bind_eq_some_iff.mp h
    obtain ⟨alarm, hAlarm, h⟩ := Option.bind_eq_some_iff.mp h
    obtain rfl := Option.some.inj h
    exact ⟨hMode, hKeying, hFilter, hRx, hFraming, hOpening, hClosing, hPriority, hDoubtful, hTx, hPolicy, hPreempt, hMotor,
      hBreaks, hAlarm, rfl, rfl, rfl, rfl, rfl, rfl, rfl, rfl, rfl, rfl, rfl, rfl, rfl, rfl, rfl, rfl, rfl, rfl, rfl, rfl, rfl,
      rfl, rfl, rfl⟩
  · intro h
    simp only [readRecord, Option.bind_eq_bind, h.mode, h.keying, h.inputFilter, h.rxUnshift, h.framing, h.opening, h.closing,
      h.defaultPriority, h.markDoubtful, h.txUnshift, h.unrepPolicy, h.preempt, h.motorControl, h.breakPolicy, h.alarmOnOpen,
      Option.bind_some]
    rcases r with ⟨⟩
    rw [Option.some.injEq, LineRecord.mk.injEq]
    exact ⟨rfl, rfl, h.unit.symm, h.stopLength.symm, rfl, h.markThreshold.symm, h.openThreshold.symm, h.lowThreshold.symm,
      h.slot.symm, rfl, rfl, rfl, rfl, h.idleGap.symm, rfl, h.priorityLetters.symm, h.distortionLimit.symm,
      h.poorThreshold.symm, h.goodThreshold.symm, rfl, h.doubtfulSubstitute.symm, h.openTime.symm, rfl, h.width.symm,
      h.crCount.symm, h.ltrsFill.symm, h.refreshInterval.symm, rfl, h.unrepSubstitute.symm, h.flashBells.symm,
      h.bulletinBells.symm, h.separation.symm, rfl, rfl, h.startDelay.symm, h.stopDelay.symm, rfl, h.breakGuard.symm, rfl⟩

/-- Every field of a record fits in its bytes (R182). -/
structure LineRecord.Fits (r : LineRecord) : Prop where
  unit : r.unit < 16777216
  stopLength : r.stopLength < 256
  markThreshold : r.markThreshold < 256
  openThreshold : r.openThreshold < 256
  lowThreshold : r.lowThreshold < 256
  opening : r.opening.length ≠ 0 ∧ r.opening.length ≤ 6
  closing : r.closing.length ≠ 0 ∧ r.closing.length ≤ 6
  idleGap : r.idleGap < 65536
  distortionLimit : r.distortionLimit < 256
  poorThreshold : r.poorThreshold < 256
  goodThreshold : r.goodThreshold < 256
  openTime : r.openTime < 65536
  width : r.width < 256
  crCount : r.crCount < 256
  ltrsFill : r.ltrsFill < 256
  refreshInterval : r.refreshInterval < 256
  flashBells : r.flashBells < 256
  bulletinBells : r.bulletinBells < 256
  separation : r.separation < 256
  startDelay : r.startDelay < 65536
  stopDelay : r.stopDelay < 65536
  breakGuard : r.breakGuard < 256

/-- A sequence that is written is read again. -/
theorem sequenceAt_of_places {xs seq rest : List Byte} {i : Nat} (hLength : seq.length ≠ 0 ∧ seq.length ≤ 6)
    (hCount : byteAt xs i = seq.length) (hPlaces : xs.drop (i + 1) = sequencePlaces seq ++ rest) :
    sequenceAt xs i = some seq := by
  simp only [sequenceAt, hCount, hPlaces, take_sequencePlaces hLength.2]
  exact if_neg (by omega)

theorem Mode.ofNumber_byte1 (v : Mode) : Mode.ofNumber (byte1 v.number).toNat = some v := by cases v <;> rfl

theorem Keying.ofNumber_byte1 (v : Keying) : Keying.ofNumber (byte1 v.number).toNat = some v := by cases v <;> rfl

theorem FilterTime.ofNumber_byte1 (v : FilterTime) : FilterTime.ofNumber (byte1 v.number).toNat = some v := by cases v <;> rfl

theorem Framing.ofNumber_byte1 (v : Framing) : Framing.ofNumber (byte1 v.number).toNat = some v := by cases v <;> rfl

theorem Priority.ofNumber_byte1 (v : Priority) : Priority.ofNumber (byte1 v.number).toNat = some v := by cases v <;> rfl

theorem UnrepPolicy.ofNumber_byte1 (v : UnrepPolicy) : UnrepPolicy.ofNumber (byte1 v.number).toNat = some v := by cases v <;> rfl

theorem PreemptThreshold.ofNumber_byte1 (v : PreemptThreshold) : PreemptThreshold.ofNumber (byte1 v.number).toNat = some v := by cases v <;> rfl

theorem BreakPolicy.ofNumber_byte1 (v : BreakPolicy) : BreakPolicy.ofNumber (byte1 v.number).toNat = some v := by cases v <;> rfl

theorem boolOf_byte1 (v : Bool) : boolOf (byte1 (boolNum v)).toNat = some v := by cases v <;> rfl

theorem clampSlot_of_slot (k : Fin 4) : clampSlot (byte1 k.val).toNat = k := by
  rw [toNat_byte1 (by omega)]
  exact Fin.ext ((clampSlot_val k.val).trans (by omega))

/-- The bytes of a record with six places for each sequence. -/
theorem LineRecord.bytes_places (r : LineRecord) {o0 o1 o2 o3 o4 o5 c0 c1 c2 c3 c4 c5 : Byte}
    (hOpening : sequencePlaces r.opening = [o0, o1, o2, o3, o4, o5])
    (hClosing : sequencePlaces r.closing = [c0, c1, c2, c3, c4, c5]) :
    r.bytes =
      byte1 r.mode.number :: byte1 r.keying.number :: byte1 r.unit :: byte1 (r.unit / 256) :: byte1 (r.unit / 65536) ::
        byte1 r.stopLength :: byte1 r.inputFilter.number :: byte1 r.markThreshold :: byte1 r.openThreshold ::
        byte1 r.lowThreshold :: byte1 r.slot.val :: byte1 (boolNum r.rxUnshift) :: byte1 r.framing.number ::
        byte1 r.opening.length :: o0 :: o1 :: o2 :: o3 :: o4 :: o5 :: byte1 r.closing.length :: c0 :: c1 :: c2 :: c3 :: c4 ::
        c5 :: r.tailBytes := by
  rw [r.bytes_eq, hOpening, hClosing]
  rfl

theorem exists_sequencePlaces (seq : List Byte) :
    ∃ x0 x1 x2 x3 x4 x5, sequencePlaces seq = [x0, x1, x2, x3, x4, x5] :=
  ⟨_, _, _, _, _, _, sequencePlaces_eq seq⟩

/-- A record whose fields fit is read from its own bytes. -/
theorem LineRecord.readFrom_bytes {r : LineRecord} (h : r.Fits) : r.ReadFrom r.bytes := by
  obtain ⟨o0, o1, o2, o3, o4, o5, hOpening⟩ := exists_sequencePlaces r.opening
  obtain ⟨c0, c1, c2, c3, c4, c5, hClosing⟩ := exists_sequencePlaces r.closing
  have hLength : r.bytes.length = 61 := r.bytes_length
  have hOpeningRead : sequenceAt r.bytes 13 = some r.opening := by
    refine sequenceAt_of_places (rest := byte1 r.closing.length :: c0 :: c1 :: c2 :: c3 :: c4 :: c5 :: r.tailBytes) h.opening
      ?_ ?_ <;> rw [r.bytes_places hOpening hClosing]
    · exact toNat_byte1 (by have := h.opening; omega)
    · rw [hOpening]
      rfl
  have hClosingRead : sequenceAt r.bytes 20 = some r.closing := by
    refine sequenceAt_of_places (rest := r.tailBytes) h.closing ?_ ?_ <;> rw [r.bytes_places hOpening hClosing]
    · exact toNat_byte1 (by have := h.closing; omega)
    · rw [hClosing]
      rfl
  have hUnit : r.unit = numAt r.bytes 2 3 := by
    rw [numAt_three (by omega), r.bytes_places hOpening hClosing]
    exact (toNat_byte1_three h.unit).symm
  have hNumber {n i : Nat} (hi : i + 1 < 61) (hn : n < 65536) (hLow : r.bytes.getD i 0 = byte1 n)
      (hHigh : r.bytes.getD (i + 1) 0 = byte1 (n / 256)) : n = numAt r.bytes i 2 := by
    rw [numAt_two (by omega), hLow, hHigh, toNat_byte1_two hn]
  have hIdleGap : r.idleGap = numAt r.bytes 27 2 := by
    refine hNumber (by omega) h.idleGap ?_ ?_ <;> rw [r.bytes_places hOpening hClosing] <;> rfl
  have hOpenTime : r.openTime = numAt r.bytes 40 2 := by
    refine hNumber (by omega) h.openTime ?_ ?_ <;> rw [r.bytes_places hOpening hClosing] <;> rfl
  have hStartDelay : r.startDelay = numAt r.bytes 54 2 := by
    refine hNumber (by omega) h.startDelay ?_ ?_ <;> rw [r.bytes_places hOpening hClosing] <;> rfl
  have hStopDelay : r.stopDelay = numAt r.bytes 56 2 := by
    refine hNumber (by omega) h.stopDelay ?_ ?_ <;> rw [r.bytes_places hOpening hClosing] <;> rfl
  have hLetters : r.priorityLetters =
      #v[r.bytes.getD 30 0, r.bytes.getD 31 0, r.bytes.getD 32 0, r.bytes.getD 33 0, r.bytes.getD 34 0] := by
    rw [r.bytes_places hOpening hClosing]
    exact Vector.toList_inj.mp (toList_five r.priorityLetters)
  rw [r.bytes_places hOpening hClosing] at *
  exact
    { mode := Mode.ofNumber_byte1 r.mode
      keying := Keying.ofNumber_byte1 r.keying
      inputFilter := FilterTime.ofNumber_byte1 r.inputFilter
      rxUnshift := boolOf_byte1 r.rxUnshift
      framing := Framing.ofNumber_byte1 r.framing
      opening := hOpeningRead
      closing := hClosingRead
      defaultPriority := Priority.ofNumber_byte1 r.defaultPriority
      markDoubtful := boolOf_byte1 r.markDoubtful
      txUnshift := boolOf_byte1 r.txUnshift
      unrepPolicy := UnrepPolicy.ofNumber_byte1 r.unrepPolicy
      preempt := PreemptThreshold.ofNumber_byte1 r.preempt
      motorControl := boolOf_byte1 r.motorControl
      breakPolicy := BreakPolicy.ofNumber_byte1 r.breakPolicy
      alarmOnOpen := boolOf_byte1 r.alarmOnOpen
      unit := hUnit
      stopLength := (toNat_byte1 h.stopLength).symm
      markThreshold := (toNat_byte1 h.markThreshold).symm
      openThreshold := (toNat_byte1 h.openThreshold).symm
      lowThreshold := (toNat_byte1 h.lowThreshold).symm
      slot := (clampSlot_of_slot r.slot).symm
      idleGap := hIdleGap
      priorityLetters := hLetters
      distortionLimit := (toNat_byte1 h.distortionLimit).symm
      poorThreshold := (toNat_byte1 h.poorThreshold).symm
      goodThreshold := (toNat_byte1 h.goodThreshold).symm
      doubtfulSubstitute := rfl
      openTime := hOpenTime
      width := (toNat_byte1 h.width).symm
      crCount := (toNat_byte1 h.crCount).symm
      ltrsFill := (toNat_byte1 h.ltrsFill).symm
      refreshInterval := (toNat_byte1 h.refreshInterval).symm
      unrepSubstitute := rfl
      flashBells := (toNat_byte1 h.flashBells).symm
      bulletinBells := (toNat_byte1 h.bulletinBells).symm
      separation := (toNat_byte1 h.separation).symm
      startDelay := hStartDelay
      stopDelay := hStopDelay
      breakGuard := (toNat_byte1 h.breakGuard).symm }

/-- A clamped record fits in its bytes, its sequences being those of the record offered (R18). -/
theorem LineRecord.fits_clamped {r : LineRecord} (hOpening : r.opening.length ≠ 0 ∧ r.opening.length ≤ 6)
    (hClosing : r.closing.length ≠ 0 ∧ r.closing.length ≤ 6) : r.clamped.Fits := by
  obtain ⟨-, -, hRange⟩ := clampedRecordLiesInRange
  obtain ⟨⟨⟨-, hUnit⟩, ⟨-, hStop⟩, ⟨-, hMark⟩, ⟨-, hOpen⟩, ⟨-, -, hLow⟩, ⟨-, hGap⟩, ⟨-, hLimit⟩, ⟨-, hPoor⟩, ⟨-, hGood⟩,
    ⟨-, hTime⟩, ⟨-, hWidth⟩, ⟨-, hCr⟩, hFill, hRefresh, hFlash, hBulletin, hSeparation, ⟨hStart, -⟩, ⟨-, hStopDelay⟩,
    ⟨-, hGuard⟩⟩, -⟩ := hRange r
  exact ⟨by omega, by omega, by omega, by omega, by omega, hOpening, hClosing, by omega, by omega, by omega, by omega, by omega,
    by omega, by omega, by omega, by omega, by omega, by omega, by omega, by omega, by omega, by omega⟩

theorem sequenceAt_length {xs seq : List Byte} {i : Nat} (h : sequenceAt xs i = some seq) (hRoom : i + 6 < xs.length) :
    seq.length ≠ 0 ∧ seq.length ≤ 6 := by
  have hCount : ¬(byteAt xs i = 0 ∨ 6 < byteAt xs i) := fun hNone => by
    rw [(sequenceAt_none xs i).mpr hNone] at h
    cases h
  rw [sequenceAt_some h, List.length_take, List.length_drop]
  omega

/-- A taken record, written and read again, is itself (R19). -/
theorem readRecord_clamped_bytes {bytes : List Byte} {r : LineRecord} (hLength : bytes.length = 61)
    (hRead : readRecord bytes = some r) : readRecord r.clamped.bytes = some r.clamped := by
  have hFrom := (readRecord_eq_some_iff bytes r).mp hRead
  rw [readRecord_eq_some_iff]
  exact LineRecord.readFrom_bytes (LineRecord.fits_clamped (sequenceAt_length hFrom.opening (by omega))
    (sequenceAt_length hFrom.closing (by omega)))

end Sys2Proof.Machine
end

section
/-! SUPPORT. The other layouts of 10.7: working state, table, summary, notice and STATUS, and a table read back (R182 to R185). -/

namespace Sys2Proof.Machine

/-! ## Tables (R13, R16, R183) -/

theorem Table.bytes_eq (t : Table) :
    t.bytes =
      byte1 (boolNum t.fold) ::
        ((List.finRange 32).flatMap (fun k => (t.letters.get k).bytes) ++
          (List.finRange 32).flatMap fun k => (t.figures.get k).bytes) := by
  rw [Table.bytes, List.flatMap_append, toList_eq_map_get, toList_eq_map_get, List.flatMap_map, List.flatMap_map]

theorem Table.bytes_length (t : Table) : t.bytes.length = 129 := by
  simp [Table.bytes, Entry.bytes, List.length_flatMap]

theorem taken_taken (e : Entry) : e.taken.taken = e.taken := by
  rcases e with ⟨_ | _ | _ | _ | _ | _ | _ | _ | _, char⟩ <;> rfl

theorem Kind.ofNumber_byte1 (k : Kind) : Kind.ofNumber (byte1 k.number).toNat = some k := by cases k <;> rfl

/-- Entries that are written are read again. -/
theorem readEntries_bytes (es : List Entry) : readEntries es.length (es.flatMap Entry.bytes) = some es := by
  induction es with
  | nil => rfl
  | cons e es ih =>
    rw [List.length_cons, List.flatMap_cons, Entry.bytes, List.cons_append, List.singleton_append, readEntries_cons,
      Kind.ofNumber_byte1, Option.bind_some, ih]
    rfl

/-- Entries that are already as a slot takes them stay. -/
theorem entryVector_of_taken {v : Vector Entry 32} (h : ∀ j, (v.get j).taken = v.get j) : entryVector v.toList = v := by
  refine Vector.ext fun i hi => ?_
  have hGet := get_entryVector v.toList ⟨i, hi⟩
  rw [toList_eq_map_get, List.getD_eq_getElem _ _ (by simpa using hi), List.getElem_map, List.getElem_finRange] at hGet
  exact (Vector.get_eq_getElem ..).symm.trans (toList_eq_map_get v ▸ hGet.trans (h ⟨i, hi⟩))

theorem readTable_bytes {t : Table} (k : Byte)
    (hTaken : ∀ j, (t.letters.get j).taken = t.letters.get j ∧ (t.figures.get j).taken = t.figures.get j) :
    readTable (k :: t.bytes) = some t := by
  have hRead : readEntries 64 ((k :: t.bytes).drop 2) = some (t.letters.toList ++ t.figures.toList) := by
    have h := readEntries_bytes (t.letters.toList ++ t.figures.toList)
    rwa [List.length_append, Vector.length_toList, Vector.length_toList] at h
  have hFold : boolOf (byteAt (k :: t.bytes) 1) = some t.fold := boolOf_byte1 t.fold
  simp only [readTable, hFold, hRead, Option.bind_eq_bind, Option.bind_some]
  rw [List.take_left' (by simp), List.drop_left' (by simp), entryVector_of_taken fun j => (hTaken j).1,
    entryVector_of_taken fun j => (hTaken j).2]

/-- The entries of a table that was read are as a slot takes them. -/
theorem taken_of_readTable {bytes : List Byte} {t : Table} (h : readTable bytes = some t) (j : Code) :
    (t.letters.get j).taken = t.letters.get j ∧ (t.figures.get j).taken = t.figures.get j := by
  obtain ⟨fold, -, h⟩ := Option.bind_eq_some_iff.mp h
  obtain ⟨es, -, h⟩ := Option.bind_eq_some_iff.mp h
  obtain rfl := Option.some.inj h
  simp only [get_entryVector, taken_taken, and_self]

/-! ## Working state, summaries, STATUS (R182, R183, R185) -/

theorem handleBytes_length (h : Option Handle) : (handleBytes h).length = 2 := by
  cases h <;> rfl

theorem Line.workingBytes_length (x : Line) : x.workingBytes.length = 22 := by
  simp [Line.workingBytes, leBytes_four, handleBytes_length]

theorem freeRecords_eq (s : State) :
    s.store.freeRecords = ((List.finRange 256).filter fun i => (s.record i).story.isNone).length := by
  rw [Store.freeRecords, toList_eq_map_get, List.countP_map, List.countP_eq_length_filter]
  rfl

theorem loopOpenCause_eq (s : State) : s.loopOpenCause = (List.finRange 16).any fun l => (s.line l).givesLoopOpen := by
  rw [State.loopOpenCause, toList_eq_map_get, List.any_map]
  rfl

theorem statusBytes_eq (s : State) :
    s.statusBytes =
      [byte1 (boolNum s.room.unattended), byte1 s.store.freeCount, byte1 (s.store.freeCount / 256),
        byte1 s.store.freeRecords, byte1 (s.store.freeRecords / 256), byte1 s.room.clock.day, byte1 (s.room.clock.day / 256),
        byte1 s.room.clock.second, byte1 (s.room.clock.second / 256), byte1 (s.room.clock.second / 65536),
        byte1 (s.room.clock.second / 16777216), byte1 (boolNum s.room.clock.isSet),
        byte1 (boolNum s.room.unattended + 2 * boolNum s.store.exhausted + 4 * boolNum s.loopOpenCause)] ++
      ((List.finRange 16).flatMap fun l => (s.line l).statusBytes) ++
      [byte1 (s.portA.silence.number + 4 * s.portB.silence.number)] := by
  rw [State.statusBytes, leBytes_four, toList_eq_map_get, List.flatMap_map]
  rfl

theorem statusBytes_length (s : State) : s.statusBytes.length = 46 := by
  simp [statusBytes_eq, Line.statusBytes, List.length_flatMap]

/-- Settles O49. -/
theorem layoutsReadBack : Obligations.LayoutsReadBack := by
  unfold Obligations.LayoutsReadBack
  intro b yes handle
  have hHandle (h : Option Handle) : handleBytes h = handle h := by cases h <;> rfl
  refine ⟨⟨rfl, rfl, rfl, rfl, rfl, rfl, rfl, rfl, rfl, rfl, fun c => rfl, rfl, rfl, fun h d => ⟨rfl, rfl⟩, rfl, rfl, rfl, rfl,
    rfl, rfl, rfl, rfl, rfl, rfl, fun l => rfl, rfl, rfl⟩, fun r => ?_, fun x => ⟨?_, x.workingBytes_length⟩, fun t => t.bytes_eq,
    fun h st => ?_, fun l h q t u n o c d side p => ?_, fun s => ⟨?_, statusBytes_length s⟩,
    fun bytes offered hLength hRead => ⟨LineRecord.bytes_length _, readRecord_clamped_bytes hLength hRead⟩,
    fun bytes t k hRead => ⟨t.bytes_length, readTable_bytes k (taken_of_readTable hRead)⟩⟩
  · rw [r.bytes_eq, sequencePlaces_eq, sequencePlaces_eq]
    rfl
  · rw [Line.workingBytes, leBytes_four, hHandle, hHandle]
    rfl
  · rcases st with ⟨state, origin, priority, truncated, unterminated, length, chain, doubtful, opened, closed, holder, interest, pending⟩
    rw [summaryBytes, leBytes_three]
    rcases holder with _ | _ | _ <;> rfl
  · exact ⟨rfl, rfl, rfl, rfl, rfl, fun v => rfl, fun v => rfl, fun v => rfl, fun v => rfl, rfl, rfl, by cases p <;> rfl, rfl, rfl⟩
  · have hLine (x : Line) : x.statusBytes =
        [b (x.record.mode.number + 4 * x.rx.state.number + 32 * x.send.state.number),
          b (x.rxLoop.loop.number + 4 * x.txLoop.loop.number + 16 * x.rx.qualityState.number + 32 * yes x.send.deskHold +
            64 * yes x.send.breakIn)] := by
      rw [Line.statusBytes, SendSide.causes, Nat.mul_add, ← Nat.mul_assoc, ← Nat.add_assoc]
      rfl
    simp only [hLine, statusBytes_eq, freeRecords_eq, loopOpenCause_eq]
    rfl

end Sys2Proof.Machine
end

section
/-! SUPPORT. What every command answers: DONE, or a refusal with nothing changed; and the bytes of a response (R172, R173). -/

namespace Sys2Proof.Machine

/-! ## What a command answers (R173, R181) -/

/-- A reply of a command that names one: done with a payload that fits in LENGTH, or refused with nothing changed. -/
def Reply.Answers (s : State) (r : Reply) : Prop :=
  (r.status = .done ∧ r.payload.length ≤ 250) ∨ ∃ st, st ≠ .done ∧ st ≠ .unknownCommand ∧ r = s.refuse st

section
variable {s t : State} {p : Port} {xs : List Byte}

theorem answers_refuse {st : Status} (hst : st ≠ .done ∧ st ≠ .unknownCommand := by decide) : (s.refuse st).Answers s :=
  .inr ⟨st, hst.1, hst.2, rfl⟩

theorem answers_done (h : xs.length ≤ 250) : (t.done xs).Answers s := .inl ⟨rfl, h⟩

theorem answers_ite {c : Prop} [Decidable c] {st : Status} {r : Reply} (hr : r.Answers s)
    (hst : st ≠ .done ∧ st ≠ .unknownCommand := by decide) : (if c then s.refuse st else r).Answers s := by
  split
  · exact answers_refuse hst
  · exact hr

theorem leBytes_length (count n : Nat) : (leBytes count n).length = count := by
  induction count generalizing n with
  | zero => rfl
  | succ count ih => rw [leBytes, List.length_cons, ih]

theorem statusCommand_answers : (statusCommand xs s).Answers s :=
  answers_ite (answers_done (by simp [statusBytes_length]))

theorem setClockCommand_answers : (setClockCommand xs s).Answers s :=
  answers_ite (answers_ite (answers_done (by simp)))

theorem setPortCommand_answers : (setPortCommand p xs s).Answers s :=
  answers_ite (answers_done (by simp [leBytes_length]))

theorem setStoreLimitsCommand_answers : (setStoreLimitsCommand xs s).Answers s :=
  answers_ite (answers_done (by simp [leBytes_length]))

theorem RoomOptions.bytes_length (o : RoomOptions) : o.bytes.length = 11 := by
  simp [RoomOptions.bytes, leBytes_length]

theorem setRoomOptionsCommand_answers : (setRoomOptionsCommand xs s).Answers s := by
  refine answers_ite ?_
  cases readRoomOptions xs with
  | none => exact answers_refuse
  | some o => exact answers_done (by simp [o.bytes_length])

theorem resumeCommand_answers : (resumeCommand xs s).Answers s := by
  refine answers_ite ?_
  split <;> exact answers_done (by simp)

theorem fetchNoticesCommand_answers : (fetchNoticesCommand p xs s).Answers s := by
  refine answers_ite (answers_done ?_)
  have hCount : clampTo 1 16 (byteAt xs 0) ≤ 16 := (clampTo_mem (by decide) _).2
  simp only [List.length_append, List.length_cons, List.length_nil, List.length_flatMap, Notice.length_bytes, List.map_const',
    List.sum_replicate, List.length_take, smul_eq_mul]
  omega

theorem configureLineCommand_answers : (configureLineCommand xs s).Answers s := by
  refine answers_ite ?_
  cases lineOf (byteAt xs 0) with
  | none => exact answers_refuse
  | some l =>
    cases readRecord (xs.drop 1) with
    | none => exact answers_refuse
    | some r => exact answers_done (by simp [LineRecord.bytes_length])

theorem readLineCommand_answers : (readLineCommand xs s).Answers s := by
  refine answers_ite ?_
  cases lineOf (byteAt xs 0) with
  | none => exact answers_refuse
  | some l => exact answers_done (by simp [LineRecord.bytes_length, Line.workingBytes_length])

theorem lineControlCommand_answers : (lineControlCommand xs s).Answers s := by
  refine answers_ite ?_
  cases lineOf (byteAt xs 0) with
  | none => exact answers_refuse
  | some l =>
    refine answers_ite ?_
    split
    · exact answers_ite (answers_done (by simp))
    · refine answers_ite ?_
      split <;> exact answers_done (by simp)

theorem loadTableCommand_answers : (loadTableCommand xs s).Answers s := by
  refine answers_ite ?_
  cases slotOf (byteAt xs 0) with
  | none => exact answers_refuse
  | some k =>
    refine answers_ite ?_
    cases readTable xs with
    | none => exact answers_refuse
    | some t => exact answers_ite (answers_ite (answers_done (by simp)))

theorem readTableCommand_answers : (readTableCommand xs s).Answers s := by
  refine answers_ite ?_
  cases slotOf (byteAt xs 0) with
  | none => exact answers_refuse
  | some k => exact answers_done (by simp [Table.bytes_length])

theorem summaryBytes_length (h : Handle) (st : Story) : (summaryBytes h st).length = 16 := by
  simp [summaryBytes, Handle.bytes, leBytes_length]

theorem listStoriesCommand_answers : (listStoriesCommand xs s).Answers s := by
  refine answers_ite (answers_ite (answers_done ?_))
  simp only [List.length_append, List.length_cons, List.length_nil, List.length_flatMap, summaryBytes_length, List.map_const',
    List.sum_replicate, List.length_take, smul_eq_mul]
  omega

theorem readStoryCommand_answers : (readStoryCommand xs s).Answers s := by
  refine answers_ite ?_
  cases s.namedStory xs with
  | none => exact answers_refuse
  | some named =>
    refine answers_ite (answers_done ?_)
    simp only [List.length_append, List.length_cons, List.length_nil, leBytes_length, charsFrom_eq_map, List.length_map,
      List.length_range]
    omega

theorem openStoryCommand_answers : (openStoryCommand p xs s).Answers s := by
  refine answers_ite ?_
  cases Priority.ofNumber (byteAt xs 0) with
  | none => exact answers_refuse
  | some priority =>
    cases s.store.lowestFree with
    | none => exact answers_refuse
    | some i => exact answers_done (by simp [Handle.bytes])

theorem appendTextCommand_answers : (appendTextCommand p xs s).Answers s := by
  refine answers_ite ?_
  cases s.namedStory xs with
  | none => exact answers_refuse
  | some named =>
    exact answers_ite <| answers_ite <| answers_ite <| answers_ite <|
      answers_done (by simp [leBytes_length])

theorem resultBytes_length (rs : List (LineNo × LineResult)) : (resultBytes rs).length = 2 * rs.length := by
  simp [resultBytes, List.length_flatMap, Nat.mul_comm]

theorem linesOf_length (ls : LineSet) : (linesOf ls).length ≤ 16 := by
  rw [linesOf_eq]
  exact (List.length_filter_le ..).trans_eq List.length_finRange

theorem tryLines_length (h : Handle) (q : Priority) (w : Submitter) (ls : List LineNo) (s : State) :
    (s.tryLines h q w ls).1.length = ls.length := by
  induction ls generalizing s with
  | nil => rfl
  | cons l ls ih => exact congrArg (· + 1) (ih _)

theorem withdrawLines_length (h : Handle) (ls : List LineNo) (s : State) : (s.withdrawLines h ls).1.length = ls.length := by
  induction ls generalizing s with
  | nil => rfl
  | cons l ls ih => exact congrArg (· + 1) (ih _)

theorem submitStoryCommand_answers : (submitStoryCommand p xs s).Answers s := by
  refine answers_ite ?_
  cases s.namedStory xs with
  | none => exact answers_refuse
  | some named =>
    refine answers_ite (answers_ite (answers_done ?_))
    have hLines := linesOf_length (lineSetAt xs 2)
    rw [resultBytes_length, tryLines_length]
    omega

theorem withdrawStoryCommand_answers : (withdrawStoryCommand xs s).Answers s := by
  refine answers_ite ?_
  cases s.namedStory xs with
  | none => exact answers_refuse
  | some named =>
    refine answers_done ?_
    have hLines := linesOf_length (lineSetAt xs 2)
    rw [resultBytes_length, withdrawLines_length]
    omega

theorem retainStoryCommand_answers : (retainStoryCommand p xs s).Answers s := by
  refine answers_ite ?_
  cases s.namedStory xs with
  | none => exact answers_refuse
  | some named => exact answers_done (by simp)

theorem releaseStoryCommand_answers : (releaseStoryCommand p xs s).Answers s := by
  refine answers_ite ?_
  cases s.namedStory xs with
  | none => exact answers_refuse
  | some named =>
    refine answers_ite ?_
    split <;> exact answers_done (by simp)

theorem discardStoryCommand_answers : (discardStoryCommand p xs s).Answers s := by
  refine answers_ite ?_
  cases s.namedStory xs with
  | none => exact answers_refuse
  | some named => exact answers_ite (answers_ite (answers_done (by simp)))

end

/-! ## The commands a byte names (R173) -/

theorem runCommand_of_unknown {p : Port} {g : GoodFrame} (s : State) (h : g.code ∉ commandCodes) :
    runCommand p g s = s.refuse .unknownCommand := by
  have hNumber : g.code.toNat ∉ commandCodes.map BitVec.toNat := fun hMem => by
    obtain ⟨c, hc, hEq⟩ := List.mem_map.mp hMem
    exact h (BitVec.eq_of_toNat_eq hEq ▸ hc)
  unfold runCommand
  split
  case h_22 => rfl
  all_goals
    rename_i hCode
    rw [hCode] at hNumber
    exact absurd (by decide) hNumber

/-- A byte of the table names its command, which answers. -/
theorem runCommand_answers (s : State) (p : Port) {g : GoodFrame} (h : g.code ∈ commandCodes) :
    (runCommand p g s).Answers s := by
  obtain ⟨code, f⟩ := g
  simp only [commandCodes, List.mem_cons, List.not_mem_nil, or_false] at h
  rcases h with rfl | rfl | rfl | rfl | rfl | rfl | rfl | rfl | rfl | rfl | rfl | rfl | rfl | rfl | rfl | rfl | rfl | rfl |
    rfl | rfl | rfl
  exacts [statusCommand_answers, setClockCommand_answers, setPortCommand_answers, setStoreLimitsCommand_answers,
    setRoomOptionsCommand_answers, resumeCommand_answers, fetchNoticesCommand_answers, configureLineCommand_answers,
    readLineCommand_answers, lineControlCommand_answers, loadTableCommand_answers, readTableCommand_answers,
    listStoriesCommand_answers, readStoryCommand_answers, openStoryCommand_answers, appendTextCommand_answers,
    submitStoryCommand_answers, withdrawStoryCommand_answers, retainStoryCommand_answers, releaseStoryCommand_answers,
    discardStoryCommand_answers]

section
variable {s : State} {xs : List Byte}

theorem configureLineCommand_badLength (h : xs.length ≠ 62) : configureLineCommand xs s = s.refuse .badLength := if_pos h

theorem lineControlCommand_badLength (h : xs.length ≠ 2) : lineControlCommand xs s = s.refuse .badLength := if_pos h

/-- A payload whose first two bytes are no current handle names no story (R92). -/
theorem namedStory_of_stale
    (h : ∀ h : Handle, byteAt xs 0 = h.index.val → byteAt xs 1 = h.generation.val → s.storyOf h = none) :
    s.namedStory xs = none := by
  have hIndex : byteAt xs 0 < 256 := (xs.getD 0 0).isLt
  unfold State.namedStory
  by_cases hGeneration : byteAt xs 1 < 16
  · simp only [handleAtByte, if_pos hGeneration]
    rw [h _ (Nat.mod_eq_of_lt hIndex).symm (Nat.mod_eq_of_lt hGeneration).symm]
  · simp only [handleAtByte, if_neg hGeneration]

theorem readStoryCommand_of_none (hLength : xs.length = 5) (hNone : s.namedStory xs = none) :
    readStoryCommand xs s = s.refuse .stale := by
  rw [readStoryCommand, if_neg (not_not.mpr hLength), hNone]

theorem appendTextCommand_of_none {p : Port} (hLow : 3 ≤ xs.length) (hHigh : xs.length ≤ 242)
    (hNone : s.namedStory xs = none) : appendTextCommand p xs s = s.refuse .stale := by
  rw [appendTextCommand, if_neg (by omega), hNone]

end

/-! ## The bytes of a response (R172) -/

theorem byteSum_append_check (body : List Byte) : byteSum (body ++ [0 - byteSum body]) = 0 := by
  simp only [byteSum, List.foldl_append, List.foldl_cons, List.foldl_nil]
  exact add_sub_cancel ..

/-- Settles O41. -/
theorem commandTestsAndRefusals : Obligations.CommandTestsAndRefusals := by
  refine ⟨fun s p f => ⟨fun code hCode => runCommand_of_unknown s hCode,
    fun code hCode hp => exec_of_ready rfl hp (runCommand_of_unknown s hCode), fun code low high hRow hLength => ?_,
    fun code low high hRow hLow hHigh hStale => ?_⟩, fun s p g => ?_, rfl, fun code st payload => ?_⟩
  · simp only [List.mem_cons, List.not_mem_nil, or_false, Prod.mk.injEq] at hRow
    rcases hRow with ⟨rfl, rfl, rfl⟩ | ⟨rfl, rfl, rfl⟩ | ⟨rfl, rfl, rfl⟩ | ⟨rfl, rfl, rfl⟩ | ⟨rfl, rfl, rfl⟩ | ⟨rfl, rfl, rfl⟩ |
      ⟨rfl, rfl, rfl⟩ | ⟨rfl, rfl, rfl⟩ | ⟨rfl, rfl, rfl⟩ | ⟨rfl, rfl, rfl⟩ | ⟨rfl, rfl, rfl⟩ | ⟨rfl, rfl, rfl⟩ |
      ⟨rfl, rfl, rfl⟩ | ⟨rfl, rfl, rfl⟩ | ⟨rfl, rfl, rfl⟩ | ⟨rfl, rfl, rfl⟩ | ⟨rfl, rfl, rfl⟩ | ⟨rfl, rfl, rfl⟩ |
      ⟨rfl, rfl, rfl⟩ | ⟨rfl, rfl, rfl⟩ | ⟨rfl, rfl, rfl⟩
    exacts [statusCommand_badLength (lt_or_lt_iff_ne.mp hLength), setClockCommand_badLength (lt_or_lt_iff_ne.mp hLength),
      setPortCommand_badLength (lt_or_lt_iff_ne.mp hLength), setStoreLimitsCommand_badLength (lt_or_lt_iff_ne.mp hLength),
      setRoomOptionsCommand_badLength (lt_or_lt_iff_ne.mp hLength), resumeCommand_badLength (lt_or_lt_iff_ne.mp hLength),
      fetchNoticesCommand_badLength (lt_or_lt_iff_ne.mp hLength), configureLineCommand_badLength (lt_or_lt_iff_ne.mp hLength),
      readLineCommand_badLength (lt_or_lt_iff_ne.mp hLength), lineControlCommand_badLength (lt_or_lt_iff_ne.mp hLength),
      loadTableCommand_badLength (lt_or_lt_iff_ne.mp hLength), readTableCommand_badLength (lt_or_lt_iff_ne.mp hLength),
      listStoriesCommand_badLength (lt_or_lt_iff_ne.mp hLength), readStoryCommand_badLength (lt_or_lt_iff_ne.mp hLength),
      openStoryCommand_badLength (lt_or_lt_iff_ne.mp hLength), appendTextCommand_badLength hLength,
      submitStoryCommand_badLength (lt_or_lt_iff_ne.mp hLength), withdrawStoryCommand_badLength (lt_or_lt_iff_ne.mp hLength),
      retainStoryCommand_badLength (lt_or_lt_iff_ne.mp hLength), releaseStoryCommand_badLength (lt_or_lt_iff_ne.mp hLength),
      discardStoryCommand_badLength (lt_or_lt_iff_ne.mp hLength)]
  · have hNone : s.namedStory f.payload = none := namedStory_of_stale hStale
    simp only [List.mem_cons, List.not_mem_nil, or_false, Prod.mk.injEq] at hRow
    rcases hRow with ⟨rfl, rfl, rfl⟩ | ⟨rfl, rfl, rfl⟩ | ⟨rfl, rfl, rfl⟩ | ⟨rfl, rfl, rfl⟩ | ⟨rfl, rfl, rfl⟩ | ⟨rfl, rfl, rfl⟩ |
      ⟨rfl, rfl, rfl⟩
    exacts [readStoryCommand_of_none (le_antisymm hHigh hLow) hNone, appendTextCommand_of_none hLow hHigh hNone,
      submitStoryCommand_stale (le_antisymm hHigh hLow) hNone, withdrawStoryCommand_stale (le_antisymm hHigh hLow) hNone,
      retainStoryCommand_stale (le_antisymm hHigh hLow) hNone, releaseStoryCommand_stale (le_antisymm hHigh hLow) hNone,
      discardStoryCommand_stale (le_antisymm hHigh hLow) hNone]
  · by_cases hCode : g.code ∈ commandCodes
    · rcases runCommand_answers s p hCode with ⟨hDone, hFits⟩ | ⟨st, hRefused, hKnown, hEq⟩
      · exact ⟨fun h => absurd hDone h, ⟨fun h => (by rw [hDone] at h; cases h), fun h => absurd hCode h⟩, hFits⟩
      · rw [hEq]
        exact ⟨fun _ => ⟨rfl, rfl⟩, ⟨fun h => absurd h hKnown, fun h => absurd hCode h⟩, Nat.zero_le _⟩
    · rw [runCommand_of_unknown s hCode]
      exact ⟨fun _ => ⟨rfl, rfl⟩, ⟨fun _ => hCode, fun _ => rfl⟩, Nat.zero_le _⟩
  · exact ⟨_, rfl, byteSum_append_check _⟩

end Sys2Proof.Machine
end

section
/-! SUPPORT. The line reset: its steps as the rules name them, and the whole line it leaves (R30, R40, R43, R63, R85, R130, R166). -/

namespace Sys2Proof.Machine

/-! ## Room and lines through a freeing -/

section
variable (s : State)

@[simp] theorem postBoth_room (n : Notice) : (s.postBoth n).room = s.room := by simp [State.postBoth]

@[simp] theorem postLine_room (l : LineNo) (side : Side) (r : LineReport) : (s.postLine l side r).room = s.room := postBoth_room ..

@[simp] theorem postSubmitter_room (w : Submitter) (n : Notice) : (s.postSubmitter w n).room = s.room := by
  cases w with
  | port p => exact post_room ..
  | room => exact postBoth_room ..

@[simp] theorem judgePool_room : s.judgePool.room = s.room := by
  unfold State.judgePool
  split
  · exact postBoth_room ..
  · split
    · exact postBoth_room ..
    · rfl

@[simp] theorem judgeExhausted_room : s.judgeExhausted.room = s.room := by
  unfold State.judgeExhausted
  split <;> rfl

@[simp] theorem freeingTest_room (i : Fin 256) : (s.freeingTest i).room = s.room := by
  unfold State.freeingTest
  split
  · rfl
  · split
    · unfold State.freeStory
      split <;> simp
    · rfl

@[simp] theorem departs_room (l : LineNo) (d : DistEntry) (o : DistOutcome) : (s.departs l d o).room = s.room := by
  simp [State.departs, State.leavePending]

theorem abandonEntries_room (l : LineNo) (es : List DistEntry) : (s.abandonEntries l es).room = s.room := by
  induction es generalizing s with
  | nil => rfl
  | cons e es ih => exact (ih _).trans (departs_room ..)

end

/-- A change of a line makes the same lines of the same lines. -/
theorem modLine_lines_congr {s t : State} {l : LineNo} {f : Line → Line} (h : t.lines = s.lines) :
    (t.modLine l f).lines = (s.modLine l f).lines := by
  simp only [State.modLine, line_of_lines h, h]

theorem resetAssembler_of_no_story {s : State} {l : LineNo}
    (h : (s.line l).asm.state = .between ∨ (s.line l).asm.state = .skipping) :
    s.resetAssembler l = s.modAsm l fun _ => freshAssembler := by
  rcases h with h | h <;> simp only [State.resetAssembler, h]

theorem resetAssembler_of_story {s : State} {l : LineNo} {h : Handle} {decided : Bool}
    (hState : (s.line l).asm.state = .inStory h decided) :
    s.resetAssembler l = (s.closeCommitting l true false).modAsm l fun _ => freshAssembler := by
  simp only [State.resetAssembler, hState]

theorem voidConversion_lines (s : State) (l : LineNo) (hit : Side → Bool) : (s.voidConversion l hit).lines = s.lines := by
  unfold State.voidConversion
  split
  · rfl
  · split <;> rfl

theorem voidConversion_room (s : State) (l : LineNo) (hit : Side → Bool) : (s.voidConversion l hit).room = s.room := by
  unfold State.voidConversion
  split
  · rfl
  · split <;> rfl

theorem wakeConverter_eq (s : State) :
    s.wakeConverter = if s.converter.conversion = none then s.searchConverter else s := by
  unfold State.wakeConverter
  cases s.converter.conversion <;> rfl

theorem searchConverter_lines (s : State) : s.searchConverter.lines = s.lines := by
  unfold State.searchConverter
  split <;> rfl

theorem searchConverter_room (s : State) : s.searchConverter.room = s.room := by
  unfold State.searchConverter
  split <;> rfl

/-- One line is made anew; room, tables, time and every other line stay. -/
structure OnlyLine (l : LineNo) (x : Line) (s t : State) : Prop where
  here : t.line l = x
  others : ∀ k, k ≠ l → t.line k = s.line k
  room : t.room = s.room
  tables : t.tables = s.tables
  tick : t.tick = s.tick

namespace OnlyLine

section
variable {l : LineNo} {x y : Line} {s t u : State}

theorem trans (h : OnlyLine l x s t) (g : OnlyLine l y t u) : OnlyLine l y s u :=
  ⟨g.here, fun k hk => (g.others k hk).trans (h.others k hk), g.room.trans h.room, g.tables.trans h.tables,
    g.tick.trans h.tick⟩

/-- A change of the line, whatever is posted or stored besides. -/
theorem of_lines {f : Line → Line} (hKept : Kept s t) (hLines : t.lines = (s.modLine l f).lines) (hRoom : t.room = s.room) :
    OnlyLine l (f (s.line l)) s t :=
  ⟨(line_of_lines hLines l).trans (line_modLine_same ..), fun k hk => (line_of_lines hLines k).trans (line_modLine_ne s l k f hk),
    hRoom, hKept.tables, hKept.tick⟩

end

section
variable (s : State) (l : LineNo)

theorem clearSending (state : SendState) :
    OnlyLine l { s.line l with dist := freshDistribution, enc := freshEncoder, send := stoppedSendSide state } s
      (s.clearSending l state) := by
  have hStopped : (s.stopSendSide l state).lines = (s.modSend l fun _ => stoppedSendSide state).lines := by
    unfold State.stopSendSide
    dsimp only
    split <;> simp
  have hStoppedRoom : (s.stopSendSide l state).room = s.room := by
    unfold State.stopSendSide
    dsimp only
    split <;> simp
  have hAbandoned : ((s.stopSendSide l state).abandonLine l).lines =
      ((s.stopSendSide l state).modLine l fun x => { x.dropCurrent with dist := freshDistribution }).lines :=
    State.StoriesOk.abandonEntries_lines ..
  refine of_lines (f := fun x => { x with dist := freshDistribution, enc := freshEncoder, send := stoppedSendSide state })
    (Kept.clearSending s l state) ?_ ?_
  · refine (modLine_lines_congr hAbandoned).trans ((modLine_lines_congr (modLine_lines_congr hStopped)).trans ?_)
    rw [State.modSend, modLine_modLine, modLine_modLine]
    rfl
  · exact (abandonEntries_room ..).trans hStoppedRoom

theorem resetReceiver :
    OnlyLine l { s.line l with filter := some (s.line l).freshFilter, rx := (s.line l).startedReceiver s.tick } s
      (s.resetReceiver l) := by
  refine of_lines (f := fun x => { x with filter := some x.freshFilter, rx := x.startedReceiver s.tick })
    (Kept.resetReceiver s l) ?_ ?_ <;> unfold State.resetReceiver State.postReceiverReset <;> dsimp only <;> split <;> split <;>
    simp

theorem resetAssembler (h : (s.line l).asm.state = .between ∨ (s.line l).asm.state = .skipping) :
    OnlyLine l { s.line l with asm := freshAssembler } s (s.resetAssembler l) := by
  rw [resetAssembler_of_no_story h]
  exact of_lines (f := fun x => { x with asm := freshAssembler }) (Works.modAsm ..).kept rfl rfl

theorem resetChannel (side : Side) :
    OnlyLine l ((s.line l).setChannel side unmeasuredChannel) s (s.resetChannel l side) := by
  refine of_lines (f := fun x => x.setChannel side unmeasuredChannel) (Kept.resetChannel s l side) ?_ ?_
  · refine Eq.trans ?_ (modLine_lines_congr (voidConversion_lines s l fun x => decide (x = side)))
    unfold State.resetChannel State.unmeasure
    dsimp only
    split
    · rfl
    · exact postLine_lines ..
  · refine Eq.trans ?_ (voidConversion_room s l fun x => decide (x = side))
    unfold State.resetChannel State.unmeasure
    dsimp only
    split
    · rfl
    · exact postLine_room ..

theorem wakeConverter : OnlyLine l (s.line l) s s.wakeConverter := by
  have hLines : s.wakeConverter.lines = s.lines := by
    rw [wakeConverter_eq]
    split
    · exact searchConverter_lines s
    · rfl
  refine ⟨line_of_lines hLines l, fun k _ => line_of_lines hLines k, ?_, (Kept.wakeConverter s).tables,
    (Kept.wakeConverter s).tick⟩
  rw [wakeConverter_eq]
  split
  · exact searchConverter_room s
  · rfl

end

end OnlyLine

/-! ## The six steps (R30) -/

theorem inAbandonOrder_eq (d : Distribution) :
    d.inAbandonOrder = (d.current.map fun u => u.entry).toList ++ d.stack ++ d.queue := by
  cases h : d.current <;> simp only [Distribution.inAbandonOrder, h] <;> rfl

theorem abandonEntries_eq_foldl (s : State) (l : LineNo) (es : List DistEntry) :
    s.abandonEntries l es = es.foldl (fun t e => t.departs l e .abandoned) s := by
  induction es generalizing s with
  | nil => rfl
  | cons e es ih => exact ih _

theorem stopSendSide_dist (s : State) (l : LineNo) (state : SendState) :
    ((s.stopSendSide l state).line l).dist = (s.line l).dist := by
  unfold State.stopSendSide
  dsimp only
  split
  · rw [line_of_lines (postLine_lines ..), line_modSend_same]
  · rw [line_modSend_same]

theorem clearSending_eq (s : State) (l : LineNo) (state : SendState) :
    s.clearSending l state =
      ((((s.line l).dist.current.map fun u => u.entry).toList ++ (s.line l).dist.stack ++ (s.line l).dist.queue).foldl
        (fun t e => t.departs l e .abandoned)
        ((s.stopSendSide l state).modLine l fun x => { x.dropCurrent with dist := freshDistribution })).modEnc l
        fun _ => freshEncoder := by
  rw [State.clearSending, State.abandonLine, abandonEntries_eq_foldl, stopSendSide_dist, inAbandonOrder_eq]

/-- The channel of a side of a line (R32). -/
def channelOf (l : LineNo) : Side → ChannelNo
  | .receive => Fin.ofNat 32 l.val
  | .send => Fin.ofNat 32 (16 + l.val)

theorem channelOf_iff (c : ChannelNo) (l : LineNo) (side : Side) :
    (channelLine c = l ∧ channelSide c = side) ↔ c = channelOf l side := by
  have hc := c.isLt
  have hl := l.isLt
  by_cases h : c.val < 16
  · rw [channelSide_receive h]
    cases side <;> simp only [channelLine, channelOf, Fin.ext_iff, Fin.val_ofNat, reduceCtorEq, and_true, and_false, false_iff] <;> omega
  · rw [channelSide_send (Nat.not_lt.mp h)]
    cases side <;> simp only [channelLine, channelOf, Fin.ext_iff, Fin.val_ofNat, reduceCtorEq, and_true, and_false, false_iff] <;> omega

/-- A conversion in progress on a channel is void (R40). -/
def State.voided (s : State) (channel : ChannelNo) : State :=
  match s.converter.conversion with
  | none => s
  | some c =>
    if c.channel = channel then { s with converter := { s.converter with conversion := some { c with void := true } } } else s

theorem voidConversion_eq (s : State) (l : LineNo) (side : Side) :
    (s.voidConversion l fun x => decide (x = side)) = s.voided (channelOf l side) := by
  cases h : s.converter.conversion with
  | none => simp only [State.voidConversion, State.voided, h]
  | some c => simp only [State.voidConversion, State.voided, h, decide_eq_true_eq, channelOf_iff]

section
variable {s : State} {l : LineNo}

theorem resetLine_outbound (h : (s.line l).record.mode = .outbound) :
    s.resetLine l = ((s.clearSending l (s.line l).record.restState).resetChannel l .send).wakeConverter := by
  simp [State.resetLine, h, Mode.hasSend, Mode.hasReceive]

theorem resetLine_inbound (h : (s.line l).record.mode = .inbound) :
    s.resetLine l = (((s.resetReceiver l).resetAssembler l).resetChannel l .receive).wakeConverter := by
  simp [State.resetLine, h, Mode.hasSend, Mode.hasReceive]

theorem resetLine_both (h : (s.line l).record.mode = .both) :
    s.resetLine l =
      (((((s.clearSending l (s.line l).record.restState).resetReceiver l).resetAssembler l).resetChannel l .receive).resetChannel
        l .send).wakeConverter := by
  simp [State.resetLine, h, Mode.hasSend, Mode.hasReceive]

end

theorem lineControlCommand_badAction {n a : Byte} (s : State) (h : 15 < n.toNat ∨ 2 < a.toNat) :
    lineControlCommand [n, a] s = s.refuse .badValue := by
  by_cases hLine : 15 < n.toNat
  · exact lineControlCommand_badValue hLine a
  · have hn : n.toNat = (⟨n.toNat, by omega⟩ : LineNo).val := rfl
    rw [lineControlCommand_of_line hn a, if_pos (h.resolve_left hLine)]

theorem lineControlCommand_reset {n : Byte} {s : State} {l : LineNo} (h : n.toNat = l.val) :
    lineControlCommand [n, 0] s =
      if (s.line l).record.mode = .off then s.refuse .lineMode else (s.resetLine l).done [] :=
  lineControlCommand_of_line h 0

/-- Settles O50. -/
theorem lineResetResult : Obligations.LineResetResult := by
  unfold Obligations.LineResetResult
  intro fresh idleAsm rest cleared
  refine ⟨fun s l state => clearSending_eq s l state, fun s l => ?_, fun s l side => ?_, fun s l => ?_, fun s p rate n a hp => ?_,
    fun s p rate n l hp hn => ?_⟩
  · intro x started removed told
    have hStarted : (s.modLine l fun y => { y with filter := some y.freshFilter, rx := y.startedReceiver s.tick }) = started :=
      modLine_congr rfl
    refine ⟨?_, rfl, fun h decided => resetAssembler_of_story, resetAssembler_of_no_story⟩
    rw [State.resetReceiver, hStarted]
    rfl
  · intro channel voided loop reset
    have hVoided : s.voidConversion l (fun x => decide (x = side)) = voided := by
      rw [voidConversion_eq]
      cases side <;> rfl
    have hLoop : ((voided.line l).channel side).loop = loop := by
      rw [← hVoided, line_of_lines (voidConversion_lines ..)]
      cases side <;> rfl
    have hReset : (voided.modLine l fun x => x.setChannel side unmeasuredChannel) = reset := by cases side <;> rfl
    rw [State.resetChannel, hVoided, State.unmeasure, hLoop, hReset]
  · intro r searched
    have hWake (t : State) : t.wakeConverter = searched t := wakeConverter_eq t
    have hRest : (s.line l).record.restState = rest r := rfl
    exact ⟨fun h => by rw [resetLine_outbound h, hWake, hRest], fun h => by rw [resetLine_inbound h, hWake],
      fun h => by rw [resetLine_both h, hWake, hRest]⟩
  · exact ⟨fun hn => exec_of_ready rfl hp (lineControlCommand_badValue hn 0), lineControlCommand_badAction s⟩
  · intro x f g
    have hReply := lineControlCommand_reset (s := s) hn
    refine ⟨fun hOff => exec_of_ready rfl hp (hReply.trans (if_pos hOff)), fun hOn => exec_of_ready rfl hp (hReply.trans (if_neg hOn)),
      fun hBoth hAsm => ?_⟩
    rw [resetLine_both hBoth]
    have hCleared := OnlyLine.clearSending s l (s.line l).record.restState
    have hReceiver := hCleared.trans (OnlyLine.resetReceiver _ l)
    have hAssembler := hReceiver.trans (OnlyLine.resetAssembler _ l (by rw [hReceiver.here, hCleared.here]; exact hAsm))
    have hRx := hAssembler.trans (OnlyLine.resetChannel _ l .receive)
    have hTx := hRx.trans (OnlyLine.resetChannel _ l .send)
    have hAll := hTx.trans (OnlyLine.wakeConverter _ l)
    refine ⟨?_, hAll.tables, hAll.room, hAll.others⟩
    rw [hAll.here, hTx.here, hRx.here, hAssembler.here, hReceiver.here, hCleared.here, hCleared.tick]
    rfl

end Sys2Proof.Machine
end

section
/-! SUPPORT. CONFIGURE_LINE: what a record's bytes say, and the taking of a record step by step (R18, R20, R25, R27 to R29, R34). -/

namespace Sys2Proof.Machine

/-! ## When a record cannot be read (R19, R20) -/

theorem Mode.ofNumber_eq_none_iff (n : Nat) : Mode.ofNumber n = none ↔ 3 < n := by
  rw [Mode.ofNumber_eq, List.getElem?_eq_none_iff]
  exact Nat.succ_le_iff

theorem Keying.ofNumber_eq_none_iff (n : Nat) : Keying.ofNumber n = none ↔ 1 < n := by
  rw [Keying.ofNumber_eq, List.getElem?_eq_none_iff]
  exact Nat.succ_le_iff

theorem FilterTime.ofNumber_eq_none_iff (n : Nat) : FilterTime.ofNumber n = Option.none ↔ 3 < n := by
  rw [FilterTime.ofNumber_eq, List.getElem?_eq_none_iff]
  exact Nat.succ_le_iff

theorem Framing.ofNumber_eq_none_iff (n : Nat) : Framing.ofNumber n = none ↔ 1 < n := by
  rw [Framing.ofNumber_eq, List.getElem?_eq_none_iff]
  exact Nat.succ_le_iff

theorem UnrepPolicy.ofNumber_eq_none_iff (n : Nat) : UnrepPolicy.ofNumber n = none ↔ 1 < n := by
  rw [UnrepPolicy.ofNumber_eq, List.getElem?_eq_none_iff]
  exact Nat.succ_le_iff

theorem PreemptThreshold.ofNumber_eq_none_iff (n : Nat) : PreemptThreshold.ofNumber n = none ↔ 2 < n := by
  rw [PreemptThreshold.ofNumber_eq, List.getElem?_eq_none_iff]
  exact Nat.succ_le_iff

theorem BreakPolicy.ofNumber_eq_none_iff (n : Nat) : BreakPolicy.ofNumber n = none ↔ 1 < n := by
  rw [BreakPolicy.ofNumber_eq, List.getElem?_eq_none_iff]
  exact Nat.succ_le_iff

/-- A reading fails with its first field, or with the rest of it. -/
theorem bind_eq_none_iff_or {α β : Type} {o : Option α} {f : α → Option β} {P : Prop} (h : ∀ a, f a = none ↔ P) :
    (o >>= f) = none ↔ o = none ∨ P := by
  cases o with
  | none => exact ⟨fun _ => .inl rfl, fun _ => rfl⟩
  | some a => exact (h a).trans ⟨.inr, fun hOr => hOr.resolve_left nofun⟩

theorem bind_some_eq_none_iff {α β : Type} {o : Option α} {g : α → β} : (o >>= fun a => some (g a)) = none ↔ o = none := by
  cases o with
  | none => exact ⟨fun _ => rfl, fun _ => rfl⟩
  | some a => exact ⟨nofun, nofun⟩

/-- A record cannot be read exactly when one of its enumerated fields or sequence counts is undefined. -/
theorem readRecord_eq_none_iff (xs : List Byte) :
    readRecord xs = none ↔
      3 < byteAt xs 0 ∨ 1 < byteAt xs 1 ∨ 3 < byteAt xs 6 ∨ 1 < byteAt xs 11 ∨ 1 < byteAt xs 12 ∨
        (byteAt xs 13 = 0 ∨ 6 < byteAt xs 13) ∨ (byteAt xs 20 = 0 ∨ 6 < byteAt xs 20) ∨ 4 < byteAt xs 29 ∨ 1 < byteAt xs 38 ∨
        1 < byteAt xs 42 ∨ 1 < byteAt xs 47 ∨ 2 < byteAt xs 52 ∨ 1 < byteAt xs 53 ∨ 1 < byteAt xs 58 ∨ 1 < byteAt xs 60 := by
  rw [← Mode.ofNumber_eq_none_iff, ← Keying.ofNumber_eq_none_iff, ← FilterTime.ofNumber_eq_none_iff, ← boolOf_eq_none_iff,
    ← Framing.ofNumber_eq_none_iff, ← sequenceAt_none, ← sequenceAt_none, ← Priority.ofNumber_eq_none_iff, ← boolOf_eq_none_iff,
    ← boolOf_eq_none_iff, ← UnrepPolicy.ofNumber_eq_none_iff, ← PreemptThreshold.ofNumber_eq_none_iff, ← boolOf_eq_none_iff,
    ← BreakPolicy.ofNumber_eq_none_iff, ← boolOf_eq_none_iff]
  unfold readRecord
  exact bind_eq_none_iff_or fun _ => bind_eq_none_iff_or fun _ => bind_eq_none_iff_or fun _ => bind_eq_none_iff_or fun _ =>
    bind_eq_none_iff_or fun _ => bind_eq_none_iff_or fun _ => bind_eq_none_iff_or fun _ => bind_eq_none_iff_or fun _ =>
    bind_eq_none_iff_or fun _ => bind_eq_none_iff_or fun _ => bind_eq_none_iff_or fun _ => bind_eq_none_iff_or fun _ =>
    bind_eq_none_iff_or fun _ => bind_eq_none_iff_or fun _ => bind_some_eq_none_iff

theorem take_five {xs : List Byte} {i : Nat} (h : i + 4 < xs.length) :
    (xs.drop i).take 5 =
      [xs.getD i 0, xs.getD (i + 1) 0, xs.getD (i + 2) 0, xs.getD (i + 3) 0, xs.getD (i + 4) 0] := by
  rw [List.drop_eq_getElem_cons (show i < xs.length by omega), List.drop_eq_getElem_cons (show i + 1 < xs.length by omega),
    List.drop_eq_getElem_cons (show i + 1 + 1 < xs.length by omega),
    List.drop_eq_getElem_cons (show i + 1 + 1 + 1 < xs.length by omega), List.drop_eq_getElem_cons h]
  simp only [List.take_succ_cons, List.take_zero]
  rw [List.getD_eq_getElem xs 0 (show i < xs.length by omega), List.getD_eq_getElem xs 0 (show i + 1 < xs.length by omega),
    List.getD_eq_getElem xs 0 (show i + 2 < xs.length by omega), List.getD_eq_getElem xs 0 (show i + 3 < xs.length by omega),
    List.getD_eq_getElem xs 0 h]

/-! ## CONFIGURE_LINE (R20) -/

section
variable {s : State} {n : Byte} {bytes : List Byte} (hLength : bytes.length = 61)
include hLength

theorem configureLineCommand_badValue (h : 15 < n.toNat ∨ readRecord bytes = none) :
    configureLineCommand (n :: bytes) s = s.refuse .badValue := by
  rw [configureLineCommand, if_neg (by simp [hLength])]
  cases hLine : lineOf (byteAt (n :: bytes) 0) with
  | none => rfl
  | some l =>
    have hn : ¬15 < n.toNat := fun hHigh => by
      rw [show byteAt (n :: bytes) 0 = n.toNat from rfl, lineOf_eq_none hHigh] at hLine
      cases hLine
    simp only [List.drop_succ_cons, List.drop_zero, h.resolve_left hn]

theorem configureLineCommand_taken {l : LineNo} {r : LineRecord} (hLine : n.toNat = l.val) (hRead : readRecord bytes = some r) :
    configureLineCommand (n :: bytes) s = (s.takeRecord l r.clamped).done (n :: r.clamped.bytes) := by
  have hSome : lineOf (byteAt (n :: bytes) 0) = some l := (lineOf_eq_some_iff _ _).mpr hLine
  rw [configureLineCommand, if_neg (by simp [hLength]), hSome]
  simp only [List.drop_succ_cons, List.drop_zero, hRead, byte1_of_toNat hLine]

end

/-! ## The steps of the taking of a record (R25, R27 to R29, R34; order: log 12) -/

theorem hasSend_eq (m : Mode) : m.hasSend = decide (m = .outbound ∨ m = .both) := by cases m <;> rfl

theorem hasReceive_eq (m : Mode) : m.hasReceive = decide (m = .inbound ∨ m = .both) := by cases m <;> rfl

theorem framingDiffers_iff (r q : LineRecord) :
    r.framingDiffers q = true ↔ r.framing ≠ q.framing ∨ r.opening ≠ q.opening ∨ r.closing ≠ q.closing := by
  simp only [LineRecord.framingDiffers, Bool.or_eq_true, decide_eq_true_eq, or_assoc]

/-- The taking of a record, each step named by what it makes of the step before it. -/
theorem takeRecord_of_steps {s a b c d e f g h k : State} {l : LineNo} {r : LineRecord}
    (hA : (s.setLineRecord l { r with mode := (s.line l).record.mode.meet r.mode }) = a)
    (hB : (if (s.line l).record.mode.hasSend && !r.mode.hasSend then a.removeSend l else a) = b)
    (hC : (if (s.line l).record.mode.hasReceive && !r.mode.hasReceive then b.removeReceive l else b) = c)
    (hD : c.setLineRecord l r = d)
    (hE : (if !(s.line l).record.mode.hasReceive && r.mode.hasReceive then d.addReceive l else d) = e)
    (hF : (if !(s.line l).record.mode.hasSend && r.mode.hasSend then e.addSend l else e) = f)
    (hG : (if (s.line l).record.mode.hasSend && r.mode.hasSend then
        f.changeMotorControl l (s.line l).record.motorControl r.motorControl else f) = g)
    (hH : (if (s.line l).record.mode.hasReceive && r.mode.hasReceive && (s.line l).record.framingDiffers r then g.commitHeld l
        else g) = h)
    (hK : (if (s.line l).record.mode.hasReceive && r.mode.hasReceive then h.feedFilter l (s.line l).rawLevel else h) = k) :
    s.takeRecord l r = k.wakeConverter := by
  subst hA hB hC hD hE hF hG hH hK
  rfl

section
variable {t : State} {l : LineNo}

theorem commitHeld_eq (t : State) (l : LineNo) :
    t.commitHeld l =
      if ((t.setHeld l []).commitAll l (t.line l).asm.held).1 = .stored then
        ((t.setHeld l []).commitAll l (t.line l).asm.held).2
      else
        (((t.setHeld l []).commitAll l (t.line l).asm.held).2).cutShort l
          ((t.setHeld l []).commitAll l (t.line l).asm.held).1 := by
  unfold State.commitHeld
  dsimp only
  rcases (t.setHeld l []).commitAll l (t.line l).asm.held with ⟨_ | _ | _, u⟩ <;> rfl

theorem addReceive_eq {r : LineRecord} (hRecord : (t.line l).record = r) :
    t.addReceive l = t.modLine l fun x =>
      { x with
        rxLoop := { loop := .unmeasured, candidate := none, run := 0 }
        filter := some { level := x.rawLevel, pending := none }
        rx :=
          { state := .idleMark
            level := some { level := x.rawLevel, since := t.tick }
            space := if x.rawLevel = .space then some { begun := t.tick, openTime := r.effectiveOpen } else none
            distortion := 0
            quality := 0
            qualityState := .good }
        asm := { decoderCase := .letters, state := .between, held := [], idleGap := none } } := by
  refine modLine_congr ?_
  rw [← hRecord]
  rfl

theorem addSend_eq {r : LineRecord} (hRecord : (t.line l).record = r) :
    t.addSend l = t.modLine l fun x =>
      { x with
        txLoop := { loop := .unmeasured, candidate := none, run := 0 }
        dist := { queue := [], stack := [], current := none }
        enc :=
          { encCase := .unknown, column := 0, refresh := 0, group := [], groupEnd := .nothing, progress := none, owed := false,
            copy := none }
        send :=
          { state := if r.motorControl then .stopped else .idle, motor := false, deskHold := false, breakIn := false,
            holdWaiting := false, startDelay := none, stopDelay := none, guard := none, frame := none, key := .mark } } := by
  refine modLine_congr ?_
  rw [← hRecord]
  rfl

theorem motorTurnedOn_of_idle {r : LineRecord} (hRecord : (t.line l).record = r) (hMotor : r.motorControl = true)
    (h : (t.line l).send.state = .idle) :
    t.motorTurnedOn l = (t.modSend l fun y => { y with motor := true }).modSend l fun y =>
      { y with stopDelay := some { loadedAt := t.tick, ms := r.stopDelay * 1000 } } := by
  simp only [State.motorTurnedOn, h, loadStopDelay_eq, line_modSend_same, hRecord, hMotor, if_true]
  rfl

theorem motorTurnedOn_of_running (h : (t.line l).send.state = .sending ∨ (t.line l).send.state = .halted) :
    t.motorTurnedOn l = t.modSend l fun y => { y with motor := true } := by
  rcases h with h | h <;> simp only [State.motorTurnedOn, h]

theorem motorTurnedOn_of_other
    (h : (t.line l).send.state = .off ∨ (t.line l).send.state = .stopped ∨ (t.line l).send.state = .starting) :
    t.motorTurnedOn l = t := by
  rcases h with h | h | h <;> simp only [State.motorTurnedOn, h]

theorem motorTurnedOff_of_off (h : (t.line l).send.state = .off) : t.motorTurnedOff l = t := by
  simp only [State.motorTurnedOff, h]

theorem motorTurnedOff_of_stopped (h : (t.line l).send.state = .stopped) :
    t.motorTurnedOff l = (t.modSend l fun y => { y with motor := false, startDelay := none, stopDelay := none }).modSend l
      fun y => { y with state := .idle } := by
  simp only [State.motorTurnedOff, h]

theorem motorTurnedOff_of_starting (h : (t.line l).send.state = .starting) :
    t.motorTurnedOff l =
      if t.hasWork l then
        (t.modSend l fun y => { y with motor := false, startDelay := none, stopDelay := none }).enterSending l
      else
        (t.modSend l fun y => { y with motor := false, startDelay := none, stopDelay := none }).modSend l
          fun y => { y with state := .idle } := by
  simp only [State.motorTurnedOff, h]

theorem motorTurnedOff_of_running
    (h : (t.line l).send.state = .idle ∨ (t.line l).send.state = .sending ∨ (t.line l).send.state = .halted) :
    t.motorTurnedOff l = t.modSend l fun y => { y with motor := false, startDelay := none, stopDelay := none } := by
  rcases h with h | h | h <;> simp only [State.motorTurnedOff, h]

end

theorem tick_when {s t : State} (h : Kept s t) (c : Prop) [Decidable c] : (if c then t else s).tick = s.tick := by
  split
  · exact h.tick
  · rfl

/-- Settles O47, step by step. -/
theorem configureLineResult : Obligations.ConfigureLineResult := by
  refine ⟨fun bytes hLength => ?_, fun s p f hp hLength => exec_of_ready rfl hp (configureLineCommand_badLength hLength),
    fun s p rate n bytes hp hLength => ⟨fun h => exec_of_ready rfl hp (configureLineCommand_badValue hLength h),
      fun l offered hLine hRead => exec_of_ready rfl hp (configureLineCommand_taken hLength hLine hRead)⟩, fun s l r => ?_⟩
  · intro n
    refine ⟨readRecord_eq_none_iff bytes, fun r hRead => ?_⟩
    have h := (readRecord_eq_some_iff bytes r).mp hRead
    have hGet (i : Nat) (hi : i < 61) : bytes[i]? = some (bytes.getD i 0) := by
      rw [List.getD_eq_getElem _ _ (by omega), List.getElem?_eq_getElem (by omega)]
    have hLetters : r.priorityLetters.toList = (bytes.drop 30).take 5 := by
      rw [h.priorityLetters, take_five (by omega)]
      rfl
    refine ⟨⟨(Mode.ofNumber_eq _).symm.trans h.mode, (Keying.ofNumber_eq _).symm.trans h.keying,
        (FilterTime.ofNumber_eq _).symm.trans h.inputFilter, (Framing.ofNumber_eq _).symm.trans h.framing,
        (Priority.ofNumber_eq _).symm.trans h.defaultPriority, (UnrepPolicy.ofNumber_eq _).symm.trans h.unrepPolicy,
        (PreemptThreshold.ofNumber_eq _).symm.trans h.preempt, (BreakPolicy.ofNumber_eq _).symm.trans h.breakPolicy⟩,
      ⟨(boolOf_eq _).symm.trans h.rxUnshift, (boolOf_eq _).symm.trans h.markDoubtful, (boolOf_eq _).symm.trans h.txUnshift,
        (boolOf_eq _).symm.trans h.motorControl, (boolOf_eq _).symm.trans h.alarmOnOpen⟩,
      ⟨sequenceAt_some h.opening, sequenceAt_some h.closing, by rw [h.slot]; exact clampSlot_val _⟩,
      ⟨h.unit.trans (numAt_three (by omega)), h.stopLength, h.markThreshold, h.openThreshold, h.lowThreshold,
        h.idleGap.trans (numAt_two (by omega)), h.distortionLimit, h.poorThreshold, h.goodThreshold,
        h.openTime.trans (numAt_two (by omega)), h.width, h.crCount, h.ltrsFill, h.refreshInterval, h.flashBells,
        h.bulletinBells, h.separation, h.startDelay.trans (numAt_two (by omega)), h.stopDelay.trans (numAt_two (by omega)),
        h.breakGuard⟩,
      hLetters, ?_, ?_⟩
    · rw [h.doubtfulSubstitute]
      exact hGet 39 (by omega)
    · rw [h.unrepSubstitute]
      exact hGet 48 (by omega)
  · intro old raw receives sends withReceive withSend sent committed fed shared a b c d e f g h k
    have hSend (m : Mode) : m.hasSend = sends m := hasSend_eq m
    have hReceive (m : Mode) : m.hasReceive = receives m := hasReceive_eq m
    have hShared : old.mode.meet r.mode = shared := by
      simp only [shared, ← hSend, ← hReceive]
      cases old.mode <;> cases r.mode <;> rfl
    have hSent (t : State) (hRecord : (t.line l).record = r) (hDiffer : old.motorControl ≠ r.motorControl) :
        t.changeMotorControl l old.motorControl r.motorControl = sent t := by
      rw [State.changeMotorControl, if_neg hDiffer]
      by_cases hMotor : r.motorControl = true
      · simp only [sent, if_pos hMotor]
        cases hState : (t.line l).send.state with
        | off => exact motorTurnedOn_of_other (.inl hState)
        | stopped => exact motorTurnedOn_of_other (.inr (.inl hState))
        | starting => exact motorTurnedOn_of_other (.inr (.inr hState))
        | idle => exact motorTurnedOn_of_idle hRecord hMotor hState
        | sending => exact motorTurnedOn_of_running (.inl hState)
        | halted => exact motorTurnedOn_of_running (.inr hState)
      · simp only [sent, if_neg hMotor]
        cases hState : (t.line l).send.state with
        | off => exact motorTurnedOff_of_off hState
        | stopped => exact motorTurnedOff_of_stopped hState
        | starting => exact motorTurnedOff_of_starting hState
        | idle => exact motorTurnedOff_of_running (.inl hState)
        | sending => exact motorTurnedOff_of_running (.inr (.inl hState))
        | halted => exact motorTurnedOff_of_running (.inr (.inr hState))
    have hCommitted (t : State) : t.commitHeld l = committed t := commitHeld_eq t l
    have hFed (t : State) (hRecord : (t.line l).record = r) : t.feedFilter l raw = fed t := by
      cases hFilter : (t.line l).filter with
      | none =>
        simp only [fed, hFilter]
        by_cases hSame : (t.line l).rawLevel = raw
        · exact feedFilter_of_same hSame
        · exact (feedFilter_of_changed hSame).trans (rawChanged_of_no_filter hFilter)
      | some v =>
        simp only [fed, hFilter]
        by_cases hSame : (t.line l).rawLevel = raw
        · rw [feedFilter_of_same hSame, if_pos (.inl hSame)]
        rw [feedFilter_of_changed hSame]
        by_cases hStay : (t.line l).rawLevel = v.level ↔ v.pending = none
        · rw [rawChanged_of_same hFilter hStay.symm, if_pos (.inr hStay)]
        rw [if_neg (not_or.mpr ⟨hSame, hStay⟩)]
        by_cases hLevel : (t.line l).rawLevel = v.level
        · rw [rawChanged_discards hFilter (fun hNone => hStay (iff_of_true hLevel hNone)) hLevel, if_pos hLevel]
        have hNone : v.pending = none := by_contra fun hSome => hStay (iff_of_false hLevel hSome)
        rw [if_neg hLevel]
        by_cases hWait : r.inputFilter = .none
        · rw [rawChanged_completes hFilter hNone hLevel (hRecord ▸ hWait), if_pos hWait]
        · rw [rawChanged_begins hFilter hNone hLevel (hRecord ▸ hWait), if_neg hWait, hRecord]
    have hA : (s.setLineRecord l { r with mode := old.mode.meet r.mode }) = a := by rw [hShared]; rfl
    have hB : (if old.mode.hasSend && !r.mode.hasSend then a.removeSend l else a) = b := if_congr (by simp [hSend]) rfl rfl
    have hC : (if old.mode.hasReceive && !r.mode.hasReceive then b.removeReceive l else b) = c :=
      if_congr (by simp [hReceive]) rfl rfl
    have hD : c.setLineRecord l r = d := rfl
    have hRecordD : (d.line l).record = r := by rw [← hD, State.setLineRecord, line_modLine_same]
    have hTickD : d.tick = s.tick := by
      have hTick : c.tick = a.tick := by rw [← hC, tick_when (Kept.removeReceive ..), ← hB, tick_when (Kept.removeSend ..)]
      exact hTick
    have hE : (if !old.mode.hasReceive && r.mode.hasReceive then d.addReceive l else d) = e :=
      if_congr (by simp [hReceive]) ((addReceive_eq hRecordD).trans (by rw [hTickD])) rfl
    have hRecordE : (e.line l).record = r := by rw [← hE, record_when (Kept.addReceive ..), hRecordD]
    have hF : (if !old.mode.hasSend && r.mode.hasSend then e.addSend l else e) = f :=
      if_congr (by simp [hSend]) (addSend_eq hRecordE) rfl
    have hRecordF : (f.line l).record = r := by rw [← hF, record_when (Kept.addSend ..), hRecordE]
    have hG : (if old.mode.hasSend && r.mode.hasSend then f.changeMotorControl l old.motorControl r.motorControl else f) = g := by
      by_cases hBoth : sends old.mode = true ∧ sends r.mode = true
      · rw [if_pos (by simpa [hSend] using hBoth)]
        by_cases hDiffer : old.motorControl = r.motorControl
        · rw [State.changeMotorControl, if_pos hDiffer]
          exact (if_neg fun h => h.2.2 hDiffer).symm
        · rw [hSent f hRecordF hDiffer]
          exact (if_pos ⟨hBoth.1, hBoth.2, hDiffer⟩).symm
      · rw [if_neg (by simpa [hSend] using hBoth)]
        exact (if_neg fun h => hBoth ⟨h.1, h.2.1⟩).symm
    have hRecordG : (g.line l).record = r := by rw [← hG, record_when (Kept.changeMotorControl ..), hRecordF]
    have hH : (if old.mode.hasReceive && r.mode.hasReceive && old.framingDiffers r then g.commitHeld l else g) = h :=
      if_congr (by simp [hReceive, framingDiffers_iff, and_assoc]) (hCommitted g) rfl
    have hRecordH : (h.line l).record = r := by rw [← hH, record_when (Works.commitHeld ..).kept, hRecordG]
    have hK : (if old.mode.hasReceive && r.mode.hasReceive then h.feedFilter l raw else h) = k :=
      if_congr (by simp [hReceive]) (hFed h hRecordH) rfl
    have hTaken : s.takeRecord l r = k.wakeConverter := takeRecord_of_steps hA hB hC hD hE hF hG hH hK
    refine ⟨hTaken.trans (wakeConverter_eq k), fun hOff => ?_, rfl⟩
    have hNoSend : ¬sends old.mode = true := by rw [← hSend, hOff]; exact Bool.false_ne_true
    have hNoReceive : ¬receives old.mode = true := by rw [← hReceive, hOff]; exact Bool.false_ne_true
    have hKF : k = f :=
      (if_neg fun h => hNoReceive h.1).trans ((if_neg fun h => hNoReceive h.1).trans (if_neg fun h => hNoSend h.1))
    have hCA : c = a := (if_neg fun h => hNoReceive h.1).trans (if_neg fun h => hNoSend h.1)
    have hDS : d = s.modLine l fun x => { x with record := r } := by
      rw [← hD, hCA]
      exact modLine_modLine ..
    have hES : e = s.modLine l fun x => if receives r.mode then withReceive { x with record := r } else { x with record := r } := by
      by_cases hIn : receives r.mode = true
      · refine (if_pos ⟨hNoReceive, hIn⟩).trans ?_
        simp only [hDS, modLine_modLine, if_pos hIn]
      · refine (if_neg fun h => hIn h.2).trans ?_
        simp only [hDS, if_neg hIn]
    rw [hTaken, hKF]
    refine congrArg State.wakeConverter ?_
    by_cases hOut : sends r.mode = true
    · refine (if_pos ⟨hNoSend, hOut⟩).trans ?_
      simp only [hES, modLine_modLine, if_pos hOut]
    · refine (if_neg fun h => hOut h.2).trans ?_
      simp only [hES, if_neg hOut]

end Sys2Proof.Machine
end
